-- ==== Sys2Proof/Word.lean ====
section
/-! DEFINITION. The machine's words (00_scope.md R8): 32-bit cycle counts and edge words, 8-bit bytes and pin ids,
and pin levels. -/

namespace Sys2Proof

/-- `u32` of R8: cycle counts, edge words, command and response words. -/
abbrev Word := BitVec 32

/-- `u8` of R8. -/
abbrev Byte := BitVec 8

/-- A pin id (R22): 0..254, and 0xFF for NONE. -/
abbrev Pin := BitVec 8

/-- A pin level or a logical level (R11): `true` is 1 (high), `false` is 0 (low). -/
abbrev Level := Bool

/-- NONE of R22. -/
abbrev noPin : Pin := 0xFF#8

end Sys2Proof
end

