-- ==== Sys2Proof/Config.lean ====
section
/-! DEFINITION. What an implementation fixes and what the spec leaves free: the parameters of 00_scope.md R6, the line
configuration of 10_state.md R22, the moves of the environment and the host (R10), and the opaque free values. -/

namespace Sys2Proof

/-- The implementation parameters of R6, each OPEN there: an argument of the model. `REG_SLOTS` is the length of the
registry, and the capacities are in `Cfg`. The total functions `PIN_VALID_RX` and `PIN_VALID_TX` are given by the pins
on which they answer true. -/
structure Params where
  /-- `F_CPU`, positive and below 2^32. -/
  fCpu : Nat
  /-- `WAIT_SPLIT`, in 0..2^31-1. -/
  waitSplit : Nat
  /-- `YIELD_MIN`. -/
  yieldMin : Nat
  /-- The pins valid for receive use. -/
  validRx : List Pin
  /-- The pins valid for transmit use. -/
  validTx : List Pin
  deriving DecidableEq, Repr

/-- The line configuration `CFG` (R22). -/
structure Cfg where
  rxPin : Pin
  txPin : Pin
  invert : Bool
  /-- `N_B`, slots of the byte ring. -/
  nb : Nat
  /-- `N_E`, slots of the edge ring. -/
  ne : Nat
  deriving DecidableEq, Repr

/-- The construction arguments of a line (R22): `ne` may be absent. -/
structure CfgArgs where
  rxPin : Pin
  txPin : Pin
  invert : Bool
  nb : Nat
  ne : Option Nat
  deriving DecidableEq, Repr

/-- A move of the environment `ENV`, or its delivery of an interrupt to an `ISR` (R10). -/
inductive EnvMove where
  /-- `CCOUNT` runs on by `n` cycles (R226). -/
  | advance (n : Nat)
  /-- The world puts level `v` on pin `p` (R234). -/
  | level (p : Pin) (v : Level)
  /-- The platform delivers the interrupt bound to registry slot `slot` (R225), if it may be taken (R102). -/
  | interrupt (slot : Nat)
  deriving DecidableEq, Repr

/-- What the host program does on the core between two commands (R233, R250). -/
inductive HostRequest where
  /-- The foreground of line `id` gets the core. -/
  | select (id : Nat)
  /-- The host's own code sets or clears `IE`. -/
  | setIe (b : Bool)
  /-- A line is constructed. -/
  | construct (a : CfgArgs)
  deriving DecidableEq, Repr

/-- One entry of a turn: a move of the environment, or an input of the host. -/
inductive Move where
  | env (m : EnvMove)
  /-- The host supplies words to the command stream of line `id` (R84). -/
  | supply (id : Nat) (ws : List Word)
  /-- The host asks for something to be done between two commands. -/
  | request (r : HostRequest)
  deriving DecidableEq, Repr

namespace Config

/-- FREE VALUE (assumption 2): what the environment does in its `n`-th turn that no script gives. Nothing is known of
it: any finite sequence of moves. -/
opaque freeMoves : Nat → List EnvMove

/-- FREE VALUE (assumption 12): the quotient of a division by `BITCYC = 0`, which no rule runs (R27). -/
opaque freeQuotient : Nat → Nat

end Config

end Sys2Proof
end

