-- ==== Sys2Proof/Syntax.lean ====
section
/-! DEFINITION. The instructions: the 13 commands of 30_encoding.md R83 and the 5 internal actions of R88, one
constructor per row of spec/opcode_table.json. Operands have the width of their field (R90). -/

namespace Sys2Proof

inductive Instr where
  /-- BEGIN (R180), `b` the baud rate. -/
  | beginLine (b : BitVec 24)
  /-- END (R182). -/
  | endLine
  /-- SET_TXEN (R184). -/
  | setTxen (v : Bool) (p : Pin)
  /-- ENABLE_INT_TX (R185). -/
  | enableIntTx (e : Bool)
  /-- ENABLE_TX (R186). -/
  | enableTx (e : Bool)
  /-- READ (R188). -/
  | read
  /-- PEEK (R189). -/
  | peek
  /-- AVAILABLE (R190). -/
  | available
  /-- WRITE (R150): the payload bytes of R87; the count `n` is their number. -/
  | write (payload : List Byte)
  /-- FLUSH (R191). -/
  | flush
  /-- OVERFLOW (R192). -/
  | overflow
  /-- POLL (R193). -/
  | poll
  /-- SET_NOTIFY (R194). -/
  | setNotify (e : Bool)
  /-- EDGE_CAPTURE, action 0x80 (R100). -/
  | edgeCapture
  /-- DECODE_PASS, action 0x81 (R120). -/
  | decodePass
  /-- PROCESS_EDGE, action 0x82 (R124), with its edge word. -/
  | processEdge (w : Word)
  /-- TX_SEGMENT, action 0x83 (R155), with its level and duration. -/
  | txSegment (v : Level) (dur : Word)
  /-- DELAY_UNTIL, action 0x84 (R158), with its deadline. -/
  | delayUntil (d : Word)
  deriving DecidableEq, Repr

namespace Instr

/-- A command of the command port, as against an internal action (R88). -/
def isCommand : Instr → Bool
  | .beginLine _ | .endLine | .setTxen _ _ | .enableIntTx _ | .enableTx _ | .read | .peek | .available
  | .write _ | .flush | .overflow | .poll | .setNotify _ => true
  | .edgeCapture | .decodePass | .processEdge _ | .txSegment _ _ | .delayUntil _ => false

end Instr

end Sys2Proof
end

