-- ==== Sys2Proof/Machine/State.lean ====
section
/-! DEFINITION. The state of the machine as plain data: everything 10_state.md gives a line and the platform, and the
model's own fields that say which agent moves next; the reasons to stop; the state right after reset (R250). -/

namespace Sys2Proof.Machine

/-- Sparse storage indexed by a natural number (20_memory.md R60): pairs of index and element, in the canonical form
`Memory.wf` of Machine/Ops.lean. `Memory Byte` is a list of `Host.Cell`. -/
abbrev Memory (α : Type) := List (Nat × α)

/-- `LIFE`, the lifecycle field of `CTRL` (R24). The encoding 3 is never held. -/
inductive Life where
  | uninit | started | stopped
  deriving DecidableEq, Repr

/-- `CTRL`, the line control register (R24), by its fields; `Ctrl.word` of Machine/Flags.lean is its 32-bit reading,
whose reserved bits [31:7] are 0. -/
structure Ctrl where
  life : Life
  intTx : Bool
  txDir : Bool
  rxArmed : Bool
  txenV : Bool
  notify : Bool
  deriving DecidableEq, Repr

/-- `RX_POS`, the decoder's position within a frame (R33). The encodings 10..15 are never held. -/
inductive RxPos where
  | data (p : Fin 8)
  | start
  | idle
  deriving DecidableEq, Repr

/-- The conditions of 60_exceptions.md R220 with their recorded values. -/
inductive Condition where
  | resourceExhausted
  | bufferOverflowEdge (w : Word)
  | bufferOverflowByte (b : Byte)
  | timingAnomaly (w : Word)
  | illegalCommand (x : Word)
  | directionViolation (x : Word)
  | configRefused (a : CfgArgs)
  deriving DecidableEq, Repr

/-- One entry of the event trace a model records: an internal action and its data (R88; what data an
EDGE_CAPTURE carries is assumption 15), a condition (R220), a pin
write `PIN_WRITE(p, v, t)` (R9) with `t` in unwrapped cycles (R160, assumption 27), the output event `NOTIFY(c)` (R193). -/
inductive Event where
  | edgeCapture (w : Word)
  | decodePass
  | processEdge (w : Word)
  | txSegment (v : Level) (dur : Word)
  | delayUntil (d : Word)
  | condition (c : Condition)
  | pinWrite (p : Pin) (v : Level) (t : Nat)
  | notify (c : Nat)
  deriving DecidableEq, Repr

/-- The state of one line (10_state.md), with the model's own fields (`capCycle`, `trace`). -/
structure Line where
  /-- The name of the line in the registry (R231). -/
  id : Nat
  cfg : Cfg
  rxValid : Bool
  txValid : Bool
  halfDup : Bool
  /-- `CPOS` (R21). -/
  cpos : Nat
  /-- The command stream from `CPOS` onward, as far as the host has supplied it (R84). -/
  cmd : List Word
  /-- The response stream, oldest first (R86). -/
  resp : List Word
  ctrl : Ctrl
  /-- `TXEN_PIN` (R25). -/
  txenPin : Pin
  /-- `SLOT` (R26). -/
  slot : BitVec 8
  /-- `BITCYC` (R27). -/
  bitcyc : Word
  /-- `slot_E` (R28). -/
  slotE : Memory Word
  eHead : Nat
  eTail : Nat
  eOvf : Bool
  rxPos : RxPos
  rxByte : Byte
  /-- `RX_LAST`, the edge word of the last processed edge (R35). -/
  rxLast : Word
  /-- `slot_B` (R36). -/
  slotB : Memory Byte
  bHead : Nat
  bTail : Nat
  lineOvf : Bool
  /-- `TX_DL`, `TX_HI`, `TX_LO`, `TX_PREV`, `TX_SAVED_IE` (R39). -/
  txDl : Word
  txHi : Word
  txLo : Word
  txPrev : Level
  txSavedIe : Bool
  /-- `PEND_RX` (R40, R224). -/
  pendRx : Bool
  /-- The cycle at which the line's last taken interrupt read the counter, if one was taken (R104, assumption 13). -/
  capCycle : Option Nat
  /-- The event trace, oldest first (R88, R220), an action before what happens inside it (assumption 15). -/
  trace : List Event
  deriving DecidableEq, Repr

/-- A pin's mode (R9). An output is an output of the line named `line`, the one whose `PinMode` made it one (R234,
assumption 24). -/
inductive PinDir where
  | input
  | output (line : Nat)
  deriving DecidableEq, Repr

/-- One pin: its mode, the last value written to it, and the level the environment puts on it (R9, R234). -/
structure PinState where
  dir : PinDir
  out : Level
  ext : Level
  deriving DecidableEq, Repr

/-- The machine: the platform state of R40, the line whose foreground has the core, the other lines, and the model's
own fields (`env`, `draws`, `host`, `action`). -/
structure State where
  par : Params
  /-- The cycle counter in unwrapped time (R226, assumption 27); `CCOUNT` is its low 32 bits (`State.ccount`). -/
  cycle : Nat
  ie : Bool
  pins : Memory PinState
  /-- `REG[0 .. REG_SLOTS-1]` (R231): `none` is FREE. -/
  reg : List (Option Nat)
  line : Line
  others : List Line
  /-- The script of the environment's turns, one for each boundary of a foreground primitive (assumption 2). -/
  env : List (List Move)
  /-- How many turns have been drawn freely (assumption 2). -/
  draws : Nat
  /-- Requests of the host not yet served (assumption 16). -/
  host : List HostRequest
  /-- An internal-action record handed in from outside (assumption 11); empty in every run. -/
  action : List Word
  deriving DecidableEq, Repr

/-- Why the machine stops (R220, R235). -/
inductive Fault where
  /-- `DirectionViolation` (R164, R235): a WRITE on a half-duplex line whose direction is receive, raised by WRITE with
  its command word. The spec makes it a model fault, so a claim about a run that takes it is unprovable: safe. -/
  | directionViolation (x : Word)
  deriving DecidableEq, Repr

/-- Why the machine has no next state to offer. -/
inductive Refusal where
  /-- An instruction with no meaning yet, raised by `exec` only. Safe. -/
  | notModelled (mnemonic : String)
  /-- `ConfigRefused` (R237): a construction outside the legal ranges, or one that names another line's pin, raised by
  the host request `construct`, with its argument. The model builds no line: safe. -/
  | configRefused (a : CfgArgs)
  deriving DecidableEq, Repr

/-- A line right after its construction (R250, R23), under the name `id`. -/
def Line.reset (par : Params) (id : Nat) (cfg : Cfg) : Line :=
  { id := id
    cfg := cfg
    rxValid := cfg.rxPin != noPin && par.validRx.contains cfg.rxPin
    txValid := cfg.txPin != noPin && par.validTx.contains cfg.txPin
    halfDup := cfg.rxPin != noPin && par.validRx.contains cfg.rxPin &&
      (cfg.txPin != noPin && par.validTx.contains cfg.txPin) && cfg.rxPin == cfg.txPin
    cpos := 0
    cmd := []
    resp := []
    ctrl := { life := .uninit, intTx := true, txDir := false, rxArmed := false, txenV := false, notify := false }
    txenPin := 0xFF
    slot := 0xFF
    bitcyc := 0
    slotE := []
    eHead := 0
    eTail := 0
    eOvf := false
    rxPos := .idle
    rxByte := 0
    rxLast := 0
    slotB := []
    bHead := 0
    bTail := 0
    lineOvf := false
    txDl := 0
    txHi := 0
    txLo := 0
    txPrev := false
    txSavedIe := false
    pendRx := false
    capCycle := none
    trace := [] }

/-- The parameters of `State.reset`: those of program P1 of 95_test_vectors.md, with every pin valid (assumption 8). -/
def Params.reset : Params :=
  { fCpu := 80000000
    waitSplit := 1000
    yieldMin := 0
    validRx := (List.range 255).map (BitVec.ofNat 8)
    validTx := (List.range 255).map (BitVec.ofNat 8) }

/-- The configuration of `State.reset`: that of program P1 of 95_test_vectors.md (assumption 8). -/
def Cfg.reset : Cfg := { rxPin := 4, txPin := 5, invert := false, nb := 16, ne := 160 }

/-- A machine with one line, right after the construction of its registry of `slots` slots and of the line (R250, R253). -/
def State.boot (par : Params) (slots : Nat) (cfg : Cfg) : State :=
  { par := par
    cycle := 0
    ie := true
    pins := []
    reg := List.replicate slots none
    line := Line.reset par 0 cfg
    others := []
    env := []
    draws := 0
    host := []
    action := [] }

/-- The machine right after reset (R250, R251), in the configuration of assumption 8. -/
def State.reset : State := State.boot Params.reset 1 Cfg.reset

end Sys2Proof.Machine
end

