-- ==== Sys2Proof/Machine/Operands.lean ====
section
/-! DEFINITION. Readings of operands and stored words: edge words (30_encoding.md R80, R81), levels (00_scope.md R11),
cycle differences and periods (41_decoder.md R124, R125; 43_control.md R181), frame levels (42_transmitter.md R152). -/

namespace Sys2Proof.Machine

/-! ### Edge words (R80) -/

/-- `ts(w) = w & 0xFFFFFFFE`. -/
def ts (w : Word) : Word := w &&& 0xFFFFFFFE#32

/-- `lvl(w) = w[0]`. -/
def lvl (w : Word) : Level := w.getLsbD 0

/-- The edge word of time `t` and pin level `v`: `(t & 0xFFFFFFFE) | v` (R80, R81, R100). -/
def mkEdge (t : Word) (v : Level) : Word := (t &&& 0xFFFFFFFE#32) ||| (if v then 1#32 else 0#32)

/-! ### Levels (R11) -/

/-- `ACTIVE_PIN = 0 XOR INVERT`. -/
def activePin (c : Cfg) : Level := xor false c.invert

/-- `INACTIVE_PIN = 1 XOR INVERT`. -/
def inactivePin (c : Cfg) : Level := xor true c.invert

/-- The logical level of pin level `v`: `v XOR INVERT`. -/
def logical (c : Cfg) (v : Level) : Level := xor v c.invert

/-! ### Cycle arithmetic -/

/-- `s32(v)` (R8). -/
def s32 (v : Word) : Int := v.toInt

/-- `HALF = BITCYC >> 1` (R27). -/
def half (b : Word) : Word := b >>> 1

/-- `d = s32(ts(w) - ts(RX_LAST) - HALF)` (R124). -/
def edgeDelta (rxLast w b : Word) : Int := s32 (ts w - ts rxLast - half b)

/-- `n = 1 + d / BITCYC` (R124, R125), for `d >= 0`. `BITCYC` is not 0 where a rule divides by it (R27); in a state no
run reaches the quotient is a free value (assumption 12). -/
def periods (d : Int) (b : Word) : Nat :=
  if b = 0 then 1 + Config.freeQuotient d.toNat else 1 + d.toNat / b.toNat

/-- `BITCYC = (F_CPU + b / 2) / b` (R181). -/
def bitPeriod (fCpu b : Nat) : Nat := (fCpu + b / 2) / b

/-- The bit periods BEGIN accepts (R181). -/
def bitPeriodOk (bn : Nat) : Bool := 2 ≤ bn && 9 * bn < 2 ^ 31

/-- Cycles still missing until `s32(CCOUNT - D) >= 0` (R158), counted from `CCOUNT = c`. -/
def untilDeadline (d c : Word) : Nat := if 0 ≤ s32 (c - d) then 0 else (d - c).toNat

/-- Cycles still missing until `s32(D - CCOUNT) <= WAIT_SPLIT` (R158), counted from `CCOUNT = c`. -/
def untilSplit (d : Word) (split : Nat) (c : Word) : Nat := (s32 (d - c) - split).toNat

/-! ### Frames (R152) -/

/-- `FRAME_PIN(b, i)`: start bit, eight data bits least significant first, stop bit. -/
def framePin (c : Cfg) (b : Byte) (i : Nat) : Level :=
  if i = 0 then activePin c else if i ≤ 8 then logical c (b.getLsbD (i - 1)) else inactivePin c

/-- The ten pin levels of one byte. -/
def frameLevels (c : Cfg) (b : Byte) : List Level := (List.range 10).map (framePin c b)

/-- The pin levels of a whole transmission, in order of byte and bit position (R151, R154). -/
def txLevels (c : Cfg) (bytes : List Byte) : List Level := bytes.flatMap (frameLevels c)

/-- `m` shifts of the level `lv` into the byte under construction, least significant bit first (R127). -/
def shiftIn (lv : Level) : Nat → Byte → Byte
  | 0, b => b
  | m + 1, b => shiftIn lv m ((b >>> 1) ||| (if lv then 0x80#8 else 0#8))

end Sys2Proof.Machine
end

