-- ==== Sys2Proof/Machine/Flags.lean ====
section
/-! DEFINITION. Flags, codes and records: the 32-bit reading of CTRL (10_state.md R24), the encoding of RX_POS (R33),
the event trace and the conditions of 60_exceptions.md R220, responses (30_encoding.md R86), ring counts (R32, R37). -/

namespace Sys2Proof.Machine

/-! ### Register encodings -/

/-- The encoding of `LIFE` (R24). -/
def Life.code : Life → BitVec 2
  | .uninit => 0
  | .started => 1
  | .stopped => 2

/-- `CTRL` as a 32-bit word; the reserved bits [31:7] read 0 (R24). -/
def Ctrl.word (c : Ctrl) : Word :=
  0#25 ++ BitVec.ofBool c.notify ++ BitVec.ofBool c.txenV ++ BitVec.ofBool c.rxArmed ++ BitVec.ofBool c.txDir ++
    BitVec.ofBool c.intTx ++ c.life.code

/-- The encoding of `RX_POS` (R33). -/
def RxPos.code : RxPos → BitVec 4
  | .data p => BitVec.ofNat 4 p.val
  | .start => 8
  | .idle => 9

/-! ### Codes of the event trace (R88, R220) -/

/-- The condition codes of R220. -/
def Condition.code : Condition → Nat
  | .resourceExhausted => 1
  | .bufferOverflowEdge _ => 2
  | .bufferOverflowByte _ => 3
  | .timingAnomaly _ => 4
  | .illegalCommand _ => 5
  | .directionViolation _ => 6
  | .configRefused _ => 7

/-- The event word `{code, 0}` of an internal action (R88); the other events have none. -/
def Event.word : Event → Option Word
  | .edgeCapture _ => some 0x80000000
  | .decodePass => some 0x81000000
  | .processEdge _ => some 0x82000000
  | .txSegment _ _ => some 0x83000000
  | .delayUntil _ => some 0x84000000
  | .condition _ | .pinWrite _ _ _ | .notify _ => none

/-! ### Ring counts (R32, R37) -/

/-- `(head - tail) mod n`, for indices below `n`. -/
def ringCount (head tail n : Nat) : Nat := (head + n - tail) % n

/-- `E_COUNT` (R32). -/
def Line.eCount (l : Line) : Nat := ringCount l.eHead l.eTail l.cfg.ne

/-- `B_COUNT` (R37). -/
def Line.bCount (l : Line) : Nat := ringCount l.bHead l.bTail l.cfg.nb

/-! ### Recording -/

/-- Record an event in the line's trace. -/
def Line.log (e : Event) (l : Line) : Line := { l with trace := l.trace ++ [e] }

/-- `raise` (R9): record a condition; none of them stops the block (R220). -/
def Line.raise (c : Condition) (l : Line) : Line := l.log (.condition c)

/-- `respond x`: append one response word (R84, R86). -/
def Line.respond (x : Word) (l : Line) : Line := { l with resp := l.resp ++ [x] }

/-- NONE of R86. -/
def respNone : Word := 0xFFFFFFFF

/-- ILLEGAL of R86. -/
def respIllegal : Word := 0xFFFFFFFE

/-- The response of READ and PEEK (R86): a byte zero-extended, or NONE. -/
def byteResponse : Option Byte → Word
  | none => respNone
  | some b => b.setWidth 32

end Sys2Proof.Machine
end

