-- ==== Sys2Proof/Machine/Ops.lean ====
section
/-! DEFINITION. The named operations over storage, pins, the environment and the interrupt: sparse memory, the ring
primitives of 20_memory.md, the platform primitives of 00_scope.md R9, taking and leaving the receive-pin interrupt
(60_exceptions.md R102, R223 to R228), the environment's turns, and the waits (R158, R229). -/

namespace Sys2Proof.Machine

/-! ### Sparse memory: the four spaces of R60 that are indexed -/

namespace Memory

variable {α : Type}

/-- The element at index `i`; an unlisted index reads as `dflt`. -/
def read (dflt : α) : Memory α → Nat → α
  | [], _ => dflt
  | (k, v) :: m, i => if i = k then v else read dflt m i

/-- Write element `i`, keeping the canonical form: writing `dflt` removes the entry. -/
def write [DecidableEq α] (dflt : α) : Memory α → Nat → α → Memory α
  | [], i, v => if v = dflt then [] else [(i, v)]
  | (k, u) :: m, i, v =>
    if i < k then (if v = dflt then (k, u) :: m else (i, v) :: (k, u) :: m)
    else if i = k then (if v = dflt then m else (i, v) :: m)
    else (k, u) :: write dflt m i v

/-- Every index of the list is above `i`. -/
def above (i : Nat) (m : Memory α) : Bool := m.all fun e => decide (i < e.1)

/-- The canonical form: indices strictly rising, and no entry equal to what an unlisted index reads as. -/
def wf [DecidableEq α] (dflt : α) : Memory α → Bool
  | [] => true
  | (k, v) :: m => above k m && v ≠ dflt && wf dflt m

end Memory

/-- What an edge slot nothing has written reads as (assumption 5; R28: unspecified, never read before written). -/
def unwrittenEdge : Word := 0

/-- What a byte slot nothing has written reads as (assumption 5; R36). -/
def unwrittenByte : Byte := 0

/-- A pin nothing has touched: an input, low (assumption 7; R40). -/
def untouchedPin : PinState := { dir := .input, out := false, ext := false }

/-- The level line `id` reads of a pin (R234): the last `PinWrite` value while the pin is an output of this line, else the
environment's level. -/
def PinState.level (id : Nat) (ps : PinState) : Level := if ps.dir = .output id then ps.out else ps.ext

/-! ### Ring primitives (R61 to R64) -/

namespace Line

/-- The index after `E_HEAD` (R61). -/
def eNext (l : Line) : Nat := (l.eHead + 1) % l.cfg.ne

/-- The index after `B_HEAD` (R63). -/
def bNext (l : Line) : Nat := (l.bHead + 1) % l.cfg.nb

/-- `EPush(w)` (R61): store and advance `E_HEAD`, or set `E_OVF` and drop the event (R101). -/
def ePush (w : Word) (l : Line) : Line :=
  if l.eNext = l.eTail then { l with eOvf := true }.raise (.bufferOverflowEdge w)
  else { l with slotE := l.slotE.write unwrittenEdge l.eHead w, eHead := l.eNext }

/-- The word `EPop()` reads: `slot_E[E_TAIL]` (R62). -/
def eFront (l : Line) : Word := l.slotE.read unwrittenEdge l.eTail

/-- `BPush(b)` (R63): store and advance `B_HEAD`, or set `LINE_OVF` and drop the byte (R128). -/
def bPush (b : Byte) (l : Line) : Line :=
  if l.bNext = l.bTail then { l with lineOvf := true }.raise (.bufferOverflowByte b)
  else { l with slotB := l.slotB.write unwrittenByte l.bHead b, bHead := l.bNext }

/-- `BPeek()` (R64): the oldest byte, or NONE when the ring is empty. -/
def bPeek (l : Line) : Option Byte :=
  if l.bHead = l.bTail then none else some (l.slotB.read unwrittenByte l.bTail)

/-- The state `BPop()` leaves (R64). -/
def bDrop (l : Line) : Line :=
  if l.bHead = l.bTail then l else { l with bTail := (l.bTail + 1) % l.cfg.nb }

/-- EDGE_CAPTURE (R100) on one line: `t` is the counter and `v` the receive pin's level, read in that order. The action is
recorded with the edge word it forms as its data, also when the word is dropped, and before that condition (assumption
15). -/
def capture (t : Word) (v : Level) (l : Line) : Line :=
  (l.log (.edgeCapture (mkEdge t v))).ePush (mkEdge t v)

/-- Pin `p` goes from one state to another: if that changes the level the line reads, it is a transition, which sets
`PEND_RX` of a line attached to the pin, and of no other (R224, assumption 20). -/
def notePinEdge (p : Pin) (old new : PinState) (l : Line) : Line :=
  if l.ctrl.rxArmed && l.cfg.rxPin == p && new.level l.id != old.level l.id then { l with pendRx := true } else l

end Line

namespace State

/-! ### Updates -/

/-- Change the line whose foreground has the core. -/
def mapLine (f : Line → Line) (s : State) : State := { s with line := f s.line }

/-- Change every line. -/
def mapLines (f : Line → Line) (s : State) : State := { s with line := f s.line, others := s.others.map f }

/-- All the lines of the system. -/
def lines (s : State) : List Line := s.line :: s.others

/-- Record an event in the active line's trace. -/
def log (e : Event) (s : State) : State := s.mapLine (·.log e)

/-- Append a response word of the active line. -/
def respond (x : Word) (s : State) : State := s.mapLine (·.respond x)

/-- `CCOUNT`: the low 32 bits of the cycle count (R226, assumption 27). -/
def ccount (s : State) : Word := BitVec.ofNat 32 s.cycle

/-- The counter runs on by `n` cycles (R226). -/
def advance (n : Nat) (s : State) : State := { s with cycle := s.cycle + n }

/-! ### Pins (R9, R234) -/

/-- The state of pin `p`. -/
def pin (s : State) (p : Pin) : PinState := s.pins.read untouchedPin p.toNat

/-- `PinRead(p)` by line `id` (R234). -/
def pinLevel (s : State) (id : Nat) (p : Pin) : Level := (s.pin p).level id

/-- The pins with pin `p` in state `ps`. -/
def putPin (p : Pin) (ps : PinState) (s : State) : State := { s with pins := s.pins.write untouchedPin p.toNat ps }

/-- Put pin `p` in state `ps`. A line whose level of the pin changes with that sees a transition (R224). -/
def setPin (p : Pin) (ps : PinState) (s : State) : State :=
  (s.putPin p ps).mapLines (·.notePinEdge p (s.pin p) ps)

/-! ### Taking the receive-pin interrupt, and returning from it (R102, R223 to R228) -/

/-- The three conditions of R102. -/
def isrDue (s : State) (l : Line) : Bool := l.ctrl.rxArmed && l.pendRx && s.ie

/-- The conditions hold, and no interrupt of this line has read the counter in this cycle (R104, assumption 13). -/
def mayTake (s : State) (l : Line) : Bool := s.isrDue l && l.capCycle != some s.cycle

/-- Interrupt entry, handler and return on one line: `PEND_RX` is cleared and EDGE_CAPTURE runs as one atomic step;
nothing of the block is saved and nothing restored, and `IE` is as it was (R102, R227, R228). -/
def enterIsr (s : State) (l : Line) : Line :=
  { l with pendRx := false, capCycle := some s.cycle }.capture s.ccount (s.pinLevel l.id l.cfg.rxPin)

/-- The platform delivers the interrupt of registry slot `slot` to the line bound to it (R225), which takes it if it
may (R102). A FREE slot has no handler. -/
def takeInterrupt (slot : Nat) (s : State) : State :=
  match s.reg[slot]? with
  | some (some id) =>
    s.mapLines fun l => if l.id == id && s.mayTake l then s.enterIsr l else l
  | _ => s

/-! ### The environment's turns (R10, R69; assumptions 1 and 2) -/

/-- One move of the environment. -/
def envMove (m : EnvMove) (s : State) : State :=
  match m with
  | .advance n => s.advance n
  | .level p v => s.setPin p { s.pin p with ext := v }
  | .interrupt slot => s.takeInterrupt slot

/-- One entry of a turn. -/
def move (s : State) (m : Move) : State :=
  match m with
  | .env e => s.envMove e
  | .supply id ws => s.mapLines fun l => if l.id = id then { l with cmd := l.cmd ++ ws } else l
  | .request r => { s with host := s.host ++ [r] }

/-- The next turn, from the script while it lasts and then free. -/
def nextTurn (s : State) : List Move :=
  match s.env with
  | t :: _ => t
  | [] => (Config.freeMoves s.draws).map Move.env

/-- Use up the next turn. -/
def dropTurn (s : State) : State :=
  match s.env with
  | _ :: ts => { s with env := ts }
  | [] => { s with draws := s.draws + 1 }

/-- A boundary between two foreground primitives: the other agents take their turn (R10). -/
def tick (s : State) : State := s.nextTurn.foldl move s.dropTurn

/-- The cycles a turn lets pass. -/
def turnCycles (t : List Move) : Nat :=
  (t.map fun | .env (.advance n) => n | _ => 0).sum

/-! ### Foreground primitives (R9), each with the boundary before it -/

/-- `CCOUNT()` (R226). -/
def readCcount (s : State) : Word × State := (s.tick.ccount, s.tick)

/-- `AtomicLoad(E_HEAD)`. -/
def loadEHead (s : State) : Nat × State := (s.tick.line.eHead, s.tick)

/-- `AtomicLoad(E_OVF)`. -/
def loadEOvf (s : State) : Bool × State := (s.tick.line.eOvf, s.tick)

/-- `AtomicStore(E_OVF, b)`. -/
def storeEOvf (b : Bool) (s : State) : State := s.tick.mapLine fun l => { l with eOvf := b }

/-- `AtomicStore(E_TAIL, t)`. -/
def storeETail (t : Nat) (s : State) : State := s.tick.mapLine fun l => { l with eTail := t }

/-- `EPop()` (R62): the word, and the state after the tail's store. -/
def ePop (s : State) : Word × State :=
  (s.line.eFront, s.storeETail ((s.line.eTail + 1) % s.line.cfg.ne))

/-- `IE <- b` (R223). -/
def writeIe (b : Bool) (s : State) : State := { s.tick with ie := b }

/-- `PinMode(p, m)`; an output is one of the line whose foreground has the core. -/
def pinMode (p : Pin) (m : PinDir) (s : State) : State := s.tick.setPin p { s.tick.pin p with dir := m }

/-- `PinWrite(p, v)`: drive the pin and record the event with the cycle at which it takes effect (R9, R160). -/
def pinWrite (p : Pin) (v : Level) (s : State) : State :=
  (s.tick.setPin p { s.tick.pin p with out := v }).log (.pinWrite p v s.tick.cycle)

/-- `Attach` of the receive pin: `PEND_RX` is cleared and the interrupt armed (R224). -/
def attach (s : State) : State :=
  s.tick.mapLine fun l => { l with pendRx := false, ctrl := { l.ctrl with rxArmed := true } }

/-- `Detach` of the receive pin: `PEND_RX` is cleared and the interrupt disarmed (R224). -/
def detach (s : State) : State :=
  s.tick.mapLine fun l => { l with pendRx := false, ctrl := { l.ctrl with rxArmed := false } }

/-! ### Waits (R158, R229; assumption 3) -/

/-- `hold until c`: the foreground takes no step while the other agents take their turn; if the turn leaves the
condition unmet, the counter runs on by the missing cycles (R196). -/
def holdUntil (missing : Word → Nat) (s : State) : State := s.tick.advance (missing s.tick.ccount)

/-- `Yield(c)`: at least `c` cycles pass (R229). -/
def yieldCycles (c : Nat) (s : State) : State := s.tick.advance (c - turnCycles s.nextTurn)

/-! ### The registry (R231) -/

/-- The least FREE slot (R180). -/
def freeSlot (s : State) : Option Nat := s.reg.findIdx? (· == none)

end State

/-! ### Construction and the host's requests (R22, R233, R237, R250) -/

/-- `CFG` of a construction: `N_E` defaults to ten times `N_B` (R22). -/
def cfgOf (a : CfgArgs) : Cfg :=
  { rxPin := a.rxPin, txPin := a.txPin, invert := a.invert, nb := a.nb, ne := a.ne.getD (10 * a.nb) }

/-- The legal ranges of R22; every pin id is legal. -/
def cfgLegal (c : Cfg) : Bool :=
  2 ≤ c.nb && c.nb ≤ 65535 && 2 ≤ c.ne && c.ne ≤ 2 ^ 31

/-- Two configurations name one pin (R75). -/
def cfgShares (c d : Cfg) : Bool :=
  (c.rxPin != noPin && (c.rxPin == d.rxPin || c.rxPin == d.txPin)) ||
  (c.txPin != noPin && (c.txPin == d.rxPin || c.txPin == d.txPin))

namespace State

/-- The foreground of line `id` gets the core, if there is such a line. -/
def select (id : Nat) (s : State) : State :=
  match s.others.find? fun l => l.id == id with
  | some l => { s with line := l, others := s.others.map fun m => if m.id == id then s.line else m }
  | none => s

/-- Construct a line beside the others, or refuse the construction (R237). Line construction is reset, so `IE` is 1 after
it (R40, R250; assumption 25). -/
def construct (a : CfgArgs) (s : State) : Host.Outcome State Fault Refusal :=
  if cfgLegal (cfgOf a) && !(s.lines.any fun l => cfgShares (cfgOf a) l.cfg) then
    .next { s with ie := true, others := s.others ++ [Line.reset s.par s.lines.length (cfgOf a)] }
  else .refused (.configRefused a)

/-- Serve one request of the host. -/
def serve (r : HostRequest) (s : State) : Host.Outcome State Fault Refusal :=
  match r with
  | .select id => .next (s.select id)
  | .setIe b => .next { s with ie := b }
  | .construct a => s.construct a

/-- An illegal command word (R85): `CPOS` advances by 1, `IllegalCommand` is recorded, the response is ILLEGAL. -/
def illegalCommand (x : Word) (s : State) : State :=
  s.mapLine fun l => (({ l with cmd := l.cmd.tail, cpos := l.cpos + 1 }).raise (.illegalCommand x)).respond respIllegal

/-- Take `n` words off the command stream (R84). -/
def consume (n : Nat) (s : State) : State := s.mapLine fun l => { l with cmd := l.cmd.drop n }

/-- Advance `CPOS` (R84 step 5). -/
def advanceCpos (n : Nat) (s : State) : State := s.mapLine fun l => { l with cpos := l.cpos + n }

end State

/-- Go on from a next state; a fault or a refusal stays as it is. -/
def onNext (o : Host.Outcome State Fault Refusal) (f : State → State) : Host.Outcome State Fault Refusal :=
  match o with
  | .next s => .next (f s)
  | .fault r => .fault r
  | .refused r => .refused r

end Sys2Proof.Machine
end

