-- ==== Sys2Proof/Machine/Capture.lean ====
section
/-! DEFINITION. The edge-capture family: EDGE_CAPTURE (40_edge_capture.md R100, R101). The interrupt that triggers it is
`State.takeInterrupt` of Machine/Ops.lean. -/

namespace Sys2Proof.Machine

/-- EDGE_CAPTURE (R100): the counter, then the receive pin's level, then `EPush`; one atomic step. -/
def execEdgeCapture (s : State) : Host.Outcome State Fault Refusal :=
  .next (s.mapLine fun l => l.capture s.ccount (s.pinLevel l.id l.cfg.rxPin))

end Sys2Proof.Machine
end

