-- ==== Sys2Proof/Machine/Control.lean ====
section
/-! DEFINITION. The lifecycle and configuration commands: BEGIN, END, SET_TXEN, ENABLE_INT_TX, ENABLE_TX, SET_NOTIFY
(43_control.md R180 to R187, R194). -/

namespace Sys2Proof.Machine

namespace Line

/-- What a first start or restart resets on the line (R180, R252): `BITCYC`, the rings, both overflow flags, the
decoder, the direction. -/
def restart (bn : Nat) (slot : Nat) (now : Word) (l : Line) : Line :=
  { l with
    slot := BitVec.ofNat 8 slot
    bitcyc := BitVec.ofNat 32 bn
    eHead := 0, eTail := 0, eOvf := false
    bHead := 0, bTail := 0, lineOvf := false
    rxPos := .idle, rxByte := 0
    rxLast := mkEdge now (inactivePin l.cfg)
    ctrl := { l.ctrl with txDir := false } }

/-- `LIFE <- x`. -/
def setLife (x : Life) (l : Line) : Line := { l with ctrl := { l.ctrl with life := x } }

end Line

namespace State

/-- The transmit pin of a full-duplex line becomes an output at the inactive level (R180). -/
def beginTx (s : State) : State :=
  if s.line.txValid && !s.line.halfDup then
    (s.pinMode s.line.cfg.txPin (.output s.line.id)).pinWrite s.line.cfg.txPin (inactivePin s.line.cfg)
  else s

/-- The receive pin becomes an input and its interrupt is attached (R180). -/
def beginRx (s : State) : State :=
  if s.line.rxValid then (s.pinMode s.line.cfg.rxPin .input).attach else s

/-- `REG[slot] <- this line` (R180). -/
def takeSlot (slot : Nat) (s : State) : State := { s with reg := s.reg.set slot (some s.line.id) }

/-- The line's elements at a first start or restart, `RX_LAST` from `CCOUNT()` (R180, R252). -/
def restartLine (bn slot : Nat) (s : State) : State := s.readCcount.2.mapLine (·.restart bn slot s.readCcount.1)

/-- BEGIN from UNINIT or STOPPED with a free slot (R180), inside the registry critical section. -/
def startLine (bn slot : Nat) (s : State) : State :=
  ((s.takeSlot slot).restartLine bn slot).beginTx.beginRx.mapLine (·.setLife .started)

/-- BEGIN from UNINIT or STOPPED, with interrupts masked and `saved` the `IE` before (R180, R232). -/
def beginMasked (bn : Nat) (saved : Bool) (s : State) : State :=
  match s.freeSlot with
  | none => ((s.writeIe saved).mapLine (·.raise .resourceExhausted)).respond 0
  | some slot => ((s.startLine bn slot).writeIe saved).respond 1

/-- BEGIN with a usable bit period (R180). -/
def beginWith (bn : Nat) (s : State) : State :=
  if s.line.ctrl.life = .started then
    (s.mapLine fun l => { l with bitcyc := BitVec.ofNat 32 bn }).respond 1
  else (s.writeIe false).beginMasked bn s.ie

/-- The receive interrupt is detached, if it is attached (R182). -/
def disarm (s : State) : State := if s.line.ctrl.rxArmed then s.detach else s

/-- `REG[SLOT] <- FREE; SLOT <- 0xFF; LIFE <- STOPPED` (R182). -/
def releaseSlot (s : State) : State :=
  { s with reg := s.reg.set s.line.slot.toNat none, line := { s.line.setLife .stopped with slot := 0xFF } }

/-- ENABLE_TX 1 from the receive direction (R186). -/
def turnToTransmit (s : State) : State :=
  ((s.detach.pinMode s.line.cfg.txPin (.output s.line.id)).pinWrite s.line.cfg.txPin (inactivePin s.line.cfg)).mapLine fun l =>
    { l with ctrl := { l.ctrl with txDir := true } }

/-- ENABLE_TX 0 from the transmit direction (R186). -/
def turnToReceive (s : State) : State :=
  (s.pinMode s.line.cfg.rxPin .input).attach.mapLine fun l => { l with ctrl := { l.ctrl with txDir := false } }

/-- The pin can serve as transmit-enable pin (R184); 0xFF is no pin (assumption 17). -/
def txenUsable (p : Pin) (s : State) : Bool :=
  p != noPin && s.par.validTx.contains p && p != s.line.cfg.rxPin && p != s.line.cfg.txPin

end State

/-- BEGIN (R180, R181). -/
def execBegin (b : BitVec 24) (s : State) : Host.Outcome State Fault Refusal :=
  .next
    (if b = 0 then s.respond 0
    else if bitPeriodOk (bitPeriod s.par.fCpu b.toNat) then s.beginWith (bitPeriod s.par.fCpu b.toNat)
    else s.respond 0)

/-- END (R182). -/
def execEnd (s : State) : Host.Outcome State Fault Refusal :=
  .next
    (if s.line.ctrl.life = .started then ((s.writeIe false).disarm.releaseSlot.writeIe s.ie).respond 0
    else s.respond 0)

/-- SET_TXEN (R184). -/
def execSetTxen (v : Bool) (p : Pin) (s : State) : Host.Outcome State Fault Refusal :=
  .next
    (if v && s.txenUsable p then
      (((s.mapLine fun l => { l with txenPin := p, ctrl := { l.ctrl with txenV := true } }).pinMode p (.output s.line.id)).pinWrite
        p false).respond 0
    else
      (s.mapLine fun l => { l with txenPin := 0xFF, ctrl := { l.ctrl with txenV := false } }).respond 0)

/-- ENABLE_INT_TX (R185). -/
def execEnableIntTx (e : Bool) (s : State) : Host.Outcome State Fault Refusal :=
  .next ((s.mapLine fun l => { l with ctrl := { l.ctrl with intTx := e } }).respond 0)

/-- ENABLE_TX (R186). -/
def execEnableTx (e : Bool) (s : State) : Host.Outcome State Fault Refusal :=
  .next
    (if s.line.halfDup && s.line.ctrl.life == .started then
      if e && !s.line.ctrl.txDir then s.turnToTransmit.respond 0
      else if !e && s.line.ctrl.txDir then s.turnToReceive.respond 0
      else s.respond 0
    else s.respond 0)

/-- SET_NOTIFY (R194). -/
def execSetNotify (e : Bool) (s : State) : Host.Outcome State Fault Refusal :=
  .next ((s.mapLine fun l => { l with ctrl := { l.ctrl with notify := e } }).respond 0)

end Sys2Proof.Machine
end

