-- ==== Sys2Proof/Machine/Decoder.lean ====
section
/-! DEFINITION. The timing decoder: PROCESS_EDGE and DECODE_PASS (41_decoder.md). -/

namespace Sys2Proof.Machine

namespace Line

/-- The byte under construction after `n` periods at logical level `lprev`, with `p` data bits assembled before: the
periods beyond the 8th data bit are discarded (R127). -/
def assembled (p n : Nat) (lprev : Level) (l : Line) : Byte := shiftIn lprev (min n (8 - p)) l.rxByte

/-- "Byte complete" (R127): push the byte, reset `RX_BYTE`, and enter START if the edge goes to the active level. -/
def complete (b : Byte) (lnew : Level) (l : Line) : Line :=
  { l.bPush b with rxByte := 0, rxPos := if lnew then .idle else .start }

/-- R127 from a position with `p` data bits assembled: `n` periods at logical level `lprev`, then an edge to logical
level `lnew`. -/
def assemble (p n : Nat) (lprev lnew : Level) (l : Line) : Line :=
  if h : p + min n (8 - p) < 8 then
    { l with rxByte := l.assembled p n lprev, rxPos := .data ⟨p + min n (8 - p), h⟩ }
  else l.complete (l.assembled p n lprev) lnew

/-- `STEP(n, Lprev, L)` (R126, R127). -/
def stepPos (n : Nat) (lprev lnew : Level) (l : Line) : Line :=
  match l.rxPos with
  | .idle => if lnew then l else { l with rxPos := .start }
  | .start => l.assemble 0 (n - 1) lprev lnew
  | .data p => l.assemble p.val n lprev lnew

/-- PROCESS_EDGE (R124). The action is recorded before the conditions inside it (assumption 15). -/
def processEdge (w : Word) (l : Line) : Line :=
  if edgeDelta l.rxLast w l.bitcyc < 0 then (l.log (.processEdge w)).raise (.timingAnomaly w)
  else
    ({ l.log (.processEdge w) with rxLast := w }).stepPos (periods (edgeDelta l.rxLast w l.bitcyc) l.bitcyc)
      (logical l.cfg (lvl l.rxLast)) (logical l.cfg (lvl w))

/-- `r`, the bit periods from the last processed edge to the start of the stop bit (R122); 0 in IDLE. -/
def remaining (l : Line) : Nat :=
  match l.rxPos with
  | .idle => 0
  | .start => 9
  | .data p => 8 - p.val

/-- The synthesized stop-bit edge word (R123). -/
def stopEdge (l : Line) : Word :=
  mkEdge (ts l.rxLast + BitVec.ofNat 32 (l.remaining * l.bitcyc.toNat)) (inactivePin l.cfg)

/-- Missed-stop-bit recovery at `CCOUNT() = now` (R122, R123), for a line that is mid-byte. -/
def recover (now : Word) (l : Line) : Line :=
  if s32 (now - ts l.rxLast) > l.remaining * l.bitcyc.toNat then l.processEdge l.stopEdge else l

/-- The line can receive: a pass does something (R133). -/
def canReceive (l : Line) : Bool := l.rxValid && l.ctrl.life == .started

end Line

namespace State

/-- The overflow fold of step 1 (R121): `LINE_OVF <- 1`, then `E_OVF <- 0`. -/
def foldOverflow (s : State) : State :=
  if s.loadEOvf.1 then (s.loadEOvf.2.mapLine fun l => { l with lineOvf := true }).storeEOvf false
  else s.loadEOvf.2

/-- Step 2 (R122), with no edges pending. -/
def recoverStop (s : State) : State :=
  if s.line.rxPos = .idle then s else s.readCcount.2.mapLine (·.recover s.readCcount.1)

/-- Step 3: process `avail` edges, oldest first. No turn lies between the store of `E_TAIL` and the record of the edge: a
capture that falls there is recorded after it (assumption 15). -/
def drain : Nat → State → State
  | 0, s => s
  | k + 1, s => drain k (s.ePop.2.mapLine (·.processEdge s.ePop.1))

/-- `avail`, the snapshot of step 1 from the loaded head `h` (R121). -/
def avail (h : Nat) (s : State) : Nat := ringCount h s.line.eTail s.line.cfg.ne

/-- What a pass does after it has loaded `E_HEAD = h` (R120). -/
def passFrom (h : Nat) (s : State) : State :=
  if s.avail h = 0 then s.foldOverflow.recoverStop else drain (s.avail h) s.foldOverflow

/-- DECODE_PASS (R120). The action is recorded before those inside it (assumption 15). -/
def decodePass (s : State) : State :=
  if s.line.canReceive then (s.log .decodePass).loadEHead.2.passFrom (s.log .decodePass).loadEHead.1 else s

end State

/-- DECODE_PASS (R120). -/
def execDecodePass (s : State) : Host.Outcome State Fault Refusal := .next s.decodePass

/-- PROCESS_EDGE (R124). -/
def execProcessEdge (w : Word) (s : State) : Host.Outcome State Fault Refusal := .next (s.mapLine (·.processEdge w))

end Sys2Proof.Machine
end

