-- ==== Sys2Proof/Machine/Reader.lean ====
section
/-! DEFINITION. The reader commands: READ, PEEK, AVAILABLE, FLUSH, OVERFLOW, POLL (43_control.md R188 to R193). -/

namespace Sys2Proof.Machine

namespace State

/-- The retry of AVAILABLE (R190): one yield and one more pass when no byte is held. -/
def retryPass (s : State) : State :=
  if s.line.bCount = 0 then (s.yieldCycles s.par.yieldMin).decodePass else s

end State

/-- READ (R188). -/
def execRead (s : State) : Host.Outcome State Fault Refusal :=
  .next ((s.decodePass.mapLine (·.bDrop)).respond (byteResponse s.decodePass.line.bPeek))

/-- PEEK (R189). -/
def execPeek (s : State) : Host.Outcome State Fault Refusal :=
  .next (s.decodePass.respond (byteResponse s.decodePass.line.bPeek))

/-- AVAILABLE (R190). -/
def execAvailable (s : State) : Host.Outcome State Fault Refusal :=
  .next (s.decodePass.retryPass.respond (BitVec.ofNat 32 s.decodePass.retryPass.line.bCount))

/-- FLUSH (R191). -/
def execFlush (s : State) : Host.Outcome State Fault Refusal :=
  .next (((s.loadEHead.2.storeETail s.loadEHead.1).mapLine fun l => { l with bTail := l.bHead }).respond 0)

/-- OVERFLOW (R192). -/
def execOverflow (s : State) : Host.Outcome State Fault Refusal :=
  .next ((s.mapLine fun l => { l with lineOvf := false }).respond (if s.line.lineOvf then 1 else 0))

/-- `NOTIFY(c)` after the pass, when enabled and a byte is held (R193). -/
def State.notifyHost (s : State) : State :=
  if s.line.ctrl.notify && decide (0 < s.line.bCount) then s.log (.notify s.line.bCount) else s

/-- POLL (R193). -/
def execPoll (s : State) : Host.Outcome State Fault Refusal :=
  .next (s.decodePass.notifyHost.respond (BitVec.ofNat 32 s.decodePass.line.bCount))

end Sys2Proof.Machine
end

