-- ==== Sys2Proof/WellFormed.lean ====
section
/-! DEFINITION. Which instructions the encoding admits. Every operand but WRITE's payload has the width of its field
(R90); WRITE's count is a 16-bit field, `n` in 0..65535 (R87). -/

namespace Sys2Proof.Instr

def wellFormed : Instr → Bool
  | .write payload => payload.length ≤ 65535
  | .beginLine _ | .endLine | .setTxen _ _ | .enableIntTx _ | .enableTx _ | .read | .peek | .available
  | .flush | .overflow | .poll | .setNotify _ => true
  | .edgeCapture | .decodePass | .processEdge _ | .txSegment _ _ | .delayUntil _ => true

end Sys2Proof.Instr
end

