-- ==== Sys2Proof/Decode.lean ====
section
/-! DEFINITION. The decoder of command words (30_encoding.md R82 to R90) and of internal-action records (R88), total on
every list of words; then the encoder, and the table of match and mask of R83. -/

namespace Sys2Proof

/-- Why a list of words is not a command: R85, and R84 for words the host has not supplied. -/
inductive DecodeError where
  /-- No word has been supplied (R84): the foreground waits. -/
  | noWord
  /-- A WRITE whose payload words have not all been supplied: the foreground waits (assumption 10). -/
  | payloadMissing (missing : Nat)
  /-- `OP` is 0x00 or in 0x0E..0xFF (R85). -/
  | unassignedOp (x : Word)
  /-- A 1 in a must-be-zero bit of the row (R85). -/
  | mustBeZero (x : Word)
  deriving DecidableEq, Repr

/-- What the decoder answers. -/
inductive Decoded where
  | instr (i : Instr)
  | reject (e : DecodeError)
  deriving DecidableEq, Repr

/-! ### WRITE payload (R87) -/

/-- Number of payload words of a WRITE of `n` bytes: `ceil(n / 4)`. -/
def payloadWords (n : Nat) : Nat := (n + 3) / 4

/-- The four bytes of a payload word, least significant first (R87). -/
def wordBytes (w : Word) : List Byte :=
  [w.extractLsb' 0 8, w.extractLsb' 8 8, w.extractLsb' 16 8, w.extractLsb' 24 8]

/-- The first `n` bytes of a payload (R87). -/
def unpackPayload (n : Nat) (ws : List Word) : List Byte := (ws.flatMap wordBytes).take n

/-- A word from its four bytes, `b0` the least significant. -/
def bytesWord (b0 b1 b2 b3 : Byte) : Word := b3 ++ b2 ++ b1 ++ b0

/-- Little-endian packing (R87); the bits beyond the last byte are ignored by the block and written 0 here. -/
def packPayload : List Byte → List Word
  | [] => []
  | [a] => [bytesWord a 0 0 0]
  | [a, b] => [bytesWord a b 0 0]
  | [a, b, c] => [bytesWord a b c 0]
  | a :: b :: c :: d :: rest => bytesWord a b c d :: packPayload rest

/-! ### Command words (R82, R83) -/

/-- `OP = x[31:24]` (R82). -/
def opField (x : Word) : Byte := x.extractLsb' 24 8

/-- `ARG = x[23:0]` (R82). -/
def argField (x : Word) : BitVec 24 := x.extractLsb' 0 24

/-- A row whose argument is all must-be-zero (R83). -/
def noArg (x : Word) (i : Instr) : Decoded :=
  if argField x = 0 then .instr i else .reject (.mustBeZero x)

/-- A row with one enable bit, `ARG[0] = e`, the rest must-be-zero (R83). -/
def enableArg (x : Word) (mk : Bool → Instr) : Decoded :=
  if (argField x).extractLsb' 1 23 = 0 then .instr (mk ((argField x).getLsbD 0)) else .reject (.mustBeZero x)

/-- SET_TXEN: `ARG[23:9] = 0`, `ARG[8] = v`, `ARG[7:0] = p` (R83). -/
def txenArg (x : Word) : Decoded :=
  if (argField x).extractLsb' 9 15 = 0 then
    .instr (.setTxen ((argField x).getLsbD 8) ((argField x).extractLsb' 0 8))
  else .reject (.mustBeZero x)

/-- `n = zext_32(ARG[15:0])` (R90). -/
def countField (x : Word) : Nat := ((argField x).extractLsb' 0 16).toNat

/-- WRITE: `ARG[23:16] = 0`, `ARG[15:0] = n`, then `ceil(n / 4)` payload words (R83, R87). -/
def writeArg (x : Word) (rest : List Word) : Decoded :=
  if (argField x).extractLsb' 16 8 = 0 then
    if rest.length < payloadWords (countField x) then
      .reject (.payloadMissing (payloadWords (countField x) - rest.length))
    else .instr (.write (unpackPayload (countField x) (rest.take (payloadWords (countField x)))))
  else .reject (.mustBeZero x)

/-- The command a first word selects (R83, R85), with the words behind it. -/
def decodeCommand (x : Word) (rest : List Word) : Decoded :=
  match (opField x).toNat with
  | 0x01 => .instr (.beginLine (argField x))
  | 0x02 => noArg x .endLine
  | 0x03 => txenArg x
  | 0x04 => enableArg x .enableIntTx
  | 0x05 => enableArg x .enableTx
  | 0x06 => noArg x .read
  | 0x07 => noArg x .peek
  | 0x08 => noArg x .available
  | 0x09 => writeArg x rest
  | 0x0A => noArg x .flush
  | 0x0B => noArg x .overflow
  | 0x0C => noArg x .poll
  | 0x0D => enableArg x .setNotify
  | _ => .reject (.unassignedOp x)

/-- The decoder of the command port, on the words supplied from `CPOS` onward (R84). -/
def decode : List Word → Decoded
  | [] => .reject .noWord
  | x :: rest => decodeCommand x rest

/-- The decoder of internal-action records: the event word `{code, 0}` and the action's data beside it (R88; the
layout of the data is the model's, assumption 11). None of these is a command (R85). -/
def decodeAction : List Word → Option Instr
  | [0x80000000#32] => some .edgeCapture
  | [0x81000000#32] => some .decodePass
  | [0x82000000#32, w] => some (.processEdge w)
  | [0x83000000#32, v, dur] => if v = 0 then some (.txSegment false dur) else if v = 1 then some (.txSegment true dur) else none
  | [0x84000000#32, d] => some (.delayUntil d)
  | _ => none

/-! ### Encoder -/

/-- A command word from its fields (R82). -/
def commandWord (op : Byte) (arg : BitVec 24) : Word := op ++ arg

/-- `ARG` with only the enable bit (R83). -/
def enableField (e : Bool) : BitVec 24 := (0#23 ++ BitVec.ofBool e : BitVec 24)

/-- First word of a WRITE of `n` bytes (R83). -/
def writeWord (n : Nat) : Word := commandWord 0x09 (0#8 ++ BitVec.ofNat 16 n : BitVec 24)

/-- The words of an instruction (R83, R87, R88). -/
def encode : Instr → List Word
  | .beginLine b => [commandWord 0x01 b]
  | .endLine => [commandWord 0x02 0]
  | .setTxen v p => [commandWord 0x03 (0#15 ++ BitVec.ofBool v ++ p : BitVec 24)]
  | .enableIntTx e => [commandWord 0x04 (enableField e)]
  | .enableTx e => [commandWord 0x05 (enableField e)]
  | .read => [commandWord 0x06 0]
  | .peek => [commandWord 0x07 0]
  | .available => [commandWord 0x08 0]
  | .write payload => writeWord payload.length :: packPayload payload
  | .flush => [commandWord 0x0A 0]
  | .overflow => [commandWord 0x0B 0]
  | .poll => [commandWord 0x0C 0]
  | .setNotify e => [commandWord 0x0D (enableField e)]
  | .edgeCapture => [0x80000000#32]
  | .decodePass => [0x81000000#32]
  | .processEdge w => [0x82000000#32, w]
  | .txSegment v dur => [0x83000000#32, if v then 1 else 0, dur]
  | .delayUntil d => [0x84000000#32, d]

/-- Length in words, told from the first word alone (R89). -/
def Instr.words : Instr → Nat
  | .write payload => 1 + payloadWords payload.length
  | .processEdge _ | .delayUntil _ => 2
  | .txSegment _ _ => 3
  | .beginLine _ | .endLine | .setTxen _ _ | .enableIntTx _ | .enableTx _ | .read | .peek | .available
  | .flush | .overflow | .poll | .setNotify _ | .edgeCapture | .decodePass => 1

/-- The rows of R83: mnemonic, match and mask. A word `x` selects a row when `(x & mask) = match`. -/
def opcodeRows : List (String × Word × Word) :=
  [ ("BEGIN",         0x01000000#32, 0xFF000000#32)
  , ("END",           0x02000000#32, 0xFFFFFFFF#32)
  , ("SET_TXEN",      0x03000000#32, 0xFFFFFE00#32)
  , ("ENABLE_INT_TX", 0x04000000#32, 0xFFFFFFFE#32)
  , ("ENABLE_TX",     0x05000000#32, 0xFFFFFFFE#32)
  , ("READ",          0x06000000#32, 0xFFFFFFFF#32)
  , ("PEEK",          0x07000000#32, 0xFFFFFFFF#32) ] ++
  [ ("AVAILABLE",     0x08000000#32, 0xFFFFFFFF#32)
  , ("WRITE",         0x09000000#32, 0xFFFF0000#32)
  , ("FLUSH",         0x0A000000#32, 0xFFFFFFFF#32)
  , ("OVERFLOW",      0x0B000000#32, 0xFFFFFFFF#32)
  , ("POLL",          0x0C000000#32, 0xFFFFFFFF#32)
  , ("SET_NOTIFY",    0x0D000000#32, 0xFFFFFFFE#32) ]

/-- An instruction's mnemonic, as spec/opcode_table.json spells it. -/
def Instr.mnemonic : Instr → String
  | .beginLine _ => "BEGIN"
  | .endLine => "END"
  | .setTxen _ _ => "SET_TXEN"
  | .enableIntTx _ => "ENABLE_INT_TX"
  | .enableTx _ => "ENABLE_TX"
  | .read => "READ"
  | .peek => "PEEK"
  | .available => "AVAILABLE"
  | .write _ => "WRITE"
  | .flush => "FLUSH"
  | .overflow => "OVERFLOW"
  | .poll => "POLL"
  | .setNotify _ => "SET_NOTIFY"
  | .edgeCapture => "EDGE_CAPTURE"
  | .decodePass => "DECODE_PASS"
  | .processEdge _ => "PROCESS_EDGE"
  | .txSegment _ _ => "TX_SEGMENT"
  | .delayUntil _ => "DELAY_UNTIL"

/-! ### The opcode table's numbering -/

/-- The first `nbits` bits of `w` as words, bit 0 the least significant bit of the first word. -/
def tableWords (nbits w : Nat) : List Word :=
  (List.range ((nbits + 31) / 32)).map fun k => BitVec.ofNat 32 (w >>> (32 * k))

/-- The words of a command whose table bits are `w`, its payload words zero as far as its count asks for them. -/
def commandTableWords (nbits w : Nat) : List Word :=
  match tableWords nbits w with
  | [] => []
  | x :: rest =>
    match decodeCommand x rest with
    | .reject (.payloadMissing m) => x :: rest ++ List.replicate m 0
    | _ => x :: rest

/-- The words of an internal action whose table bits are `w`, its data words zero. -/
def actionTableWords (nbits w : Nat) : List Word :=
  match tableWords nbits w with
  | [0x82000000#32] => [0x82000000#32, 0]
  | [0x83000000#32] => [0x83000000#32, 0, 0]
  | [0x84000000#32] => [0x84000000#32, 0]
  | ws => ws

/-- The instruction the decoder reads from a row's bits: on the command port if it is a command, else as an
internal-action record. -/
def decodeTableWord (nbits w : Nat) : Option Instr :=
  match decode (commandTableWords nbits w) with
  | .instr i => some i
  | .reject _ => decodeAction (actionTableWords nbits w)

end Sys2Proof
end

