-- ==== Sys2Proof/Machine/Transmit.lean ====
section
/-! DEFINITION. The bit transmitter and the deadline scheduler: WRITE, TX_SEGMENT, DELAY_UNTIL (42_transmitter.md). -/

namespace Sys2Proof.Machine

namespace State

/-- The bulk of a long wait, with interrupts as they were before the transmission (R158, R159). -/
def bulkWait (d : Word) (s : State) : State :=
  ((s.writeIe s.line.txSavedIe).holdUntil (untilSplit d s.par.waitSplit)).writeIe false

/-- The first half of DELAY_UNTIL, having read `CCOUNT() = now` (R158). -/
def splitWait (d now : Word) (s : State) : State :=
  if !s.line.ctrl.intTx && decide (s32 (d - now) > s.par.waitSplit) then s.bulkWait d else s

/-- DELAY_UNTIL (R158). The action is recorded as it begins, with no turn before the record: a capture that
falls there is recorded after it (assumption 15). -/
def delayUntil (d : Word) (s : State) : State :=
  ((s.log (.delayUntil d)).readCcount.2.splitWait d (s.log (.delayUntil d)).readCcount.1).holdUntil (untilDeadline d)

/-- The first half of TX_SEGMENT (R155): the pin write and the accumulated deadline. The action is recorded before its
pin write (assumption 15). -/
def openSegment (v : Level) (dur : Word) (s : State) : State :=
  ((s.log (.txSegment v dur)).pinWrite s.line.cfg.txPin v).mapLine fun l => { l with txDl := l.txDl + dur }

/-- TX_SEGMENT (R155): then the wait for the deadline. No turn lies between the records of the pin write and of the wait
(assumption 15). -/
def txSegment (v : Level) (dur : Word) (s : State) : State :=
  (s.openSegment v dur).delayUntil (s.openSegment v dur).line.txDl

/-- The high component of a pair (R153); a zero component issues nothing. -/
def flushHigh (s : State) : State := if s.line.txHi = 0 then s else s.txSegment true s.line.txHi

/-- The low component of a pair (R153). -/
def flushLow (s : State) : State := if s.line.txLo = 0 then s else s.txSegment false s.line.txLo

/-- FLUSH_PAIR (R153): the high component, then the low one. -/
def flushPair (s : State) : State := s.flushHigh.flushLow.mapLine fun l => { l with txHi := 0, txLo := 0 }

end State

/-- Add one bit period at level `v` to the pending pair (R151). -/
def Line.addPeriod (v : Level) (l : Line) : Line :=
  if v then { l with txHi := l.txHi + l.bitcyc, txPrev := v } else { l with txLo := l.txLo + l.bitcyc, txPrev := v }

namespace State

/-- One bit position of TRANSMIT (R151). -/
def txBit (s : State) (v : Level) : State :=
  (if v = s.line.txPrev then s else s.flushPair).mapLine (·.addPeriod v)

/-- Drive the transmit-enable pin, if one is configured (R162). -/
def driveTxen (v : Level) (s : State) : State := if s.line.ctrl.txenV then s.pinWrite s.line.txenPin v else s

/-- `IE` is saved, and cleared when `CTRL.INTTX = 0` (R151, R161). -/
def txMask (s : State) : State :=
  if s.line.ctrl.intTx then s.mapLine fun l => { l with txSavedIe := s.ie }
  else (s.mapLine fun l => { l with txSavedIe := s.ie }).writeIe false

/-- `D0` is sampled once and the pair cleared (R151). -/
def txSample (s : State) : State :=
  s.readCcount.2.mapLine fun l =>
    { l with txDl := s.readCcount.1, txHi := 0, txLo := 0, txPrev := inactivePin l.cfg }

/-- The end of TRANSMIT (R151): the final flush, then `IE` restored. -/
def txClose (s : State) : State := s.flushPair.writeIe s.flushPair.line.txSavedIe

/-- TRANSMIT (R151). -/
def transmit (bytes : List Byte) (s : State) : State :=
  (((txLevels s.line.cfg bytes).foldl txBit (s.driveTxen true).txMask.txSample).txClose).driveTxen false

end State

/-- WRITE (R150, R163, R164). -/
def execWrite (payload : List Byte) (s : State) : Host.Outcome State Fault Refusal :=
  if payload.length = 0 ∨ s.decodePass.line.ctrl.life ≠ .started ∨ s.decodePass.line.txValid = false then
    .next (s.decodePass.respond 0)
  else if s.decodePass.line.halfDup = true ∧ s.decodePass.line.ctrl.txDir = false then
    .fault (.directionViolation (writeWord payload.length))
  else .next ((s.decodePass.transmit payload).respond (BitVec.ofNat 32 payload.length))

/-- TX_SEGMENT (R155). -/
def execTxSegment (v : Level) (dur : Word) (s : State) : Host.Outcome State Fault Refusal := .next (s.txSegment v dur)

/-- DELAY_UNTIL (R158). -/
def execDelayUntil (d : Word) (s : State) : Host.Outcome State Fault Refusal := .next (s.delayUntil d)

end Sys2Proof.Machine
end

