-- ==== Sys2Proof/Machine/Dispatch.lean ====
section
/-! DEFINITION. One arm per instruction. -/

namespace Sys2Proof.Machine

def exec (i : Instr) (s : State) : Host.Outcome State Fault Refusal :=
  match i with
  | .beginLine b => Sys2Proof.Machine.execBegin b s
  | .endLine => Sys2Proof.Machine.execEnd s
  | .setTxen v p => Sys2Proof.Machine.execSetTxen v p s
  | .enableIntTx e => Sys2Proof.Machine.execEnableIntTx e s
  | .enableTx e => Sys2Proof.Machine.execEnableTx e s
  | .read => Sys2Proof.Machine.execRead s
  | .peek => Sys2Proof.Machine.execPeek s
  | .available => Sys2Proof.Machine.execAvailable s
  | .write payload => Sys2Proof.Machine.execWrite payload s
  | .flush => Sys2Proof.Machine.execFlush s
  | .overflow => Sys2Proof.Machine.execOverflow s
  | .poll => Sys2Proof.Machine.execPoll s
  | .setNotify e => Sys2Proof.Machine.execSetNotify e s
  | .edgeCapture => Sys2Proof.Machine.execEdgeCapture s
  | .decodePass => Sys2Proof.Machine.execDecodePass s
  | .processEdge w => Sys2Proof.Machine.execProcessEdge w s
  | .txSegment v dur => Sys2Proof.Machine.execTxSegment v dur s
  | .delayUntil d => Sys2Proof.Machine.execDelayUntil d s

end Sys2Proof.Machine
end

