-- ==== Sys2Proof/Machine/Step.lean ====
section
/-! DEFINITION. One step of the machine (30_encoding.md R84): a host request, or an internal action handed in from
outside, or one command of the active line's stream, with the boundary after it. -/

namespace Sys2Proof.Machine

/-- R84 steps 1 to 5 on the active line: an absent word is waited for, an illegal one is answered (R85). -/
def stepForeground (s : State) : Host.Outcome State Fault Refusal :=
  match decode s.line.cmd with
  | .instr i => onNext (exec i (s.consume i.words)) fun t => (t.advanceCpos i.words).tick
  | .reject .noWord => .next s.tick
  | .reject (.payloadMissing _) => .next s.tick
  | .reject (.unassignedOp x) => .next (s.illegalCommand x).tick
  | .reject (.mustBeZero x) => .next (s.illegalCommand x).tick

/-- One step. -/
def step (s : State) : Host.Outcome State Fault Refusal :=
  match s.host with
  | r :: rs => State.serve r { s with host := rs }
  | [] =>
    match decodeAction s.action with
    | some i => onNext (exec i { s with action := [] }) State.tick
    | none => stepForeground s

/-- `s` with the instruction of a table row's bits where `step` takes its next instruction from: a command at the head
of the active line's stream, an internal action in its slot; no host request before it (assumption 14). -/
def State.withFetchWord (s : State) (nbits w : Nat) : State :=
  match decode (commandTableWords nbits w), decodeAction (actionTableWords nbits w) with
  | .reject _, some _ => { s with host := [], action := actionTableWords nbits w }
  | _, _ => { s with host := [], action := [], line := { s.line with cmd := commandTableWords nbits w } }

end Sys2Proof.Machine
end

