-- ==== Sys2Proof/Safety.lean ====
section
/-! DEFINITION. The terms claims are stated in: the invariant of 10_state.md R42 with what makes it inductive, the parts
of a line a frame speaks of, environments that leave the foreground alone or are fair, and readings of the event trace. -/

namespace Sys2Proof.Machine

/-! ### The invariant (R42, R27, R26) -/

/-- What holds of every line `l` under the registry `reg` after every step of every agent. -/
structure LineInv (reg : List (Option Nat)) (l : Line) : Prop where
  /-- The construction was legal (R22). -/
  legal : cfgLegal l.cfg = true
  /-- The derived flag of R23. -/
  halfDup_eq : l.halfDup = (l.rxValid && l.txValid && l.cfg.rxPin == l.cfg.txPin)
  /-- R42 (a). -/
  eHead_lt : l.eHead < l.cfg.ne
  eTail_lt : l.eTail < l.cfg.ne
  bHead_lt : l.bHead < l.cfg.nb
  bTail_lt : l.bTail < l.cfg.nb
  /-- R42 (b). -/
  rxPos_le : l.rxPos.code.toNat ≤ 9
  /-- R42 (c). -/
  txDir_half : l.ctrl.txDir = true → l.halfDup = true
  /-- R42 (d). -/
  one_direction : l.halfDup = true → l.ctrl.rxArmed = true → l.ctrl.txDir = false
  /-- R42 (e). -/
  slot_started : l.slot ≠ 0xFF ↔ l.ctrl.life = .started
  slot_reg : l.slot ≠ 0xFF → reg[l.slot.toNat]? = some (some l.id)
  /-- R42 (f). -/
  armed_started : l.ctrl.rxArmed = true → l.ctrl.life = .started ∧ l.rxValid = true
  /-- R27. -/
  period : l.ctrl.life = .started → 2 ≤ l.bitcyc.toNat ∧ 9 * l.bitcyc.toNat < 2 ^ 31
  /-- A configured transmit-enable pin is none of the line's own pins (R184). -/
  txen_apart : l.ctrl.txenV = true → l.txenPin ≠ l.cfg.rxPin ∧ l.txenPin ≠ l.cfg.txPin
  /-- The rings are in the canonical form of their storage. -/
  slotE_wf : l.slotE.wf unwrittenEdge = true
  slotB_wf : l.slotB.wf unwrittenByte = true

/-- What holds of the whole machine after every step. -/
structure StateInv (s : State) : Prop where
  line_inv : ∀ l ∈ s.lines, LineInv s.reg l
  /-- Lines have their names apart (R231). -/
  ids_nodup : (s.lines.map (·.id)).Nodup
  ids_lt : ∀ l ∈ s.lines, l.id < s.lines.length
  /-- A slot number fits `SLOT` and is not 0xFF (R26, assumption 9). -/
  slots_le : s.reg.length ≤ 255
  /-- No two lines own one pin (R75). -/
  pins_apart : s.lines.Pairwise fun l m => cfgShares l.cfg m.cfg = false
  pins_wf : s.pins.wf untouchedPin = true

/-! ### Parts of a line that frames speak of -/

/-- Identity, configuration and control registers (R21 to R27). -/
def Line.control (l : Line) : Nat × Cfg × Bool × Bool × Bool × Nat × Ctrl × Pin × BitVec 8 × Word :=
  (l.id, l.cfg, l.rxValid, l.txValid, l.halfDup, l.cpos, l.ctrl, l.txenPin, l.slot, l.bitcyc)

/-- The decoder state (R33 to R35). -/
def Line.decoder (l : Line) : RxPos × Byte × Word := (l.rxPos, l.rxByte, l.rxLast)

/-- The byte ring (R36, R37). -/
def Line.byteRing (l : Line) : Memory Byte × Nat × Nat := (l.slotB, l.bHead, l.bTail)

/-- What EDGE_CAPTURE may write (R227). -/
def Line.isrOwned (l : Line) : Memory Word × Nat × Bool := (l.slotE, l.eHead, l.eOvf)

/-- The transmitter's working state (R39). -/
def Line.transmitter (l : Line) : Word × Word × Word × Level × Bool := (l.txDl, l.txHi, l.txLo, l.txPrev, l.txSavedIe)

/-- Everything of a line that only a foreground writes (R10, R227). -/
def Line.foreground (l : Line) :=
  (l.control, l.decoder, l.byteRing, l.transmitter, l.eTail, l.lineOvf, l.resp)

/-- How pin `p` is driven: its mode and its output latch (R9, R234). -/
def State.drive (s : State) (p : Pin) : PinDir × Level := ((s.pin p).dir, (s.pin p).out)

/-- What no foreground operation of the active line touches (R9, R233): the parameters, the action slot, and everything
of the other lines that only their own foregrounds write. -/
def SameElsewhere (s t : State) : Prop :=
  t.par = s.par ∧ t.action = s.action ∧ t.others.map Line.foreground = s.others.map Line.foreground

/-- And the registry and `IE` are as before. -/
def SamePlatform (s t : State) : Prop := SameElsewhere s t ∧ t.reg = s.reg ∧ t.ie = s.ie

/-- Every pin is driven as before. -/
def SameDrive (s t : State) : Prop := ∀ p, t.drive p = s.drive p

/-- The bytes the byte ring holds, oldest first (R37). -/
def Line.heldBytes (l : Line) : List Byte :=
  (List.range l.bCount).map fun k => l.slotB.read unwrittenByte ((l.bTail + k) % l.cfg.nb)

/-- The edge words the edge ring holds, oldest first (R32). -/
def Line.heldEdges (l : Line) : List Word :=
  (List.range l.eCount).map fun k => l.slotE.read unwrittenEdge ((l.eTail + k) % l.cfg.ne)

/-! ### Environments -/

/-- The script's next `n` turns are empty: the environment leaves the foreground alone for that long. -/
def Quiet (n : Nat) (s : State) : Prop := s.env.take n = List.replicate n []

/-- The receive-pin interrupt of a line named `id` is due: R102's three conditions hold of it. -/
def State.IsrDue (id : Nat) (s : State) : Prop := ∃ l ∈ s.lines, l.id = id ∧ s.isrDue l = true

/-! ### Readings of the event trace -/

/-- The segment an event records (R155). -/
def Event.segment? : Event → Option (Level × Word)
  | .txSegment v dur => some (v, dur)
  | _ => none

/-- The deadline an event records (R158). -/
def Event.deadline? : Event → Option Word
  | .delayUntil d => some d
  | _ => none

/-- The level an event records as written to pin `p` (R9). -/
def Event.writeTo? (p : Pin) : Event → Option Level
  | .pinWrite q v _ => if q = p then some v else none
  | _ => none

/-- The notification an event records (R193). -/
def Event.notify? : Event → Option Nat
  | .notify c => some c
  | _ => none

/-- The edge word an event records as captured (R88, R100). -/
def Event.captured? : Event → Option Word
  | .edgeCapture w => some w
  | _ => none

/-- The cycle at which an event records a write to pin `p`, in unwrapped time (R9, R160). -/
def Event.writeTime? (p : Pin) : Event → Option Nat
  | .pinWrite q _ t => if q = p then some t else none
  | _ => none

/-- A step of driving the pins: a pin write (R9), or the start of a wait for a deadline (R158). -/
inductive DriveStep where
  | write (p : Pin) (v : Level)
  | wait (d : Word)
  deriving DecidableEq, Repr

/-- The step an event records. -/
def Event.driveStep? : Event → Option DriveStep
  | .pinWrite p v _ => some (.write p v)
  | .delayUntil d => some (.wait d)
  | _ => none

/-- The segments of a trace, in order. -/
def segments (tr : List Event) : List (Level × Word) := tr.filterMap Event.segment?

/-- The deadlines of a trace, in order. -/
def deadlines (tr : List Event) : List Word := tr.filterMap Event.deadline?

/-- The levels written to pin `p` in a trace, in order. -/
def writesTo (p : Pin) (tr : List Event) : List Level := tr.filterMap (Event.writeTo? p)

/-- The notifications of a trace, in order. -/
def notifications (tr : List Event) : List Nat := tr.filterMap Event.notify?

/-- The edge words a trace records as captured, in order. -/
def captures (tr : List Event) : List Word := tr.filterMap Event.captured?

/-- The cycles of the writes to pin `p` in a trace, in order. -/
def writeTimes (p : Pin) (tr : List Event) : List Nat := tr.filterMap (Event.writeTime? p)

/-- The pin writes and the waits of a trace, in order. -/
def driveSteps (tr : List Event) : List DriveStep := tr.filterMap Event.driveStep?

/-- Maximal runs of equal level, with their lengths (R154). -/
def runs : List Level → List (Level × Nat)
  | [] => []
  | v :: vs =>
    match runs vs with
    | (u, k) :: rest => if u = v then (u, k + 1) :: rest else (v, 1) :: (u, k) :: rest
    | [] => [(v, 1)]

/-- The running sums of durations from a start value: the deadlines of R157. -/
def deadlinesFrom (d0 : Word) : List Word → List Word
  | [] => []
  | d :: ds => (d0 + d) :: deadlinesFrom (d0 + d) ds

/-- The edge words captured by the lines named `id`. -/
def State.capturedBy (id : Nat) (s : State) : List Word :=
  (s.lines.filter (·.id == id)).flatMap fun l => captures l.trace

/-- R102's weak fairness, of a run given by the states at its boundaries, each before its turn (`State.tick`): the
environment does not delay an interrupt forever while it is due; a turn captures. It is an assumption about runs, which
no step enforces (assumption 26). -/
def WeaklyFair (run : Nat → State) : Prop :=
  ∀ id k, (∀ j, k ≤ j → (run j).IsrDue id) → ∃ j, k ≤ j ∧ (run j).tick.capturedBy id ≠ (run j).capturedBy id

end Sys2Proof.Machine
end

