-- ==== Sys2Proof/Certificates/Slice0/Obligations.lean ====
section
/-! DEFINITION. The statements about this model, each formalising or deriving from numbered rules of spec/. -/

section

open Sys2Proof Sys2Proof.Machine

/-! ### Encodings (30_encoding.md) -/

/-- R92: the worked encodings, both ways. -/
def Obligations.DecodesWorkedEncodings : Prop :=
  (decode [0x01002580] = .instr (.beginLine 9600) ∧ encode (.beginLine 9600) = [0x01002580]) ∧
  (decode [0x03000105] = .instr (.setTxen true 5) ∧ encode (.setTxen true 5) = [0x03000105]) ∧
  (decode [0x04000001] = .instr (.enableIntTx true) ∧ encode (.enableIntTx true) = [0x04000001]) ∧
  (decode [0x09000003, 0x0055FF00] = .instr (.write [0x00, 0xFF, 0x55]) ∧
    encode (.write [0x00, 0xFF, 0x55]) = [0x09000003, 0x0055FF00]) ∧
  (decode [0x06000000] = .instr .read ∧ encode .read = [0x06000000])

/-- Every well-formed command, with every operand, decodes from its encoding, whatever words follow it. -/
def Obligations.DecodeOfEncodeIsTheCommand : Prop :=
  ∀ (i : Instr) (rest : List Word), i.isCommand = true → i.wellFormed = true → decode (encode i ++ rest) = .instr i

/-- R88, R85: an internal action's record decodes to it, and its first word is illegal on the command port, whatever
follows. The layout of the data words is the model's (assumption 11). -/
def Obligations.ActionsDecodeOnlyAsActions : Prop :=
  ∀ i : Instr, i.isCommand = false → decodeAction (encode i) = some i ∧
    ∃ (x : Word) (data : List Word), encode i = x :: data ∧ ∀ ws, decode (x :: ws) = .reject (.unassignedOp x)

/-- R83: a word selects the row whose match it meets under that row's mask, and at most one row. A WRITE row is selected
before its payload words are there. -/
def Obligations.RowIsSelectedByMatchAndMask : Prop :=
  ∀ (x : Word) (rest : List Word),
    (opcodeRows.filter fun row => x &&& row.2.2 == row.2.1).length ≤ 1 ∧
    ∀ row ∈ opcodeRows, (x &&& row.2.2 = row.2.1 ↔
      ((∃ i, decode (x :: rest) = .instr i ∧ i.mnemonic = row.1) ∨
        (row.1 = "WRITE" ∧ ∃ m, decode (x :: rest) = .reject (.payloadMissing m))))

/-- R90: every operand is its field, zero-extended. -/
def Obligations.OperandsAreTheirFields : Prop :=
  ∀ (x : Word) (rest : List Word) (i : Instr), decode (x :: rest) = .instr i →
    match i with
    | .beginLine b => b.toNat = x.toNat % 2 ^ 24
    | .setTxen v p => p.toNat = x.toNat % 2 ^ 8 ∧ v = x.getLsbD 8
    | .enableIntTx e | .enableTx e | .setNotify e => e = x.getLsbD 0
    | .write payload => payload.length = x.toNat % 2 ^ 16
    | .endLine | .read | .peek | .available | .flush | .overflow | .poll => x.toNat % 2 ^ 24 = 0
    | .edgeCapture | .decodePass | .processEdge _ | .txSegment _ _ | .delayUntil _ => False

/-- R89: a command is one word long, but for WRITE, whose length its first word tells; the words behind it have no part
in its decoding. -/
def Obligations.LengthIsToldByTheFirstWord : Prop :=
  ∀ (x : Word) (rest : List Word) (i : Instr), decode (x :: rest) = .instr i →
    i.words = (if x.extractLsb' 24 8 = 0x09 ∧ x.extractLsb' 16 8 = 0 then 1 + (x.toNat % 2 ^ 16 + 3) / 4 else 1) ∧
    i.words ≤ (x :: rest).length ∧ ∀ more, decode ((x :: rest).take i.words ++ more) = .instr i

/-- R87: byte `j` of a payload is bits `8*(j mod 4)+7 .. 8*(j mod 4)` of payload word `j/4`, and nothing else of the
words counts. -/
def Obligations.PayloadIsPackedLittleEndian : Prop :=
  ∀ (x : Word) (rest : List Word) (payload : List Byte), decode (x :: rest) = .instr (.write payload) →
    payload.length ≤ 65535 ∧ (Instr.write payload).words = 1 + (payload.length + 3) / 4 ∧
    (payload.length + 3) / 4 ≤ rest.length ∧
    ∀ j, j < payload.length → ∀ w, rest[j / 4]? = some w → payload[j]? = some (w.extractLsb' (8 * (j % 4)) 8)

/-- R85: an illegal word: `CPOS` advances by one word, whatever its OP, `IllegalCommand` is recorded with it, the response
is ILLEGAL, and nothing else changes. The other agents' turn behind it is the model's (assumption 21). -/
def Obligations.IllegalWordIsAnswered : Prop :=
  ∀ (s : State) (x : Word) (rest : List Word), s.host = [] → decodeAction s.action = none → s.line.cmd = x :: rest →
    ((x.extractLsb' 24 8).toNat = 0 ∨ 0x0E ≤ (x.extractLsb' 24 8).toNat ∨
      ∃ row ∈ opcodeRows, x &&& 0xFF000000 = row.2.1 ∧ x &&& row.2.2 &&& 0x00FFFFFF ≠ 0) →
    step s = .next (State.tick { s with line := { s.line with
      cmd := rest
      cpos := s.line.cpos + 1
      resp := s.line.resp ++ [0xFFFFFFFE]
      trace := s.line.trace ++ [.condition (.illegalCommand x)] } })

/-! ### Sequencing -/

/-- R84: what a step does around `exec`: a command's words are taken off the stream before it runs, `CPOS` advances by
its length after it, and the other agents take a turn (assumption 21). An action record handed in from outside runs the same way
(assumption 11). -/
def Obligations.StepRunsTheDecodedInstruction : Prop :=
  (∀ (s : State) (i : Instr), s.host = [] → decodeAction s.action = none → decode s.line.cmd = .instr i →
    step s = onNext (exec i { s with line := { s.line with cmd := s.line.cmd.drop i.words } })
      fun t => State.tick { t with line := { t.line with cpos := t.line.cpos + i.words } }) ∧
  (∀ (s : State) (i : Instr), s.host = [] → decodeAction s.action = some i →
    step s = onNext (exec i { s with action := [] }) State.tick)

/-- R84: the foreground waits for a word the host has not supplied, and changes nothing itself. A WRITE waits for its
payload words (assumption 10). -/
def Obligations.StepWaitsForTheHost : Prop :=
  (∀ s : State, s.host = [] → decodeAction s.action = none → s.line.cmd = [] → step s = .next s.tick) ∧
  (∀ (s : State) (x : Word) (rest : List Word), s.host = [] → decodeAction s.action = none → s.line.cmd = x :: rest →
    x &&& 0xFFFF0000 = 0x09000000 → rest.length < (x.toNat % 2 ^ 16 + 3) / 4 → step s = .next s.tick)

/-- How `CPOS` moves: by the length of a command (R21), by 1 on an illegal word (R85), not at all while the foreground
waits (R84). That a WRITE waits for its payload words is the model's (assumption 10). -/
def Obligations.CposAdvancesByTheLength : Prop :=
  State.reset.line.cpos = 0 ∧
  (∀ (i : Instr) (s t : State), exec i s = .next t → t.line.cpos = s.line.cpos) ∧
  (∀ (i : Instr), i.isCommand = true → i.words = match i with
    | .write payload => 1 + (payload.length + 3) / 4
    | _ => 1) ∧
  ∀ s t : State, s.host = [] → decodeAction s.action = none → step s = .next t →
    t.line.cpos = s.line.cpos + match decode s.line.cmd with
      | .instr i => i.words
      | .reject (.unassignedOp _) | .reject (.mustBeZero _) => 1
      | .reject .noWord | .reject (.payloadMissing _) => 0

/-- R86: every command appends exactly one response word, from the values its row gives; an internal action appends
none. -/
def Obligations.OneResponseForEachCommand : Prop :=
  ∀ (i : Instr) (s t : State), StateInv s → i.wellFormed = true → exec i s = .next t →
    if i.isCommand = true then
      ∃ x : Word, t.line.resp = s.line.resp ++ [x] ∧
        match i with
        | .beginLine _ | .overflow => x = 0 ∨ x = 1
        | .endLine | .setTxen _ _ | .enableIntTx _ | .enableTx _ | .flush | .setNotify _ => x = 0
        | .read | .peek => x.toNat ≤ 0xFF ∨ x = 0xFFFFFFFF
        | .available | .poll => x.toNat = t.line.bCount ∧ x.toNat ≤ s.line.cfg.nb - 1
        | .write payload => x.toNat = payload.length ∨ x = 0
        | .edgeCapture | .decodePass | .processEdge _ | .txSegment _ _ | .delayUntil _ => False
    else t.line.resp = s.line.resp

/-- R220, R164, R235: the one instruction that stops, and when; nothing is refused. -/
def Obligations.OnlyAMisdirectedWriteStops : Prop :=
  ∀ (i : Instr) (s : State),
    (∀ r : Fault, exec i s = .fault r ↔
      ∃ payload : List Byte, i = .write payload ∧ payload ≠ [] ∧ s.line.txValid = true ∧
        s.line.ctrl.life = .started ∧ s.line.halfDup = true ∧ s.line.ctrl.txDir = false ∧
        r = .directionViolation (writeWord payload.length)) ∧
    ∀ r : Refusal, exec i s ≠ .refused r

/-! ### Reset, construction, invariant (10_state.md, 70_reset_and_hazards.md) -/

/-- R250, R23: the reset values the spec gives, and the flags derived at construction. The values of what it calls
unspecified are the model's (assumptions 4 to 7) and not stated here. -/
def Obligations.ConstructionGivesResetValues : Prop :=
  (∀ (par : Params) (n : Nat) (cfg : Cfg),
    (Line.reset par n cfg).cfg = cfg ∧
    (Line.reset par n cfg).cpos = 0 ∧
    (Line.reset par n cfg).ctrl.word = 0x00000004 ∧
    (Line.reset par n cfg).txenPin = 0xFF ∧
    (Line.reset par n cfg).slot = 0xFF ∧
    (Line.reset par n cfg).bitcyc = 0 ∧
    (Line.reset par n cfg).eHead = 0 ∧ (Line.reset par n cfg).eTail = 0 ∧
    (Line.reset par n cfg).bHead = 0 ∧ (Line.reset par n cfg).bTail = 0 ∧
    (Line.reset par n cfg).eOvf = false ∧ (Line.reset par n cfg).lineOvf = false ∧
    (Line.reset par n cfg).rxPos.code = 9 ∧
    (Line.reset par n cfg).rxByte = 0 ∧
    (Line.reset par n cfg).rxLast = 0 ∧
    (Line.reset par n cfg).pendRx = false ∧
    ((Line.reset par n cfg).rxValid = true ↔ cfg.rxPin ≠ 0xFF ∧ cfg.rxPin ∈ par.validRx) ∧
    ((Line.reset par n cfg).txValid = true ↔ cfg.txPin ≠ 0xFF ∧ cfg.txPin ∈ par.validTx) ∧
    ((Line.reset par n cfg).halfDup = true ↔
      (Line.reset par n cfg).rxValid = true ∧ (Line.reset par n cfg).txValid = true ∧ cfg.rxPin = cfg.txPin)) ∧
  (∀ (par : Params) (slots : Nat) (cfg : Cfg),
    (State.boot par slots cfg).ie = true ∧
    (State.boot par slots cfg).line = Line.reset par 0 cfg ∧
    (State.boot par slots cfg).reg.length = slots ∧
    ∀ k, k < slots → (State.boot par slots cfg).reg[k]? = some none)

/-- R237, R22, R75: which constructions are refused, and what the others build, named by the number of
lines already built (assumption 16). `IE` is 1 at line construction (R250; assumption 25). -/
def Obligations.IllegalConstructionIsRefused : Prop :=
  ∀ (s : State) (a : CfgArgs),
    let ne := a.ne.getD (10 * a.nb)
    let illegal := a.nb < 2 ∨ 65535 < a.nb ∨ ne < 2 ∨ 2 ^ 31 < ne
    let shared := ∃ l ∈ s.lines, ∃ p : Pin, p ≠ 0xFF ∧ (p = a.rxPin ∨ p = a.txPin) ∧
      (p = l.cfg.rxPin ∨ p = l.cfg.txPin)
    (illegal ∨ shared → s.construct a = .refused (.configRefused a)) ∧
    (¬ (illegal ∨ shared) → s.construct a = .next { s with ie := true, others := s.others ++
      [Line.reset s.par s.lines.length
        { rxPin := a.rxPin, txPin := a.txPin, invert := a.invert, nb := a.nb, ne := ne }] })

/-- The invariant holds after construction: of any legal configuration with at most 255 registry slots (assumption 9),
and of `State.reset`, whose configuration is the model's (assumption 8). -/
def Obligations.ResetMeetsTheInvariant : Prop :=
  (∀ (par : Params) (slots : Nat) (cfg : Cfg), slots ≤ 255 → 2 ≤ cfg.nb → cfg.nb ≤ 65535 → 2 ≤ cfg.ne → cfg.ne ≤ 2 ^ 31 →
    StateInv (State.boot par slots cfg)) ∧ StateInv State.reset

/-- R42: every step of every agent keeps the invariant. -/
def Obligations.EveryStepKeepsTheInvariant : Prop :=
  (∀ s t : State, StateInv s → step s = .next t → StateInv t) ∧
  (∀ (s : State) (m : Move), StateInv s → StateInv (s.move m))

/-- R24: the fields of the control register's word. -/
def Obligations.ControlWordHasItsFields : Prop :=
  ∀ c : Ctrl,
    c.word.extractLsb' 0 2 = (match c.life with
      | .uninit => 0
      | .started => 1
      | .stopped => 2) ∧
    c.word.getLsbD 2 = c.intTx ∧ c.word.getLsbD 3 = c.txDir ∧ c.word.getLsbD 4 = c.rxArmed ∧
    c.word.getLsbD 5 = c.txenV ∧ c.word.getLsbD 6 = c.notify ∧ c.word.extractLsb' 7 25 = 0

/-- R233, R227: no instruction of the active line touches the parameters, or anything of another line that only that
line's foreground writes. -/
def Obligations.OtherLinesAreLeftAlone : Prop :=
  ∀ (i : Instr) (s t : State), exec i s = .next t → SameElsewhere s t

/-! ### Edge capture and its interrupt (40_edge_capture.md, 60_exceptions.md) -/

/-- R100, R101, R61: EDGE_CAPTURE stores the edge word and advances `E_HEAD`, or sets `E_OVF` and drops it; the record
of the event apart, nothing else changes. That the record carries the edge word, and stands before the condition's, is
the model's (assumption 15). -/
def Obligations.EdgeCaptureStoresOrDrops : Prop :=
  ∀ s : State,
    let w := (s.ccount &&& 0xFFFFFFFE) ||| (if s.pinLevel s.line.id s.line.cfg.rxPin = true then 1 else 0)
    let next := (s.line.eHead + 1) % s.line.cfg.ne
    (next ≠ s.line.eTail → s.line.slotE.wf unwrittenEdge = true →
      ∃ slots, exec .edgeCapture s = .next { s with line := { s.line with
          slotE := slots, eHead := next, trace := s.line.trace ++ [.edgeCapture w] } } ∧
        ∀ k, slots.read unwrittenEdge k = if k = s.line.eHead then w else s.line.slotE.read unwrittenEdge k) ∧
    (next = s.line.eTail →
      exec .edgeCapture s = .next { s with line := { s.line with
        eOvf := true
        trace := s.line.trace ++ [.edgeCapture w, .condition (.bufferOverflowEdge w)] } })

/-- R32, R37: a ring of `N` slots holds at most `N - 1` elements, and is full then. -/
def Obligations.RingsHoldOneLessThanTheirSlots : Prop :=
  ∀ l : Line, 2 ≤ l.cfg.ne → 2 ≤ l.cfg.nb → l.eHead < l.cfg.ne → l.eTail < l.cfg.ne → l.bHead < l.cfg.nb →
    l.bTail < l.cfg.nb →
    ((l.eCount : Int) = ((l.eHead : Int) - l.eTail) % l.cfg.ne ∧ l.eCount ≤ l.cfg.ne - 1 ∧
      ((l.eHead + 1) % l.cfg.ne = l.eTail ↔ l.eCount = l.cfg.ne - 1)) ∧
    ((l.bCount : Int) = ((l.bHead : Int) - l.bTail) % l.cfg.nb ∧ l.bCount ≤ l.cfg.nb - 1 ∧
      ((l.bHead + 1) % l.cfg.nb = l.bTail ↔ l.bCount = l.cfg.nb - 1))

/-- R61, R62, R28: the edge ring is a queue: a push that finds room adds its word behind the others, and a pop gives the
oldest word and leaves the rest. -/
def Obligations.EdgeRingIsAQueue : Prop :=
  ∀ (l : Line) (w : Word), 2 ≤ l.cfg.ne → l.eHead < l.cfg.ne → l.eTail < l.cfg.ne →
    l.slotE.wf unwrittenEdge = true →
    ((l.eHead + 1) % l.cfg.ne ≠ l.eTail → (l.ePush w).heldEdges = l.heldEdges ++ [w]) ∧
    ((l.eHead + 1) % l.cfg.ne = l.eTail → (l.ePush w).heldEdges = l.heldEdges ∧ (l.ePush w).eOvf = true) ∧
    (l.eHead ≠ l.eTail →
      l.heldEdges = l.eFront :: ({ l with eTail := (l.eTail + 1) % l.cfg.ne } : Line).heldEdges)

/-- R102, R225, R227, R228: the interrupt of registry slot `slot` is delivered to the line bound to it, which takes it
if it may: its pending bit is cleared and EDGE_CAPTURE runs, at this counter and this pin level. Nothing of a foreground
changes, and `IE` is as it was on return. The fourth condition, that no interrupt of the same line has read the counter
in this cycle, is the model's reading of R104 (assumption 13). -/
def Obligations.InterruptIsTakenWhenItMayBe : Prop :=
  (∀ (s : State) (slot line : Nat), s.reg[slot]? = some (some line) →
    (s.takeInterrupt slot).lines = s.lines.map fun l =>
      if l.id = line ∧ l.ctrl.rxArmed = true ∧ l.pendRx = true ∧ s.ie = true ∧ l.capCycle ≠ some s.cycle then
        ({ l with pendRx := false, capCycle := some s.cycle } : Line).capture s.ccount (s.pinLevel l.id l.cfg.rxPin)
      else l) ∧
  (∀ (s : State) (slot : Nat), s.reg[slot]? = some none ∨ s.reg[slot]? = none → s.takeInterrupt slot = s) ∧
  ∀ (s : State) (slot : Nat),
    (s.takeInterrupt slot).lines.map Line.foreground = s.lines.map Line.foreground ∧
    (s.takeInterrupt slot).lines.map (·.cmd) = s.lines.map (·.cmd) ∧
    (s.takeInterrupt slot).ie = s.ie ∧ (s.takeInterrupt slot).reg = s.reg ∧ (s.takeInterrupt slot).pins = s.pins ∧
    (s.takeInterrupt slot).cycle = s.cycle ∧ (s.takeInterrupt slot).par = s.par

/-- R223: while `IE = 0` no capture runs in any turn, and no pending bit is lost. -/
def Obligations.MaskedInterruptsStayPending : Prop :=
  ∀ s : State, s.ie = false →
    s.tick.lines.map Line.isrOwned = s.lines.map Line.isrOwned ∧
    List.Forall₂ (fun l m : Line => l.pendRx = true → m.pendRx = true) s.lines s.tick.lines

/-- R71, R159: a command issued with `IE = 0` runs without any capture, even where it restores `IE` on the way: none is
recorded, no edge word is stored, no `E_OVF` is set, and no head moves, but for BEGIN's reset of its own line's ring. -/
def Obligations.MaskedCommandsCaptureNothing : Prop :=
  ∀ (i : Instr) (s t : State), i.isCommand = true → s.ie = false → exec i s = .next t →
    captures t.line.trace = captures s.line.trace ∧ t.others.map (·.trace) = s.others.map (·.trace) ∧
    t.others.map Line.isrOwned = s.others.map Line.isrOwned ∧ t.line.slotE = s.line.slotE ∧
    (t.line.eOvf = true → s.line.eOvf = true) ∧
    (t.line.eHead = s.line.eHead ∨ ((∃ b, i = .beginLine b) ∧ t.line.eHead = 0))

/-- R224, R234: a line reads the last value written to a pin that is an output of this line, and the environment's level
of every other pin, also of one that another line drives; a change of the level an attached line reads sets its pending
bit, and no other line's; attaching and detaching clear it. That a transition is a change of the level read is the
model's (assumption 20), and so is whose output a pin of two lines is (assumption 24). -/
def Obligations.TransitionsSetPending : Prop :=
  (∀ (s : State) (id : Nat) (p : Pin),
    s.pinLevel id p = if (s.pin p).dir = .output id then (s.pin p).out else (s.pin p).ext) ∧
  (∀ (s : State) (p : Pin) (ps : PinState),
    (s.setPin p ps).lines = s.lines.map fun l =>
      if l.ctrl.rxArmed = true ∧ l.cfg.rxPin = p ∧
          (if ps.dir = .output l.id then ps.out else ps.ext) ≠ s.pinLevel l.id p then
        { l with pendRx := true }
      else l) ∧
  (∀ s : State, s.attach.line.pendRx = false ∧ s.attach.line.ctrl.rxArmed = true ∧
    s.detach.line.pendRx = false ∧ s.detach.line.ctrl.rxArmed = false)

/-- R223: every write of `IE` restores the value saved, so a command leaves `IE` as it found it; the two internal
actions that may write it on their own do so only with `CTRL.INTTX = 0`. -/
def Obligations.InterruptEnableIsRestored : Prop :=
  ∀ (i : Instr) (s t : State), exec i s = .next t →
    match i with
    | .txSegment _ _ | .delayUntil _ =>
      (s.line.ctrl.intTx = true → t.ie = s.ie) ∧ (t.ie = s.ie ∨ t.ie = false)
    | .beginLine _ | .endLine | .setTxen _ _ | .enableIntTx _ | .enableTx _ | .read | .peek | .available | .write _
    | .flush | .overflow | .poll | .setNotify _ | .edgeCapture | .decodePass | .processEdge _ => t.ie = s.ie

/-! ### The decoder (41_decoder.md) -/

/-- R133: a pass on a line that cannot receive does nothing. -/
def Obligations.PassIsANoOpWithoutReception : Prop :=
  ∀ s : State, s.line.rxValid = false ∨ s.line.ctrl.life ≠ .started → exec .decodePass s = .next s

/-- R120, R121, R70: whatever the other agents do meanwhile, a pass processes exactly the edges held when it loaded
`E_HEAD`, oldest first, and leaves `E_TAIL` at that head; `LINE_OVF` is set if the loaded `E_OVF` was, and never
cleared. -/
def Obligations.PassProcessesTheSnapshot : Prop :=
  ∀ s : State, StateInv s → s.line.rxValid = true → s.line.ctrl.life = .started →
    let u := (s.log .decodePass).tick
    let l := u.line.heldEdges.foldl (fun l w => l.processEdge w) s.line
    ∃ t, exec .decodePass s = .next t ∧
      (u.line.heldEdges ≠ [] → t.line.decoder = l.decoder ∧ t.line.byteRing = l.byteRing ∧
        t.line.lineOvf = (l.lineOvf || u.tick.line.eOvf)) ∧
      t.line.eTail = u.line.eHead ∧
      t.line.control = s.line.control ∧ t.line.transmitter = s.line.transmitter ∧ t.line.resp = s.line.resp ∧
      SamePlatform s t ∧ SameDrive s t

/-- R130, R121: a pass that finds no edges and an idle decoder changes no decoder state, no byte and no index; it only
folds the overflow flag: `LINE_OVF` is set if the loaded `E_OVF` was, and `E_OVF` cleared, whatever the other agents do.
A pass with interrupts masked folds it in every position. -/
def Obligations.EmptyPassOnlyFoldsTheOverflow : Prop :=
  (∀ s : State, StateInv s → s.line.rxPos = .idle →
    let u := (s.log .decodePass).tick
    u.line.heldEdges = [] →
    ∃ t, exec .decodePass s = .next t ∧ t.line.decoder = s.line.decoder ∧ t.line.byteRing = s.line.byteRing ∧
      t.line.eTail = s.line.eTail ∧ (s.line.lineOvf = true → t.line.lineOvf = true) ∧
      (s.line.rxValid = true → s.line.ctrl.life = .started →
        t.line.lineOvf = (s.line.lineOvf || u.tick.line.eOvf) ∧ t.line.eOvf = false)) ∧
  ∀ s : State, StateInv s → s.ie = false → s.line.rxValid = true → s.line.ctrl.life = .started →
    ∃ t, exec .decodePass s = .next t ∧ t.line.eOvf = false ∧
      ((s.line.eOvf = true ∨ s.line.lineOvf = true) → t.line.lineOvf = true) ∧
      (s.line.eOvf = false → s.line.heldEdges = [] → s.line.rxPos = .idle → t.line.lineOvf = s.line.lineOvf)

/-- R122, R123: missed-stop-bit recovery, whatever the other agents do meanwhile. `u` is the state at the pass's load of
`E_HEAD`, `v` the one after the overflow is folded, and `now` the `CCOUNT()` of R122; `byte` has its last data bits at the
level of the last edge. The last clause says what `now`, the loaded `E_OVF` and the edge ring are in an environment that
leaves the foreground alone for the pass. -/
def Obligations.RecoverySynthesizesTheStopBit : Prop :=
  ∀ s : State, StateInv s → s.line.rxValid = true → s.line.ctrl.life = .started → s.line.rxPos ≠ .idle →
    let u := (s.log .decodePass).tick
    let v := u.foldOverflow
    let now := v.tick.ccount
    let r := match s.line.rxPos with
      | .data p => 8 - p.val
      | .start => 9
      | .idle => 0
    let lprev := xor (s.line.rxLast.getLsbD 0) s.line.cfg.invert
    u.line.eHead = u.line.eTail →
    ∃ t, exec .decodePass s = .next t ∧ t.line.eTail = s.line.eTail ∧ v.line.eOvf = false ∧
      ((now - (s.line.rxLast &&& 0xFFFFFFFE)).toInt > ((r * s.line.bitcyc.toNat : Nat) : Int) →
        ∃ byte : Byte,
          (∀ k, k < 8 → byte.getLsbD k =
            if 8 - min r 8 ≤ k then lprev else s.line.rxByte.getLsbD (k + min r 8)) ∧
          t.line.byteRing = (s.line.bPush byte).byteRing ∧
          t.line.lineOvf = ((s.line.bPush byte).lineOvf || u.tick.line.eOvf) ∧
          t.line.rxPos = .idle ∧ t.line.rxByte = 0 ∧
          t.line.rxLast = (((s.line.rxLast &&& 0xFFFFFFFE) + BitVec.ofNat 32 (r * s.line.bitcyc.toNat)) &&& 0xFFFFFFFE) |||
            (if s.line.cfg.invert then 0 else 1)) ∧
      ((now - (s.line.rxLast &&& 0xFFFFFFFE)).toInt ≤ ((r * s.line.bitcyc.toNat : Nat) : Int) →
        t.line.decoder = s.line.decoder ∧ t.line.byteRing = s.line.byteRing ∧
        t.line.lineOvf = (s.line.lineOvf || u.tick.line.eOvf)) ∧
      (Quiet 4 s → now = s.ccount ∧ u.tick.line.eOvf = s.line.eOvf ∧ t.line.eOvf = false ∧
        u.line.eHead = s.line.eHead ∧ t.line.eHead = s.line.eHead ∧ t.line.slotE = s.line.slotE)

/-- R124: an edge that comes too soon is skipped, and only the record of it is left; which edges are accepted, read
unsigned. That the action is recorded before its condition is the model's (assumption 15). -/
def Obligations.EarlyEdgeIsSkipped : Prop :=
  (∀ (s : State) (w : Word),
    ((w &&& 0xFFFFFFFE) - (s.line.rxLast &&& 0xFFFFFFFE) - (s.line.bitcyc >>> 1)).toInt < 0 →
    exec (.processEdge w) s = .next { s with line := { s.line with
      trace := s.line.trace ++ [.processEdge w, .condition (.timingAnomaly w)] } }) ∧
  ∀ rxLast w b : Word, 0 ≤ ((w &&& 0xFFFFFFFE) - (rxLast &&& 0xFFFFFFFE) - (b >>> 1)).toInt ↔
    (b >>> 1).toNat ≤ ((w &&& 0xFFFFFFFE) - (rxLast &&& 0xFFFFFFFE)).toNat ∧
    ((w &&& 0xFFFFFFFE) - (rxLast &&& 0xFFFFFFFE)).toNat ≤ (b >>> 1).toNat + 2 ^ 31 - 1

/-- R124, R125: how many bit periods an accepted interval counts. The bounds are those R124's formula gives; they are
R125's for an even bit period, and an exact multiple counts exactly (assumption 22). -/
def Obligations.PeriodsRoundToTheNearest : Prop :=
  ∀ (rxLast w b : Word) (k : Nat), 2 ≤ b.toNat → 9 * b.toNat < 2 ^ 31 → 0 ≤ edgeDelta rxLast w b → 1 ≤ k →
    let span := ((w &&& 0xFFFFFFFE) - (rxLast &&& 0xFFFFFFFE)).toNat
    let h := (b >>> 1).toNat
    (periods (edgeDelta rxLast w b) b = k ↔ (k - 1) * b.toNat + h ≤ span ∧ span < k * b.toNat + h) ∧
    (b.toNat % 2 = 0 → (periods (edgeDelta rxLast w b) b = k ↔
      k * b.toNat - h ≤ span ∧ span < (k + 1) * b.toNat - h)) ∧
    (span = k * b.toNat → periods (edgeDelta rxLast w b) b = k)

/-- R126: an accepted edge in IDLE. -/
def Obligations.IdleWaitsForTheStartEdge : Prop :=
  ∀ (s : State) (w : Word), s.line.rxPos = .idle → 0 ≤ edgeDelta s.line.rxLast w s.line.bitcyc →
    exec (.processEdge w) s = .next { s with line := { s.line with
      rxLast := w
      rxPos := if xor (w.getLsbD 0) s.line.cfg.invert = false then .start else .idle
      trace := s.line.trace ++ [.processEdge w] } }

/-- R127: an accepted edge in START or DATA(p): `m` data bits at the level of the previous edge, and the byte's
completion. That the action is recorded before the condition of a dropped byte is the model's (assumption 15). -/
def Obligations.AcceptedEdgeAssemblesData : Prop :=
  ∀ (s : State) (w : Word), s.line.rxPos ≠ .idle → 0 ≤ edgeDelta s.line.rxLast w s.line.bitcyc →
    let n := periods (edgeDelta s.line.rxLast w s.line.bitcyc) s.line.bitcyc
    let p := match s.line.rxPos with
      | .data p => p.val
      | .start => 0
      | .idle => 0
    let m := min (if s.line.rxPos = .start then n - 1 else n) (8 - p)
    let lprev := xor (s.line.rxLast.getLsbD 0) s.line.cfg.invert
    ∃ byte : Byte,
      (∀ k, k < 8 → byte.getLsbD k = if 8 - m ≤ k then lprev else s.line.rxByte.getLsbD (k + m)) ∧
      (∀ h : p + m < 8, exec (.processEdge w) s = .next { s with line := { s.line with
        rxLast := w, rxByte := byte, rxPos := .data ⟨p + m, h⟩, trace := s.line.trace ++ [.processEdge w] } }) ∧
      (8 ≤ p + m →
        let l := ({ s.line with rxLast := w, trace := s.line.trace ++ [.processEdge w] } : Line).bPush byte
        exec (.processEdge w) s = .next { s with line := { l with
          rxByte := 0
          rxPos := if xor (w.getLsbD 0) s.line.cfg.invert = false then .start else .idle } })

/-- R63, R128: a push of a byte: it goes behind the bytes held, or is dropped with `LINE_OVF` set. -/
def Obligations.BytePushStoresOrDrops : Prop :=
  ∀ (l : Line) (b : Byte),
    (2 ≤ l.cfg.nb → l.bHead < l.cfg.nb → l.bTail < l.cfg.nb → l.slotB.wf unwrittenByte = true →
      (l.bHead + 1) % l.cfg.nb ≠ l.bTail →
      (l.bPush b).heldBytes = l.heldBytes ++ [b] ∧
      ∃ slots, l.bPush b = { l with slotB := slots, bHead := (l.bHead + 1) % l.cfg.nb } ∧
        ∀ k, slots.read unwrittenByte k = if k = l.bHead then b else l.slotB.read unwrittenByte k) ∧
    ((l.bHead + 1) % l.cfg.nb = l.bTail →
      l.bPush b = { l with lineOvf := true, trace := l.trace ++ [.condition (.bufferOverflowByte b)] })

/-- R129: an even shift of every timestamp shifts `RX_LAST` alone. A timestamp has no bit 0, so only an even constant
can be added to it. -/
def Obligations.DecodingIsShiftInvariant : Prop :=
  ∀ (c : Word) (ws : List Word) (l : Line), c.getLsbD 0 = false →
    let run := fun (l : Line) (ws : List Word) => ws.foldl (fun l w => l.processEdge w) l
    let a := run l ws
    let b := run { l with rxLast := l.rxLast + c } (ws.map (· + c))
    (b.rxPos, b.rxByte, b.byteRing, b.lineOvf, b.rxLast) = (a.rxPos, a.rxByte, a.byteRing, a.lineOvf, a.rxLast + c) ∧
    ∀ now : Word,
      ((b.recover (now + c)).rxPos, (b.recover (now + c)).rxByte, (b.recover (now + c)).byteRing,
        (b.recover (now + c)).lineOvf, (b.recover (now + c)).rxLast) =
      ((a.recover now).rxPos, (a.recover now).rxByte, (a.recover now).byteRing, (a.recover now).lineOvf,
        (a.recover now).rxLast + c)

/-- R38, R222: `LINE_OVF` is sticky: only OVERFLOW and a first start or restart clear it, and only a decode pass or an
edge processed sets it. -/
def Obligations.LineOverflowIsSticky : Prop :=
  ∀ (i : Instr) (s t : State), exec i s = .next t →
    match i with
    | .overflow => t.line.lineOvf = false
    | .beginLine _ => t.line.lineOvf = s.line.lineOvf ∨ (s.line.ctrl.life ≠ .started ∧ t.line.lineOvf = false)
    | .read | .peek | .available | .write _ | .poll | .decodePass | .processEdge _ =>
      s.line.lineOvf = true → t.line.lineOvf = true
    | .endLine | .setTxen _ _ | .enableIntTx _ | .enableTx _ | .flush | .setNotify _ | .edgeCapture
    | .txSegment _ _ | .delayUntil _ => t.line.lineOvf = s.line.lineOvf

/-! ### The transmitter (42_transmitter.md) -/

/-- R152: the levels of a frame. -/
def Obligations.FrameHasStartDataAndStop : Prop :=
  ∀ (c : Cfg) (b : Byte), (frameLevels c b).length = 10 ∧
    ∀ i, i < 10 → (frameLevels c b)[i]? = some (if i = 0 then xor false c.invert
      else if i = 9 then xor true c.invert else xor (b.getLsbD (i - 1)) c.invert)

/-- R163: a WRITE that cannot transmit responds 0 and drives no pin; its decode pass runs. -/
def Obligations.WriteThatCannotTransmitRespondsZero : Prop :=
  ∀ (s : State) (payload : List Byte), StateInv s →
    payload = [] ∨ s.line.txValid = false ∨ s.line.ctrl.life ≠ .started →
    ∃ t, exec (.write payload) s = .next t ∧ exec .decodePass s = .next { t with line := { t.line with resp := s.line.resp } } ∧
      t.line.resp = s.line.resp ++ [0] ∧ SameDrive s t ∧ SamePlatform s t ∧
      ∀ p, writesTo p t.line.trace = writesTo p s.line.trace

/-- R154: a transmission issues one segment for each maximal run of equal levels, in order, with the run's level and
its length in bit periods, and one write of the transmit pin for each; runs never cross a byte boundary. -/
def Obligations.WriteIssuesOneSegmentPerRun : Prop :=
  (∀ (c : Cfg) (payload : List Byte), runs (txLevels c payload) = payload.flatMap fun b => runs (frameLevels c b)) ∧
  ∀ (s : State) (payload : List Byte), StateInv s → payload ≠ [] → s.line.txValid = true →
    s.line.ctrl.life = .started → (s.line.halfDup = true → s.line.ctrl.txDir = true) →
    ∃ t, exec (.write payload) s = .next t ∧ t.line.resp = s.line.resp ++ [BitVec.ofNat 32 payload.length] ∧
      segments t.line.trace = segments s.line.trace ++ (runs (txLevels s.line.cfg payload)).map
        (fun r => (r.1, BitVec.ofNat 32 (s.line.bitcyc.toNat * r.2))) ∧
      writesTo s.line.cfg.txPin t.line.trace =
        writesTo s.line.cfg.txPin s.line.trace ++ (runs (txLevels s.line.cfg payload)).map (·.1)

/-- R157, R160, R156: the deadlines of a transmission are the running sums of its segments' durations from `D0`, the one
`CCOUNT()` sample (of the state `u`), however late any write or wait was. In unwrapped time no write of the transmit pin
comes before the deadline of the segment before it, and the command ends no earlier than the last deadline; a configured
enable pin is high no later than `D0` and low no earlier than the last deadline (R162). That the counter is kept unwrapped
and how a wait passes it on is the model's (assumptions 27 and 3). -/
def Obligations.WriteDeadlinesAccumulate : Prop :=
  ∀ (s t : State) (payload : List Byte), StateInv s → payload ≠ [] → s.line.txValid = true →
    s.line.ctrl.life = .started → exec (.write payload) s = .next t →
    let u := ((s.decodePass.driveTxen true).txMask).tick
    let spans := (runs (txLevels s.line.cfg payload)).map fun r => s.line.bitcyc.toNat * r.2
    deadlines t.line.trace = deadlines s.line.trace ++ deadlinesFrom u.ccount (spans.map (BitVec.ofNat 32)) ∧
    t.line.txDl = u.ccount + BitVec.ofNat 32 (10 * payload.length * s.line.bitcyc.toNat) ∧
    s.cycle ≤ u.cycle ∧ u.cycle + 10 * payload.length * s.line.bitcyc.toNat ≤ t.cycle ∧
    (∃ times, writeTimes s.line.cfg.txPin t.line.trace = writeTimes s.line.cfg.txPin s.line.trace ++ times ∧
      times.length = spans.length ∧ ∀ k, (h : k < times.length) → u.cycle + (spans.take k).sum ≤ times[k]) ∧
    (s.line.ctrl.txenV = true → ∃ up down,
      writeTimes s.line.txenPin t.line.trace = writeTimes s.line.txenPin s.line.trace ++ [up, down] ∧
      up ≤ u.cycle ∧ u.cycle + 10 * payload.length * s.line.bitcyc.toNat ≤ down)

/-- R162, R151: every pin write and every wait of a transmission, in order: the transmit-enable pin high, if one is
configured; each run's level on the transmit pin, then the wait for its deadline; the transmit-enable pin low, if one is
configured. No other pin is written. The order of one line's records is the model's (assumption 15). -/
def Obligations.WriteDrivesTheEnablePin : Prop :=
  ∀ (s t : State) (payload : List Byte), StateInv s → payload ≠ [] → s.line.txValid = true →
    s.line.ctrl.life = .started → exec (.write payload) s = .next t →
    let d0 := ((s.decodePass.driveTxen true).txMask).tick.ccount
    let rs := runs (txLevels s.line.cfg payload)
    let enable := fun v => if s.line.ctrl.txenV = true then [DriveStep.write s.line.txenPin v] else []
    driveSteps t.line.trace = driveSteps s.line.trace ++ enable true ++
      (List.zip (rs.map (·.1)) (deadlinesFrom d0 (rs.map fun r => BitVec.ofNat 32 (s.line.bitcyc.toNat * r.2)))).flatMap
        (fun e => [DriveStep.write s.line.cfg.txPin e.1, DriveStep.wait e.2]) ++
      enable false

/-- R150, R156, R159: what a transmission leaves: the transmit pin at the inactive level, the transmit-enable pin low,
`IE` as before; the decoder, the byte ring and the edge ring's tail as the decode pass left them; every other pin,
control register and platform state as before.

R151, R159, R161: and its interrupt mask. `w` is the state after the masking step. There and before every bit position
`IE` is 0 with `CTRL.INTTX = 0`, and as before the command with `CTRL.INTTX = 1`. If no wait is longer than `WAIT_SPLIT`,
a transmission with `CTRL.INTTX = 0` captures nothing from `w` to the restore of `IE`: its records are `mid`, and only
those of the enable pin's last write follow. No wait is that long if `WAIT_SPLIT` is at least the longest run, `9*BITCYC`,
and the transmission takes less than half the counter's range (R260), or if `WAIT_SPLIT` has its greatest value. -/
def Obligations.WriteFrame : Prop :=
  ∀ (s t : State) (payload : List Byte), StateInv s → payload ≠ [] → s.line.txValid = true →
    s.line.ctrl.life = .started → exec (.write payload) s = .next t →
    t.line.control = s.line.control ∧ t.line.decoder = s.decodePass.line.decoder ∧
    t.line.byteRing = s.decodePass.line.byteRing ∧ t.line.eTail = s.decodePass.line.eTail ∧
    t.line.lineOvf = s.decodePass.line.lineOvf ∧ SamePlatform s t ∧
    (∀ p, t.drive p =
      if p = s.line.cfg.txPin then ((s.drive p).1, xor true s.line.cfg.invert)
      else if s.line.ctrl.txenV = true ∧ p = s.line.txenPin then ((s.drive p).1, false)
      else s.drive p) ∧
    let w := (s.decodePass.driveTxen true).txMask
    let levels := txLevels s.line.cfg payload
    w.ie = (s.ie && s.line.ctrl.intTx) ∧ w.line.txSavedIe = s.ie ∧
    (∀ k, ((levels.take k).foldl State.txBit w.txSample).ie = w.ie) ∧
    (s.line.ctrl.intTx = false →
      (9 * s.line.bitcyc.toNat ≤ s.par.waitSplit ∧ t.cycle < w.cycle + 2 ^ 31) ∨ 2 ^ 31 - 1 ≤ s.par.waitSplit →
      ∃ mid last, t.line.trace = w.line.trace ++ mid ++ last ∧ captures mid = [] ∧
        segments mid = (runs levels).map (fun r => (r.1, BitVec.ofNat 32 (s.line.bitcyc.toNat * r.2))) ∧
        driveSteps last = (if s.line.ctrl.txenV = true then [.write s.line.txenPin false] else []) ∧
        (s.line.ctrl.txenV = false → last = [] ∧ t.others.map (·.trace) = w.others.map (·.trace)))

/-- R155: one segment: the pin write, the accumulated deadline, the wait for it. -/
def Obligations.SegmentWritesAndWaits : Prop :=
  ∀ (s : State) (v : Level) (dur : Word), StateInv s →
    ∃ t, exec (.txSegment v dur) s = .next t ∧
      t.line.foreground = ({ s.line with txDl := s.line.txDl + dur } : Line).foreground ∧
      writesTo s.line.cfg.txPin t.line.trace = writesTo s.line.cfg.txPin s.line.trace ++ [v] ∧
      deadlines t.line.trace = deadlines s.line.trace ++ [s.line.txDl + dur] ∧
      0 ≤ (t.ccount - (s.line.txDl + dur)).toInt ∧
      (∀ p, t.drive p = if p = s.line.cfg.txPin then ((s.drive p).1, v) else s.drive p) ∧
      SameElsewhere s t ∧ t.reg = s.reg

/-- R158, R159: DELAY_UNTIL returns once its deadline has passed, and at once if it had passed on entry. `r` is the state
at its `CCOUNT()` read. With `CTRL.INTTX = 0` and more than `WAIT_SPLIT` cycles to go, `IE` is `TX_SAVED_IE` for the turn
`b` of the bulk wait, which lasts until no more than `WAIT_SPLIT` cycles are left, and 0 for the rest; otherwise `IE` is
not written. The exact counter is that of an environment that leaves the foreground alone. -/
def Obligations.DelayHoldsUntilTheDeadline : Prop :=
  ∀ (s : State) (d : Word),
    let r := (s.log (.delayUntil d)).tick
    ∃ t, exec (.delayUntil d) s = .next t ∧
      (s.line.ctrl.intTx = false → s.par.waitSplit < (d - r.ccount).toInt →
        ∃ m n : Nat,
          let b := State.tick { r.tick with ie := s.line.txSavedIe }
          (d - (b.advance m).ccount).toInt ≤ s.par.waitSplit ∧
          t = (State.tick { (b.advance m).tick with ie := false }).advance n) ∧
      (s.line.ctrl.intTx = true ∨ (d - r.ccount).toInt ≤ s.par.waitSplit → ∃ n : Nat, t = r.tick.advance n) ∧
      0 ≤ (t.ccount - d).toInt ∧
      t.line.foreground = s.line.foreground ∧ SameElsewhere s t ∧ t.reg = s.reg ∧
      (s.pins.wf untouchedPin = true → SameDrive s t) ∧
      (s.line.ctrl.intTx = true → t.ie = s.ie) ∧
      (Quiet 5 s → t.ccount = if 0 ≤ (s.ccount - d).toInt then s.ccount else d) ∧
      (Quiet 5 s → s.line.ctrl.intTx = false → s.par.waitSplit < (d - s.ccount).toInt → t.ie = false)

/-! ### Lifecycle and configuration (43_control.md) -/

/-- R180: the ways BEGIN ends without a start: an unusable baud rate changes nothing; a line that is started gets the
new bit period only; with no free registry slot the response is 0, `ResourceExhausted` is recorded, and the line, the
registry, `IE` and the pins are as before. -/
def Obligations.BeginWithoutAStart : Prop :=
  ∀ (s : State) (b : BitVec 24),
    let bn := (s.par.fCpu + b.toNat / 2) / b.toNat
    (b = 0 ∨ bn < 2 ∨ 2 ^ 31 ≤ 9 * bn →
      exec (.beginLine b) s = .next { s with line := { s.line with resp := s.line.resp ++ [0] } }) ∧
    (b ≠ 0 → 2 ≤ bn → 9 * bn < 2 ^ 31 → s.line.ctrl.life = .started →
      exec (.beginLine b) s = .next { s with line := { s.line with
        bitcyc := BitVec.ofNat 32 bn, resp := s.line.resp ++ [1] } }) ∧
    (b ≠ 0 → 2 ≤ bn → 9 * bn < 2 ^ 31 → s.line.ctrl.life ≠ .started → none ∉ s.reg →
      ∃ t, exec (.beginLine b) s = .next t ∧
        t.line.foreground = ({ s.line with resp := s.line.resp ++ [0] } : Line).foreground ∧
        t.line.trace.getLast? = some (.condition .resourceExhausted) ∧ SamePlatform s t ∧
        (s.pins.wf untouchedPin = true → SameDrive s t))

/-- R180, R252: what a BEGIN that starts the line sets, and that it sets nothing else, whatever the other agents do. `now`
is its `CCOUNT()` sample, taken with the slot reserved and interrupts masked. -/
def Obligations.BeginStartsTheLine : Prop :=
  ∀ (s : State) (b : BitVec 24) (k : Nat), StateInv s →
    let bn := (s.par.fCpu + b.toNat / 2) / b.toNat
    b ≠ 0 → 2 ≤ bn → 9 * bn < 2 ^ 31 → s.line.ctrl.life ≠ .started →
    s.reg[k]? = some none → (∀ j, j < k → s.reg[j]? ≠ some none) →
    let now := ((s.writeIe false).takeSlot k).tick.ccount
    ∃ t, exec (.beginLine b) s = .next t ∧
      t.line.foreground = ({ s.line with
        slot := BitVec.ofNat 8 k
        bitcyc := BitVec.ofNat 32 bn
        eTail := 0, bHead := 0, bTail := 0, lineOvf := false
        rxPos := .idle, rxByte := 0
        rxLast := (now &&& 0xFFFFFFFE) ||| (if s.line.cfg.invert then 0 else 1)
        ctrl := { s.line.ctrl with life := .started, txDir := false, rxArmed := s.line.rxValid }
        resp := s.line.resp ++ [1] } : Line).foreground ∧
      t.line.slot.toNat = k ∧ t.line.bitcyc.toNat = bn ∧
      t.line.eHead = 0 ∧ t.line.eOvf = false ∧
      t.line.rxLast.getLsbD 0 = xor true s.line.cfg.invert ∧
      (Quiet 2 s → now = s.ccount) ∧
      SameElsewhere s t ∧ t.ie = s.ie ∧ t.reg = s.reg.set k (some s.line.id) ∧
      ∀ p, t.drive p =
        if s.line.txValid = true ∧ s.line.halfDup = false ∧ p = s.line.cfg.txPin then
          (.output s.line.id, xor true s.line.cfg.invert)
        else if s.line.rxValid = true ∧ p = s.line.cfg.rxPin then (.input, (s.drive p).2)
        else s.drive p

/-- R181: the bit period is the quotient rounded to the nearest integer, halves up; what BEGIN accepts keeps `HALF` at
least 1 and every `r * BITCYC` in the positive signed range. -/
def Obligations.BitPeriodIsRoundedToNearest : Prop :=
  (∀ fCpu b : Nat, 0 < b →
    2 * (bitPeriod fCpu b * b) ≤ 2 * fCpu + b ∧ 2 * fCpu + b < 2 * ((bitPeriod fCpu b + 1) * b)) ∧
  (∀ n : Nat, (bitPeriodOk n = true ↔ 2 ≤ n ∧ 9 * n < 2 ^ 31) ∧
    (bitPeriodOk n = true → 1 ≤ (half (BitVec.ofNat 32 n)).toNat ∧ ∀ r, r ≤ 9 → r * n < 2 ^ 31)) ∧
  bitPeriod 80000000 9600 = 8333 ∧ bitPeriod 96000000 9600 = 10000 ∧ bitPeriod 80000000 115200 = 694

/-- R182: END. -/
def Obligations.EndStopsTheLine : Prop :=
  (∀ s : State, s.line.ctrl.life ≠ .started →
    exec .endLine s = .next { s with line := { s.line with resp := s.line.resp ++ [0] } }) ∧
  ∀ s : State, StateInv s → s.line.ctrl.life = .started →
    ∃ t, exec .endLine s = .next t ∧
      t.line.foreground = ({ s.line with
        slot := 0xFF
        ctrl := { s.line.ctrl with life := .stopped, rxArmed := false }
        resp := s.line.resp ++ [0] } : Line).foreground ∧
      (s.line.ctrl.rxArmed = true → t.line.pendRx = false) ∧
      t.reg = s.reg.set s.line.slot.toNat none ∧ t.ie = s.ie ∧ SameElsewhere s t ∧ SameDrive s t

/-- R183: the lifecycle moves by a BEGIN that responds 1 and by END, and by nothing else. -/
def Obligations.LifecycleMovesByBeginAndEnd : Prop :=
  ∀ (i : Instr) (s t : State), exec i s = .next t →
    match i with
    | .beginLine _ =>
      (t.line.resp = s.line.resp ++ [1] → t.line.ctrl.life = .started) ∧
      (t.line.resp = s.line.resp ++ [0] → t.line.ctrl.life = s.line.ctrl.life)
    | .endLine => t.line.ctrl.life = if s.line.ctrl.life = .started then .stopped else s.line.ctrl.life
    | .setTxen _ _ | .enableIntTx _ | .enableTx _ | .read | .peek | .available | .write _ | .flush | .overflow | .poll
    | .setNotify _ | .edgeCapture | .decodePass | .processEdge _ | .txSegment _ _ | .delayUntil _ =>
      t.line.ctrl.life = s.line.ctrl.life

/-- R184: SET_TXEN. That the pin id 0xFF is never a usable pin is the model's (assumption 17). -/
def Obligations.SetTxenConfiguresThePin : Prop :=
  ∀ (s : State) (v : Bool) (p : Pin), StateInv s →
    (v = true ∧ p ∈ s.par.validTx ∧ p ≠ 0xFF ∧ p ≠ s.line.cfg.rxPin ∧ p ≠ s.line.cfg.txPin →
      ∃ t, exec (.setTxen v p) s = .next t ∧
        t.line.foreground = ({ s.line with
          txenPin := p, ctrl := { s.line.ctrl with txenV := true }, resp := s.line.resp ++ [0] } : Line).foreground ∧
        SamePlatform s t ∧ ∀ q, t.drive q = if q = p then (.output s.line.id, false) else s.drive q) ∧
    (¬ (v = true ∧ p ∈ s.par.validTx ∧ p ≠ 0xFF ∧ p ≠ s.line.cfg.rxPin ∧ p ≠ s.line.cfg.txPin) →
      exec (.setTxen v p) s = .next { s with line := { s.line with
        txenPin := 0xFF, ctrl := { s.line.ctrl with txenV := false }, resp := s.line.resp ++ [0] } })

/-- R185, R194: ENABLE_INT_TX and SET_NOTIFY each write their own control bit and nothing else. -/
def Obligations.EnableCommandsWriteTheirBit : Prop :=
  ∀ (s : State) (e : Bool),
    exec (.enableIntTx e) s = .next { s with line := { s.line with
      ctrl := { s.line.ctrl with intTx := e }, resp := s.line.resp ++ [0] } } ∧
    exec (.setNotify e) s = .next { s with line := { s.line with
      ctrl := { s.line.ctrl with notify := e }, resp := s.line.resp ++ [0] } }

/-- R186: ENABLE_TX, the one-wire direction control. -/
def Obligations.EnableTxTurnsTheLine : Prop :=
  ∀ (s : State) (e : Bool), StateInv s →
    (s.line.halfDup = false ∨ s.line.ctrl.life ≠ .started ∨ s.line.ctrl.txDir = e →
      exec (.enableTx e) s = .next { s with line := { s.line with resp := s.line.resp ++ [0] } }) ∧
    (s.line.halfDup = true → s.line.ctrl.life = .started → s.line.ctrl.txDir = !e →
      ∃ t, exec (.enableTx e) s = .next t ∧
        t.line.foreground = ({ s.line with
          ctrl := { s.line.ctrl with txDir := e, rxArmed := !e }, resp := s.line.resp ++ [0] } : Line).foreground ∧
        t.line.pendRx = false ∧ SamePlatform s t ∧
        ∀ p, t.drive p = if p = s.line.cfg.rxPin then
            (if e then (.output s.line.id, xor true s.line.cfg.invert) else (.input, (s.drive p).2))
          else s.drive p)

/-! ### Readers (43_control.md) -/

/-- R188, R64: READ runs a pass, then gives the oldest byte held and drops it, or NONE. -/
def Obligations.ReadTakesTheOldestByte : Prop :=
  ∀ s : State, StateInv s →
    ∃ u t, exec .decodePass s = .next u ∧ exec .read s = .next t ∧
      t = { u with line := { u.line with bTail := t.line.bTail, resp := t.line.resp } } ∧
      match u.line.heldBytes with
      | [] => t.line.resp = s.line.resp ++ [0xFFFFFFFF] ∧ t.line.bTail = u.line.bTail
      | b :: bs => t.line.resp = s.line.resp ++ [b.setWidth 32] ∧ t.line.heldBytes = bs

/-- R189, R64: PEEK gives the oldest byte held and moves nothing. -/
def Obligations.PeekLeavesTheByte : Prop :=
  ∀ s : State, StateInv s →
    ∃ u, exec .decodePass s = .next u ∧ exec .peek s = .next { u with line := { u.line with
      resp := s.line.resp ++ [match u.line.heldBytes with
        | [] => 0xFFFFFFFF
        | b :: _ => b.setWidth 32] } }

/-- R190, R229: AVAILABLE counts the bytes held, after one more pass if none is; the yield between lasts at least
`YIELD_MIN` cycles. -/
def Obligations.AvailableCountsAfterOneRetry : Prop :=
  ∀ s : State,
    ∃ u v, exec .decodePass s = .next u ∧
      exec .available s = .next { v with line := { v.line with
        resp := s.line.resp ++ [BitVec.ofNat 32 v.line.heldBytes.length] } } ∧
      (u.line.heldBytes ≠ [] → v = u) ∧
      (u.line.heldBytes = [] →
        ∃ n, s.par.yieldMin ≤ State.turnCycles u.nextTurn + n ∧ exec .decodePass (u.tick.advance n) = .next v)

/-- R191: FLUSH discards the edges held at its load of `E_HEAD` and every byte; the rest is kept. -/
def Obligations.FlushEmptiesBothRings : Prop :=
  ∀ s : State,
    ∃ t, exec .flush s = .next t ∧
      t.line.foreground = ({ s.line with
        eTail := s.tick.line.eHead, bTail := s.line.bHead, resp := s.line.resp ++ [0] } : Line).foreground ∧
      (s.ie = false → t.line.isrOwned = s.line.isrOwned ∧ t.line.eTail = s.line.eHead) ∧
      SamePlatform s t ∧ (s.pins.wf untouchedPin = true → SameDrive s t)

/-- R192: OVERFLOW reads and clears the sticky flag, and runs no pass. -/
def Obligations.OverflowReadsAndClears : Prop :=
  ∀ s : State, exec .overflow s = .next { s with line := { s.line with
    lineOvf := false, resp := s.line.resp ++ [if s.line.lineOvf = true then 1 else 0] } }

/-- R193: POLL counts the bytes held after its pass and emits `NOTIFY` for them; no other instruction emits one. -/
def Obligations.OnlyPollNotifies : Prop :=
  (∀ s : State,
    ∃ u, exec .decodePass s = .next u ∧ exec .poll s = .next { u with line := { u.line with
      resp := s.line.resp ++ [BitVec.ofNat 32 u.line.heldBytes.length]
      trace := u.line.trace ++
        (if s.line.ctrl.notify = true ∧ u.line.heldBytes ≠ [] then [.notify u.line.heldBytes.length] else []) } }) ∧
  ∀ (i : Instr) (s t : State), i ≠ .poll → exec i s = .next t →
    notifications t.line.trace = notifications s.line.trace

end
end

