-- ==== Sys2Proof/Laws/Runs.lean ====
section
/-! SUPPORT. Maximal runs of equal level: how `runs` acts on a list's head, on repeated levels and on appended lists,
and the runs of a transmission (42_transmitter.md R152, R154). -/

namespace Sys2Proof.Machine

theorem runs_head (v : Level) (vs : List Level) : ∃ k rest, runs (v :: vs) = (v, k) :: rest := by
  unfold runs
  split
  · split
    · rename_i h
      exact ⟨_, _, by rw [h]⟩
    · exact ⟨_, _, rfl⟩
  · exact ⟨_, _, rfl⟩

theorem runs_cons_ne {u v : Level} (h : u ≠ v) (vs : List Level) : runs (u :: v :: vs) = (u, 1) :: runs (v :: vs) := by
  obtain ⟨k, rest, e⟩ := runs_head v vs
  conv_lhs => unfold runs
  rw [e]
  simp [Ne.symm h]

theorem runs_cons_eq (u : Level) (vs : List Level) : ∃ k rest, runs (u :: vs) = (u, k) :: rest ∧ runs (u :: u :: vs) = (u, k+1) :: rest := by
  obtain ⟨k, rest, e⟩ := runs_head u vs
  refine ⟨k, rest, e, ?_⟩
  conv_lhs => unfold runs
  rw [e]; simp

theorem runs_replicate_cons {u v : Level} (h : u ≠ v) (vs : List Level) : ∀ k, runs (List.replicate (k+1) u ++ v :: vs) = (u, k+1) :: runs (v :: vs) := by
  intro k
  induction k with
  | zero => exact runs_cons_ne h vs
  | succ k ih =>
    rw [List.replicate_succ, List.cons_append]
    obtain ⟨j, rest, e1, e2⟩ := runs_cons_eq u (List.replicate k u ++ v :: vs)
    rw [List.replicate_succ, List.cons_append] at ih ⊢
    rw [e1] at ih
    rw [e2]
    simp at ih ⊢
    exact ⟨by omega, ih.2⟩

theorem runs_replicate (u : Level) : ∀ k, runs (List.replicate (k+1) u) = [(u, k+1)] := by
  intro k
  induction k with
  | zero => rfl
  | succ k ih =>
    rw [List.replicate_succ] at ih ⊢
    obtain ⟨j, rest, e1, e2⟩ := runs_cons_eq u (List.replicate k u)
    rw [List.replicate_succ, e2]
    rw [e1] at ih
    simp at ih ⊢
    exact ih

theorem runs_frame_le (c : Cfg) (b : Byte) : ∀ r ∈ runs (frameLevels c b), r.2 ≤ 9 := by
  have h : ∀ (i : Bool) (b : Byte), (∀ r ∈ runs (frameLevels {rxPin := 0, txPin := 0, invert := i, nb := 0, ne := 0} b), r.2 ≤ 9) := by decide +revert
  have e : frameLevels c b = frameLevels {rxPin := 0, txPin := 0, invert := c.invert, nb := 0, ne := 0} b := rfl
  rw [e]; exact h _ _

theorem runs_append {u v : Level} (h : u ≠ v) (as bs : List Level) : runs (as ++ [u] ++ v :: bs) = runs (as ++ [u]) ++ runs (v :: bs) := by
  induction as with
  | nil => exact runs_cons_ne h bs
  | cons a as ih =>
    have : ∀ (x y : List Level), runs (x) = runs y → runs (a :: x) = runs (a :: y) := by
      intro x y h; simp [runs, h]
    show runs (a :: (as ++ [u] ++ v :: bs)) = runs (a :: (as ++ [u])) ++ _
    have g : ∀ (x : List Level), runs (a :: x) = match runs x with | (w,k) :: rest => if w = a then (w, k+1) :: rest else (a,1) :: (w,k) :: rest | [] => [(a,1)] := fun x => rfl
    rw [g, g, ih]
    obtain ⟨k, rest, e⟩ : ∃ w rest, runs (as ++ [u]) = w :: rest := by
      cases as with
      | nil => exact ⟨_, _, rfl⟩
      | cons x xs => obtain ⟨k, r, e⟩ := runs_head x (xs ++ [u]); exact ⟨_, _, e⟩
    rw [e]
    simp only [List.cons_append]
    split <;> rfl

theorem runs_txLevels (c : Cfg) (payload : List Byte) : runs (txLevels c payload) = payload.flatMap fun b => runs (frameLevels c b) := by
  induction payload with
  | nil => rfl
  | cons b bs ih =>
    have e1 : txLevels c (b :: bs) = frameLevels c b ++ txLevels c bs := rfl
    rw [List.flatMap_cons, ← ih, e1]
    cases bs with
    | nil => simp [txLevels, runs]
    | cons b2 bs =>
      have : frameLevels c b = ((List.range 9).map (framePin c b)) ++ [inactivePin c] := rfl
      have h2 : txLevels c (b2 :: bs) = activePin c :: ((List.range' 1 9).map (framePin c b2) ++ txLevels c bs) := rfl
      rw [this, h2]
      exact runs_append (by cases h : c.invert <;> simp [activePin, inactivePin, h]) _ _

theorem txLevels_length (c : Cfg) (bytes : List Byte) : (txLevels c bytes).length = 10 * bytes.length := by
  induction bytes with
  | nil => rfl
  | cons b bs ih => 
    have : txLevels c (b :: bs) = frameLevels c b ++ txLevels c bs := rfl
    rw [this, List.length_append, ih]; simp [frameLevels]; omega

end Sys2Proof.Machine
end

