-- ==== Sys2Proof/Laws/Memory.lean ====
section
/-! SUPPORT. Laws of the sparse memory: a write is read back, leaves every other element alone, and keeps the canonical
form. -/

namespace Sys2Proof.Machine.Memory

variable {α : Type} [DecidableEq α] {dflt : α}

omit [DecidableEq α] in
theorem read_of_above {m : Memory α} {i j : Nat} (h : above i m = true) (hj : j ≤ i) : read dflt m j = dflt := by
  induction m with
  | nil => rfl
  | cons e m ih =>
    obtain ⟨k, v⟩ := e
    simp only [above, List.all_cons, Bool.and_eq_true, decide_eq_true_eq] at h
    have hne : j ≠ k := by omega
    simp only [read, hne, if_false]
    exact ih (by simpa [above] using h.2)

theorem read_write_ne (m : Memory α) {i j : Nat} (v : α) (h : j ≠ i) : read dflt (write dflt m i v) j = read dflt m j := by
  induction m with
  | nil =>
    unfold write
    split <;> simp [read, h]
  | cons e m ih =>
    obtain ⟨k, u⟩ := e
    unfold write
    split
    · split <;> simp [read, h]
    · split
      · rename_i hk
        subst hk
        split <;> simp [read, h]
      · simp only [read, ih]

theorem wf_cons {k : Nat} {u : α} {m : Memory α} :
    wf dflt ((k, u) :: m) = true ↔ above k m = true ∧ u ≠ dflt ∧ wf dflt m = true := by
  simp [wf, and_assoc]

omit [DecidableEq α] in
theorem above_mono {m : Memory α} {i j : Nat} (h : above j m = true) (hij : i ≤ j) : above i m = true := by
  simp only [above, List.all_eq_true, decide_eq_true_eq] at *
  intro e he
  exact Nat.lt_of_le_of_lt hij (h e he)

theorem above_write {m : Memory α} {i k : Nat} (v : α) (h : above k m = true) (hk : k < i) :
    above k (write dflt m i v) = true := by
  induction m with
  | nil =>
    unfold write
    split <;> simp [above, hk]
  | cons e m ih =>
    obtain ⟨j, u⟩ := e
    have hj : k < j := by simp [above] at h; exact h.1
    have hm : above k m = true := by simp [above] at h ⊢; exact h.2
    unfold write
    split
    · split
      · exact h
      · simp [above] at h ⊢; exact ⟨hk, h⟩
    · split
      · split
        · exact hm
        · simp [above] at hm ⊢; exact ⟨hk, hm⟩
      · have := ih hm
        simp [above] at this ⊢
        exact ⟨hj, this⟩

theorem write_wf {m : Memory α} (i : Nat) (v : α) (h : wf dflt m = true) : wf dflt (write dflt m i v) = true := by
  induction m with
  | nil =>
    unfold write
    split
    · rfl
    · simpa [wf, above]
  | cons e m ih =>
    obtain ⟨k, u⟩ := e
    obtain ⟨ha, hu, hm⟩ := wf_cons.mp h
    unfold write
    split
    · rename_i hik
      split
      · exact h
      · rename_i hv
        refine wf_cons.mpr ⟨?_, hv, h⟩
        have := above_mono ha (Nat.le_of_lt hik)
        simp [above] at this ⊢
        exact ⟨hik, this⟩
    · split
      · rename_i hik
        subst hik
        split
        · exact hm
        · rename_i hv
          exact wf_cons.mpr ⟨ha, hv, hm⟩
      · exact wf_cons.mpr ⟨above_write v ha (by omega), hu, ih hm⟩

theorem read_write_same {m : Memory α} (i : Nat) (v : α) (h : wf dflt m = true) : read dflt (write dflt m i v) i = v := by
  induction m with
  | nil =>
    unfold write
    split
    · rename_i hv; simp [read, hv]
    · simp [read]
  | cons e m ih =>
    obtain ⟨k, u⟩ := e
    obtain ⟨ha, -, hm⟩ := wf_cons.mp h
    unfold write
    split
    · rename_i hik
      split
      · rename_i hv
        subst hv
        exact read_of_above (i := i) (by
          have := above_mono ha (Nat.le_of_lt hik)
          simp [above] at this ⊢
          exact ⟨hik, this⟩) (Nat.le_refl i)
      · simp [read]
    · split
      · rename_i hik
        subst hik
        split
        · rename_i hv
          subst hv
          exact read_of_above ha (Nat.le_refl i)
        · simp [read]
      · rename_i hne
        simp only [read, hne, if_false]
        exact ih hm

/-- Reading after a write, at any index. -/
theorem read_write {m : Memory α} (i j : Nat) (v : α) (h : wf dflt m = true) :
    read dflt (write dflt m i v) j = if j = i then v else read dflt m j := by
  split
  · rename_i hji
    subst hji
    exact read_write_same j v h
  · rename_i hji
    exact read_write_ne m v hji

end Sys2Proof.Machine.Memory
end

