-- ==== Sys2Proof/Laws/State.lean ====
section
/-! SUPPORT. One lemma per field per update, true by rfl, so that no later proof unfolds a record update. -/

namespace Sys2Proof.Machine

@[simp] theorem State.mapLine_par (f : Line → Line) (s : State) : (s.mapLine f).par = s.par := rfl
@[simp] theorem State.mapLine_cycle (f : Line → Line) (s : State) : (s.mapLine f).cycle = s.cycle := rfl
@[simp] theorem State.mapLine_ccount (f : Line → Line) (s : State) : (s.mapLine f).ccount = s.ccount := rfl
@[simp] theorem State.mapLine_ie (f : Line → Line) (s : State) : (s.mapLine f).ie = s.ie := rfl
@[simp] theorem State.mapLine_pins (f : Line → Line) (s : State) : (s.mapLine f).pins = s.pins := rfl
@[simp] theorem State.mapLine_reg (f : Line → Line) (s : State) : (s.mapLine f).reg = s.reg := rfl
@[simp] theorem State.mapLine_line (f : Line → Line) (s : State) : (s.mapLine f).line = f s.line := rfl
@[simp] theorem State.mapLine_others (f : Line → Line) (s : State) : (s.mapLine f).others = s.others := rfl
@[simp] theorem State.mapLine_env (f : Line → Line) (s : State) : (s.mapLine f).env = s.env := rfl
@[simp] theorem State.mapLine_draws (f : Line → Line) (s : State) : (s.mapLine f).draws = s.draws := rfl
@[simp] theorem State.mapLine_host (f : Line → Line) (s : State) : (s.mapLine f).host = s.host := rfl
@[simp] theorem State.mapLine_action (f : Line → Line) (s : State) : (s.mapLine f).action = s.action := rfl

@[simp] theorem State.mapLines_par (f : Line → Line) (s : State) : (s.mapLines f).par = s.par := rfl
@[simp] theorem State.mapLines_cycle (f : Line → Line) (s : State) : (s.mapLines f).cycle = s.cycle := rfl
@[simp] theorem State.mapLines_ccount (f : Line → Line) (s : State) : (s.mapLines f).ccount = s.ccount := rfl
@[simp] theorem State.mapLines_ie (f : Line → Line) (s : State) : (s.mapLines f).ie = s.ie := rfl
@[simp] theorem State.mapLines_pins (f : Line → Line) (s : State) : (s.mapLines f).pins = s.pins := rfl
@[simp] theorem State.mapLines_reg (f : Line → Line) (s : State) : (s.mapLines f).reg = s.reg := rfl
@[simp] theorem State.mapLines_line (f : Line → Line) (s : State) : (s.mapLines f).line = f s.line := rfl
@[simp] theorem State.mapLines_others (f : Line → Line) (s : State) : (s.mapLines f).others = s.others.map f := rfl
@[simp] theorem State.mapLines_env (f : Line → Line) (s : State) : (s.mapLines f).env = s.env := rfl
@[simp] theorem State.mapLines_draws (f : Line → Line) (s : State) : (s.mapLines f).draws = s.draws := rfl
@[simp] theorem State.mapLines_host (f : Line → Line) (s : State) : (s.mapLines f).host = s.host := rfl
@[simp] theorem State.mapLines_action (f : Line → Line) (s : State) : (s.mapLines f).action = s.action := rfl

@[simp] theorem State.putPin_par (p : Pin) (ps : PinState) (s : State) : (s.putPin p ps).par = s.par := rfl
@[simp] theorem State.putPin_cycle (p : Pin) (ps : PinState) (s : State) : (s.putPin p ps).cycle = s.cycle := rfl
@[simp] theorem State.putPin_ccount (p : Pin) (ps : PinState) (s : State) : (s.putPin p ps).ccount = s.ccount := rfl
@[simp] theorem State.putPin_ie (p : Pin) (ps : PinState) (s : State) : (s.putPin p ps).ie = s.ie := rfl
@[simp] theorem State.putPin_pins (p : Pin) (ps : PinState) (s : State) : (s.putPin p ps).pins = s.pins.write untouchedPin p.toNat ps := rfl
@[simp] theorem State.putPin_reg (p : Pin) (ps : PinState) (s : State) : (s.putPin p ps).reg = s.reg := rfl
@[simp] theorem State.putPin_line (p : Pin) (ps : PinState) (s : State) : (s.putPin p ps).line = s.line := rfl
@[simp] theorem State.putPin_others (p : Pin) (ps : PinState) (s : State) : (s.putPin p ps).others = s.others := rfl
@[simp] theorem State.putPin_env (p : Pin) (ps : PinState) (s : State) : (s.putPin p ps).env = s.env := rfl
@[simp] theorem State.putPin_draws (p : Pin) (ps : PinState) (s : State) : (s.putPin p ps).draws = s.draws := rfl
@[simp] theorem State.putPin_host (p : Pin) (ps : PinState) (s : State) : (s.putPin p ps).host = s.host := rfl
@[simp] theorem State.putPin_action (p : Pin) (ps : PinState) (s : State) : (s.putPin p ps).action = s.action := rfl

@[simp] theorem State.log_par (e : Event) (s : State) : (s.log e).par = s.par := rfl
@[simp] theorem State.log_cycle (e : Event) (s : State) : (s.log e).cycle = s.cycle := rfl
@[simp] theorem State.log_ccount (e : Event) (s : State) : (s.log e).ccount = s.ccount := rfl
@[simp] theorem State.log_ie (e : Event) (s : State) : (s.log e).ie = s.ie := rfl
@[simp] theorem State.log_pins (e : Event) (s : State) : (s.log e).pins = s.pins := rfl
@[simp] theorem State.log_reg (e : Event) (s : State) : (s.log e).reg = s.reg := rfl
@[simp] theorem State.log_line (e : Event) (s : State) : (s.log e).line = s.line.log e := rfl
@[simp] theorem State.log_others (e : Event) (s : State) : (s.log e).others = s.others := rfl
@[simp] theorem State.log_env (e : Event) (s : State) : (s.log e).env = s.env := rfl
@[simp] theorem State.log_draws (e : Event) (s : State) : (s.log e).draws = s.draws := rfl
@[simp] theorem State.log_host (e : Event) (s : State) : (s.log e).host = s.host := rfl
@[simp] theorem State.log_action (e : Event) (s : State) : (s.log e).action = s.action := rfl

@[simp] theorem State.respond_par (x : Word) (s : State) : (s.respond x).par = s.par := rfl
@[simp] theorem State.respond_cycle (x : Word) (s : State) : (s.respond x).cycle = s.cycle := rfl
@[simp] theorem State.respond_ccount (x : Word) (s : State) : (s.respond x).ccount = s.ccount := rfl
@[simp] theorem State.respond_ie (x : Word) (s : State) : (s.respond x).ie = s.ie := rfl
@[simp] theorem State.respond_pins (x : Word) (s : State) : (s.respond x).pins = s.pins := rfl
@[simp] theorem State.respond_reg (x : Word) (s : State) : (s.respond x).reg = s.reg := rfl
@[simp] theorem State.respond_line (x : Word) (s : State) : (s.respond x).line = s.line.respond x := rfl
@[simp] theorem State.respond_others (x : Word) (s : State) : (s.respond x).others = s.others := rfl
@[simp] theorem State.respond_env (x : Word) (s : State) : (s.respond x).env = s.env := rfl
@[simp] theorem State.respond_draws (x : Word) (s : State) : (s.respond x).draws = s.draws := rfl
@[simp] theorem State.respond_host (x : Word) (s : State) : (s.respond x).host = s.host := rfl
@[simp] theorem State.respond_action (x : Word) (s : State) : (s.respond x).action = s.action := rfl

@[simp] theorem State.advance_par (n : Nat) (s : State) : (s.advance n).par = s.par := rfl
@[simp] theorem State.advance_cycle (n : Nat) (s : State) : (s.advance n).cycle = s.cycle + n := rfl
@[simp] theorem State.advance_ccount (n : Nat) (s : State) : (s.advance n).ccount = s.ccount + BitVec.ofNat 32 n :=
  BitVec.ofNat_add s.cycle n
@[simp] theorem State.advance_ie (n : Nat) (s : State) : (s.advance n).ie = s.ie := rfl
@[simp] theorem State.advance_pins (n : Nat) (s : State) : (s.advance n).pins = s.pins := rfl
@[simp] theorem State.advance_reg (n : Nat) (s : State) : (s.advance n).reg = s.reg := rfl
@[simp] theorem State.advance_line (n : Nat) (s : State) : (s.advance n).line = s.line := rfl
@[simp] theorem State.advance_others (n : Nat) (s : State) : (s.advance n).others = s.others := rfl
@[simp] theorem State.advance_env (n : Nat) (s : State) : (s.advance n).env = s.env := rfl
@[simp] theorem State.advance_draws (n : Nat) (s : State) : (s.advance n).draws = s.draws := rfl
@[simp] theorem State.advance_host (n : Nat) (s : State) : (s.advance n).host = s.host := rfl
@[simp] theorem State.advance_action (n : Nat) (s : State) : (s.advance n).action = s.action := rfl

@[simp] theorem State.consume_par (n : Nat) (s : State) : (s.consume n).par = s.par := rfl
@[simp] theorem State.consume_cycle (n : Nat) (s : State) : (s.consume n).cycle = s.cycle := rfl
@[simp] theorem State.consume_ccount (n : Nat) (s : State) : (s.consume n).ccount = s.ccount := rfl
@[simp] theorem State.consume_ie (n : Nat) (s : State) : (s.consume n).ie = s.ie := rfl
@[simp] theorem State.consume_pins (n : Nat) (s : State) : (s.consume n).pins = s.pins := rfl
@[simp] theorem State.consume_reg (n : Nat) (s : State) : (s.consume n).reg = s.reg := rfl
@[simp] theorem State.consume_line (n : Nat) (s : State) : (s.consume n).line = { s.line with cmd := s.line.cmd.drop n } := rfl
@[simp] theorem State.consume_others (n : Nat) (s : State) : (s.consume n).others = s.others := rfl
@[simp] theorem State.consume_env (n : Nat) (s : State) : (s.consume n).env = s.env := rfl
@[simp] theorem State.consume_draws (n : Nat) (s : State) : (s.consume n).draws = s.draws := rfl
@[simp] theorem State.consume_host (n : Nat) (s : State) : (s.consume n).host = s.host := rfl
@[simp] theorem State.consume_action (n : Nat) (s : State) : (s.consume n).action = s.action := rfl

@[simp] theorem State.advanceCpos_par (n : Nat) (s : State) : (s.advanceCpos n).par = s.par := rfl
@[simp] theorem State.advanceCpos_cycle (n : Nat) (s : State) : (s.advanceCpos n).cycle = s.cycle := rfl
@[simp] theorem State.advanceCpos_ccount (n : Nat) (s : State) : (s.advanceCpos n).ccount = s.ccount := rfl
@[simp] theorem State.advanceCpos_ie (n : Nat) (s : State) : (s.advanceCpos n).ie = s.ie := rfl
@[simp] theorem State.advanceCpos_pins (n : Nat) (s : State) : (s.advanceCpos n).pins = s.pins := rfl
@[simp] theorem State.advanceCpos_reg (n : Nat) (s : State) : (s.advanceCpos n).reg = s.reg := rfl
@[simp] theorem State.advanceCpos_line (n : Nat) (s : State) : (s.advanceCpos n).line = { s.line with cpos := s.line.cpos + n } := rfl
@[simp] theorem State.advanceCpos_others (n : Nat) (s : State) : (s.advanceCpos n).others = s.others := rfl
@[simp] theorem State.advanceCpos_env (n : Nat) (s : State) : (s.advanceCpos n).env = s.env := rfl
@[simp] theorem State.advanceCpos_draws (n : Nat) (s : State) : (s.advanceCpos n).draws = s.draws := rfl
@[simp] theorem State.advanceCpos_host (n : Nat) (s : State) : (s.advanceCpos n).host = s.host := rfl
@[simp] theorem State.advanceCpos_action (n : Nat) (s : State) : (s.advanceCpos n).action = s.action := rfl

@[simp] theorem Line.log_id (e : Event) (l : Line) : (l.log e).id = l.id := rfl
@[simp] theorem Line.log_cfg (e : Event) (l : Line) : (l.log e).cfg = l.cfg := rfl
@[simp] theorem Line.log_rxValid (e : Event) (l : Line) : (l.log e).rxValid = l.rxValid := rfl
@[simp] theorem Line.log_txValid (e : Event) (l : Line) : (l.log e).txValid = l.txValid := rfl
@[simp] theorem Line.log_halfDup (e : Event) (l : Line) : (l.log e).halfDup = l.halfDup := rfl
@[simp] theorem Line.log_cpos (e : Event) (l : Line) : (l.log e).cpos = l.cpos := rfl
@[simp] theorem Line.log_cmd (e : Event) (l : Line) : (l.log e).cmd = l.cmd := rfl
@[simp] theorem Line.log_resp (e : Event) (l : Line) : (l.log e).resp = l.resp := rfl
@[simp] theorem Line.log_ctrl (e : Event) (l : Line) : (l.log e).ctrl = l.ctrl := rfl
@[simp] theorem Line.log_txenPin (e : Event) (l : Line) : (l.log e).txenPin = l.txenPin := rfl
@[simp] theorem Line.log_slot (e : Event) (l : Line) : (l.log e).slot = l.slot := rfl
@[simp] theorem Line.log_bitcyc (e : Event) (l : Line) : (l.log e).bitcyc = l.bitcyc := rfl
@[simp] theorem Line.log_slotE (e : Event) (l : Line) : (l.log e).slotE = l.slotE := rfl
@[simp] theorem Line.log_eHead (e : Event) (l : Line) : (l.log e).eHead = l.eHead := rfl
@[simp] theorem Line.log_eTail (e : Event) (l : Line) : (l.log e).eTail = l.eTail := rfl
@[simp] theorem Line.log_eOvf (e : Event) (l : Line) : (l.log e).eOvf = l.eOvf := rfl
@[simp] theorem Line.log_rxPos (e : Event) (l : Line) : (l.log e).rxPos = l.rxPos := rfl
@[simp] theorem Line.log_rxByte (e : Event) (l : Line) : (l.log e).rxByte = l.rxByte := rfl
@[simp] theorem Line.log_rxLast (e : Event) (l : Line) : (l.log e).rxLast = l.rxLast := rfl
@[simp] theorem Line.log_slotB (e : Event) (l : Line) : (l.log e).slotB = l.slotB := rfl
@[simp] theorem Line.log_bHead (e : Event) (l : Line) : (l.log e).bHead = l.bHead := rfl
@[simp] theorem Line.log_bTail (e : Event) (l : Line) : (l.log e).bTail = l.bTail := rfl
@[simp] theorem Line.log_lineOvf (e : Event) (l : Line) : (l.log e).lineOvf = l.lineOvf := rfl
@[simp] theorem Line.log_txDl (e : Event) (l : Line) : (l.log e).txDl = l.txDl := rfl
@[simp] theorem Line.log_txHi (e : Event) (l : Line) : (l.log e).txHi = l.txHi := rfl
@[simp] theorem Line.log_txLo (e : Event) (l : Line) : (l.log e).txLo = l.txLo := rfl
@[simp] theorem Line.log_txPrev (e : Event) (l : Line) : (l.log e).txPrev = l.txPrev := rfl
@[simp] theorem Line.log_txSavedIe (e : Event) (l : Line) : (l.log e).txSavedIe = l.txSavedIe := rfl
@[simp] theorem Line.log_pendRx (e : Event) (l : Line) : (l.log e).pendRx = l.pendRx := rfl
@[simp] theorem Line.log_capCycle (e : Event) (l : Line) : (l.log e).capCycle = l.capCycle := rfl
@[simp] theorem Line.log_trace (e : Event) (l : Line) : (l.log e).trace = l.trace ++ [e] := rfl

@[simp] theorem Line.raise_id (c : Condition) (l : Line) : (l.raise c).id = l.id := rfl
@[simp] theorem Line.raise_cfg (c : Condition) (l : Line) : (l.raise c).cfg = l.cfg := rfl
@[simp] theorem Line.raise_rxValid (c : Condition) (l : Line) : (l.raise c).rxValid = l.rxValid := rfl
@[simp] theorem Line.raise_txValid (c : Condition) (l : Line) : (l.raise c).txValid = l.txValid := rfl
@[simp] theorem Line.raise_halfDup (c : Condition) (l : Line) : (l.raise c).halfDup = l.halfDup := rfl
@[simp] theorem Line.raise_cpos (c : Condition) (l : Line) : (l.raise c).cpos = l.cpos := rfl
@[simp] theorem Line.raise_cmd (c : Condition) (l : Line) : (l.raise c).cmd = l.cmd := rfl
@[simp] theorem Line.raise_resp (c : Condition) (l : Line) : (l.raise c).resp = l.resp := rfl
@[simp] theorem Line.raise_ctrl (c : Condition) (l : Line) : (l.raise c).ctrl = l.ctrl := rfl
@[simp] theorem Line.raise_txenPin (c : Condition) (l : Line) : (l.raise c).txenPin = l.txenPin := rfl
@[simp] theorem Line.raise_slot (c : Condition) (l : Line) : (l.raise c).slot = l.slot := rfl
@[simp] theorem Line.raise_bitcyc (c : Condition) (l : Line) : (l.raise c).bitcyc = l.bitcyc := rfl
@[simp] theorem Line.raise_slotE (c : Condition) (l : Line) : (l.raise c).slotE = l.slotE := rfl
@[simp] theorem Line.raise_eHead (c : Condition) (l : Line) : (l.raise c).eHead = l.eHead := rfl
@[simp] theorem Line.raise_eTail (c : Condition) (l : Line) : (l.raise c).eTail = l.eTail := rfl
@[simp] theorem Line.raise_eOvf (c : Condition) (l : Line) : (l.raise c).eOvf = l.eOvf := rfl
@[simp] theorem Line.raise_rxPos (c : Condition) (l : Line) : (l.raise c).rxPos = l.rxPos := rfl
@[simp] theorem Line.raise_rxByte (c : Condition) (l : Line) : (l.raise c).rxByte = l.rxByte := rfl
@[simp] theorem Line.raise_rxLast (c : Condition) (l : Line) : (l.raise c).rxLast = l.rxLast := rfl
@[simp] theorem Line.raise_slotB (c : Condition) (l : Line) : (l.raise c).slotB = l.slotB := rfl
@[simp] theorem Line.raise_bHead (c : Condition) (l : Line) : (l.raise c).bHead = l.bHead := rfl
@[simp] theorem Line.raise_bTail (c : Condition) (l : Line) : (l.raise c).bTail = l.bTail := rfl
@[simp] theorem Line.raise_lineOvf (c : Condition) (l : Line) : (l.raise c).lineOvf = l.lineOvf := rfl
@[simp] theorem Line.raise_txDl (c : Condition) (l : Line) : (l.raise c).txDl = l.txDl := rfl
@[simp] theorem Line.raise_txHi (c : Condition) (l : Line) : (l.raise c).txHi = l.txHi := rfl
@[simp] theorem Line.raise_txLo (c : Condition) (l : Line) : (l.raise c).txLo = l.txLo := rfl
@[simp] theorem Line.raise_txPrev (c : Condition) (l : Line) : (l.raise c).txPrev = l.txPrev := rfl
@[simp] theorem Line.raise_txSavedIe (c : Condition) (l : Line) : (l.raise c).txSavedIe = l.txSavedIe := rfl
@[simp] theorem Line.raise_pendRx (c : Condition) (l : Line) : (l.raise c).pendRx = l.pendRx := rfl
@[simp] theorem Line.raise_capCycle (c : Condition) (l : Line) : (l.raise c).capCycle = l.capCycle := rfl
@[simp] theorem Line.raise_trace (c : Condition) (l : Line) : (l.raise c).trace = l.trace ++ [.condition c] := rfl

@[simp] theorem Line.respond_id (x : Word) (l : Line) : (l.respond x).id = l.id := rfl
@[simp] theorem Line.respond_cfg (x : Word) (l : Line) : (l.respond x).cfg = l.cfg := rfl
@[simp] theorem Line.respond_rxValid (x : Word) (l : Line) : (l.respond x).rxValid = l.rxValid := rfl
@[simp] theorem Line.respond_txValid (x : Word) (l : Line) : (l.respond x).txValid = l.txValid := rfl
@[simp] theorem Line.respond_halfDup (x : Word) (l : Line) : (l.respond x).halfDup = l.halfDup := rfl
@[simp] theorem Line.respond_cpos (x : Word) (l : Line) : (l.respond x).cpos = l.cpos := rfl
@[simp] theorem Line.respond_cmd (x : Word) (l : Line) : (l.respond x).cmd = l.cmd := rfl
@[simp] theorem Line.respond_resp (x : Word) (l : Line) : (l.respond x).resp = l.resp ++ [x] := rfl
@[simp] theorem Line.respond_ctrl (x : Word) (l : Line) : (l.respond x).ctrl = l.ctrl := rfl
@[simp] theorem Line.respond_txenPin (x : Word) (l : Line) : (l.respond x).txenPin = l.txenPin := rfl
@[simp] theorem Line.respond_slot (x : Word) (l : Line) : (l.respond x).slot = l.slot := rfl
@[simp] theorem Line.respond_bitcyc (x : Word) (l : Line) : (l.respond x).bitcyc = l.bitcyc := rfl
@[simp] theorem Line.respond_slotE (x : Word) (l : Line) : (l.respond x).slotE = l.slotE := rfl
@[simp] theorem Line.respond_eHead (x : Word) (l : Line) : (l.respond x).eHead = l.eHead := rfl
@[simp] theorem Line.respond_eTail (x : Word) (l : Line) : (l.respond x).eTail = l.eTail := rfl
@[simp] theorem Line.respond_eOvf (x : Word) (l : Line) : (l.respond x).eOvf = l.eOvf := rfl
@[simp] theorem Line.respond_rxPos (x : Word) (l : Line) : (l.respond x).rxPos = l.rxPos := rfl
@[simp] theorem Line.respond_rxByte (x : Word) (l : Line) : (l.respond x).rxByte = l.rxByte := rfl
@[simp] theorem Line.respond_rxLast (x : Word) (l : Line) : (l.respond x).rxLast = l.rxLast := rfl
@[simp] theorem Line.respond_slotB (x : Word) (l : Line) : (l.respond x).slotB = l.slotB := rfl
@[simp] theorem Line.respond_bHead (x : Word) (l : Line) : (l.respond x).bHead = l.bHead := rfl
@[simp] theorem Line.respond_bTail (x : Word) (l : Line) : (l.respond x).bTail = l.bTail := rfl
@[simp] theorem Line.respond_lineOvf (x : Word) (l : Line) : (l.respond x).lineOvf = l.lineOvf := rfl
@[simp] theorem Line.respond_txDl (x : Word) (l : Line) : (l.respond x).txDl = l.txDl := rfl
@[simp] theorem Line.respond_txHi (x : Word) (l : Line) : (l.respond x).txHi = l.txHi := rfl
@[simp] theorem Line.respond_txLo (x : Word) (l : Line) : (l.respond x).txLo = l.txLo := rfl
@[simp] theorem Line.respond_txPrev (x : Word) (l : Line) : (l.respond x).txPrev = l.txPrev := rfl
@[simp] theorem Line.respond_txSavedIe (x : Word) (l : Line) : (l.respond x).txSavedIe = l.txSavedIe := rfl
@[simp] theorem Line.respond_pendRx (x : Word) (l : Line) : (l.respond x).pendRx = l.pendRx := rfl
@[simp] theorem Line.respond_trace (x : Word) (l : Line) : (l.respond x).trace = l.trace := rfl

@[simp] theorem Line.setLife_id (x : Life) (l : Line) : (l.setLife x).id = l.id := rfl
@[simp] theorem Line.setLife_cfg (x : Life) (l : Line) : (l.setLife x).cfg = l.cfg := rfl
@[simp] theorem Line.setLife_rxValid (x : Life) (l : Line) : (l.setLife x).rxValid = l.rxValid := rfl
@[simp] theorem Line.setLife_txValid (x : Life) (l : Line) : (l.setLife x).txValid = l.txValid := rfl
@[simp] theorem Line.setLife_halfDup (x : Life) (l : Line) : (l.setLife x).halfDup = l.halfDup := rfl
@[simp] theorem Line.setLife_cpos (x : Life) (l : Line) : (l.setLife x).cpos = l.cpos := rfl
@[simp] theorem Line.setLife_cmd (x : Life) (l : Line) : (l.setLife x).cmd = l.cmd := rfl
@[simp] theorem Line.setLife_resp (x : Life) (l : Line) : (l.setLife x).resp = l.resp := rfl
@[simp] theorem Line.setLife_ctrl (x : Life) (l : Line) : (l.setLife x).ctrl = { l.ctrl with life := x } := rfl
@[simp] theorem Line.setLife_txenPin (x : Life) (l : Line) : (l.setLife x).txenPin = l.txenPin := rfl
@[simp] theorem Line.setLife_slot (x : Life) (l : Line) : (l.setLife x).slot = l.slot := rfl
@[simp] theorem Line.setLife_bitcyc (x : Life) (l : Line) : (l.setLife x).bitcyc = l.bitcyc := rfl
@[simp] theorem Line.setLife_slotE (x : Life) (l : Line) : (l.setLife x).slotE = l.slotE := rfl
@[simp] theorem Line.setLife_eHead (x : Life) (l : Line) : (l.setLife x).eHead = l.eHead := rfl
@[simp] theorem Line.setLife_eTail (x : Life) (l : Line) : (l.setLife x).eTail = l.eTail := rfl
@[simp] theorem Line.setLife_eOvf (x : Life) (l : Line) : (l.setLife x).eOvf = l.eOvf := rfl
@[simp] theorem Line.setLife_rxPos (x : Life) (l : Line) : (l.setLife x).rxPos = l.rxPos := rfl
@[simp] theorem Line.setLife_rxByte (x : Life) (l : Line) : (l.setLife x).rxByte = l.rxByte := rfl
@[simp] theorem Line.setLife_rxLast (x : Life) (l : Line) : (l.setLife x).rxLast = l.rxLast := rfl
@[simp] theorem Line.setLife_slotB (x : Life) (l : Line) : (l.setLife x).slotB = l.slotB := rfl
@[simp] theorem Line.setLife_bHead (x : Life) (l : Line) : (l.setLife x).bHead = l.bHead := rfl
@[simp] theorem Line.setLife_bTail (x : Life) (l : Line) : (l.setLife x).bTail = l.bTail := rfl
@[simp] theorem Line.setLife_lineOvf (x : Life) (l : Line) : (l.setLife x).lineOvf = l.lineOvf := rfl
@[simp] theorem Line.setLife_txDl (x : Life) (l : Line) : (l.setLife x).txDl = l.txDl := rfl
@[simp] theorem Line.setLife_txHi (x : Life) (l : Line) : (l.setLife x).txHi = l.txHi := rfl
@[simp] theorem Line.setLife_txLo (x : Life) (l : Line) : (l.setLife x).txLo = l.txLo := rfl
@[simp] theorem Line.setLife_txPrev (x : Life) (l : Line) : (l.setLife x).txPrev = l.txPrev := rfl
@[simp] theorem Line.setLife_txSavedIe (x : Life) (l : Line) : (l.setLife x).txSavedIe = l.txSavedIe := rfl
@[simp] theorem Line.setLife_pendRx (x : Life) (l : Line) : (l.setLife x).pendRx = l.pendRx := rfl
@[simp] theorem Line.setLife_capCycle (x : Life) (l : Line) : (l.setLife x).capCycle = l.capCycle := rfl
@[simp] theorem Line.setLife_trace (x : Life) (l : Line) : (l.setLife x).trace = l.trace := rfl

@[simp] theorem Line.restart_id (bn k : Nat) (now : Word) (l : Line) : (l.restart bn k now).id = l.id := rfl
@[simp] theorem Line.restart_cfg (bn k : Nat) (now : Word) (l : Line) : (l.restart bn k now).cfg = l.cfg := rfl
@[simp] theorem Line.restart_rxValid (bn k : Nat) (now : Word) (l : Line) : (l.restart bn k now).rxValid = l.rxValid := rfl
@[simp] theorem Line.restart_txValid (bn k : Nat) (now : Word) (l : Line) : (l.restart bn k now).txValid = l.txValid := rfl
@[simp] theorem Line.restart_halfDup (bn k : Nat) (now : Word) (l : Line) : (l.restart bn k now).halfDup = l.halfDup := rfl
@[simp] theorem Line.restart_cpos (bn k : Nat) (now : Word) (l : Line) : (l.restart bn k now).cpos = l.cpos := rfl
@[simp] theorem Line.restart_cmd (bn k : Nat) (now : Word) (l : Line) : (l.restart bn k now).cmd = l.cmd := rfl
@[simp] theorem Line.restart_resp (bn k : Nat) (now : Word) (l : Line) : (l.restart bn k now).resp = l.resp := rfl
@[simp] theorem Line.restart_ctrl (bn k : Nat) (now : Word) (l : Line) : (l.restart bn k now).ctrl = { l.ctrl with txDir := false } := rfl
@[simp] theorem Line.restart_txenPin (bn k : Nat) (now : Word) (l : Line) : (l.restart bn k now).txenPin = l.txenPin := rfl
@[simp] theorem Line.restart_slot (bn k : Nat) (now : Word) (l : Line) : (l.restart bn k now).slot = BitVec.ofNat 8 k := rfl
@[simp] theorem Line.restart_bitcyc (bn k : Nat) (now : Word) (l : Line) : (l.restart bn k now).bitcyc = BitVec.ofNat 32 bn := rfl
@[simp] theorem Line.restart_slotE (bn k : Nat) (now : Word) (l : Line) : (l.restart bn k now).slotE = l.slotE := rfl
@[simp] theorem Line.restart_eHead (bn k : Nat) (now : Word) (l : Line) : (l.restart bn k now).eHead = 0 := rfl
@[simp] theorem Line.restart_eTail (bn k : Nat) (now : Word) (l : Line) : (l.restart bn k now).eTail = 0 := rfl
@[simp] theorem Line.restart_eOvf (bn k : Nat) (now : Word) (l : Line) : (l.restart bn k now).eOvf = false := rfl
@[simp] theorem Line.restart_rxPos (bn k : Nat) (now : Word) (l : Line) : (l.restart bn k now).rxPos = .idle := rfl
@[simp] theorem Line.restart_rxByte (bn k : Nat) (now : Word) (l : Line) : (l.restart bn k now).rxByte = 0 := rfl
@[simp] theorem Line.restart_rxLast (bn k : Nat) (now : Word) (l : Line) : (l.restart bn k now).rxLast = mkEdge now (inactivePin l.cfg) := rfl
@[simp] theorem Line.restart_slotB (bn k : Nat) (now : Word) (l : Line) : (l.restart bn k now).slotB = l.slotB := rfl
@[simp] theorem Line.restart_bHead (bn k : Nat) (now : Word) (l : Line) : (l.restart bn k now).bHead = 0 := rfl
@[simp] theorem Line.restart_bTail (bn k : Nat) (now : Word) (l : Line) : (l.restart bn k now).bTail = 0 := rfl
@[simp] theorem Line.restart_lineOvf (bn k : Nat) (now : Word) (l : Line) : (l.restart bn k now).lineOvf = false := rfl
@[simp] theorem Line.restart_txDl (bn k : Nat) (now : Word) (l : Line) : (l.restart bn k now).txDl = l.txDl := rfl
@[simp] theorem Line.restart_txHi (bn k : Nat) (now : Word) (l : Line) : (l.restart bn k now).txHi = l.txHi := rfl
@[simp] theorem Line.restart_txLo (bn k : Nat) (now : Word) (l : Line) : (l.restart bn k now).txLo = l.txLo := rfl
@[simp] theorem Line.restart_txPrev (bn k : Nat) (now : Word) (l : Line) : (l.restart bn k now).txPrev = l.txPrev := rfl
@[simp] theorem Line.restart_txSavedIe (bn k : Nat) (now : Word) (l : Line) : (l.restart bn k now).txSavedIe = l.txSavedIe := rfl
@[simp] theorem Line.restart_pendRx (bn k : Nat) (now : Word) (l : Line) : (l.restart bn k now).pendRx = l.pendRx := rfl
@[simp] theorem Line.restart_capCycle (bn k : Nat) (now : Word) (l : Line) : (l.restart bn k now).capCycle = l.capCycle := rfl
@[simp] theorem Line.restart_trace (bn k : Nat) (now : Word) (l : Line) : (l.restart bn k now).trace = l.trace := rfl

end Sys2Proof.Machine
end

