-- ==== Sys2Proof/Laws/Env.lean ====
section
/-! SUPPORT. What the other agents can do between two foreground primitives: one relation that every move of a turn
keeps, so that no later proof unfolds a turn. -/

namespace Sys2Proof.Machine

/-! ### The relation -/

/-- What a turn can do to a line: everything only a foreground writes is as before, and command words are only added. -/
structure LineRel (l m : Line) : Prop where
  foreground : m.foreground = l.foreground
  cmd : ∃ ws, m.cmd = l.cmd ++ ws
  eHead_lt : l.eHead < l.cfg.ne → m.eHead < l.cfg.ne
  slotE_wf : l.slotE.wf unwrittenEdge = true → m.slotE.wf unwrittenEdge = true

/-- What a turn can do to the machine. -/
structure EnvRel (s t : State) : Prop where
  par : t.par = s.par
  ie : t.ie = s.ie
  reg : t.reg = s.reg
  action : t.action = s.action
  line : LineRel s.line t.line
  others : List.Forall₂ LineRel s.others t.others
  pins_wf : s.pins.wf untouchedPin = true → t.pins.wf untouchedPin = true
  drive : s.pins.wf untouchedPin = true → ∀ p, t.drive p = s.drive p

theorem LineRel.refl (l : Line) : LineRel l l := ⟨rfl, ⟨[], by simp⟩, fun h => h, fun h => h⟩

theorem LineRel.cfg_eq {l m : Line} (h : LineRel l m) : m.cfg = l.cfg := by
  have e := h.foreground
  simp only [Line.foreground, Line.control, Prod.mk.injEq] at e
  exact e.1.2.1

theorem LineRel.trans {l m n : Line} (h : LineRel l m) (k : LineRel m n) : LineRel l n := by
  obtain ⟨ws, hw⟩ := h.cmd
  obtain ⟨us, hu⟩ := k.cmd
  refine ⟨k.foreground.trans h.foreground, ⟨ws ++ us, by rw [hu, hw, List.append_assoc]⟩, fun e => ?_,
    fun w => k.slotE_wf (h.slotE_wf w)⟩
  have := k.eHead_lt (by rw [h.cfg_eq]; exact h.eHead_lt e)
  rwa [h.cfg_eq] at this

theorem forall₂_refl (ls : List Line) : List.Forall₂ LineRel ls ls := by
  induction ls with
  | nil => exact .nil
  | cons l ls ih => exact .cons (.refl l) ih

theorem forall₂_map {f : Line → Line} (hf : ∀ l, LineRel l (f l)) (ls : List Line) :
    List.Forall₂ LineRel ls (ls.map f) := by
  induction ls with
  | nil => exact .nil
  | cons l ls ih => exact .cons (hf l) ih

theorem forall₂_trans {as bs cs : List Line} (h : List.Forall₂ LineRel as bs) (k : List.Forall₂ LineRel bs cs) :
    List.Forall₂ LineRel as cs := by
  induction h generalizing cs with
  | nil => cases k; exact .nil
  | cons hab _ ih =>
    cases k with
    | cons hbc hrest => exact .cons (hab.trans hbc) (ih hrest)

theorem EnvRel.refl (s : State) : EnvRel s s :=
  ⟨rfl, rfl, rfl, rfl, .refl _, forall₂_refl _, id, fun _ _ => rfl⟩

theorem EnvRel.trans {s t u : State} (h : EnvRel s t) (k : EnvRel t u) : EnvRel s u :=
  ⟨k.par.trans h.par, k.ie.trans h.ie, k.reg.trans h.reg, k.action.trans h.action, h.line.trans k.line,
    forall₂_trans h.others k.others, fun w => k.pins_wf (h.pins_wf w),
    fun w p => (k.drive (h.pins_wf w) p).trans (h.drive w p)⟩

/-! ### Lines -/

theorem Line.ePush_foreground (w : Word) (l : Line) : (l.ePush w).foreground = l.foreground := by
  unfold Line.ePush; split <;> rfl

theorem Line.ePush_cmd (w : Word) (l : Line) : (l.ePush w).cmd = l.cmd := by
  unfold Line.ePush; split <;> rfl

theorem Line.ePush_eHead_lt (w : Word) (l : Line) (h : l.eHead < l.cfg.ne) : (l.ePush w).eHead < l.cfg.ne := by
  unfold Line.ePush
  split
  · exact h
  · exact Nat.mod_lt _ (Nat.lt_of_le_of_lt (Nat.zero_le _) h)

theorem Line.ePush_slotE_wf (w : Word) (l : Line) (h : l.slotE.wf unwrittenEdge = true) :
    (l.ePush w).slotE.wf unwrittenEdge = true := by
  unfold Line.ePush
  split
  · exact h
  · exact Memory.write_wf _ _ h

theorem Line.capture_rel (t : Word) (v : Level) (l : Line) : LineRel l (l.capture t v) := by
  unfold Line.capture
  refine ⟨?_, ⟨[], ?_⟩, fun h => ?_, fun h => ?_⟩
  · rw [Line.ePush_foreground]; rfl
  · rw [Line.ePush_cmd]; simp
  · exact Line.ePush_eHead_lt _ _ h
  · exact Line.ePush_slotE_wf _ _ h

theorem Line.notePinEdge_rel (p : Pin) (old new : PinState) (l : Line) : LineRel l (l.notePinEdge p old new) := by
  unfold Line.notePinEdge
  split
  · exact ⟨rfl, ⟨[], by simp⟩, fun h => h, fun h => h⟩
  · exact .refl l

theorem State.enterIsr_rel (s : State) (l : Line) : LineRel l (s.enterIsr l) := by
  have h := Line.capture_rel s.ccount (s.pinLevel l.id l.cfg.rxPin) { l with pendRx := false, capCycle := some s.cycle }
  exact ⟨h.foreground, h.cmd, h.eHead_lt, h.slotE_wf⟩

/-! ### Pins -/

theorem State.setPin_pins (p : Pin) (ps : PinState) (s : State) :
    (s.setPin p ps).pins = s.pins.write untouchedPin p.toNat ps := rfl

theorem State.pin_setPin_ne {s : State} {p q : Pin} (ps : PinState) (h : q ≠ p) : (s.setPin p ps).pin q = s.pin q :=
  Memory.read_write_ne _ _ fun e => h (BitVec.eq_of_toNat_eq e)

theorem State.pin_setPin_same {s : State} (p : Pin) (ps : PinState) (h : s.pins.wf untouchedPin = true) :
    (s.setPin p ps).pin p = ps := Memory.read_write_same _ _ h

theorem State.setPin_line_rel (p : Pin) (ps : PinState) (s : State) : LineRel s.line (s.setPin p ps).line :=
  Line.notePinEdge_rel p _ _ _

theorem State.setPin_others_rel (p : Pin) (ps : PinState) (s : State) :
    List.Forall₂ LineRel s.others (s.setPin p ps).others := forall₂_map (Line.notePinEdge_rel p _ _) _

/-- A pin's new state changes nothing of the platform but the pins. -/
theorem State.setPin_frame (p : Pin) (ps : PinState) (s : State) :
    (s.setPin p ps).par = s.par ∧ (s.setPin p ps).cycle = s.cycle ∧ (s.setPin p ps).ie = s.ie ∧
    (s.setPin p ps).reg = s.reg ∧ (s.setPin p ps).env = s.env ∧
    (s.setPin p ps).draws = s.draws ∧ (s.setPin p ps).host = s.host ∧ (s.setPin p ps).action = s.action :=
  ⟨rfl, rfl, rfl, rfl, rfl, rfl, rfl, rfl⟩

/-- A change of what only the environment may change of a pin keeps the pin's drive. -/
theorem State.setPin_ext_rel (p : Pin) (v : Level) (s : State) : EnvRel s (s.setPin p { s.pin p with ext := v }) := by
  obtain ⟨h1, -, h3, h4, -, -, -, h8⟩ := State.setPin_frame p { s.pin p with ext := v } s
  refine ⟨h1, h3, h4, h8, setPin_line_rel _ _ _, setPin_others_rel _ _ _, ?_, ?_⟩
  · intro w
    rw [setPin_pins]
    exact Memory.write_wf _ _ w
  · intro w q
    by_cases hq : q = p
    · subst hq
      simp only [State.drive, pin_setPin_same _ _ w]
    · simp only [State.drive, pin_setPin_ne _ hq]

/-! ### Turns -/

theorem State.advance_rel (n : Nat) (s : State) : EnvRel s (s.advance n) :=
  ⟨rfl, rfl, rfl, rfl, .refl _, forall₂_refl _, id, fun _ _ => rfl⟩

theorem State.mapLines_rel {f : Line → Line} (hf : ∀ l, LineRel l (f l)) (s : State) : EnvRel s (s.mapLines f) :=
  ⟨rfl, rfl, rfl, rfl, hf _, forall₂_map hf _, id, fun _ _ => rfl⟩

theorem State.takeInterrupt_rel (slot : Nat) (s : State) : EnvRel s (s.takeInterrupt slot) := by
  unfold State.takeInterrupt
  split
  · refine State.mapLines_rel (fun l => ?_) s
    split
    · exact s.enterIsr_rel l
    · exact .refl l
  · exact .refl s

theorem State.move_rel (s : State) (m : Move) : EnvRel s (s.move m) := by
  cases m with
  | env e =>
    cases e with
    | advance n => exact s.advance_rel n
    | level p v => exact s.setPin_ext_rel p v
    | interrupt slot => exact s.takeInterrupt_rel slot
  | supply id ws =>
    refine State.mapLines_rel (f := fun l => if l.id = id then { l with cmd := l.cmd ++ ws } else l) (fun l => ?_) s
    split
    · exact ⟨rfl, ⟨ws, rfl⟩, fun h => h, fun h => h⟩
    · exact .refl l
  | request r => exact ⟨rfl, rfl, rfl, rfl, .refl _, forall₂_refl _, fun w => w, fun _ _ => rfl⟩

theorem State.moves_rel (ms : List Move) (s : State) : EnvRel s (ms.foldl State.move s) := by
  induction ms generalizing s with
  | nil => exact .refl s
  | cons m ms ih => exact (s.move_rel m).trans (ih _)

theorem State.dropTurn_rel (s : State) : EnvRel s s.dropTurn := by
  unfold State.dropTurn
  split <;> exact ⟨rfl, rfl, rfl, rfl, .refl _, forall₂_refl _, id, fun _ _ => rfl⟩

/-- All a boundary can do. -/
theorem State.tick_rel (s : State) : EnvRel s s.tick := s.dropTurn_rel.trans (State.moves_rel _ _)

/-! ### The same, field by field -/

/-- Equal foreground parts, field by field. -/
theorem LineRel.fields {l m : Line} (h : LineRel l m) :
    m.id = l.id ∧
    m.cfg = l.cfg ∧
    m.rxValid = l.rxValid ∧
    m.txValid = l.txValid ∧
    m.halfDup = l.halfDup ∧
    m.cpos = l.cpos ∧
    m.ctrl = l.ctrl ∧
    m.txenPin = l.txenPin ∧
    m.slot = l.slot ∧
    m.bitcyc = l.bitcyc ∧
    m.rxPos = l.rxPos ∧
    m.rxByte = l.rxByte ∧
    m.rxLast = l.rxLast ∧
    m.slotB = l.slotB ∧
    m.bHead = l.bHead ∧
    m.bTail = l.bTail ∧
    m.txDl = l.txDl ∧
    m.txHi = l.txHi ∧
    m.txLo = l.txLo ∧
    m.txPrev = l.txPrev ∧
    m.txSavedIe = l.txSavedIe ∧
    m.eTail = l.eTail ∧
    m.lineOvf = l.lineOvf ∧
    m.resp = l.resp := by
  have e := h.foreground
  simp only [Line.foreground, Line.control, Line.decoder, Line.byteRing, Line.transmitter, Prod.mk.injEq] at e
  obtain ⟨⟨e1, e2, e3, e4, e5, e6, e7, e8, e9, e10⟩, ⟨e11, e12, e13⟩, ⟨e14, e15, e16⟩, ⟨e17, e18, e19, e20, e21⟩, e22, e23, e24⟩ := e
  exact ⟨e1, e2, e3, e4, e5, e6, e7, e8, e9, e10, e11, e12, e13, e14, e15, e16, e17, e18, e19, e20, e21, e22, e23, e24⟩

theorem LineRel.id_eq {l m : Line} (h : LineRel l m) : m.id = l.id := h.fields.1
theorem LineRel.rxValid_eq {l m : Line} (h : LineRel l m) : m.rxValid = l.rxValid := h.fields.2.2.1
theorem LineRel.txValid_eq {l m : Line} (h : LineRel l m) : m.txValid = l.txValid := h.fields.2.2.2.1
theorem LineRel.halfDup_eq {l m : Line} (h : LineRel l m) : m.halfDup = l.halfDup := h.fields.2.2.2.2.1
theorem LineRel.cpos_eq {l m : Line} (h : LineRel l m) : m.cpos = l.cpos := h.fields.2.2.2.2.2.1
theorem LineRel.ctrl_eq {l m : Line} (h : LineRel l m) : m.ctrl = l.ctrl := h.fields.2.2.2.2.2.2.1
theorem LineRel.txenPin_eq {l m : Line} (h : LineRel l m) : m.txenPin = l.txenPin := h.fields.2.2.2.2.2.2.2.1
theorem LineRel.slot_eq {l m : Line} (h : LineRel l m) : m.slot = l.slot := h.fields.2.2.2.2.2.2.2.2.1
theorem LineRel.bitcyc_eq {l m : Line} (h : LineRel l m) : m.bitcyc = l.bitcyc := h.fields.2.2.2.2.2.2.2.2.2.1
theorem LineRel.rxPos_eq {l m : Line} (h : LineRel l m) : m.rxPos = l.rxPos := h.fields.2.2.2.2.2.2.2.2.2.2.1
theorem LineRel.rxByte_eq {l m : Line} (h : LineRel l m) : m.rxByte = l.rxByte := h.fields.2.2.2.2.2.2.2.2.2.2.2.1
theorem LineRel.rxLast_eq {l m : Line} (h : LineRel l m) : m.rxLast = l.rxLast := h.fields.2.2.2.2.2.2.2.2.2.2.2.2.1
theorem LineRel.slotB_eq {l m : Line} (h : LineRel l m) : m.slotB = l.slotB := h.fields.2.2.2.2.2.2.2.2.2.2.2.2.2.1
theorem LineRel.bHead_eq {l m : Line} (h : LineRel l m) : m.bHead = l.bHead := h.fields.2.2.2.2.2.2.2.2.2.2.2.2.2.2.1
theorem LineRel.bTail_eq {l m : Line} (h : LineRel l m) : m.bTail = l.bTail := h.fields.2.2.2.2.2.2.2.2.2.2.2.2.2.2.2.1
theorem LineRel.txDl_eq {l m : Line} (h : LineRel l m) : m.txDl = l.txDl := h.fields.2.2.2.2.2.2.2.2.2.2.2.2.2.2.2.2.1
theorem LineRel.txHi_eq {l m : Line} (h : LineRel l m) : m.txHi = l.txHi := h.fields.2.2.2.2.2.2.2.2.2.2.2.2.2.2.2.2.2.1
theorem LineRel.txLo_eq {l m : Line} (h : LineRel l m) : m.txLo = l.txLo := h.fields.2.2.2.2.2.2.2.2.2.2.2.2.2.2.2.2.2.2.1
theorem LineRel.txPrev_eq {l m : Line} (h : LineRel l m) : m.txPrev = l.txPrev := h.fields.2.2.2.2.2.2.2.2.2.2.2.2.2.2.2.2.2.2.2.1
theorem LineRel.txSavedIe_eq {l m : Line} (h : LineRel l m) : m.txSavedIe = l.txSavedIe := h.fields.2.2.2.2.2.2.2.2.2.2.2.2.2.2.2.2.2.2.2.2.1
theorem LineRel.eTail_eq {l m : Line} (h : LineRel l m) : m.eTail = l.eTail := h.fields.2.2.2.2.2.2.2.2.2.2.2.2.2.2.2.2.2.2.2.2.2.1
theorem LineRel.lineOvf_eq {l m : Line} (h : LineRel l m) : m.lineOvf = l.lineOvf := h.fields.2.2.2.2.2.2.2.2.2.2.2.2.2.2.2.2.2.2.2.2.2.2.1
theorem LineRel.resp_eq {l m : Line} (h : LineRel l m) : m.resp = l.resp := h.fields.2.2.2.2.2.2.2.2.2.2.2.2.2.2.2.2.2.2.2.2.2.2.2

@[simp] theorem State.tick_line_id (s : State) : s.tick.line.id = s.line.id := s.tick_rel.line.id_eq
@[simp] theorem State.tick_line_cfg (s : State) : s.tick.line.cfg = s.line.cfg := s.tick_rel.line.cfg_eq
@[simp] theorem State.tick_line_rxValid (s : State) : s.tick.line.rxValid = s.line.rxValid := s.tick_rel.line.rxValid_eq
@[simp] theorem State.tick_line_txValid (s : State) : s.tick.line.txValid = s.line.txValid := s.tick_rel.line.txValid_eq
@[simp] theorem State.tick_line_halfDup (s : State) : s.tick.line.halfDup = s.line.halfDup := s.tick_rel.line.halfDup_eq
@[simp] theorem State.tick_line_cpos (s : State) : s.tick.line.cpos = s.line.cpos := s.tick_rel.line.cpos_eq
@[simp] theorem State.tick_line_ctrl (s : State) : s.tick.line.ctrl = s.line.ctrl := s.tick_rel.line.ctrl_eq
@[simp] theorem State.tick_line_txenPin (s : State) : s.tick.line.txenPin = s.line.txenPin := s.tick_rel.line.txenPin_eq
@[simp] theorem State.tick_line_slot (s : State) : s.tick.line.slot = s.line.slot := s.tick_rel.line.slot_eq
@[simp] theorem State.tick_line_bitcyc (s : State) : s.tick.line.bitcyc = s.line.bitcyc := s.tick_rel.line.bitcyc_eq
@[simp] theorem State.tick_line_rxPos (s : State) : s.tick.line.rxPos = s.line.rxPos := s.tick_rel.line.rxPos_eq
@[simp] theorem State.tick_line_rxByte (s : State) : s.tick.line.rxByte = s.line.rxByte := s.tick_rel.line.rxByte_eq
@[simp] theorem State.tick_line_rxLast (s : State) : s.tick.line.rxLast = s.line.rxLast := s.tick_rel.line.rxLast_eq
@[simp] theorem State.tick_line_slotB (s : State) : s.tick.line.slotB = s.line.slotB := s.tick_rel.line.slotB_eq
@[simp] theorem State.tick_line_bHead (s : State) : s.tick.line.bHead = s.line.bHead := s.tick_rel.line.bHead_eq
@[simp] theorem State.tick_line_bTail (s : State) : s.tick.line.bTail = s.line.bTail := s.tick_rel.line.bTail_eq
@[simp] theorem State.tick_line_txDl (s : State) : s.tick.line.txDl = s.line.txDl := s.tick_rel.line.txDl_eq
@[simp] theorem State.tick_line_txHi (s : State) : s.tick.line.txHi = s.line.txHi := s.tick_rel.line.txHi_eq
@[simp] theorem State.tick_line_txLo (s : State) : s.tick.line.txLo = s.line.txLo := s.tick_rel.line.txLo_eq
@[simp] theorem State.tick_line_txPrev (s : State) : s.tick.line.txPrev = s.line.txPrev := s.tick_rel.line.txPrev_eq
@[simp] theorem State.tick_line_txSavedIe (s : State) : s.tick.line.txSavedIe = s.line.txSavedIe := s.tick_rel.line.txSavedIe_eq
@[simp] theorem State.tick_line_eTail (s : State) : s.tick.line.eTail = s.line.eTail := s.tick_rel.line.eTail_eq
@[simp] theorem State.tick_line_lineOvf (s : State) : s.tick.line.lineOvf = s.line.lineOvf := s.tick_rel.line.lineOvf_eq
@[simp] theorem State.tick_line_resp (s : State) : s.tick.line.resp = s.line.resp := s.tick_rel.line.resp_eq
@[simp] theorem State.tick_par (s : State) : s.tick.par = s.par := s.tick_rel.par
@[simp] theorem State.tick_ie (s : State) : s.tick.ie = s.ie := s.tick_rel.ie
@[simp] theorem State.tick_reg (s : State) : s.tick.reg = s.reg := s.tick_rel.reg
@[simp] theorem State.tick_action (s : State) : s.tick.action = s.action := s.tick_rel.action

end Sys2Proof.Machine
end

