-- ==== Sys2Proof/Laws/Prims.lean ====
section
/-! SUPPORT. The foreground primitives, field by field, and the relation every foreground operation keeps on the rest of
the machine. -/

namespace Sys2Proof.Machine

@[simp] theorem State.setPin_line_id (p : Pin) (ps : PinState) (s : State) : (s.setPin p ps).line.id = s.line.id :=
  (s.setPin_line_rel p ps).id_eq
@[simp] theorem State.setPin_line_cfg (p : Pin) (ps : PinState) (s : State) : (s.setPin p ps).line.cfg = s.line.cfg :=
  (s.setPin_line_rel p ps).cfg_eq
@[simp] theorem State.setPin_line_rxValid (p : Pin) (ps : PinState) (s : State) : (s.setPin p ps).line.rxValid = s.line.rxValid :=
  (s.setPin_line_rel p ps).rxValid_eq
@[simp] theorem State.setPin_line_txValid (p : Pin) (ps : PinState) (s : State) : (s.setPin p ps).line.txValid = s.line.txValid :=
  (s.setPin_line_rel p ps).txValid_eq
@[simp] theorem State.setPin_line_halfDup (p : Pin) (ps : PinState) (s : State) : (s.setPin p ps).line.halfDup = s.line.halfDup :=
  (s.setPin_line_rel p ps).halfDup_eq
@[simp] theorem State.setPin_line_cpos (p : Pin) (ps : PinState) (s : State) : (s.setPin p ps).line.cpos = s.line.cpos :=
  (s.setPin_line_rel p ps).cpos_eq
@[simp] theorem State.setPin_line_ctrl (p : Pin) (ps : PinState) (s : State) : (s.setPin p ps).line.ctrl = s.line.ctrl :=
  (s.setPin_line_rel p ps).ctrl_eq
@[simp] theorem State.setPin_line_txenPin (p : Pin) (ps : PinState) (s : State) : (s.setPin p ps).line.txenPin = s.line.txenPin :=
  (s.setPin_line_rel p ps).txenPin_eq
@[simp] theorem State.setPin_line_slot (p : Pin) (ps : PinState) (s : State) : (s.setPin p ps).line.slot = s.line.slot :=
  (s.setPin_line_rel p ps).slot_eq
@[simp] theorem State.setPin_line_bitcyc (p : Pin) (ps : PinState) (s : State) : (s.setPin p ps).line.bitcyc = s.line.bitcyc :=
  (s.setPin_line_rel p ps).bitcyc_eq
@[simp] theorem State.setPin_line_rxPos (p : Pin) (ps : PinState) (s : State) : (s.setPin p ps).line.rxPos = s.line.rxPos :=
  (s.setPin_line_rel p ps).rxPos_eq
@[simp] theorem State.setPin_line_rxByte (p : Pin) (ps : PinState) (s : State) : (s.setPin p ps).line.rxByte = s.line.rxByte :=
  (s.setPin_line_rel p ps).rxByte_eq
@[simp] theorem State.setPin_line_rxLast (p : Pin) (ps : PinState) (s : State) : (s.setPin p ps).line.rxLast = s.line.rxLast :=
  (s.setPin_line_rel p ps).rxLast_eq
@[simp] theorem State.setPin_line_slotB (p : Pin) (ps : PinState) (s : State) : (s.setPin p ps).line.slotB = s.line.slotB :=
  (s.setPin_line_rel p ps).slotB_eq
@[simp] theorem State.setPin_line_bHead (p : Pin) (ps : PinState) (s : State) : (s.setPin p ps).line.bHead = s.line.bHead :=
  (s.setPin_line_rel p ps).bHead_eq
@[simp] theorem State.setPin_line_bTail (p : Pin) (ps : PinState) (s : State) : (s.setPin p ps).line.bTail = s.line.bTail :=
  (s.setPin_line_rel p ps).bTail_eq
@[simp] theorem State.setPin_line_txDl (p : Pin) (ps : PinState) (s : State) : (s.setPin p ps).line.txDl = s.line.txDl :=
  (s.setPin_line_rel p ps).txDl_eq
@[simp] theorem State.setPin_line_txHi (p : Pin) (ps : PinState) (s : State) : (s.setPin p ps).line.txHi = s.line.txHi :=
  (s.setPin_line_rel p ps).txHi_eq
@[simp] theorem State.setPin_line_txLo (p : Pin) (ps : PinState) (s : State) : (s.setPin p ps).line.txLo = s.line.txLo :=
  (s.setPin_line_rel p ps).txLo_eq
@[simp] theorem State.setPin_line_txPrev (p : Pin) (ps : PinState) (s : State) : (s.setPin p ps).line.txPrev = s.line.txPrev :=
  (s.setPin_line_rel p ps).txPrev_eq
@[simp] theorem State.setPin_line_txSavedIe (p : Pin) (ps : PinState) (s : State) : (s.setPin p ps).line.txSavedIe = s.line.txSavedIe :=
  (s.setPin_line_rel p ps).txSavedIe_eq
@[simp] theorem State.setPin_line_eTail (p : Pin) (ps : PinState) (s : State) : (s.setPin p ps).line.eTail = s.line.eTail :=
  (s.setPin_line_rel p ps).eTail_eq
@[simp] theorem State.setPin_line_lineOvf (p : Pin) (ps : PinState) (s : State) : (s.setPin p ps).line.lineOvf = s.line.lineOvf :=
  (s.setPin_line_rel p ps).lineOvf_eq
@[simp] theorem State.setPin_line_resp (p : Pin) (ps : PinState) (s : State) : (s.setPin p ps).line.resp = s.line.resp :=
  (s.setPin_line_rel p ps).resp_eq
@[simp] theorem State.setPin_par (p : Pin) (ps : PinState) (s : State) : (s.setPin p ps).par = s.par :=
  (State.setPin_frame p ps s).1
@[simp] theorem State.setPin_cycle (p : Pin) (ps : PinState) (s : State) : (s.setPin p ps).cycle = s.cycle :=
  (State.setPin_frame p ps s).2.1
@[simp] theorem State.setPin_ccount (p : Pin) (ps : PinState) (s : State) : (s.setPin p ps).ccount = s.ccount :=
  congrArg (BitVec.ofNat 32) (s.setPin_cycle p ps)
@[simp] theorem State.setPin_ie (p : Pin) (ps : PinState) (s : State) : (s.setPin p ps).ie = s.ie :=
  (State.setPin_frame p ps s).2.2.1
@[simp] theorem State.setPin_reg (p : Pin) (ps : PinState) (s : State) : (s.setPin p ps).reg = s.reg :=
  (State.setPin_frame p ps s).2.2.2.1
@[simp] theorem State.setPin_env (p : Pin) (ps : PinState) (s : State) : (s.setPin p ps).env = s.env :=
  (State.setPin_frame p ps s).2.2.2.2.1
@[simp] theorem State.setPin_draws (p : Pin) (ps : PinState) (s : State) : (s.setPin p ps).draws = s.draws :=
  (State.setPin_frame p ps s).2.2.2.2.2.1
@[simp] theorem State.setPin_host (p : Pin) (ps : PinState) (s : State) : (s.setPin p ps).host = s.host :=
  (State.setPin_frame p ps s).2.2.2.2.2.2.1
@[simp] theorem State.setPin_action (p : Pin) (ps : PinState) (s : State) : (s.setPin p ps).action = s.action :=
  (State.setPin_frame p ps s).2.2.2.2.2.2.2

@[simp] theorem State.holdUntil_line (m : Word → Nat) (s : State) : (s.holdUntil m).line = s.tick.line := rfl
@[simp] theorem State.holdUntil_par (m : Word → Nat) (s : State) : (s.holdUntil m).par = s.par := by
  simp [State.holdUntil]
@[simp] theorem State.holdUntil_ie (m : Word → Nat) (s : State) : (s.holdUntil m).ie = s.ie := by
  simp [State.holdUntil]
@[simp] theorem State.holdUntil_reg (m : Word → Nat) (s : State) : (s.holdUntil m).reg = s.reg := by
  simp [State.holdUntil]
@[simp] theorem State.holdUntil_action (m : Word → Nat) (s : State) : (s.holdUntil m).action = s.action := by
  simp [State.holdUntil]

@[simp] theorem State.yieldCycles_line (c : Nat) (s : State) : (s.yieldCycles c).line = s.tick.line := rfl
@[simp] theorem State.yieldCycles_par (c : Nat) (s : State) : (s.yieldCycles c).par = s.par := by
  simp [State.yieldCycles]
@[simp] theorem State.yieldCycles_ie (c : Nat) (s : State) : (s.yieldCycles c).ie = s.ie := by
  simp [State.yieldCycles]
@[simp] theorem State.yieldCycles_reg (c : Nat) (s : State) : (s.yieldCycles c).reg = s.reg := by
  simp [State.yieldCycles]
@[simp] theorem State.yieldCycles_action (c : Nat) (s : State) : (s.yieldCycles c).action = s.action := by
  simp [State.yieldCycles]

@[simp] theorem State.writeIe_line (b : Bool) (s : State) : (s.writeIe b).line = s.tick.line := rfl
@[simp] theorem State.writeIe_par (b : Bool) (s : State) : (s.writeIe b).par = s.par := by
  simp [State.writeIe]
@[simp] theorem State.writeIe_ie (b : Bool) (s : State) : (s.writeIe b).ie = b := by
  simp [State.writeIe]
@[simp] theorem State.writeIe_reg (b : Bool) (s : State) : (s.writeIe b).reg = s.reg := by
  simp [State.writeIe]
@[simp] theorem State.writeIe_action (b : Bool) (s : State) : (s.writeIe b).action = s.action := by
  simp [State.writeIe]

@[simp] theorem State.storeEOvf_line (b : Bool) (s : State) : (s.storeEOvf b).line = { s.tick.line with eOvf := b } := rfl
@[simp] theorem State.storeEOvf_par (b : Bool) (s : State) : (s.storeEOvf b).par = s.par := by
  simp [State.storeEOvf]
@[simp] theorem State.storeEOvf_ie (b : Bool) (s : State) : (s.storeEOvf b).ie = s.ie := by
  simp [State.storeEOvf]
@[simp] theorem State.storeEOvf_reg (b : Bool) (s : State) : (s.storeEOvf b).reg = s.reg := by
  simp [State.storeEOvf]
@[simp] theorem State.storeEOvf_action (b : Bool) (s : State) : (s.storeEOvf b).action = s.action := by
  simp [State.storeEOvf]

@[simp] theorem State.storeETail_line (t : Nat) (s : State) : (s.storeETail t).line = { s.tick.line with eTail := t } := rfl
@[simp] theorem State.storeETail_par (t : Nat) (s : State) : (s.storeETail t).par = s.par := by
  simp [State.storeETail]
@[simp] theorem State.storeETail_ie (t : Nat) (s : State) : (s.storeETail t).ie = s.ie := by
  simp [State.storeETail]
@[simp] theorem State.storeETail_reg (t : Nat) (s : State) : (s.storeETail t).reg = s.reg := by
  simp [State.storeETail]
@[simp] theorem State.storeETail_action (t : Nat) (s : State) : (s.storeETail t).action = s.action := by
  simp [State.storeETail]

@[simp] theorem State.attach_line (s : State) : (s.attach).line = { s.tick.line with pendRx := false, ctrl := { s.tick.line.ctrl with rxArmed := true } } := rfl
@[simp] theorem State.attach_par (s : State) : (s.attach).par = s.par := by
  simp [State.attach]
@[simp] theorem State.attach_ie (s : State) : (s.attach).ie = s.ie := by
  simp [State.attach]
@[simp] theorem State.attach_reg (s : State) : (s.attach).reg = s.reg := by
  simp [State.attach]
@[simp] theorem State.attach_action (s : State) : (s.attach).action = s.action := by
  simp [State.attach]

@[simp] theorem State.detach_line (s : State) : (s.detach).line = { s.tick.line with pendRx := false, ctrl := { s.tick.line.ctrl with rxArmed := false } } := rfl
@[simp] theorem State.detach_par (s : State) : (s.detach).par = s.par := by
  simp [State.detach]
@[simp] theorem State.detach_ie (s : State) : (s.detach).ie = s.ie := by
  simp [State.detach]
@[simp] theorem State.detach_reg (s : State) : (s.detach).reg = s.reg := by
  simp [State.detach]
@[simp] theorem State.detach_action (s : State) : (s.detach).action = s.action := by
  simp [State.detach]

@[simp] theorem State.pinMode_line_id (p : Pin) (m : PinDir) (s : State) : (s.pinMode p m).line.id = s.line.id := by
  simp [State.pinMode]
@[simp] theorem State.pinWrite_line_id (p : Pin) (v : Level) (s : State) : (s.pinWrite p v).line.id = s.line.id := by
  simp [State.pinWrite]
@[simp] theorem State.pinMode_line_cfg (p : Pin) (m : PinDir) (s : State) : (s.pinMode p m).line.cfg = s.line.cfg := by
  simp [State.pinMode]
@[simp] theorem State.pinWrite_line_cfg (p : Pin) (v : Level) (s : State) : (s.pinWrite p v).line.cfg = s.line.cfg := by
  simp [State.pinWrite]
@[simp] theorem State.pinMode_line_rxValid (p : Pin) (m : PinDir) (s : State) : (s.pinMode p m).line.rxValid = s.line.rxValid := by
  simp [State.pinMode]
@[simp] theorem State.pinWrite_line_rxValid (p : Pin) (v : Level) (s : State) : (s.pinWrite p v).line.rxValid = s.line.rxValid := by
  simp [State.pinWrite]
@[simp] theorem State.pinMode_line_txValid (p : Pin) (m : PinDir) (s : State) : (s.pinMode p m).line.txValid = s.line.txValid := by
  simp [State.pinMode]
@[simp] theorem State.pinWrite_line_txValid (p : Pin) (v : Level) (s : State) : (s.pinWrite p v).line.txValid = s.line.txValid := by
  simp [State.pinWrite]
@[simp] theorem State.pinMode_line_halfDup (p : Pin) (m : PinDir) (s : State) : (s.pinMode p m).line.halfDup = s.line.halfDup := by
  simp [State.pinMode]
@[simp] theorem State.pinWrite_line_halfDup (p : Pin) (v : Level) (s : State) : (s.pinWrite p v).line.halfDup = s.line.halfDup := by
  simp [State.pinWrite]
@[simp] theorem State.pinMode_line_cpos (p : Pin) (m : PinDir) (s : State) : (s.pinMode p m).line.cpos = s.line.cpos := by
  simp [State.pinMode]
@[simp] theorem State.pinWrite_line_cpos (p : Pin) (v : Level) (s : State) : (s.pinWrite p v).line.cpos = s.line.cpos := by
  simp [State.pinWrite]
@[simp] theorem State.pinMode_line_ctrl (p : Pin) (m : PinDir) (s : State) : (s.pinMode p m).line.ctrl = s.line.ctrl := by
  simp [State.pinMode]
@[simp] theorem State.pinWrite_line_ctrl (p : Pin) (v : Level) (s : State) : (s.pinWrite p v).line.ctrl = s.line.ctrl := by
  simp [State.pinWrite]
@[simp] theorem State.pinMode_line_txenPin (p : Pin) (m : PinDir) (s : State) : (s.pinMode p m).line.txenPin = s.line.txenPin := by
  simp [State.pinMode]
@[simp] theorem State.pinWrite_line_txenPin (p : Pin) (v : Level) (s : State) : (s.pinWrite p v).line.txenPin = s.line.txenPin := by
  simp [State.pinWrite]
@[simp] theorem State.pinMode_line_slot (p : Pin) (m : PinDir) (s : State) : (s.pinMode p m).line.slot = s.line.slot := by
  simp [State.pinMode]
@[simp] theorem State.pinWrite_line_slot (p : Pin) (v : Level) (s : State) : (s.pinWrite p v).line.slot = s.line.slot := by
  simp [State.pinWrite]
@[simp] theorem State.pinMode_line_bitcyc (p : Pin) (m : PinDir) (s : State) : (s.pinMode p m).line.bitcyc = s.line.bitcyc := by
  simp [State.pinMode]
@[simp] theorem State.pinWrite_line_bitcyc (p : Pin) (v : Level) (s : State) : (s.pinWrite p v).line.bitcyc = s.line.bitcyc := by
  simp [State.pinWrite]
@[simp] theorem State.pinMode_line_rxPos (p : Pin) (m : PinDir) (s : State) : (s.pinMode p m).line.rxPos = s.line.rxPos := by
  simp [State.pinMode]
@[simp] theorem State.pinWrite_line_rxPos (p : Pin) (v : Level) (s : State) : (s.pinWrite p v).line.rxPos = s.line.rxPos := by
  simp [State.pinWrite]
@[simp] theorem State.pinMode_line_rxByte (p : Pin) (m : PinDir) (s : State) : (s.pinMode p m).line.rxByte = s.line.rxByte := by
  simp [State.pinMode]
@[simp] theorem State.pinWrite_line_rxByte (p : Pin) (v : Level) (s : State) : (s.pinWrite p v).line.rxByte = s.line.rxByte := by
  simp [State.pinWrite]
@[simp] theorem State.pinMode_line_rxLast (p : Pin) (m : PinDir) (s : State) : (s.pinMode p m).line.rxLast = s.line.rxLast := by
  simp [State.pinMode]
@[simp] theorem State.pinWrite_line_rxLast (p : Pin) (v : Level) (s : State) : (s.pinWrite p v).line.rxLast = s.line.rxLast := by
  simp [State.pinWrite]
@[simp] theorem State.pinMode_line_slotB (p : Pin) (m : PinDir) (s : State) : (s.pinMode p m).line.slotB = s.line.slotB := by
  simp [State.pinMode]
@[simp] theorem State.pinWrite_line_slotB (p : Pin) (v : Level) (s : State) : (s.pinWrite p v).line.slotB = s.line.slotB := by
  simp [State.pinWrite]
@[simp] theorem State.pinMode_line_bHead (p : Pin) (m : PinDir) (s : State) : (s.pinMode p m).line.bHead = s.line.bHead := by
  simp [State.pinMode]
@[simp] theorem State.pinWrite_line_bHead (p : Pin) (v : Level) (s : State) : (s.pinWrite p v).line.bHead = s.line.bHead := by
  simp [State.pinWrite]
@[simp] theorem State.pinMode_line_bTail (p : Pin) (m : PinDir) (s : State) : (s.pinMode p m).line.bTail = s.line.bTail := by
  simp [State.pinMode]
@[simp] theorem State.pinWrite_line_bTail (p : Pin) (v : Level) (s : State) : (s.pinWrite p v).line.bTail = s.line.bTail := by
  simp [State.pinWrite]
@[simp] theorem State.pinMode_line_txDl (p : Pin) (m : PinDir) (s : State) : (s.pinMode p m).line.txDl = s.line.txDl := by
  simp [State.pinMode]
@[simp] theorem State.pinWrite_line_txDl (p : Pin) (v : Level) (s : State) : (s.pinWrite p v).line.txDl = s.line.txDl := by
  simp [State.pinWrite]
@[simp] theorem State.pinMode_line_txHi (p : Pin) (m : PinDir) (s : State) : (s.pinMode p m).line.txHi = s.line.txHi := by
  simp [State.pinMode]
@[simp] theorem State.pinWrite_line_txHi (p : Pin) (v : Level) (s : State) : (s.pinWrite p v).line.txHi = s.line.txHi := by
  simp [State.pinWrite]
@[simp] theorem State.pinMode_line_txLo (p : Pin) (m : PinDir) (s : State) : (s.pinMode p m).line.txLo = s.line.txLo := by
  simp [State.pinMode]
@[simp] theorem State.pinWrite_line_txLo (p : Pin) (v : Level) (s : State) : (s.pinWrite p v).line.txLo = s.line.txLo := by
  simp [State.pinWrite]
@[simp] theorem State.pinMode_line_txPrev (p : Pin) (m : PinDir) (s : State) : (s.pinMode p m).line.txPrev = s.line.txPrev := by
  simp [State.pinMode]
@[simp] theorem State.pinWrite_line_txPrev (p : Pin) (v : Level) (s : State) : (s.pinWrite p v).line.txPrev = s.line.txPrev := by
  simp [State.pinWrite]
@[simp] theorem State.pinMode_line_txSavedIe (p : Pin) (m : PinDir) (s : State) : (s.pinMode p m).line.txSavedIe = s.line.txSavedIe := by
  simp [State.pinMode]
@[simp] theorem State.pinWrite_line_txSavedIe (p : Pin) (v : Level) (s : State) : (s.pinWrite p v).line.txSavedIe = s.line.txSavedIe := by
  simp [State.pinWrite]
@[simp] theorem State.pinMode_line_eTail (p : Pin) (m : PinDir) (s : State) : (s.pinMode p m).line.eTail = s.line.eTail := by
  simp [State.pinMode]
@[simp] theorem State.pinWrite_line_eTail (p : Pin) (v : Level) (s : State) : (s.pinWrite p v).line.eTail = s.line.eTail := by
  simp [State.pinWrite]
@[simp] theorem State.pinMode_line_lineOvf (p : Pin) (m : PinDir) (s : State) : (s.pinMode p m).line.lineOvf = s.line.lineOvf := by
  simp [State.pinMode]
@[simp] theorem State.pinWrite_line_lineOvf (p : Pin) (v : Level) (s : State) : (s.pinWrite p v).line.lineOvf = s.line.lineOvf := by
  simp [State.pinWrite]
@[simp] theorem State.pinMode_line_resp (p : Pin) (m : PinDir) (s : State) : (s.pinMode p m).line.resp = s.line.resp := by
  simp [State.pinMode]
@[simp] theorem State.pinWrite_line_resp (p : Pin) (v : Level) (s : State) : (s.pinWrite p v).line.resp = s.line.resp := by
  simp [State.pinWrite]
@[simp] theorem State.pinMode_par (p : Pin) (m : PinDir) (s : State) : (s.pinMode p m).par = s.par := by
  simp [State.pinMode]
@[simp] theorem State.pinWrite_par (p : Pin) (v : Level) (s : State) : (s.pinWrite p v).par = s.par := by
  simp [State.pinWrite]
@[simp] theorem State.pinMode_ie (p : Pin) (m : PinDir) (s : State) : (s.pinMode p m).ie = s.ie := by
  simp [State.pinMode]
@[simp] theorem State.pinWrite_ie (p : Pin) (v : Level) (s : State) : (s.pinWrite p v).ie = s.ie := by
  simp [State.pinWrite]
@[simp] theorem State.pinMode_reg (p : Pin) (m : PinDir) (s : State) : (s.pinMode p m).reg = s.reg := by
  simp [State.pinMode]
@[simp] theorem State.pinWrite_reg (p : Pin) (v : Level) (s : State) : (s.pinWrite p v).reg = s.reg := by
  simp [State.pinWrite]
@[simp] theorem State.pinMode_action (p : Pin) (m : PinDir) (s : State) : (s.pinMode p m).action = s.action := by
  simp [State.pinMode]
@[simp] theorem State.pinWrite_action (p : Pin) (v : Level) (s : State) : (s.pinWrite p v).action = s.action := by
  simp [State.pinWrite]
@[simp] theorem State.readCcount_fst (s : State) : s.readCcount.1 = s.tick.ccount := rfl
@[simp] theorem State.readCcount_snd (s : State) : s.readCcount.2 = s.tick := rfl
@[simp] theorem State.loadEHead_fst (s : State) : s.loadEHead.1 = s.tick.line.eHead := rfl
@[simp] theorem State.loadEHead_snd (s : State) : s.loadEHead.2 = s.tick := rfl
@[simp] theorem State.loadEOvf_fst (s : State) : s.loadEOvf.1 = s.tick.line.eOvf := rfl
@[simp] theorem State.loadEOvf_snd (s : State) : s.loadEOvf.2 = s.tick := rfl

/-! ### The rest of the machine under a foreground operation -/

/-- What any foreground operation of the active line leaves of the rest of the machine. -/
structure OpRel (s t : State) : Prop where
  par : t.par = s.par
  action : t.action = s.action
  others : List.Forall₂ LineRel s.others t.others
  pins_wf : s.pins.wf untouchedPin = true → t.pins.wf untouchedPin = true

theorem OpRel.refl (s : State) : OpRel s s := ⟨rfl, rfl, forall₂_refl _, id⟩

theorem OpRel.trans {s t u : State} (h : OpRel s t) (k : OpRel t u) : OpRel s u :=
  ⟨k.par.trans h.par, k.action.trans h.action, forall₂_trans h.others k.others, fun w => k.pins_wf (h.pins_wf w)⟩

theorem EnvRel.op {s t : State} (h : EnvRel s t) : OpRel s t := ⟨h.par, h.action, h.others, h.pins_wf⟩

theorem State.tick_op (s : State) : OpRel s s.tick := s.tick_rel.op

theorem State.mapLine_op (f : Line → Line) (s : State) : OpRel s (s.mapLine f) := ⟨rfl, rfl, forall₂_refl _, id⟩

theorem State.advance_op (n : Nat) (s : State) : OpRel s (s.advance n) := (s.advance_rel n).op

theorem State.setPin_op (p : Pin) (ps : PinState) (s : State) : OpRel s (s.setPin p ps) :=
  ⟨by simp, by simp, s.setPin_others_rel p ps, fun w => by rw [State.setPin_pins]; exact Memory.write_wf _ _ w⟩

theorem State.log_op (e : Event) (s : State) : OpRel s (s.log e) := s.mapLine_op _

theorem State.respond_op (x : Word) (s : State) : OpRel s (s.respond x) := s.mapLine_op _

theorem State.holdUntil_op (m : Word → Nat) (s : State) : OpRel s (s.holdUntil m) := s.tick_op.trans (State.advance_op _ _)

theorem State.yieldCycles_op (c : Nat) (s : State) : OpRel s (s.yieldCycles c) := s.tick_op.trans (State.advance_op _ _)

theorem State.writeIe_op (b : Bool) (s : State) : OpRel s (s.writeIe b) :=
  s.tick_op.trans ⟨rfl, rfl, forall₂_refl _, id⟩

theorem State.storeEOvf_op (b : Bool) (s : State) : OpRel s (s.storeEOvf b) := s.tick_op.trans (State.mapLine_op _ _)

theorem State.storeETail_op (t : Nat) (s : State) : OpRel s (s.storeETail t) := s.tick_op.trans (State.mapLine_op _ _)

theorem State.attach_op (s : State) : OpRel s s.attach := s.tick_op.trans (State.mapLine_op _ _)

theorem State.detach_op (s : State) : OpRel s s.detach := s.tick_op.trans (State.mapLine_op _ _)

theorem State.pinMode_op (p : Pin) (m : PinDir) (s : State) : OpRel s (s.pinMode p m) :=
  s.tick_op.trans (State.setPin_op _ _ _)

theorem State.pinWrite_op (p : Pin) (v : Level) (s : State) : OpRel s (s.pinWrite p v) :=
  (s.tick_op.trans (State.setPin_op _ _ _)).trans (State.log_op _ _)

end Sys2Proof.Machine
end

