-- ==== Sys2Proof/Laws/Frames.lean ====
section
/-! SUPPORT. The decoder and the transmitter, field by field: what none of their operations changes. -/

namespace Sys2Proof.Machine

@[simp] theorem Line.bPush_id (b : Byte) (l : Line) : (l.bPush b).id = l.id := by unfold Line.bPush; split <;> rfl
@[simp] theorem Line.bPush_cfg (b : Byte) (l : Line) : (l.bPush b).cfg = l.cfg := by unfold Line.bPush; split <;> rfl
@[simp] theorem Line.bPush_rxValid (b : Byte) (l : Line) : (l.bPush b).rxValid = l.rxValid := by unfold Line.bPush; split <;> rfl
@[simp] theorem Line.bPush_txValid (b : Byte) (l : Line) : (l.bPush b).txValid = l.txValid := by unfold Line.bPush; split <;> rfl
@[simp] theorem Line.bPush_halfDup (b : Byte) (l : Line) : (l.bPush b).halfDup = l.halfDup := by unfold Line.bPush; split <;> rfl
@[simp] theorem Line.bPush_cpos (b : Byte) (l : Line) : (l.bPush b).cpos = l.cpos := by unfold Line.bPush; split <;> rfl
@[simp] theorem Line.bPush_cmd (b : Byte) (l : Line) : (l.bPush b).cmd = l.cmd := by unfold Line.bPush; split <;> rfl
@[simp] theorem Line.bPush_resp (b : Byte) (l : Line) : (l.bPush b).resp = l.resp := by unfold Line.bPush; split <;> rfl
@[simp] theorem Line.bPush_ctrl (b : Byte) (l : Line) : (l.bPush b).ctrl = l.ctrl := by unfold Line.bPush; split <;> rfl
@[simp] theorem Line.bPush_txenPin (b : Byte) (l : Line) : (l.bPush b).txenPin = l.txenPin := by unfold Line.bPush; split <;> rfl
@[simp] theorem Line.bPush_slot (b : Byte) (l : Line) : (l.bPush b).slot = l.slot := by unfold Line.bPush; split <;> rfl
@[simp] theorem Line.bPush_bitcyc (b : Byte) (l : Line) : (l.bPush b).bitcyc = l.bitcyc := by unfold Line.bPush; split <;> rfl
@[simp] theorem Line.bPush_slotE (b : Byte) (l : Line) : (l.bPush b).slotE = l.slotE := by unfold Line.bPush; split <;> rfl
@[simp] theorem Line.bPush_eHead (b : Byte) (l : Line) : (l.bPush b).eHead = l.eHead := by unfold Line.bPush; split <;> rfl
@[simp] theorem Line.bPush_eTail (b : Byte) (l : Line) : (l.bPush b).eTail = l.eTail := by unfold Line.bPush; split <;> rfl
@[simp] theorem Line.bPush_eOvf (b : Byte) (l : Line) : (l.bPush b).eOvf = l.eOvf := by unfold Line.bPush; split <;> rfl
@[simp] theorem Line.bPush_rxPos (b : Byte) (l : Line) : (l.bPush b).rxPos = l.rxPos := by unfold Line.bPush; split <;> rfl
@[simp] theorem Line.bPush_rxByte (b : Byte) (l : Line) : (l.bPush b).rxByte = l.rxByte := by unfold Line.bPush; split <;> rfl
@[simp] theorem Line.bPush_rxLast (b : Byte) (l : Line) : (l.bPush b).rxLast = l.rxLast := by unfold Line.bPush; split <;> rfl
@[simp] theorem Line.bPush_bTail (b : Byte) (l : Line) : (l.bPush b).bTail = l.bTail := by unfold Line.bPush; split <;> rfl
@[simp] theorem Line.bPush_txDl (b : Byte) (l : Line) : (l.bPush b).txDl = l.txDl := by unfold Line.bPush; split <;> rfl
@[simp] theorem Line.bPush_txHi (b : Byte) (l : Line) : (l.bPush b).txHi = l.txHi := by unfold Line.bPush; split <;> rfl
@[simp] theorem Line.bPush_txLo (b : Byte) (l : Line) : (l.bPush b).txLo = l.txLo := by unfold Line.bPush; split <;> rfl
@[simp] theorem Line.bPush_txPrev (b : Byte) (l : Line) : (l.bPush b).txPrev = l.txPrev := by unfold Line.bPush; split <;> rfl
@[simp] theorem Line.bPush_txSavedIe (b : Byte) (l : Line) : (l.bPush b).txSavedIe = l.txSavedIe := by unfold Line.bPush; split <;> rfl
@[simp] theorem Line.bPush_pendRx (b : Byte) (l : Line) : (l.bPush b).pendRx = l.pendRx := by unfold Line.bPush; split <;> rfl

@[simp] theorem Line.complete_id (b : Byte) (v : Level) (l : Line) : (l.complete b v).id = l.id := by simp [Line.complete]
@[simp] theorem Line.complete_cfg (b : Byte) (v : Level) (l : Line) : (l.complete b v).cfg = l.cfg := by simp [Line.complete]
@[simp] theorem Line.complete_rxValid (b : Byte) (v : Level) (l : Line) : (l.complete b v).rxValid = l.rxValid := by simp [Line.complete]
@[simp] theorem Line.complete_txValid (b : Byte) (v : Level) (l : Line) : (l.complete b v).txValid = l.txValid := by simp [Line.complete]
@[simp] theorem Line.complete_halfDup (b : Byte) (v : Level) (l : Line) : (l.complete b v).halfDup = l.halfDup := by simp [Line.complete]
@[simp] theorem Line.complete_cpos (b : Byte) (v : Level) (l : Line) : (l.complete b v).cpos = l.cpos := by simp [Line.complete]
@[simp] theorem Line.complete_cmd (b : Byte) (v : Level) (l : Line) : (l.complete b v).cmd = l.cmd := by simp [Line.complete]
@[simp] theorem Line.complete_resp (b : Byte) (v : Level) (l : Line) : (l.complete b v).resp = l.resp := by simp [Line.complete]
@[simp] theorem Line.complete_ctrl (b : Byte) (v : Level) (l : Line) : (l.complete b v).ctrl = l.ctrl := by simp [Line.complete]
@[simp] theorem Line.complete_txenPin (b : Byte) (v : Level) (l : Line) : (l.complete b v).txenPin = l.txenPin := by simp [Line.complete]
@[simp] theorem Line.complete_slot (b : Byte) (v : Level) (l : Line) : (l.complete b v).slot = l.slot := by simp [Line.complete]
@[simp] theorem Line.complete_bitcyc (b : Byte) (v : Level) (l : Line) : (l.complete b v).bitcyc = l.bitcyc := by simp [Line.complete]
@[simp] theorem Line.complete_slotE (b : Byte) (v : Level) (l : Line) : (l.complete b v).slotE = l.slotE := by simp [Line.complete]
@[simp] theorem Line.complete_eHead (b : Byte) (v : Level) (l : Line) : (l.complete b v).eHead = l.eHead := by simp [Line.complete]
@[simp] theorem Line.complete_eTail (b : Byte) (v : Level) (l : Line) : (l.complete b v).eTail = l.eTail := by simp [Line.complete]
@[simp] theorem Line.complete_eOvf (b : Byte) (v : Level) (l : Line) : (l.complete b v).eOvf = l.eOvf := by simp [Line.complete]
@[simp] theorem Line.complete_rxLast (b : Byte) (v : Level) (l : Line) : (l.complete b v).rxLast = l.rxLast := by simp [Line.complete]
@[simp] theorem Line.complete_bTail (b : Byte) (v : Level) (l : Line) : (l.complete b v).bTail = l.bTail := by simp [Line.complete]
@[simp] theorem Line.complete_txDl (b : Byte) (v : Level) (l : Line) : (l.complete b v).txDl = l.txDl := by simp [Line.complete]
@[simp] theorem Line.complete_txHi (b : Byte) (v : Level) (l : Line) : (l.complete b v).txHi = l.txHi := by simp [Line.complete]
@[simp] theorem Line.complete_txLo (b : Byte) (v : Level) (l : Line) : (l.complete b v).txLo = l.txLo := by simp [Line.complete]
@[simp] theorem Line.complete_txPrev (b : Byte) (v : Level) (l : Line) : (l.complete b v).txPrev = l.txPrev := by simp [Line.complete]
@[simp] theorem Line.complete_txSavedIe (b : Byte) (v : Level) (l : Line) : (l.complete b v).txSavedIe = l.txSavedIe := by simp [Line.complete]
@[simp] theorem Line.complete_pendRx (b : Byte) (v : Level) (l : Line) : (l.complete b v).pendRx = l.pendRx := by simp [Line.complete]

@[simp] theorem Line.assemble_id (p n : Nat) (v u : Level) (l : Line) : (l.assemble p n v u).id = l.id := by unfold Line.assemble; split <;> simp
@[simp] theorem Line.assemble_cfg (p n : Nat) (v u : Level) (l : Line) : (l.assemble p n v u).cfg = l.cfg := by unfold Line.assemble; split <;> simp
@[simp] theorem Line.assemble_rxValid (p n : Nat) (v u : Level) (l : Line) : (l.assemble p n v u).rxValid = l.rxValid := by unfold Line.assemble; split <;> simp
@[simp] theorem Line.assemble_txValid (p n : Nat) (v u : Level) (l : Line) : (l.assemble p n v u).txValid = l.txValid := by unfold Line.assemble; split <;> simp
@[simp] theorem Line.assemble_halfDup (p n : Nat) (v u : Level) (l : Line) : (l.assemble p n v u).halfDup = l.halfDup := by unfold Line.assemble; split <;> simp
@[simp] theorem Line.assemble_cpos (p n : Nat) (v u : Level) (l : Line) : (l.assemble p n v u).cpos = l.cpos := by unfold Line.assemble; split <;> simp
@[simp] theorem Line.assemble_cmd (p n : Nat) (v u : Level) (l : Line) : (l.assemble p n v u).cmd = l.cmd := by unfold Line.assemble; split <;> simp
@[simp] theorem Line.assemble_resp (p n : Nat) (v u : Level) (l : Line) : (l.assemble p n v u).resp = l.resp := by unfold Line.assemble; split <;> simp
@[simp] theorem Line.assemble_ctrl (p n : Nat) (v u : Level) (l : Line) : (l.assemble p n v u).ctrl = l.ctrl := by unfold Line.assemble; split <;> simp
@[simp] theorem Line.assemble_txenPin (p n : Nat) (v u : Level) (l : Line) : (l.assemble p n v u).txenPin = l.txenPin := by unfold Line.assemble; split <;> simp
@[simp] theorem Line.assemble_slot (p n : Nat) (v u : Level) (l : Line) : (l.assemble p n v u).slot = l.slot := by unfold Line.assemble; split <;> simp
@[simp] theorem Line.assemble_bitcyc (p n : Nat) (v u : Level) (l : Line) : (l.assemble p n v u).bitcyc = l.bitcyc := by unfold Line.assemble; split <;> simp
@[simp] theorem Line.assemble_slotE (p n : Nat) (v u : Level) (l : Line) : (l.assemble p n v u).slotE = l.slotE := by unfold Line.assemble; split <;> simp
@[simp] theorem Line.assemble_eHead (p n : Nat) (v u : Level) (l : Line) : (l.assemble p n v u).eHead = l.eHead := by unfold Line.assemble; split <;> simp
@[simp] theorem Line.assemble_eTail (p n : Nat) (v u : Level) (l : Line) : (l.assemble p n v u).eTail = l.eTail := by unfold Line.assemble; split <;> simp
@[simp] theorem Line.assemble_eOvf (p n : Nat) (v u : Level) (l : Line) : (l.assemble p n v u).eOvf = l.eOvf := by unfold Line.assemble; split <;> simp
@[simp] theorem Line.assemble_rxLast (p n : Nat) (v u : Level) (l : Line) : (l.assemble p n v u).rxLast = l.rxLast := by unfold Line.assemble; split <;> simp
@[simp] theorem Line.assemble_bTail (p n : Nat) (v u : Level) (l : Line) : (l.assemble p n v u).bTail = l.bTail := by unfold Line.assemble; split <;> simp
@[simp] theorem Line.assemble_txDl (p n : Nat) (v u : Level) (l : Line) : (l.assemble p n v u).txDl = l.txDl := by unfold Line.assemble; split <;> simp
@[simp] theorem Line.assemble_txHi (p n : Nat) (v u : Level) (l : Line) : (l.assemble p n v u).txHi = l.txHi := by unfold Line.assemble; split <;> simp
@[simp] theorem Line.assemble_txLo (p n : Nat) (v u : Level) (l : Line) : (l.assemble p n v u).txLo = l.txLo := by unfold Line.assemble; split <;> simp
@[simp] theorem Line.assemble_txPrev (p n : Nat) (v u : Level) (l : Line) : (l.assemble p n v u).txPrev = l.txPrev := by unfold Line.assemble; split <;> simp
@[simp] theorem Line.assemble_txSavedIe (p n : Nat) (v u : Level) (l : Line) : (l.assemble p n v u).txSavedIe = l.txSavedIe := by unfold Line.assemble; split <;> simp
@[simp] theorem Line.assemble_pendRx (p n : Nat) (v u : Level) (l : Line) : (l.assemble p n v u).pendRx = l.pendRx := by unfold Line.assemble; split <;> simp

@[simp] theorem Line.stepPos_id (n : Nat) (v u : Level) (l : Line) : (l.stepPos n v u).id = l.id := by unfold Line.stepPos; split <;> (try split) <;> simp
@[simp] theorem Line.stepPos_cfg (n : Nat) (v u : Level) (l : Line) : (l.stepPos n v u).cfg = l.cfg := by unfold Line.stepPos; split <;> (try split) <;> simp
@[simp] theorem Line.stepPos_rxValid (n : Nat) (v u : Level) (l : Line) : (l.stepPos n v u).rxValid = l.rxValid := by unfold Line.stepPos; split <;> (try split) <;> simp
@[simp] theorem Line.stepPos_txValid (n : Nat) (v u : Level) (l : Line) : (l.stepPos n v u).txValid = l.txValid := by unfold Line.stepPos; split <;> (try split) <;> simp
@[simp] theorem Line.stepPos_halfDup (n : Nat) (v u : Level) (l : Line) : (l.stepPos n v u).halfDup = l.halfDup := by unfold Line.stepPos; split <;> (try split) <;> simp
@[simp] theorem Line.stepPos_cpos (n : Nat) (v u : Level) (l : Line) : (l.stepPos n v u).cpos = l.cpos := by unfold Line.stepPos; split <;> (try split) <;> simp
@[simp] theorem Line.stepPos_cmd (n : Nat) (v u : Level) (l : Line) : (l.stepPos n v u).cmd = l.cmd := by unfold Line.stepPos; split <;> (try split) <;> simp
@[simp] theorem Line.stepPos_resp (n : Nat) (v u : Level) (l : Line) : (l.stepPos n v u).resp = l.resp := by unfold Line.stepPos; split <;> (try split) <;> simp
@[simp] theorem Line.stepPos_ctrl (n : Nat) (v u : Level) (l : Line) : (l.stepPos n v u).ctrl = l.ctrl := by unfold Line.stepPos; split <;> (try split) <;> simp
@[simp] theorem Line.stepPos_txenPin (n : Nat) (v u : Level) (l : Line) : (l.stepPos n v u).txenPin = l.txenPin := by unfold Line.stepPos; split <;> (try split) <;> simp
@[simp] theorem Line.stepPos_slot (n : Nat) (v u : Level) (l : Line) : (l.stepPos n v u).slot = l.slot := by unfold Line.stepPos; split <;> (try split) <;> simp
@[simp] theorem Line.stepPos_bitcyc (n : Nat) (v u : Level) (l : Line) : (l.stepPos n v u).bitcyc = l.bitcyc := by unfold Line.stepPos; split <;> (try split) <;> simp
@[simp] theorem Line.stepPos_slotE (n : Nat) (v u : Level) (l : Line) : (l.stepPos n v u).slotE = l.slotE := by unfold Line.stepPos; split <;> (try split) <;> simp
@[simp] theorem Line.stepPos_eHead (n : Nat) (v u : Level) (l : Line) : (l.stepPos n v u).eHead = l.eHead := by unfold Line.stepPos; split <;> (try split) <;> simp
@[simp] theorem Line.stepPos_eTail (n : Nat) (v u : Level) (l : Line) : (l.stepPos n v u).eTail = l.eTail := by unfold Line.stepPos; split <;> (try split) <;> simp
@[simp] theorem Line.stepPos_eOvf (n : Nat) (v u : Level) (l : Line) : (l.stepPos n v u).eOvf = l.eOvf := by unfold Line.stepPos; split <;> (try split) <;> simp
@[simp] theorem Line.stepPos_rxLast (n : Nat) (v u : Level) (l : Line) : (l.stepPos n v u).rxLast = l.rxLast := by unfold Line.stepPos; split <;> (try split) <;> simp
@[simp] theorem Line.stepPos_bTail (n : Nat) (v u : Level) (l : Line) : (l.stepPos n v u).bTail = l.bTail := by unfold Line.stepPos; split <;> (try split) <;> simp
@[simp] theorem Line.stepPos_txDl (n : Nat) (v u : Level) (l : Line) : (l.stepPos n v u).txDl = l.txDl := by unfold Line.stepPos; split <;> (try split) <;> simp
@[simp] theorem Line.stepPos_txHi (n : Nat) (v u : Level) (l : Line) : (l.stepPos n v u).txHi = l.txHi := by unfold Line.stepPos; split <;> (try split) <;> simp
@[simp] theorem Line.stepPos_txLo (n : Nat) (v u : Level) (l : Line) : (l.stepPos n v u).txLo = l.txLo := by unfold Line.stepPos; split <;> (try split) <;> simp
@[simp] theorem Line.stepPos_txPrev (n : Nat) (v u : Level) (l : Line) : (l.stepPos n v u).txPrev = l.txPrev := by unfold Line.stepPos; split <;> (try split) <;> simp
@[simp] theorem Line.stepPos_txSavedIe (n : Nat) (v u : Level) (l : Line) : (l.stepPos n v u).txSavedIe = l.txSavedIe := by unfold Line.stepPos; split <;> (try split) <;> simp
@[simp] theorem Line.stepPos_pendRx (n : Nat) (v u : Level) (l : Line) : (l.stepPos n v u).pendRx = l.pendRx := by unfold Line.stepPos; split <;> (try split) <;> simp

@[simp] theorem Line.processEdge_id (w : Word) (l : Line) : (l.processEdge w).id = l.id := by unfold Line.processEdge; split <;> simp
@[simp] theorem Line.processEdge_cfg (w : Word) (l : Line) : (l.processEdge w).cfg = l.cfg := by unfold Line.processEdge; split <;> simp
@[simp] theorem Line.processEdge_rxValid (w : Word) (l : Line) : (l.processEdge w).rxValid = l.rxValid := by unfold Line.processEdge; split <;> simp
@[simp] theorem Line.processEdge_txValid (w : Word) (l : Line) : (l.processEdge w).txValid = l.txValid := by unfold Line.processEdge; split <;> simp
@[simp] theorem Line.processEdge_halfDup (w : Word) (l : Line) : (l.processEdge w).halfDup = l.halfDup := by unfold Line.processEdge; split <;> simp
@[simp] theorem Line.processEdge_cpos (w : Word) (l : Line) : (l.processEdge w).cpos = l.cpos := by unfold Line.processEdge; split <;> simp
@[simp] theorem Line.processEdge_cmd (w : Word) (l : Line) : (l.processEdge w).cmd = l.cmd := by unfold Line.processEdge; split <;> simp
@[simp] theorem Line.processEdge_resp (w : Word) (l : Line) : (l.processEdge w).resp = l.resp := by unfold Line.processEdge; split <;> simp
@[simp] theorem Line.processEdge_ctrl (w : Word) (l : Line) : (l.processEdge w).ctrl = l.ctrl := by unfold Line.processEdge; split <;> simp
@[simp] theorem Line.processEdge_txenPin (w : Word) (l : Line) : (l.processEdge w).txenPin = l.txenPin := by unfold Line.processEdge; split <;> simp
@[simp] theorem Line.processEdge_slot (w : Word) (l : Line) : (l.processEdge w).slot = l.slot := by unfold Line.processEdge; split <;> simp
@[simp] theorem Line.processEdge_bitcyc (w : Word) (l : Line) : (l.processEdge w).bitcyc = l.bitcyc := by unfold Line.processEdge; split <;> simp
@[simp] theorem Line.processEdge_slotE (w : Word) (l : Line) : (l.processEdge w).slotE = l.slotE := by unfold Line.processEdge; split <;> simp
@[simp] theorem Line.processEdge_eHead (w : Word) (l : Line) : (l.processEdge w).eHead = l.eHead := by unfold Line.processEdge; split <;> simp
@[simp] theorem Line.processEdge_eTail (w : Word) (l : Line) : (l.processEdge w).eTail = l.eTail := by unfold Line.processEdge; split <;> simp
@[simp] theorem Line.processEdge_eOvf (w : Word) (l : Line) : (l.processEdge w).eOvf = l.eOvf := by unfold Line.processEdge; split <;> simp
@[simp] theorem Line.processEdge_bTail (w : Word) (l : Line) : (l.processEdge w).bTail = l.bTail := by unfold Line.processEdge; split <;> simp
@[simp] theorem Line.processEdge_txDl (w : Word) (l : Line) : (l.processEdge w).txDl = l.txDl := by unfold Line.processEdge; split <;> simp
@[simp] theorem Line.processEdge_txHi (w : Word) (l : Line) : (l.processEdge w).txHi = l.txHi := by unfold Line.processEdge; split <;> simp
@[simp] theorem Line.processEdge_txLo (w : Word) (l : Line) : (l.processEdge w).txLo = l.txLo := by unfold Line.processEdge; split <;> simp
@[simp] theorem Line.processEdge_txPrev (w : Word) (l : Line) : (l.processEdge w).txPrev = l.txPrev := by unfold Line.processEdge; split <;> simp
@[simp] theorem Line.processEdge_txSavedIe (w : Word) (l : Line) : (l.processEdge w).txSavedIe = l.txSavedIe := by unfold Line.processEdge; split <;> simp
@[simp] theorem Line.processEdge_pendRx (w : Word) (l : Line) : (l.processEdge w).pendRx = l.pendRx := by unfold Line.processEdge; split <;> simp

@[simp] theorem Line.recover_id (now : Word) (l : Line) : (l.recover now).id = l.id := by unfold Line.recover; split <;> simp
@[simp] theorem Line.recover_cfg (now : Word) (l : Line) : (l.recover now).cfg = l.cfg := by unfold Line.recover; split <;> simp
@[simp] theorem Line.recover_rxValid (now : Word) (l : Line) : (l.recover now).rxValid = l.rxValid := by unfold Line.recover; split <;> simp
@[simp] theorem Line.recover_txValid (now : Word) (l : Line) : (l.recover now).txValid = l.txValid := by unfold Line.recover; split <;> simp
@[simp] theorem Line.recover_halfDup (now : Word) (l : Line) : (l.recover now).halfDup = l.halfDup := by unfold Line.recover; split <;> simp
@[simp] theorem Line.recover_cpos (now : Word) (l : Line) : (l.recover now).cpos = l.cpos := by unfold Line.recover; split <;> simp
@[simp] theorem Line.recover_cmd (now : Word) (l : Line) : (l.recover now).cmd = l.cmd := by unfold Line.recover; split <;> simp
@[simp] theorem Line.recover_resp (now : Word) (l : Line) : (l.recover now).resp = l.resp := by unfold Line.recover; split <;> simp
@[simp] theorem Line.recover_ctrl (now : Word) (l : Line) : (l.recover now).ctrl = l.ctrl := by unfold Line.recover; split <;> simp
@[simp] theorem Line.recover_txenPin (now : Word) (l : Line) : (l.recover now).txenPin = l.txenPin := by unfold Line.recover; split <;> simp
@[simp] theorem Line.recover_slot (now : Word) (l : Line) : (l.recover now).slot = l.slot := by unfold Line.recover; split <;> simp
@[simp] theorem Line.recover_bitcyc (now : Word) (l : Line) : (l.recover now).bitcyc = l.bitcyc := by unfold Line.recover; split <;> simp
@[simp] theorem Line.recover_slotE (now : Word) (l : Line) : (l.recover now).slotE = l.slotE := by unfold Line.recover; split <;> simp
@[simp] theorem Line.recover_eHead (now : Word) (l : Line) : (l.recover now).eHead = l.eHead := by unfold Line.recover; split <;> simp
@[simp] theorem Line.recover_eTail (now : Word) (l : Line) : (l.recover now).eTail = l.eTail := by unfold Line.recover; split <;> simp
@[simp] theorem Line.recover_eOvf (now : Word) (l : Line) : (l.recover now).eOvf = l.eOvf := by unfold Line.recover; split <;> simp
@[simp] theorem Line.recover_bTail (now : Word) (l : Line) : (l.recover now).bTail = l.bTail := by unfold Line.recover; split <;> simp
@[simp] theorem Line.recover_txDl (now : Word) (l : Line) : (l.recover now).txDl = l.txDl := by unfold Line.recover; split <;> simp
@[simp] theorem Line.recover_txHi (now : Word) (l : Line) : (l.recover now).txHi = l.txHi := by unfold Line.recover; split <;> simp
@[simp] theorem Line.recover_txLo (now : Word) (l : Line) : (l.recover now).txLo = l.txLo := by unfold Line.recover; split <;> simp
@[simp] theorem Line.recover_txPrev (now : Word) (l : Line) : (l.recover now).txPrev = l.txPrev := by unfold Line.recover; split <;> simp
@[simp] theorem Line.recover_txSavedIe (now : Word) (l : Line) : (l.recover now).txSavedIe = l.txSavedIe := by unfold Line.recover; split <;> simp
@[simp] theorem Line.recover_pendRx (now : Word) (l : Line) : (l.recover now).pendRx = l.pendRx := by unfold Line.recover; split <;> simp

@[simp] theorem Line.bDrop_id (l : Line) : (l.bDrop).id = l.id := by unfold Line.bDrop; split <;> rfl
@[simp] theorem Line.bDrop_cfg (l : Line) : (l.bDrop).cfg = l.cfg := by unfold Line.bDrop; split <;> rfl
@[simp] theorem Line.bDrop_rxValid (l : Line) : (l.bDrop).rxValid = l.rxValid := by unfold Line.bDrop; split <;> rfl
@[simp] theorem Line.bDrop_txValid (l : Line) : (l.bDrop).txValid = l.txValid := by unfold Line.bDrop; split <;> rfl
@[simp] theorem Line.bDrop_halfDup (l : Line) : (l.bDrop).halfDup = l.halfDup := by unfold Line.bDrop; split <;> rfl
@[simp] theorem Line.bDrop_cpos (l : Line) : (l.bDrop).cpos = l.cpos := by unfold Line.bDrop; split <;> rfl
@[simp] theorem Line.bDrop_cmd (l : Line) : (l.bDrop).cmd = l.cmd := by unfold Line.bDrop; split <;> rfl
@[simp] theorem Line.bDrop_resp (l : Line) : (l.bDrop).resp = l.resp := by unfold Line.bDrop; split <;> rfl
@[simp] theorem Line.bDrop_ctrl (l : Line) : (l.bDrop).ctrl = l.ctrl := by unfold Line.bDrop; split <;> rfl
@[simp] theorem Line.bDrop_txenPin (l : Line) : (l.bDrop).txenPin = l.txenPin := by unfold Line.bDrop; split <;> rfl
@[simp] theorem Line.bDrop_slot (l : Line) : (l.bDrop).slot = l.slot := by unfold Line.bDrop; split <;> rfl
@[simp] theorem Line.bDrop_bitcyc (l : Line) : (l.bDrop).bitcyc = l.bitcyc := by unfold Line.bDrop; split <;> rfl
@[simp] theorem Line.bDrop_slotE (l : Line) : (l.bDrop).slotE = l.slotE := by unfold Line.bDrop; split <;> rfl
@[simp] theorem Line.bDrop_eHead (l : Line) : (l.bDrop).eHead = l.eHead := by unfold Line.bDrop; split <;> rfl
@[simp] theorem Line.bDrop_eTail (l : Line) : (l.bDrop).eTail = l.eTail := by unfold Line.bDrop; split <;> rfl
@[simp] theorem Line.bDrop_eOvf (l : Line) : (l.bDrop).eOvf = l.eOvf := by unfold Line.bDrop; split <;> rfl
@[simp] theorem Line.bDrop_rxPos (l : Line) : (l.bDrop).rxPos = l.rxPos := by unfold Line.bDrop; split <;> rfl
@[simp] theorem Line.bDrop_rxByte (l : Line) : (l.bDrop).rxByte = l.rxByte := by unfold Line.bDrop; split <;> rfl
@[simp] theorem Line.bDrop_rxLast (l : Line) : (l.bDrop).rxLast = l.rxLast := by unfold Line.bDrop; split <;> rfl
@[simp] theorem Line.bDrop_slotB (l : Line) : (l.bDrop).slotB = l.slotB := by unfold Line.bDrop; split <;> rfl
@[simp] theorem Line.bDrop_bHead (l : Line) : (l.bDrop).bHead = l.bHead := by unfold Line.bDrop; split <;> rfl
@[simp] theorem Line.bDrop_lineOvf (l : Line) : (l.bDrop).lineOvf = l.lineOvf := by unfold Line.bDrop; split <;> rfl
@[simp] theorem Line.bDrop_txDl (l : Line) : (l.bDrop).txDl = l.txDl := by unfold Line.bDrop; split <;> rfl
@[simp] theorem Line.bDrop_txHi (l : Line) : (l.bDrop).txHi = l.txHi := by unfold Line.bDrop; split <;> rfl
@[simp] theorem Line.bDrop_txLo (l : Line) : (l.bDrop).txLo = l.txLo := by unfold Line.bDrop; split <;> rfl
@[simp] theorem Line.bDrop_txPrev (l : Line) : (l.bDrop).txPrev = l.txPrev := by unfold Line.bDrop; split <;> rfl
@[simp] theorem Line.bDrop_txSavedIe (l : Line) : (l.bDrop).txSavedIe = l.txSavedIe := by unfold Line.bDrop; split <;> rfl
@[simp] theorem Line.bDrop_pendRx (l : Line) : (l.bDrop).pendRx = l.pendRx := by unfold Line.bDrop; split <;> rfl
@[simp] theorem Line.bDrop_trace (l : Line) : (l.bDrop).trace = l.trace := by unfold Line.bDrop; split <;> rfl

@[simp] theorem State.foldOverflow_line_id (s : State) : (s.foldOverflow).line.id = s.line.id := by unfold State.foldOverflow; split <;> simp
@[simp] theorem State.foldOverflow_line_cfg (s : State) : (s.foldOverflow).line.cfg = s.line.cfg := by unfold State.foldOverflow; split <;> simp
@[simp] theorem State.foldOverflow_line_rxValid (s : State) : (s.foldOverflow).line.rxValid = s.line.rxValid := by unfold State.foldOverflow; split <;> simp
@[simp] theorem State.foldOverflow_line_txValid (s : State) : (s.foldOverflow).line.txValid = s.line.txValid := by unfold State.foldOverflow; split <;> simp
@[simp] theorem State.foldOverflow_line_halfDup (s : State) : (s.foldOverflow).line.halfDup = s.line.halfDup := by unfold State.foldOverflow; split <;> simp
@[simp] theorem State.foldOverflow_line_cpos (s : State) : (s.foldOverflow).line.cpos = s.line.cpos := by unfold State.foldOverflow; split <;> simp
@[simp] theorem State.foldOverflow_line_ctrl (s : State) : (s.foldOverflow).line.ctrl = s.line.ctrl := by unfold State.foldOverflow; split <;> simp
@[simp] theorem State.foldOverflow_line_txenPin (s : State) : (s.foldOverflow).line.txenPin = s.line.txenPin := by unfold State.foldOverflow; split <;> simp
@[simp] theorem State.foldOverflow_line_slot (s : State) : (s.foldOverflow).line.slot = s.line.slot := by unfold State.foldOverflow; split <;> simp
@[simp] theorem State.foldOverflow_line_bitcyc (s : State) : (s.foldOverflow).line.bitcyc = s.line.bitcyc := by unfold State.foldOverflow; split <;> simp
@[simp] theorem State.foldOverflow_line_rxPos (s : State) : (s.foldOverflow).line.rxPos = s.line.rxPos := by unfold State.foldOverflow; split <;> simp
@[simp] theorem State.foldOverflow_line_rxByte (s : State) : (s.foldOverflow).line.rxByte = s.line.rxByte := by unfold State.foldOverflow; split <;> simp
@[simp] theorem State.foldOverflow_line_rxLast (s : State) : (s.foldOverflow).line.rxLast = s.line.rxLast := by unfold State.foldOverflow; split <;> simp
@[simp] theorem State.foldOverflow_line_slotB (s : State) : (s.foldOverflow).line.slotB = s.line.slotB := by unfold State.foldOverflow; split <;> simp
@[simp] theorem State.foldOverflow_line_bHead (s : State) : (s.foldOverflow).line.bHead = s.line.bHead := by unfold State.foldOverflow; split <;> simp
@[simp] theorem State.foldOverflow_line_bTail (s : State) : (s.foldOverflow).line.bTail = s.line.bTail := by unfold State.foldOverflow; split <;> simp
@[simp] theorem State.foldOverflow_line_txDl (s : State) : (s.foldOverflow).line.txDl = s.line.txDl := by unfold State.foldOverflow; split <;> simp
@[simp] theorem State.foldOverflow_line_txHi (s : State) : (s.foldOverflow).line.txHi = s.line.txHi := by unfold State.foldOverflow; split <;> simp
@[simp] theorem State.foldOverflow_line_txLo (s : State) : (s.foldOverflow).line.txLo = s.line.txLo := by unfold State.foldOverflow; split <;> simp
@[simp] theorem State.foldOverflow_line_txPrev (s : State) : (s.foldOverflow).line.txPrev = s.line.txPrev := by unfold State.foldOverflow; split <;> simp
@[simp] theorem State.foldOverflow_line_txSavedIe (s : State) : (s.foldOverflow).line.txSavedIe = s.line.txSavedIe := by unfold State.foldOverflow; split <;> simp
@[simp] theorem State.foldOverflow_line_eTail (s : State) : (s.foldOverflow).line.eTail = s.line.eTail := by unfold State.foldOverflow; split <;> simp
@[simp] theorem State.foldOverflow_line_resp (s : State) : (s.foldOverflow).line.resp = s.line.resp := by unfold State.foldOverflow; split <;> simp
@[simp] theorem State.foldOverflow_par (s : State) : (s.foldOverflow).par = s.par := by unfold State.foldOverflow; split <;> simp
@[simp] theorem State.foldOverflow_ie (s : State) : (s.foldOverflow).ie = s.ie := by unfold State.foldOverflow; split <;> simp
@[simp] theorem State.foldOverflow_reg (s : State) : (s.foldOverflow).reg = s.reg := by unfold State.foldOverflow; split <;> simp
@[simp] theorem State.foldOverflow_action (s : State) : (s.foldOverflow).action = s.action := by unfold State.foldOverflow; split <;> simp

@[simp] theorem State.recoverStop_line_id (s : State) : (s.recoverStop).line.id = s.line.id := by unfold State.recoverStop; split <;> simp
@[simp] theorem State.recoverStop_line_cfg (s : State) : (s.recoverStop).line.cfg = s.line.cfg := by unfold State.recoverStop; split <;> simp
@[simp] theorem State.recoverStop_line_rxValid (s : State) : (s.recoverStop).line.rxValid = s.line.rxValid := by unfold State.recoverStop; split <;> simp
@[simp] theorem State.recoverStop_line_txValid (s : State) : (s.recoverStop).line.txValid = s.line.txValid := by unfold State.recoverStop; split <;> simp
@[simp] theorem State.recoverStop_line_halfDup (s : State) : (s.recoverStop).line.halfDup = s.line.halfDup := by unfold State.recoverStop; split <;> simp
@[simp] theorem State.recoverStop_line_cpos (s : State) : (s.recoverStop).line.cpos = s.line.cpos := by unfold State.recoverStop; split <;> simp
@[simp] theorem State.recoverStop_line_ctrl (s : State) : (s.recoverStop).line.ctrl = s.line.ctrl := by unfold State.recoverStop; split <;> simp
@[simp] theorem State.recoverStop_line_txenPin (s : State) : (s.recoverStop).line.txenPin = s.line.txenPin := by unfold State.recoverStop; split <;> simp
@[simp] theorem State.recoverStop_line_slot (s : State) : (s.recoverStop).line.slot = s.line.slot := by unfold State.recoverStop; split <;> simp
@[simp] theorem State.recoverStop_line_bitcyc (s : State) : (s.recoverStop).line.bitcyc = s.line.bitcyc := by unfold State.recoverStop; split <;> simp
@[simp] theorem State.recoverStop_line_bTail (s : State) : (s.recoverStop).line.bTail = s.line.bTail := by unfold State.recoverStop; split <;> simp
@[simp] theorem State.recoverStop_line_txDl (s : State) : (s.recoverStop).line.txDl = s.line.txDl := by unfold State.recoverStop; split <;> simp
@[simp] theorem State.recoverStop_line_txHi (s : State) : (s.recoverStop).line.txHi = s.line.txHi := by unfold State.recoverStop; split <;> simp
@[simp] theorem State.recoverStop_line_txLo (s : State) : (s.recoverStop).line.txLo = s.line.txLo := by unfold State.recoverStop; split <;> simp
@[simp] theorem State.recoverStop_line_txPrev (s : State) : (s.recoverStop).line.txPrev = s.line.txPrev := by unfold State.recoverStop; split <;> simp
@[simp] theorem State.recoverStop_line_txSavedIe (s : State) : (s.recoverStop).line.txSavedIe = s.line.txSavedIe := by unfold State.recoverStop; split <;> simp
@[simp] theorem State.recoverStop_line_resp (s : State) : (s.recoverStop).line.resp = s.line.resp := by unfold State.recoverStop; split <;> simp
@[simp] theorem State.recoverStop_line_eTail (s : State) : (s.recoverStop).line.eTail = s.line.eTail := by unfold State.recoverStop; split <;> simp
@[simp] theorem State.recoverStop_par (s : State) : (s.recoverStop).par = s.par := by unfold State.recoverStop; split <;> simp
@[simp] theorem State.recoverStop_ie (s : State) : (s.recoverStop).ie = s.ie := by unfold State.recoverStop; split <;> simp
@[simp] theorem State.recoverStop_reg (s : State) : (s.recoverStop).reg = s.reg := by unfold State.recoverStop; split <;> simp
@[simp] theorem State.recoverStop_action (s : State) : (s.recoverStop).action = s.action := by unfold State.recoverStop; split <;> simp

@[simp] theorem State.ePop_snd_line_id (s : State) : (s.ePop.2).line.id = s.line.id := by simp [State.ePop]
@[simp] theorem State.ePop_snd_line_cfg (s : State) : (s.ePop.2).line.cfg = s.line.cfg := by simp [State.ePop]
@[simp] theorem State.ePop_snd_line_rxValid (s : State) : (s.ePop.2).line.rxValid = s.line.rxValid := by simp [State.ePop]
@[simp] theorem State.ePop_snd_line_txValid (s : State) : (s.ePop.2).line.txValid = s.line.txValid := by simp [State.ePop]
@[simp] theorem State.ePop_snd_line_halfDup (s : State) : (s.ePop.2).line.halfDup = s.line.halfDup := by simp [State.ePop]
@[simp] theorem State.ePop_snd_line_cpos (s : State) : (s.ePop.2).line.cpos = s.line.cpos := by simp [State.ePop]
@[simp] theorem State.ePop_snd_line_ctrl (s : State) : (s.ePop.2).line.ctrl = s.line.ctrl := by simp [State.ePop]
@[simp] theorem State.ePop_snd_line_txenPin (s : State) : (s.ePop.2).line.txenPin = s.line.txenPin := by simp [State.ePop]
@[simp] theorem State.ePop_snd_line_slot (s : State) : (s.ePop.2).line.slot = s.line.slot := by simp [State.ePop]
@[simp] theorem State.ePop_snd_line_bitcyc (s : State) : (s.ePop.2).line.bitcyc = s.line.bitcyc := by simp [State.ePop]
@[simp] theorem State.ePop_snd_line_rxPos (s : State) : (s.ePop.2).line.rxPos = s.line.rxPos := by simp [State.ePop]
@[simp] theorem State.ePop_snd_line_rxByte (s : State) : (s.ePop.2).line.rxByte = s.line.rxByte := by simp [State.ePop]
@[simp] theorem State.ePop_snd_line_rxLast (s : State) : (s.ePop.2).line.rxLast = s.line.rxLast := by simp [State.ePop]
@[simp] theorem State.ePop_snd_line_slotB (s : State) : (s.ePop.2).line.slotB = s.line.slotB := by simp [State.ePop]
@[simp] theorem State.ePop_snd_line_bHead (s : State) : (s.ePop.2).line.bHead = s.line.bHead := by simp [State.ePop]
@[simp] theorem State.ePop_snd_line_bTail (s : State) : (s.ePop.2).line.bTail = s.line.bTail := by simp [State.ePop]
@[simp] theorem State.ePop_snd_line_txDl (s : State) : (s.ePop.2).line.txDl = s.line.txDl := by simp [State.ePop]
@[simp] theorem State.ePop_snd_line_txHi (s : State) : (s.ePop.2).line.txHi = s.line.txHi := by simp [State.ePop]
@[simp] theorem State.ePop_snd_line_txLo (s : State) : (s.ePop.2).line.txLo = s.line.txLo := by simp [State.ePop]
@[simp] theorem State.ePop_snd_line_txPrev (s : State) : (s.ePop.2).line.txPrev = s.line.txPrev := by simp [State.ePop]
@[simp] theorem State.ePop_snd_line_txSavedIe (s : State) : (s.ePop.2).line.txSavedIe = s.line.txSavedIe := by simp [State.ePop]
@[simp] theorem State.ePop_snd_line_lineOvf (s : State) : (s.ePop.2).line.lineOvf = s.line.lineOvf := by simp [State.ePop]
@[simp] theorem State.ePop_snd_line_resp (s : State) : (s.ePop.2).line.resp = s.line.resp := by simp [State.ePop]
@[simp] theorem State.ePop_snd_par (s : State) : (s.ePop.2).par = s.par := by simp [State.ePop]
@[simp] theorem State.ePop_snd_ie (s : State) : (s.ePop.2).ie = s.ie := by simp [State.ePop]
@[simp] theorem State.ePop_snd_reg (s : State) : (s.ePop.2).reg = s.reg := by simp [State.ePop]
@[simp] theorem State.ePop_snd_action (s : State) : (s.ePop.2).action = s.action := by simp [State.ePop]

@[simp] theorem State.drain_line_id (k : Nat) (s : State) : (State.drain k s).line.id = s.line.id := by
  induction k generalizing s with
  | zero => rfl
  | succ k ih => simp [State.drain, ih]
@[simp] theorem State.drain_line_cfg (k : Nat) (s : State) : (State.drain k s).line.cfg = s.line.cfg := by
  induction k generalizing s with
  | zero => rfl
  | succ k ih => simp [State.drain, ih]
@[simp] theorem State.drain_line_rxValid (k : Nat) (s : State) : (State.drain k s).line.rxValid = s.line.rxValid := by
  induction k generalizing s with
  | zero => rfl
  | succ k ih => simp [State.drain, ih]
@[simp] theorem State.drain_line_txValid (k : Nat) (s : State) : (State.drain k s).line.txValid = s.line.txValid := by
  induction k generalizing s with
  | zero => rfl
  | succ k ih => simp [State.drain, ih]
@[simp] theorem State.drain_line_halfDup (k : Nat) (s : State) : (State.drain k s).line.halfDup = s.line.halfDup := by
  induction k generalizing s with
  | zero => rfl
  | succ k ih => simp [State.drain, ih]
@[simp] theorem State.drain_line_cpos (k : Nat) (s : State) : (State.drain k s).line.cpos = s.line.cpos := by
  induction k generalizing s with
  | zero => rfl
  | succ k ih => simp [State.drain, ih]
@[simp] theorem State.drain_line_ctrl (k : Nat) (s : State) : (State.drain k s).line.ctrl = s.line.ctrl := by
  induction k generalizing s with
  | zero => rfl
  | succ k ih => simp [State.drain, ih]
@[simp] theorem State.drain_line_txenPin (k : Nat) (s : State) : (State.drain k s).line.txenPin = s.line.txenPin := by
  induction k generalizing s with
  | zero => rfl
  | succ k ih => simp [State.drain, ih]
@[simp] theorem State.drain_line_slot (k : Nat) (s : State) : (State.drain k s).line.slot = s.line.slot := by
  induction k generalizing s with
  | zero => rfl
  | succ k ih => simp [State.drain, ih]
@[simp] theorem State.drain_line_bitcyc (k : Nat) (s : State) : (State.drain k s).line.bitcyc = s.line.bitcyc := by
  induction k generalizing s with
  | zero => rfl
  | succ k ih => simp [State.drain, ih]
@[simp] theorem State.drain_line_bTail (k : Nat) (s : State) : (State.drain k s).line.bTail = s.line.bTail := by
  induction k generalizing s with
  | zero => rfl
  | succ k ih => simp [State.drain, ih]
@[simp] theorem State.drain_line_txDl (k : Nat) (s : State) : (State.drain k s).line.txDl = s.line.txDl := by
  induction k generalizing s with
  | zero => rfl
  | succ k ih => simp [State.drain, ih]
@[simp] theorem State.drain_line_txHi (k : Nat) (s : State) : (State.drain k s).line.txHi = s.line.txHi := by
  induction k generalizing s with
  | zero => rfl
  | succ k ih => simp [State.drain, ih]
@[simp] theorem State.drain_line_txLo (k : Nat) (s : State) : (State.drain k s).line.txLo = s.line.txLo := by
  induction k generalizing s with
  | zero => rfl
  | succ k ih => simp [State.drain, ih]
@[simp] theorem State.drain_line_txPrev (k : Nat) (s : State) : (State.drain k s).line.txPrev = s.line.txPrev := by
  induction k generalizing s with
  | zero => rfl
  | succ k ih => simp [State.drain, ih]
@[simp] theorem State.drain_line_txSavedIe (k : Nat) (s : State) : (State.drain k s).line.txSavedIe = s.line.txSavedIe := by
  induction k generalizing s with
  | zero => rfl
  | succ k ih => simp [State.drain, ih]
@[simp] theorem State.drain_line_resp (k : Nat) (s : State) : (State.drain k s).line.resp = s.line.resp := by
  induction k generalizing s with
  | zero => rfl
  | succ k ih => simp [State.drain, ih]
@[simp] theorem State.drain_par (k : Nat) (s : State) : (State.drain k s).par = s.par := by
  induction k generalizing s with
  | zero => rfl
  | succ k ih => simp [State.drain, ih]
@[simp] theorem State.drain_ie (k : Nat) (s : State) : (State.drain k s).ie = s.ie := by
  induction k generalizing s with
  | zero => rfl
  | succ k ih => simp [State.drain, ih]
@[simp] theorem State.drain_reg (k : Nat) (s : State) : (State.drain k s).reg = s.reg := by
  induction k generalizing s with
  | zero => rfl
  | succ k ih => simp [State.drain, ih]
@[simp] theorem State.drain_action (k : Nat) (s : State) : (State.drain k s).action = s.action := by
  induction k generalizing s with
  | zero => rfl
  | succ k ih => simp [State.drain, ih]

@[simp] theorem State.passFrom_line_id (h : Nat) (s : State) : (s.passFrom h).line.id = s.line.id := by unfold State.passFrom; split <;> simp
@[simp] theorem State.passFrom_line_cfg (h : Nat) (s : State) : (s.passFrom h).line.cfg = s.line.cfg := by unfold State.passFrom; split <;> simp
@[simp] theorem State.passFrom_line_rxValid (h : Nat) (s : State) : (s.passFrom h).line.rxValid = s.line.rxValid := by unfold State.passFrom; split <;> simp
@[simp] theorem State.passFrom_line_txValid (h : Nat) (s : State) : (s.passFrom h).line.txValid = s.line.txValid := by unfold State.passFrom; split <;> simp
@[simp] theorem State.passFrom_line_halfDup (h : Nat) (s : State) : (s.passFrom h).line.halfDup = s.line.halfDup := by unfold State.passFrom; split <;> simp
@[simp] theorem State.passFrom_line_cpos (h : Nat) (s : State) : (s.passFrom h).line.cpos = s.line.cpos := by unfold State.passFrom; split <;> simp
@[simp] theorem State.passFrom_line_ctrl (h : Nat) (s : State) : (s.passFrom h).line.ctrl = s.line.ctrl := by unfold State.passFrom; split <;> simp
@[simp] theorem State.passFrom_line_txenPin (h : Nat) (s : State) : (s.passFrom h).line.txenPin = s.line.txenPin := by unfold State.passFrom; split <;> simp
@[simp] theorem State.passFrom_line_slot (h : Nat) (s : State) : (s.passFrom h).line.slot = s.line.slot := by unfold State.passFrom; split <;> simp
@[simp] theorem State.passFrom_line_bitcyc (h : Nat) (s : State) : (s.passFrom h).line.bitcyc = s.line.bitcyc := by unfold State.passFrom; split <;> simp
@[simp] theorem State.passFrom_line_bTail (h : Nat) (s : State) : (s.passFrom h).line.bTail = s.line.bTail := by unfold State.passFrom; split <;> simp
@[simp] theorem State.passFrom_line_txDl (h : Nat) (s : State) : (s.passFrom h).line.txDl = s.line.txDl := by unfold State.passFrom; split <;> simp
@[simp] theorem State.passFrom_line_txHi (h : Nat) (s : State) : (s.passFrom h).line.txHi = s.line.txHi := by unfold State.passFrom; split <;> simp
@[simp] theorem State.passFrom_line_txLo (h : Nat) (s : State) : (s.passFrom h).line.txLo = s.line.txLo := by unfold State.passFrom; split <;> simp
@[simp] theorem State.passFrom_line_txPrev (h : Nat) (s : State) : (s.passFrom h).line.txPrev = s.line.txPrev := by unfold State.passFrom; split <;> simp
@[simp] theorem State.passFrom_line_txSavedIe (h : Nat) (s : State) : (s.passFrom h).line.txSavedIe = s.line.txSavedIe := by unfold State.passFrom; split <;> simp
@[simp] theorem State.passFrom_line_resp (h : Nat) (s : State) : (s.passFrom h).line.resp = s.line.resp := by unfold State.passFrom; split <;> simp
@[simp] theorem State.passFrom_par (h : Nat) (s : State) : (s.passFrom h).par = s.par := by unfold State.passFrom; split <;> simp
@[simp] theorem State.passFrom_ie (h : Nat) (s : State) : (s.passFrom h).ie = s.ie := by unfold State.passFrom; split <;> simp
@[simp] theorem State.passFrom_reg (h : Nat) (s : State) : (s.passFrom h).reg = s.reg := by unfold State.passFrom; split <;> simp
@[simp] theorem State.passFrom_action (h : Nat) (s : State) : (s.passFrom h).action = s.action := by unfold State.passFrom; split <;> simp

@[simp] theorem State.decodePass_line_id (s : State) : (s.decodePass).line.id = s.line.id := by unfold State.decodePass; split <;> simp
@[simp] theorem State.decodePass_line_cfg (s : State) : (s.decodePass).line.cfg = s.line.cfg := by unfold State.decodePass; split <;> simp
@[simp] theorem State.decodePass_line_rxValid (s : State) : (s.decodePass).line.rxValid = s.line.rxValid := by unfold State.decodePass; split <;> simp
@[simp] theorem State.decodePass_line_txValid (s : State) : (s.decodePass).line.txValid = s.line.txValid := by unfold State.decodePass; split <;> simp
@[simp] theorem State.decodePass_line_halfDup (s : State) : (s.decodePass).line.halfDup = s.line.halfDup := by unfold State.decodePass; split <;> simp
@[simp] theorem State.decodePass_line_cpos (s : State) : (s.decodePass).line.cpos = s.line.cpos := by unfold State.decodePass; split <;> simp
@[simp] theorem State.decodePass_line_ctrl (s : State) : (s.decodePass).line.ctrl = s.line.ctrl := by unfold State.decodePass; split <;> simp
@[simp] theorem State.decodePass_line_txenPin (s : State) : (s.decodePass).line.txenPin = s.line.txenPin := by unfold State.decodePass; split <;> simp
@[simp] theorem State.decodePass_line_slot (s : State) : (s.decodePass).line.slot = s.line.slot := by unfold State.decodePass; split <;> simp
@[simp] theorem State.decodePass_line_bitcyc (s : State) : (s.decodePass).line.bitcyc = s.line.bitcyc := by unfold State.decodePass; split <;> simp
@[simp] theorem State.decodePass_line_bTail (s : State) : (s.decodePass).line.bTail = s.line.bTail := by unfold State.decodePass; split <;> simp
@[simp] theorem State.decodePass_line_txDl (s : State) : (s.decodePass).line.txDl = s.line.txDl := by unfold State.decodePass; split <;> simp
@[simp] theorem State.decodePass_line_txHi (s : State) : (s.decodePass).line.txHi = s.line.txHi := by unfold State.decodePass; split <;> simp
@[simp] theorem State.decodePass_line_txLo (s : State) : (s.decodePass).line.txLo = s.line.txLo := by unfold State.decodePass; split <;> simp
@[simp] theorem State.decodePass_line_txPrev (s : State) : (s.decodePass).line.txPrev = s.line.txPrev := by unfold State.decodePass; split <;> simp
@[simp] theorem State.decodePass_line_txSavedIe (s : State) : (s.decodePass).line.txSavedIe = s.line.txSavedIe := by unfold State.decodePass; split <;> simp
@[simp] theorem State.decodePass_line_resp (s : State) : (s.decodePass).line.resp = s.line.resp := by unfold State.decodePass; split <;> simp
@[simp] theorem State.decodePass_par (s : State) : (s.decodePass).par = s.par := by unfold State.decodePass; split <;> simp
@[simp] theorem State.decodePass_ie (s : State) : (s.decodePass).ie = s.ie := by unfold State.decodePass; split <;> simp
@[simp] theorem State.decodePass_reg (s : State) : (s.decodePass).reg = s.reg := by unfold State.decodePass; split <;> simp
@[simp] theorem State.decodePass_action (s : State) : (s.decodePass).action = s.action := by unfold State.decodePass; split <;> simp

@[simp] theorem State.bulkWait_line_id (d : Word) (s : State) : (s.bulkWait d).line.id = s.line.id := by simp [State.bulkWait]
@[simp] theorem State.bulkWait_line_cfg (d : Word) (s : State) : (s.bulkWait d).line.cfg = s.line.cfg := by simp [State.bulkWait]
@[simp] theorem State.bulkWait_line_rxValid (d : Word) (s : State) : (s.bulkWait d).line.rxValid = s.line.rxValid := by simp [State.bulkWait]
@[simp] theorem State.bulkWait_line_txValid (d : Word) (s : State) : (s.bulkWait d).line.txValid = s.line.txValid := by simp [State.bulkWait]
@[simp] theorem State.bulkWait_line_halfDup (d : Word) (s : State) : (s.bulkWait d).line.halfDup = s.line.halfDup := by simp [State.bulkWait]
@[simp] theorem State.bulkWait_line_cpos (d : Word) (s : State) : (s.bulkWait d).line.cpos = s.line.cpos := by simp [State.bulkWait]
@[simp] theorem State.bulkWait_line_ctrl (d : Word) (s : State) : (s.bulkWait d).line.ctrl = s.line.ctrl := by simp [State.bulkWait]
@[simp] theorem State.bulkWait_line_txenPin (d : Word) (s : State) : (s.bulkWait d).line.txenPin = s.line.txenPin := by simp [State.bulkWait]
@[simp] theorem State.bulkWait_line_slot (d : Word) (s : State) : (s.bulkWait d).line.slot = s.line.slot := by simp [State.bulkWait]
@[simp] theorem State.bulkWait_line_bitcyc (d : Word) (s : State) : (s.bulkWait d).line.bitcyc = s.line.bitcyc := by simp [State.bulkWait]
@[simp] theorem State.bulkWait_line_rxPos (d : Word) (s : State) : (s.bulkWait d).line.rxPos = s.line.rxPos := by simp [State.bulkWait]
@[simp] theorem State.bulkWait_line_rxByte (d : Word) (s : State) : (s.bulkWait d).line.rxByte = s.line.rxByte := by simp [State.bulkWait]
@[simp] theorem State.bulkWait_line_rxLast (d : Word) (s : State) : (s.bulkWait d).line.rxLast = s.line.rxLast := by simp [State.bulkWait]
@[simp] theorem State.bulkWait_line_slotB (d : Word) (s : State) : (s.bulkWait d).line.slotB = s.line.slotB := by simp [State.bulkWait]
@[simp] theorem State.bulkWait_line_bHead (d : Word) (s : State) : (s.bulkWait d).line.bHead = s.line.bHead := by simp [State.bulkWait]
@[simp] theorem State.bulkWait_line_bTail (d : Word) (s : State) : (s.bulkWait d).line.bTail = s.line.bTail := by simp [State.bulkWait]
@[simp] theorem State.bulkWait_line_txDl (d : Word) (s : State) : (s.bulkWait d).line.txDl = s.line.txDl := by simp [State.bulkWait]
@[simp] theorem State.bulkWait_line_txHi (d : Word) (s : State) : (s.bulkWait d).line.txHi = s.line.txHi := by simp [State.bulkWait]
@[simp] theorem State.bulkWait_line_txLo (d : Word) (s : State) : (s.bulkWait d).line.txLo = s.line.txLo := by simp [State.bulkWait]
@[simp] theorem State.bulkWait_line_txPrev (d : Word) (s : State) : (s.bulkWait d).line.txPrev = s.line.txPrev := by simp [State.bulkWait]
@[simp] theorem State.bulkWait_line_txSavedIe (d : Word) (s : State) : (s.bulkWait d).line.txSavedIe = s.line.txSavedIe := by simp [State.bulkWait]
@[simp] theorem State.bulkWait_line_eTail (d : Word) (s : State) : (s.bulkWait d).line.eTail = s.line.eTail := by simp [State.bulkWait]
@[simp] theorem State.bulkWait_line_lineOvf (d : Word) (s : State) : (s.bulkWait d).line.lineOvf = s.line.lineOvf := by simp [State.bulkWait]
@[simp] theorem State.bulkWait_line_resp (d : Word) (s : State) : (s.bulkWait d).line.resp = s.line.resp := by simp [State.bulkWait]
@[simp] theorem State.bulkWait_par (d : Word) (s : State) : (s.bulkWait d).par = s.par := by simp [State.bulkWait]
@[simp] theorem State.bulkWait_reg (d : Word) (s : State) : (s.bulkWait d).reg = s.reg := by simp [State.bulkWait]
@[simp] theorem State.bulkWait_action (d : Word) (s : State) : (s.bulkWait d).action = s.action := by simp [State.bulkWait]

@[simp] theorem State.splitWait_line_id (d now : Word) (s : State) : (s.splitWait d now).line.id = s.line.id := by unfold State.splitWait; split <;> simp
@[simp] theorem State.splitWait_line_cfg (d now : Word) (s : State) : (s.splitWait d now).line.cfg = s.line.cfg := by unfold State.splitWait; split <;> simp
@[simp] theorem State.splitWait_line_rxValid (d now : Word) (s : State) : (s.splitWait d now).line.rxValid = s.line.rxValid := by unfold State.splitWait; split <;> simp
@[simp] theorem State.splitWait_line_txValid (d now : Word) (s : State) : (s.splitWait d now).line.txValid = s.line.txValid := by unfold State.splitWait; split <;> simp
@[simp] theorem State.splitWait_line_halfDup (d now : Word) (s : State) : (s.splitWait d now).line.halfDup = s.line.halfDup := by unfold State.splitWait; split <;> simp
@[simp] theorem State.splitWait_line_cpos (d now : Word) (s : State) : (s.splitWait d now).line.cpos = s.line.cpos := by unfold State.splitWait; split <;> simp
@[simp] theorem State.splitWait_line_ctrl (d now : Word) (s : State) : (s.splitWait d now).line.ctrl = s.line.ctrl := by unfold State.splitWait; split <;> simp
@[simp] theorem State.splitWait_line_txenPin (d now : Word) (s : State) : (s.splitWait d now).line.txenPin = s.line.txenPin := by unfold State.splitWait; split <;> simp
@[simp] theorem State.splitWait_line_slot (d now : Word) (s : State) : (s.splitWait d now).line.slot = s.line.slot := by unfold State.splitWait; split <;> simp
@[simp] theorem State.splitWait_line_bitcyc (d now : Word) (s : State) : (s.splitWait d now).line.bitcyc = s.line.bitcyc := by unfold State.splitWait; split <;> simp
@[simp] theorem State.splitWait_line_rxPos (d now : Word) (s : State) : (s.splitWait d now).line.rxPos = s.line.rxPos := by unfold State.splitWait; split <;> simp
@[simp] theorem State.splitWait_line_rxByte (d now : Word) (s : State) : (s.splitWait d now).line.rxByte = s.line.rxByte := by unfold State.splitWait; split <;> simp
@[simp] theorem State.splitWait_line_rxLast (d now : Word) (s : State) : (s.splitWait d now).line.rxLast = s.line.rxLast := by unfold State.splitWait; split <;> simp
@[simp] theorem State.splitWait_line_slotB (d now : Word) (s : State) : (s.splitWait d now).line.slotB = s.line.slotB := by unfold State.splitWait; split <;> simp
@[simp] theorem State.splitWait_line_bHead (d now : Word) (s : State) : (s.splitWait d now).line.bHead = s.line.bHead := by unfold State.splitWait; split <;> simp
@[simp] theorem State.splitWait_line_bTail (d now : Word) (s : State) : (s.splitWait d now).line.bTail = s.line.bTail := by unfold State.splitWait; split <;> simp
@[simp] theorem State.splitWait_line_txDl (d now : Word) (s : State) : (s.splitWait d now).line.txDl = s.line.txDl := by unfold State.splitWait; split <;> simp
@[simp] theorem State.splitWait_line_txHi (d now : Word) (s : State) : (s.splitWait d now).line.txHi = s.line.txHi := by unfold State.splitWait; split <;> simp
@[simp] theorem State.splitWait_line_txLo (d now : Word) (s : State) : (s.splitWait d now).line.txLo = s.line.txLo := by unfold State.splitWait; split <;> simp
@[simp] theorem State.splitWait_line_txPrev (d now : Word) (s : State) : (s.splitWait d now).line.txPrev = s.line.txPrev := by unfold State.splitWait; split <;> simp
@[simp] theorem State.splitWait_line_txSavedIe (d now : Word) (s : State) : (s.splitWait d now).line.txSavedIe = s.line.txSavedIe := by unfold State.splitWait; split <;> simp
@[simp] theorem State.splitWait_line_eTail (d now : Word) (s : State) : (s.splitWait d now).line.eTail = s.line.eTail := by unfold State.splitWait; split <;> simp
@[simp] theorem State.splitWait_line_lineOvf (d now : Word) (s : State) : (s.splitWait d now).line.lineOvf = s.line.lineOvf := by unfold State.splitWait; split <;> simp
@[simp] theorem State.splitWait_line_resp (d now : Word) (s : State) : (s.splitWait d now).line.resp = s.line.resp := by unfold State.splitWait; split <;> simp
@[simp] theorem State.splitWait_par (d now : Word) (s : State) : (s.splitWait d now).par = s.par := by unfold State.splitWait; split <;> simp
@[simp] theorem State.splitWait_reg (d now : Word) (s : State) : (s.splitWait d now).reg = s.reg := by unfold State.splitWait; split <;> simp
@[simp] theorem State.splitWait_action (d now : Word) (s : State) : (s.splitWait d now).action = s.action := by unfold State.splitWait; split <;> simp

@[simp] theorem State.delayUntil_line_id (d : Word) (s : State) : (s.delayUntil d).line.id = s.line.id := by simp [State.delayUntil]
@[simp] theorem State.delayUntil_line_cfg (d : Word) (s : State) : (s.delayUntil d).line.cfg = s.line.cfg := by simp [State.delayUntil]
@[simp] theorem State.delayUntil_line_rxValid (d : Word) (s : State) : (s.delayUntil d).line.rxValid = s.line.rxValid := by simp [State.delayUntil]
@[simp] theorem State.delayUntil_line_txValid (d : Word) (s : State) : (s.delayUntil d).line.txValid = s.line.txValid := by simp [State.delayUntil]
@[simp] theorem State.delayUntil_line_halfDup (d : Word) (s : State) : (s.delayUntil d).line.halfDup = s.line.halfDup := by simp [State.delayUntil]
@[simp] theorem State.delayUntil_line_cpos (d : Word) (s : State) : (s.delayUntil d).line.cpos = s.line.cpos := by simp [State.delayUntil]
@[simp] theorem State.delayUntil_line_ctrl (d : Word) (s : State) : (s.delayUntil d).line.ctrl = s.line.ctrl := by simp [State.delayUntil]
@[simp] theorem State.delayUntil_line_txenPin (d : Word) (s : State) : (s.delayUntil d).line.txenPin = s.line.txenPin := by simp [State.delayUntil]
@[simp] theorem State.delayUntil_line_slot (d : Word) (s : State) : (s.delayUntil d).line.slot = s.line.slot := by simp [State.delayUntil]
@[simp] theorem State.delayUntil_line_bitcyc (d : Word) (s : State) : (s.delayUntil d).line.bitcyc = s.line.bitcyc := by simp [State.delayUntil]
@[simp] theorem State.delayUntil_line_rxPos (d : Word) (s : State) : (s.delayUntil d).line.rxPos = s.line.rxPos := by simp [State.delayUntil]
@[simp] theorem State.delayUntil_line_rxByte (d : Word) (s : State) : (s.delayUntil d).line.rxByte = s.line.rxByte := by simp [State.delayUntil]
@[simp] theorem State.delayUntil_line_rxLast (d : Word) (s : State) : (s.delayUntil d).line.rxLast = s.line.rxLast := by simp [State.delayUntil]
@[simp] theorem State.delayUntil_line_slotB (d : Word) (s : State) : (s.delayUntil d).line.slotB = s.line.slotB := by simp [State.delayUntil]
@[simp] theorem State.delayUntil_line_bHead (d : Word) (s : State) : (s.delayUntil d).line.bHead = s.line.bHead := by simp [State.delayUntil]
@[simp] theorem State.delayUntil_line_bTail (d : Word) (s : State) : (s.delayUntil d).line.bTail = s.line.bTail := by simp [State.delayUntil]
@[simp] theorem State.delayUntil_line_txDl (d : Word) (s : State) : (s.delayUntil d).line.txDl = s.line.txDl := by simp [State.delayUntil]
@[simp] theorem State.delayUntil_line_txHi (d : Word) (s : State) : (s.delayUntil d).line.txHi = s.line.txHi := by simp [State.delayUntil]
@[simp] theorem State.delayUntil_line_txLo (d : Word) (s : State) : (s.delayUntil d).line.txLo = s.line.txLo := by simp [State.delayUntil]
@[simp] theorem State.delayUntil_line_txPrev (d : Word) (s : State) : (s.delayUntil d).line.txPrev = s.line.txPrev := by simp [State.delayUntil]
@[simp] theorem State.delayUntil_line_txSavedIe (d : Word) (s : State) : (s.delayUntil d).line.txSavedIe = s.line.txSavedIe := by simp [State.delayUntil]
@[simp] theorem State.delayUntil_line_eTail (d : Word) (s : State) : (s.delayUntil d).line.eTail = s.line.eTail := by simp [State.delayUntil]
@[simp] theorem State.delayUntil_line_lineOvf (d : Word) (s : State) : (s.delayUntil d).line.lineOvf = s.line.lineOvf := by simp [State.delayUntil]
@[simp] theorem State.delayUntil_line_resp (d : Word) (s : State) : (s.delayUntil d).line.resp = s.line.resp := by simp [State.delayUntil]
@[simp] theorem State.delayUntil_par (d : Word) (s : State) : (s.delayUntil d).par = s.par := by simp [State.delayUntil]
@[simp] theorem State.delayUntil_reg (d : Word) (s : State) : (s.delayUntil d).reg = s.reg := by simp [State.delayUntil]
@[simp] theorem State.delayUntil_action (d : Word) (s : State) : (s.delayUntil d).action = s.action := by simp [State.delayUntil]

@[simp] theorem State.openSegment_line_id (v : Level) (dur : Word) (s : State) : (s.openSegment v dur).line.id = s.line.id := by simp [State.openSegment]
@[simp] theorem State.openSegment_line_cfg (v : Level) (dur : Word) (s : State) : (s.openSegment v dur).line.cfg = s.line.cfg := by simp [State.openSegment]
@[simp] theorem State.openSegment_line_rxValid (v : Level) (dur : Word) (s : State) : (s.openSegment v dur).line.rxValid = s.line.rxValid := by simp [State.openSegment]
@[simp] theorem State.openSegment_line_txValid (v : Level) (dur : Word) (s : State) : (s.openSegment v dur).line.txValid = s.line.txValid := by simp [State.openSegment]
@[simp] theorem State.openSegment_line_halfDup (v : Level) (dur : Word) (s : State) : (s.openSegment v dur).line.halfDup = s.line.halfDup := by simp [State.openSegment]
@[simp] theorem State.openSegment_line_cpos (v : Level) (dur : Word) (s : State) : (s.openSegment v dur).line.cpos = s.line.cpos := by simp [State.openSegment]
@[simp] theorem State.openSegment_line_ctrl (v : Level) (dur : Word) (s : State) : (s.openSegment v dur).line.ctrl = s.line.ctrl := by simp [State.openSegment]
@[simp] theorem State.openSegment_line_txenPin (v : Level) (dur : Word) (s : State) : (s.openSegment v dur).line.txenPin = s.line.txenPin := by simp [State.openSegment]
@[simp] theorem State.openSegment_line_slot (v : Level) (dur : Word) (s : State) : (s.openSegment v dur).line.slot = s.line.slot := by simp [State.openSegment]
@[simp] theorem State.openSegment_line_bitcyc (v : Level) (dur : Word) (s : State) : (s.openSegment v dur).line.bitcyc = s.line.bitcyc := by simp [State.openSegment]
@[simp] theorem State.openSegment_line_rxPos (v : Level) (dur : Word) (s : State) : (s.openSegment v dur).line.rxPos = s.line.rxPos := by simp [State.openSegment]
@[simp] theorem State.openSegment_line_rxByte (v : Level) (dur : Word) (s : State) : (s.openSegment v dur).line.rxByte = s.line.rxByte := by simp [State.openSegment]
@[simp] theorem State.openSegment_line_rxLast (v : Level) (dur : Word) (s : State) : (s.openSegment v dur).line.rxLast = s.line.rxLast := by simp [State.openSegment]
@[simp] theorem State.openSegment_line_slotB (v : Level) (dur : Word) (s : State) : (s.openSegment v dur).line.slotB = s.line.slotB := by simp [State.openSegment]
@[simp] theorem State.openSegment_line_bHead (v : Level) (dur : Word) (s : State) : (s.openSegment v dur).line.bHead = s.line.bHead := by simp [State.openSegment]
@[simp] theorem State.openSegment_line_bTail (v : Level) (dur : Word) (s : State) : (s.openSegment v dur).line.bTail = s.line.bTail := by simp [State.openSegment]
@[simp] theorem State.openSegment_line_txHi (v : Level) (dur : Word) (s : State) : (s.openSegment v dur).line.txHi = s.line.txHi := by simp [State.openSegment]
@[simp] theorem State.openSegment_line_txLo (v : Level) (dur : Word) (s : State) : (s.openSegment v dur).line.txLo = s.line.txLo := by simp [State.openSegment]
@[simp] theorem State.openSegment_line_txPrev (v : Level) (dur : Word) (s : State) : (s.openSegment v dur).line.txPrev = s.line.txPrev := by simp [State.openSegment]
@[simp] theorem State.openSegment_line_txSavedIe (v : Level) (dur : Word) (s : State) : (s.openSegment v dur).line.txSavedIe = s.line.txSavedIe := by simp [State.openSegment]
@[simp] theorem State.openSegment_line_eTail (v : Level) (dur : Word) (s : State) : (s.openSegment v dur).line.eTail = s.line.eTail := by simp [State.openSegment]
@[simp] theorem State.openSegment_line_lineOvf (v : Level) (dur : Word) (s : State) : (s.openSegment v dur).line.lineOvf = s.line.lineOvf := by simp [State.openSegment]
@[simp] theorem State.openSegment_line_resp (v : Level) (dur : Word) (s : State) : (s.openSegment v dur).line.resp = s.line.resp := by simp [State.openSegment]
@[simp] theorem State.openSegment_par (v : Level) (dur : Word) (s : State) : (s.openSegment v dur).par = s.par := by simp [State.openSegment]
@[simp] theorem State.openSegment_ie (v : Level) (dur : Word) (s : State) : (s.openSegment v dur).ie = s.ie := by simp [State.openSegment]
@[simp] theorem State.openSegment_reg (v : Level) (dur : Word) (s : State) : (s.openSegment v dur).reg = s.reg := by simp [State.openSegment]
@[simp] theorem State.openSegment_action (v : Level) (dur : Word) (s : State) : (s.openSegment v dur).action = s.action := by simp [State.openSegment]

@[simp] theorem State.txSegment_line_id (v : Level) (dur : Word) (s : State) : (s.txSegment v dur).line.id = s.line.id := by simp [State.txSegment]
@[simp] theorem State.txSegment_line_cfg (v : Level) (dur : Word) (s : State) : (s.txSegment v dur).line.cfg = s.line.cfg := by simp [State.txSegment]
@[simp] theorem State.txSegment_line_rxValid (v : Level) (dur : Word) (s : State) : (s.txSegment v dur).line.rxValid = s.line.rxValid := by simp [State.txSegment]
@[simp] theorem State.txSegment_line_txValid (v : Level) (dur : Word) (s : State) : (s.txSegment v dur).line.txValid = s.line.txValid := by simp [State.txSegment]
@[simp] theorem State.txSegment_line_halfDup (v : Level) (dur : Word) (s : State) : (s.txSegment v dur).line.halfDup = s.line.halfDup := by simp [State.txSegment]
@[simp] theorem State.txSegment_line_cpos (v : Level) (dur : Word) (s : State) : (s.txSegment v dur).line.cpos = s.line.cpos := by simp [State.txSegment]
@[simp] theorem State.txSegment_line_ctrl (v : Level) (dur : Word) (s : State) : (s.txSegment v dur).line.ctrl = s.line.ctrl := by simp [State.txSegment]
@[simp] theorem State.txSegment_line_txenPin (v : Level) (dur : Word) (s : State) : (s.txSegment v dur).line.txenPin = s.line.txenPin := by simp [State.txSegment]
@[simp] theorem State.txSegment_line_slot (v : Level) (dur : Word) (s : State) : (s.txSegment v dur).line.slot = s.line.slot := by simp [State.txSegment]
@[simp] theorem State.txSegment_line_bitcyc (v : Level) (dur : Word) (s : State) : (s.txSegment v dur).line.bitcyc = s.line.bitcyc := by simp [State.txSegment]
@[simp] theorem State.txSegment_line_rxPos (v : Level) (dur : Word) (s : State) : (s.txSegment v dur).line.rxPos = s.line.rxPos := by simp [State.txSegment]
@[simp] theorem State.txSegment_line_rxByte (v : Level) (dur : Word) (s : State) : (s.txSegment v dur).line.rxByte = s.line.rxByte := by simp [State.txSegment]
@[simp] theorem State.txSegment_line_rxLast (v : Level) (dur : Word) (s : State) : (s.txSegment v dur).line.rxLast = s.line.rxLast := by simp [State.txSegment]
@[simp] theorem State.txSegment_line_slotB (v : Level) (dur : Word) (s : State) : (s.txSegment v dur).line.slotB = s.line.slotB := by simp [State.txSegment]
@[simp] theorem State.txSegment_line_bHead (v : Level) (dur : Word) (s : State) : (s.txSegment v dur).line.bHead = s.line.bHead := by simp [State.txSegment]
@[simp] theorem State.txSegment_line_bTail (v : Level) (dur : Word) (s : State) : (s.txSegment v dur).line.bTail = s.line.bTail := by simp [State.txSegment]
@[simp] theorem State.txSegment_line_txHi (v : Level) (dur : Word) (s : State) : (s.txSegment v dur).line.txHi = s.line.txHi := by simp [State.txSegment]
@[simp] theorem State.txSegment_line_txLo (v : Level) (dur : Word) (s : State) : (s.txSegment v dur).line.txLo = s.line.txLo := by simp [State.txSegment]
@[simp] theorem State.txSegment_line_txPrev (v : Level) (dur : Word) (s : State) : (s.txSegment v dur).line.txPrev = s.line.txPrev := by simp [State.txSegment]
@[simp] theorem State.txSegment_line_txSavedIe (v : Level) (dur : Word) (s : State) : (s.txSegment v dur).line.txSavedIe = s.line.txSavedIe := by simp [State.txSegment]
@[simp] theorem State.txSegment_line_eTail (v : Level) (dur : Word) (s : State) : (s.txSegment v dur).line.eTail = s.line.eTail := by simp [State.txSegment]
@[simp] theorem State.txSegment_line_lineOvf (v : Level) (dur : Word) (s : State) : (s.txSegment v dur).line.lineOvf = s.line.lineOvf := by simp [State.txSegment]
@[simp] theorem State.txSegment_line_resp (v : Level) (dur : Word) (s : State) : (s.txSegment v dur).line.resp = s.line.resp := by simp [State.txSegment]
@[simp] theorem State.txSegment_par (v : Level) (dur : Word) (s : State) : (s.txSegment v dur).par = s.par := by simp [State.txSegment]
@[simp] theorem State.txSegment_reg (v : Level) (dur : Word) (s : State) : (s.txSegment v dur).reg = s.reg := by simp [State.txSegment]
@[simp] theorem State.txSegment_action (v : Level) (dur : Word) (s : State) : (s.txSegment v dur).action = s.action := by simp [State.txSegment]

@[simp] theorem State.flushHigh_line_id (s : State) : (s.flushHigh).line.id = s.line.id := by unfold State.flushHigh; split <;> simp
@[simp] theorem State.flushHigh_line_cfg (s : State) : (s.flushHigh).line.cfg = s.line.cfg := by unfold State.flushHigh; split <;> simp
@[simp] theorem State.flushHigh_line_rxValid (s : State) : (s.flushHigh).line.rxValid = s.line.rxValid := by unfold State.flushHigh; split <;> simp
@[simp] theorem State.flushHigh_line_txValid (s : State) : (s.flushHigh).line.txValid = s.line.txValid := by unfold State.flushHigh; split <;> simp
@[simp] theorem State.flushHigh_line_halfDup (s : State) : (s.flushHigh).line.halfDup = s.line.halfDup := by unfold State.flushHigh; split <;> simp
@[simp] theorem State.flushHigh_line_cpos (s : State) : (s.flushHigh).line.cpos = s.line.cpos := by unfold State.flushHigh; split <;> simp
@[simp] theorem State.flushHigh_line_ctrl (s : State) : (s.flushHigh).line.ctrl = s.line.ctrl := by unfold State.flushHigh; split <;> simp
@[simp] theorem State.flushHigh_line_txenPin (s : State) : (s.flushHigh).line.txenPin = s.line.txenPin := by unfold State.flushHigh; split <;> simp
@[simp] theorem State.flushHigh_line_slot (s : State) : (s.flushHigh).line.slot = s.line.slot := by unfold State.flushHigh; split <;> simp
@[simp] theorem State.flushHigh_line_bitcyc (s : State) : (s.flushHigh).line.bitcyc = s.line.bitcyc := by unfold State.flushHigh; split <;> simp
@[simp] theorem State.flushHigh_line_rxPos (s : State) : (s.flushHigh).line.rxPos = s.line.rxPos := by unfold State.flushHigh; split <;> simp
@[simp] theorem State.flushHigh_line_rxByte (s : State) : (s.flushHigh).line.rxByte = s.line.rxByte := by unfold State.flushHigh; split <;> simp
@[simp] theorem State.flushHigh_line_rxLast (s : State) : (s.flushHigh).line.rxLast = s.line.rxLast := by unfold State.flushHigh; split <;> simp
@[simp] theorem State.flushHigh_line_slotB (s : State) : (s.flushHigh).line.slotB = s.line.slotB := by unfold State.flushHigh; split <;> simp
@[simp] theorem State.flushHigh_line_bHead (s : State) : (s.flushHigh).line.bHead = s.line.bHead := by unfold State.flushHigh; split <;> simp
@[simp] theorem State.flushHigh_line_bTail (s : State) : (s.flushHigh).line.bTail = s.line.bTail := by unfold State.flushHigh; split <;> simp
@[simp] theorem State.flushHigh_line_txHi (s : State) : (s.flushHigh).line.txHi = s.line.txHi := by unfold State.flushHigh; split <;> simp
@[simp] theorem State.flushHigh_line_txLo (s : State) : (s.flushHigh).line.txLo = s.line.txLo := by unfold State.flushHigh; split <;> simp
@[simp] theorem State.flushHigh_line_txPrev (s : State) : (s.flushHigh).line.txPrev = s.line.txPrev := by unfold State.flushHigh; split <;> simp
@[simp] theorem State.flushHigh_line_txSavedIe (s : State) : (s.flushHigh).line.txSavedIe = s.line.txSavedIe := by unfold State.flushHigh; split <;> simp
@[simp] theorem State.flushHigh_line_eTail (s : State) : (s.flushHigh).line.eTail = s.line.eTail := by unfold State.flushHigh; split <;> simp
@[simp] theorem State.flushHigh_line_lineOvf (s : State) : (s.flushHigh).line.lineOvf = s.line.lineOvf := by unfold State.flushHigh; split <;> simp
@[simp] theorem State.flushHigh_line_resp (s : State) : (s.flushHigh).line.resp = s.line.resp := by unfold State.flushHigh; split <;> simp
@[simp] theorem State.flushHigh_par (s : State) : (s.flushHigh).par = s.par := by unfold State.flushHigh; split <;> simp
@[simp] theorem State.flushHigh_reg (s : State) : (s.flushHigh).reg = s.reg := by unfold State.flushHigh; split <;> simp
@[simp] theorem State.flushHigh_action (s : State) : (s.flushHigh).action = s.action := by unfold State.flushHigh; split <;> simp

@[simp] theorem State.flushLow_line_id (s : State) : (s.flushLow).line.id = s.line.id := by unfold State.flushLow; split <;> simp
@[simp] theorem State.flushLow_line_cfg (s : State) : (s.flushLow).line.cfg = s.line.cfg := by unfold State.flushLow; split <;> simp
@[simp] theorem State.flushLow_line_rxValid (s : State) : (s.flushLow).line.rxValid = s.line.rxValid := by unfold State.flushLow; split <;> simp
@[simp] theorem State.flushLow_line_txValid (s : State) : (s.flushLow).line.txValid = s.line.txValid := by unfold State.flushLow; split <;> simp
@[simp] theorem State.flushLow_line_halfDup (s : State) : (s.flushLow).line.halfDup = s.line.halfDup := by unfold State.flushLow; split <;> simp
@[simp] theorem State.flushLow_line_cpos (s : State) : (s.flushLow).line.cpos = s.line.cpos := by unfold State.flushLow; split <;> simp
@[simp] theorem State.flushLow_line_ctrl (s : State) : (s.flushLow).line.ctrl = s.line.ctrl := by unfold State.flushLow; split <;> simp
@[simp] theorem State.flushLow_line_txenPin (s : State) : (s.flushLow).line.txenPin = s.line.txenPin := by unfold State.flushLow; split <;> simp
@[simp] theorem State.flushLow_line_slot (s : State) : (s.flushLow).line.slot = s.line.slot := by unfold State.flushLow; split <;> simp
@[simp] theorem State.flushLow_line_bitcyc (s : State) : (s.flushLow).line.bitcyc = s.line.bitcyc := by unfold State.flushLow; split <;> simp
@[simp] theorem State.flushLow_line_rxPos (s : State) : (s.flushLow).line.rxPos = s.line.rxPos := by unfold State.flushLow; split <;> simp
@[simp] theorem State.flushLow_line_rxByte (s : State) : (s.flushLow).line.rxByte = s.line.rxByte := by unfold State.flushLow; split <;> simp
@[simp] theorem State.flushLow_line_rxLast (s : State) : (s.flushLow).line.rxLast = s.line.rxLast := by unfold State.flushLow; split <;> simp
@[simp] theorem State.flushLow_line_slotB (s : State) : (s.flushLow).line.slotB = s.line.slotB := by unfold State.flushLow; split <;> simp
@[simp] theorem State.flushLow_line_bHead (s : State) : (s.flushLow).line.bHead = s.line.bHead := by unfold State.flushLow; split <;> simp
@[simp] theorem State.flushLow_line_bTail (s : State) : (s.flushLow).line.bTail = s.line.bTail := by unfold State.flushLow; split <;> simp
@[simp] theorem State.flushLow_line_txHi (s : State) : (s.flushLow).line.txHi = s.line.txHi := by unfold State.flushLow; split <;> simp
@[simp] theorem State.flushLow_line_txLo (s : State) : (s.flushLow).line.txLo = s.line.txLo := by unfold State.flushLow; split <;> simp
@[simp] theorem State.flushLow_line_txPrev (s : State) : (s.flushLow).line.txPrev = s.line.txPrev := by unfold State.flushLow; split <;> simp
@[simp] theorem State.flushLow_line_txSavedIe (s : State) : (s.flushLow).line.txSavedIe = s.line.txSavedIe := by unfold State.flushLow; split <;> simp
@[simp] theorem State.flushLow_line_eTail (s : State) : (s.flushLow).line.eTail = s.line.eTail := by unfold State.flushLow; split <;> simp
@[simp] theorem State.flushLow_line_lineOvf (s : State) : (s.flushLow).line.lineOvf = s.line.lineOvf := by unfold State.flushLow; split <;> simp
@[simp] theorem State.flushLow_line_resp (s : State) : (s.flushLow).line.resp = s.line.resp := by unfold State.flushLow; split <;> simp
@[simp] theorem State.flushLow_par (s : State) : (s.flushLow).par = s.par := by unfold State.flushLow; split <;> simp
@[simp] theorem State.flushLow_reg (s : State) : (s.flushLow).reg = s.reg := by unfold State.flushLow; split <;> simp
@[simp] theorem State.flushLow_action (s : State) : (s.flushLow).action = s.action := by unfold State.flushLow; split <;> simp

@[simp] theorem State.flushPair_line_id (s : State) : (s.flushPair).line.id = s.line.id := by simp [State.flushPair]
@[simp] theorem State.flushPair_line_cfg (s : State) : (s.flushPair).line.cfg = s.line.cfg := by simp [State.flushPair]
@[simp] theorem State.flushPair_line_rxValid (s : State) : (s.flushPair).line.rxValid = s.line.rxValid := by simp [State.flushPair]
@[simp] theorem State.flushPair_line_txValid (s : State) : (s.flushPair).line.txValid = s.line.txValid := by simp [State.flushPair]
@[simp] theorem State.flushPair_line_halfDup (s : State) : (s.flushPair).line.halfDup = s.line.halfDup := by simp [State.flushPair]
@[simp] theorem State.flushPair_line_cpos (s : State) : (s.flushPair).line.cpos = s.line.cpos := by simp [State.flushPair]
@[simp] theorem State.flushPair_line_ctrl (s : State) : (s.flushPair).line.ctrl = s.line.ctrl := by simp [State.flushPair]
@[simp] theorem State.flushPair_line_txenPin (s : State) : (s.flushPair).line.txenPin = s.line.txenPin := by simp [State.flushPair]
@[simp] theorem State.flushPair_line_slot (s : State) : (s.flushPair).line.slot = s.line.slot := by simp [State.flushPair]
@[simp] theorem State.flushPair_line_bitcyc (s : State) : (s.flushPair).line.bitcyc = s.line.bitcyc := by simp [State.flushPair]
@[simp] theorem State.flushPair_line_rxPos (s : State) : (s.flushPair).line.rxPos = s.line.rxPos := by simp [State.flushPair]
@[simp] theorem State.flushPair_line_rxByte (s : State) : (s.flushPair).line.rxByte = s.line.rxByte := by simp [State.flushPair]
@[simp] theorem State.flushPair_line_rxLast (s : State) : (s.flushPair).line.rxLast = s.line.rxLast := by simp [State.flushPair]
@[simp] theorem State.flushPair_line_slotB (s : State) : (s.flushPair).line.slotB = s.line.slotB := by simp [State.flushPair]
@[simp] theorem State.flushPair_line_bHead (s : State) : (s.flushPair).line.bHead = s.line.bHead := by simp [State.flushPair]
@[simp] theorem State.flushPair_line_bTail (s : State) : (s.flushPair).line.bTail = s.line.bTail := by simp [State.flushPair]
@[simp] theorem State.flushPair_line_txPrev (s : State) : (s.flushPair).line.txPrev = s.line.txPrev := by simp [State.flushPair]
@[simp] theorem State.flushPair_line_txSavedIe (s : State) : (s.flushPair).line.txSavedIe = s.line.txSavedIe := by simp [State.flushPair]
@[simp] theorem State.flushPair_line_eTail (s : State) : (s.flushPair).line.eTail = s.line.eTail := by simp [State.flushPair]
@[simp] theorem State.flushPair_line_lineOvf (s : State) : (s.flushPair).line.lineOvf = s.line.lineOvf := by simp [State.flushPair]
@[simp] theorem State.flushPair_line_resp (s : State) : (s.flushPair).line.resp = s.line.resp := by simp [State.flushPair]
@[simp] theorem State.flushPair_par (s : State) : (s.flushPair).par = s.par := by simp [State.flushPair]
@[simp] theorem State.flushPair_reg (s : State) : (s.flushPair).reg = s.reg := by simp [State.flushPair]
@[simp] theorem State.flushPair_action (s : State) : (s.flushPair).action = s.action := by simp [State.flushPair]

@[simp] theorem Line.addPeriod_id (v : Level) (l : Line) : (l.addPeriod v).id = l.id := by unfold Line.addPeriod; split <;> rfl
@[simp] theorem Line.addPeriod_cfg (v : Level) (l : Line) : (l.addPeriod v).cfg = l.cfg := by unfold Line.addPeriod; split <;> rfl
@[simp] theorem Line.addPeriod_rxValid (v : Level) (l : Line) : (l.addPeriod v).rxValid = l.rxValid := by unfold Line.addPeriod; split <;> rfl
@[simp] theorem Line.addPeriod_txValid (v : Level) (l : Line) : (l.addPeriod v).txValid = l.txValid := by unfold Line.addPeriod; split <;> rfl
@[simp] theorem Line.addPeriod_halfDup (v : Level) (l : Line) : (l.addPeriod v).halfDup = l.halfDup := by unfold Line.addPeriod; split <;> rfl
@[simp] theorem Line.addPeriod_cpos (v : Level) (l : Line) : (l.addPeriod v).cpos = l.cpos := by unfold Line.addPeriod; split <;> rfl
@[simp] theorem Line.addPeriod_cmd (v : Level) (l : Line) : (l.addPeriod v).cmd = l.cmd := by unfold Line.addPeriod; split <;> rfl
@[simp] theorem Line.addPeriod_resp (v : Level) (l : Line) : (l.addPeriod v).resp = l.resp := by unfold Line.addPeriod; split <;> rfl
@[simp] theorem Line.addPeriod_ctrl (v : Level) (l : Line) : (l.addPeriod v).ctrl = l.ctrl := by unfold Line.addPeriod; split <;> rfl
@[simp] theorem Line.addPeriod_txenPin (v : Level) (l : Line) : (l.addPeriod v).txenPin = l.txenPin := by unfold Line.addPeriod; split <;> rfl
@[simp] theorem Line.addPeriod_slot (v : Level) (l : Line) : (l.addPeriod v).slot = l.slot := by unfold Line.addPeriod; split <;> rfl
@[simp] theorem Line.addPeriod_bitcyc (v : Level) (l : Line) : (l.addPeriod v).bitcyc = l.bitcyc := by unfold Line.addPeriod; split <;> rfl
@[simp] theorem Line.addPeriod_slotE (v : Level) (l : Line) : (l.addPeriod v).slotE = l.slotE := by unfold Line.addPeriod; split <;> rfl
@[simp] theorem Line.addPeriod_eHead (v : Level) (l : Line) : (l.addPeriod v).eHead = l.eHead := by unfold Line.addPeriod; split <;> rfl
@[simp] theorem Line.addPeriod_eTail (v : Level) (l : Line) : (l.addPeriod v).eTail = l.eTail := by unfold Line.addPeriod; split <;> rfl
@[simp] theorem Line.addPeriod_eOvf (v : Level) (l : Line) : (l.addPeriod v).eOvf = l.eOvf := by unfold Line.addPeriod; split <;> rfl
@[simp] theorem Line.addPeriod_rxPos (v : Level) (l : Line) : (l.addPeriod v).rxPos = l.rxPos := by unfold Line.addPeriod; split <;> rfl
@[simp] theorem Line.addPeriod_rxByte (v : Level) (l : Line) : (l.addPeriod v).rxByte = l.rxByte := by unfold Line.addPeriod; split <;> rfl
@[simp] theorem Line.addPeriod_rxLast (v : Level) (l : Line) : (l.addPeriod v).rxLast = l.rxLast := by unfold Line.addPeriod; split <;> rfl
@[simp] theorem Line.addPeriod_slotB (v : Level) (l : Line) : (l.addPeriod v).slotB = l.slotB := by unfold Line.addPeriod; split <;> rfl
@[simp] theorem Line.addPeriod_bHead (v : Level) (l : Line) : (l.addPeriod v).bHead = l.bHead := by unfold Line.addPeriod; split <;> rfl
@[simp] theorem Line.addPeriod_bTail (v : Level) (l : Line) : (l.addPeriod v).bTail = l.bTail := by unfold Line.addPeriod; split <;> rfl
@[simp] theorem Line.addPeriod_lineOvf (v : Level) (l : Line) : (l.addPeriod v).lineOvf = l.lineOvf := by unfold Line.addPeriod; split <;> rfl
@[simp] theorem Line.addPeriod_txDl (v : Level) (l : Line) : (l.addPeriod v).txDl = l.txDl := by unfold Line.addPeriod; split <;> rfl
@[simp] theorem Line.addPeriod_txSavedIe (v : Level) (l : Line) : (l.addPeriod v).txSavedIe = l.txSavedIe := by unfold Line.addPeriod; split <;> rfl
@[simp] theorem Line.addPeriod_pendRx (v : Level) (l : Line) : (l.addPeriod v).pendRx = l.pendRx := by unfold Line.addPeriod; split <;> rfl
@[simp] theorem Line.addPeriod_trace (v : Level) (l : Line) : (l.addPeriod v).trace = l.trace := by unfold Line.addPeriod; split <;> rfl
@[simp] theorem State.txBit_line_id (v : Level) (s : State) : (s.txBit v).line.id = s.line.id := by unfold State.txBit; split <;> simp
@[simp] theorem State.txBit_line_cfg (v : Level) (s : State) : (s.txBit v).line.cfg = s.line.cfg := by unfold State.txBit; split <;> simp
@[simp] theorem State.txBit_line_rxValid (v : Level) (s : State) : (s.txBit v).line.rxValid = s.line.rxValid := by unfold State.txBit; split <;> simp
@[simp] theorem State.txBit_line_txValid (v : Level) (s : State) : (s.txBit v).line.txValid = s.line.txValid := by unfold State.txBit; split <;> simp
@[simp] theorem State.txBit_line_halfDup (v : Level) (s : State) : (s.txBit v).line.halfDup = s.line.halfDup := by unfold State.txBit; split <;> simp
@[simp] theorem State.txBit_line_cpos (v : Level) (s : State) : (s.txBit v).line.cpos = s.line.cpos := by unfold State.txBit; split <;> simp
@[simp] theorem State.txBit_line_ctrl (v : Level) (s : State) : (s.txBit v).line.ctrl = s.line.ctrl := by unfold State.txBit; split <;> simp
@[simp] theorem State.txBit_line_txenPin (v : Level) (s : State) : (s.txBit v).line.txenPin = s.line.txenPin := by unfold State.txBit; split <;> simp
@[simp] theorem State.txBit_line_slot (v : Level) (s : State) : (s.txBit v).line.slot = s.line.slot := by unfold State.txBit; split <;> simp
@[simp] theorem State.txBit_line_bitcyc (v : Level) (s : State) : (s.txBit v).line.bitcyc = s.line.bitcyc := by unfold State.txBit; split <;> simp
@[simp] theorem State.txBit_line_rxPos (v : Level) (s : State) : (s.txBit v).line.rxPos = s.line.rxPos := by unfold State.txBit; split <;> simp
@[simp] theorem State.txBit_line_rxByte (v : Level) (s : State) : (s.txBit v).line.rxByte = s.line.rxByte := by unfold State.txBit; split <;> simp
@[simp] theorem State.txBit_line_rxLast (v : Level) (s : State) : (s.txBit v).line.rxLast = s.line.rxLast := by unfold State.txBit; split <;> simp
@[simp] theorem State.txBit_line_slotB (v : Level) (s : State) : (s.txBit v).line.slotB = s.line.slotB := by unfold State.txBit; split <;> simp
@[simp] theorem State.txBit_line_bHead (v : Level) (s : State) : (s.txBit v).line.bHead = s.line.bHead := by unfold State.txBit; split <;> simp
@[simp] theorem State.txBit_line_bTail (v : Level) (s : State) : (s.txBit v).line.bTail = s.line.bTail := by unfold State.txBit; split <;> simp
@[simp] theorem State.txBit_line_txSavedIe (v : Level) (s : State) : (s.txBit v).line.txSavedIe = s.line.txSavedIe := by unfold State.txBit; split <;> simp
@[simp] theorem State.txBit_line_eTail (v : Level) (s : State) : (s.txBit v).line.eTail = s.line.eTail := by unfold State.txBit; split <;> simp
@[simp] theorem State.txBit_line_lineOvf (v : Level) (s : State) : (s.txBit v).line.lineOvf = s.line.lineOvf := by unfold State.txBit; split <;> simp
@[simp] theorem State.txBit_line_resp (v : Level) (s : State) : (s.txBit v).line.resp = s.line.resp := by unfold State.txBit; split <;> simp
@[simp] theorem State.txBit_par (v : Level) (s : State) : (s.txBit v).par = s.par := by unfold State.txBit; split <;> simp
@[simp] theorem State.txBit_reg (v : Level) (s : State) : (s.txBit v).reg = s.reg := by unfold State.txBit; split <;> simp
@[simp] theorem State.txBit_action (v : Level) (s : State) : (s.txBit v).action = s.action := by unfold State.txBit; split <;> simp

@[simp] theorem State.foldl_txBit_line_id (vs : List Level) (s : State) : (vs.foldl State.txBit s).line.id = s.line.id := by
  induction vs generalizing s with
  | nil => rfl
  | cons v vs ih => simp [ih]
@[simp] theorem State.foldl_txBit_line_cfg (vs : List Level) (s : State) : (vs.foldl State.txBit s).line.cfg = s.line.cfg := by
  induction vs generalizing s with
  | nil => rfl
  | cons v vs ih => simp [ih]
@[simp] theorem State.foldl_txBit_line_rxValid (vs : List Level) (s : State) : (vs.foldl State.txBit s).line.rxValid = s.line.rxValid := by
  induction vs generalizing s with
  | nil => rfl
  | cons v vs ih => simp [ih]
@[simp] theorem State.foldl_txBit_line_txValid (vs : List Level) (s : State) : (vs.foldl State.txBit s).line.txValid = s.line.txValid := by
  induction vs generalizing s with
  | nil => rfl
  | cons v vs ih => simp [ih]
@[simp] theorem State.foldl_txBit_line_halfDup (vs : List Level) (s : State) : (vs.foldl State.txBit s).line.halfDup = s.line.halfDup := by
  induction vs generalizing s with
  | nil => rfl
  | cons v vs ih => simp [ih]
@[simp] theorem State.foldl_txBit_line_cpos (vs : List Level) (s : State) : (vs.foldl State.txBit s).line.cpos = s.line.cpos := by
  induction vs generalizing s with
  | nil => rfl
  | cons v vs ih => simp [ih]
@[simp] theorem State.foldl_txBit_line_ctrl (vs : List Level) (s : State) : (vs.foldl State.txBit s).line.ctrl = s.line.ctrl := by
  induction vs generalizing s with
  | nil => rfl
  | cons v vs ih => simp [ih]
@[simp] theorem State.foldl_txBit_line_txenPin (vs : List Level) (s : State) : (vs.foldl State.txBit s).line.txenPin = s.line.txenPin := by
  induction vs generalizing s with
  | nil => rfl
  | cons v vs ih => simp [ih]
@[simp] theorem State.foldl_txBit_line_slot (vs : List Level) (s : State) : (vs.foldl State.txBit s).line.slot = s.line.slot := by
  induction vs generalizing s with
  | nil => rfl
  | cons v vs ih => simp [ih]
@[simp] theorem State.foldl_txBit_line_bitcyc (vs : List Level) (s : State) : (vs.foldl State.txBit s).line.bitcyc = s.line.bitcyc := by
  induction vs generalizing s with
  | nil => rfl
  | cons v vs ih => simp [ih]
@[simp] theorem State.foldl_txBit_line_rxPos (vs : List Level) (s : State) : (vs.foldl State.txBit s).line.rxPos = s.line.rxPos := by
  induction vs generalizing s with
  | nil => rfl
  | cons v vs ih => simp [ih]
@[simp] theorem State.foldl_txBit_line_rxByte (vs : List Level) (s : State) : (vs.foldl State.txBit s).line.rxByte = s.line.rxByte := by
  induction vs generalizing s with
  | nil => rfl
  | cons v vs ih => simp [ih]
@[simp] theorem State.foldl_txBit_line_rxLast (vs : List Level) (s : State) : (vs.foldl State.txBit s).line.rxLast = s.line.rxLast := by
  induction vs generalizing s with
  | nil => rfl
  | cons v vs ih => simp [ih]
@[simp] theorem State.foldl_txBit_line_slotB (vs : List Level) (s : State) : (vs.foldl State.txBit s).line.slotB = s.line.slotB := by
  induction vs generalizing s with
  | nil => rfl
  | cons v vs ih => simp [ih]
@[simp] theorem State.foldl_txBit_line_bHead (vs : List Level) (s : State) : (vs.foldl State.txBit s).line.bHead = s.line.bHead := by
  induction vs generalizing s with
  | nil => rfl
  | cons v vs ih => simp [ih]
@[simp] theorem State.foldl_txBit_line_bTail (vs : List Level) (s : State) : (vs.foldl State.txBit s).line.bTail = s.line.bTail := by
  induction vs generalizing s with
  | nil => rfl
  | cons v vs ih => simp [ih]
@[simp] theorem State.foldl_txBit_line_txSavedIe (vs : List Level) (s : State) : (vs.foldl State.txBit s).line.txSavedIe = s.line.txSavedIe := by
  induction vs generalizing s with
  | nil => rfl
  | cons v vs ih => simp [ih]
@[simp] theorem State.foldl_txBit_line_eTail (vs : List Level) (s : State) : (vs.foldl State.txBit s).line.eTail = s.line.eTail := by
  induction vs generalizing s with
  | nil => rfl
  | cons v vs ih => simp [ih]
@[simp] theorem State.foldl_txBit_line_lineOvf (vs : List Level) (s : State) : (vs.foldl State.txBit s).line.lineOvf = s.line.lineOvf := by
  induction vs generalizing s with
  | nil => rfl
  | cons v vs ih => simp [ih]
@[simp] theorem State.foldl_txBit_line_resp (vs : List Level) (s : State) : (vs.foldl State.txBit s).line.resp = s.line.resp := by
  induction vs generalizing s with
  | nil => rfl
  | cons v vs ih => simp [ih]
@[simp] theorem State.foldl_txBit_par (vs : List Level) (s : State) : (vs.foldl State.txBit s).par = s.par := by
  induction vs generalizing s with
  | nil => rfl
  | cons v vs ih => simp [ih]
@[simp] theorem State.foldl_txBit_reg (vs : List Level) (s : State) : (vs.foldl State.txBit s).reg = s.reg := by
  induction vs generalizing s with
  | nil => rfl
  | cons v vs ih => simp [ih]
@[simp] theorem State.foldl_txBit_action (vs : List Level) (s : State) : (vs.foldl State.txBit s).action = s.action := by
  induction vs generalizing s with
  | nil => rfl
  | cons v vs ih => simp [ih]

@[simp] theorem State.driveTxen_line_id (v : Level) (s : State) : (s.driveTxen v).line.id = s.line.id := by unfold State.driveTxen; split <;> simp
@[simp] theorem State.driveTxen_line_cfg (v : Level) (s : State) : (s.driveTxen v).line.cfg = s.line.cfg := by unfold State.driveTxen; split <;> simp
@[simp] theorem State.driveTxen_line_rxValid (v : Level) (s : State) : (s.driveTxen v).line.rxValid = s.line.rxValid := by unfold State.driveTxen; split <;> simp
@[simp] theorem State.driveTxen_line_txValid (v : Level) (s : State) : (s.driveTxen v).line.txValid = s.line.txValid := by unfold State.driveTxen; split <;> simp
@[simp] theorem State.driveTxen_line_halfDup (v : Level) (s : State) : (s.driveTxen v).line.halfDup = s.line.halfDup := by unfold State.driveTxen; split <;> simp
@[simp] theorem State.driveTxen_line_cpos (v : Level) (s : State) : (s.driveTxen v).line.cpos = s.line.cpos := by unfold State.driveTxen; split <;> simp
@[simp] theorem State.driveTxen_line_ctrl (v : Level) (s : State) : (s.driveTxen v).line.ctrl = s.line.ctrl := by unfold State.driveTxen; split <;> simp
@[simp] theorem State.driveTxen_line_txenPin (v : Level) (s : State) : (s.driveTxen v).line.txenPin = s.line.txenPin := by unfold State.driveTxen; split <;> simp
@[simp] theorem State.driveTxen_line_slot (v : Level) (s : State) : (s.driveTxen v).line.slot = s.line.slot := by unfold State.driveTxen; split <;> simp
@[simp] theorem State.driveTxen_line_bitcyc (v : Level) (s : State) : (s.driveTxen v).line.bitcyc = s.line.bitcyc := by unfold State.driveTxen; split <;> simp
@[simp] theorem State.driveTxen_line_rxPos (v : Level) (s : State) : (s.driveTxen v).line.rxPos = s.line.rxPos := by unfold State.driveTxen; split <;> simp
@[simp] theorem State.driveTxen_line_rxByte (v : Level) (s : State) : (s.driveTxen v).line.rxByte = s.line.rxByte := by unfold State.driveTxen; split <;> simp
@[simp] theorem State.driveTxen_line_rxLast (v : Level) (s : State) : (s.driveTxen v).line.rxLast = s.line.rxLast := by unfold State.driveTxen; split <;> simp
@[simp] theorem State.driveTxen_line_slotB (v : Level) (s : State) : (s.driveTxen v).line.slotB = s.line.slotB := by unfold State.driveTxen; split <;> simp
@[simp] theorem State.driveTxen_line_bHead (v : Level) (s : State) : (s.driveTxen v).line.bHead = s.line.bHead := by unfold State.driveTxen; split <;> simp
@[simp] theorem State.driveTxen_line_bTail (v : Level) (s : State) : (s.driveTxen v).line.bTail = s.line.bTail := by unfold State.driveTxen; split <;> simp
@[simp] theorem State.driveTxen_line_txDl (v : Level) (s : State) : (s.driveTxen v).line.txDl = s.line.txDl := by unfold State.driveTxen; split <;> simp
@[simp] theorem State.driveTxen_line_txHi (v : Level) (s : State) : (s.driveTxen v).line.txHi = s.line.txHi := by unfold State.driveTxen; split <;> simp
@[simp] theorem State.driveTxen_line_txLo (v : Level) (s : State) : (s.driveTxen v).line.txLo = s.line.txLo := by unfold State.driveTxen; split <;> simp
@[simp] theorem State.driveTxen_line_txPrev (v : Level) (s : State) : (s.driveTxen v).line.txPrev = s.line.txPrev := by unfold State.driveTxen; split <;> simp
@[simp] theorem State.driveTxen_line_txSavedIe (v : Level) (s : State) : (s.driveTxen v).line.txSavedIe = s.line.txSavedIe := by unfold State.driveTxen; split <;> simp
@[simp] theorem State.driveTxen_line_eTail (v : Level) (s : State) : (s.driveTxen v).line.eTail = s.line.eTail := by unfold State.driveTxen; split <;> simp
@[simp] theorem State.driveTxen_line_lineOvf (v : Level) (s : State) : (s.driveTxen v).line.lineOvf = s.line.lineOvf := by unfold State.driveTxen; split <;> simp
@[simp] theorem State.driveTxen_line_resp (v : Level) (s : State) : (s.driveTxen v).line.resp = s.line.resp := by unfold State.driveTxen; split <;> simp
@[simp] theorem State.driveTxen_par (v : Level) (s : State) : (s.driveTxen v).par = s.par := by unfold State.driveTxen; split <;> simp
@[simp] theorem State.driveTxen_ie (v : Level) (s : State) : (s.driveTxen v).ie = s.ie := by unfold State.driveTxen; split <;> simp
@[simp] theorem State.driveTxen_reg (v : Level) (s : State) : (s.driveTxen v).reg = s.reg := by unfold State.driveTxen; split <;> simp
@[simp] theorem State.driveTxen_action (v : Level) (s : State) : (s.driveTxen v).action = s.action := by unfold State.driveTxen; split <;> simp

@[simp] theorem State.txMask_line_id (s : State) : (s.txMask).line.id = s.line.id := by unfold State.txMask; split <;> simp
@[simp] theorem State.txMask_line_cfg (s : State) : (s.txMask).line.cfg = s.line.cfg := by unfold State.txMask; split <;> simp
@[simp] theorem State.txMask_line_rxValid (s : State) : (s.txMask).line.rxValid = s.line.rxValid := by unfold State.txMask; split <;> simp
@[simp] theorem State.txMask_line_txValid (s : State) : (s.txMask).line.txValid = s.line.txValid := by unfold State.txMask; split <;> simp
@[simp] theorem State.txMask_line_halfDup (s : State) : (s.txMask).line.halfDup = s.line.halfDup := by unfold State.txMask; split <;> simp
@[simp] theorem State.txMask_line_cpos (s : State) : (s.txMask).line.cpos = s.line.cpos := by unfold State.txMask; split <;> simp
@[simp] theorem State.txMask_line_ctrl (s : State) : (s.txMask).line.ctrl = s.line.ctrl := by unfold State.txMask; split <;> simp
@[simp] theorem State.txMask_line_txenPin (s : State) : (s.txMask).line.txenPin = s.line.txenPin := by unfold State.txMask; split <;> simp
@[simp] theorem State.txMask_line_slot (s : State) : (s.txMask).line.slot = s.line.slot := by unfold State.txMask; split <;> simp
@[simp] theorem State.txMask_line_bitcyc (s : State) : (s.txMask).line.bitcyc = s.line.bitcyc := by unfold State.txMask; split <;> simp
@[simp] theorem State.txMask_line_rxPos (s : State) : (s.txMask).line.rxPos = s.line.rxPos := by unfold State.txMask; split <;> simp
@[simp] theorem State.txMask_line_rxByte (s : State) : (s.txMask).line.rxByte = s.line.rxByte := by unfold State.txMask; split <;> simp
@[simp] theorem State.txMask_line_rxLast (s : State) : (s.txMask).line.rxLast = s.line.rxLast := by unfold State.txMask; split <;> simp
@[simp] theorem State.txMask_line_slotB (s : State) : (s.txMask).line.slotB = s.line.slotB := by unfold State.txMask; split <;> simp
@[simp] theorem State.txMask_line_bHead (s : State) : (s.txMask).line.bHead = s.line.bHead := by unfold State.txMask; split <;> simp
@[simp] theorem State.txMask_line_bTail (s : State) : (s.txMask).line.bTail = s.line.bTail := by unfold State.txMask; split <;> simp
@[simp] theorem State.txMask_line_txDl (s : State) : (s.txMask).line.txDl = s.line.txDl := by unfold State.txMask; split <;> simp
@[simp] theorem State.txMask_line_txHi (s : State) : (s.txMask).line.txHi = s.line.txHi := by unfold State.txMask; split <;> simp
@[simp] theorem State.txMask_line_txLo (s : State) : (s.txMask).line.txLo = s.line.txLo := by unfold State.txMask; split <;> simp
@[simp] theorem State.txMask_line_txPrev (s : State) : (s.txMask).line.txPrev = s.line.txPrev := by unfold State.txMask; split <;> simp
@[simp] theorem State.txMask_line_eTail (s : State) : (s.txMask).line.eTail = s.line.eTail := by unfold State.txMask; split <;> simp
@[simp] theorem State.txMask_line_lineOvf (s : State) : (s.txMask).line.lineOvf = s.line.lineOvf := by unfold State.txMask; split <;> simp
@[simp] theorem State.txMask_line_resp (s : State) : (s.txMask).line.resp = s.line.resp := by unfold State.txMask; split <;> simp
@[simp] theorem State.txMask_par (s : State) : (s.txMask).par = s.par := by unfold State.txMask; split <;> simp
@[simp] theorem State.txMask_reg (s : State) : (s.txMask).reg = s.reg := by unfold State.txMask; split <;> simp
@[simp] theorem State.txMask_action (s : State) : (s.txMask).action = s.action := by unfold State.txMask; split <;> simp

@[simp] theorem State.txSample_line_id (s : State) : (s.txSample).line.id = s.line.id := by simp [State.txSample]
@[simp] theorem State.txSample_line_cfg (s : State) : (s.txSample).line.cfg = s.line.cfg := by simp [State.txSample]
@[simp] theorem State.txSample_line_rxValid (s : State) : (s.txSample).line.rxValid = s.line.rxValid := by simp [State.txSample]
@[simp] theorem State.txSample_line_txValid (s : State) : (s.txSample).line.txValid = s.line.txValid := by simp [State.txSample]
@[simp] theorem State.txSample_line_halfDup (s : State) : (s.txSample).line.halfDup = s.line.halfDup := by simp [State.txSample]
@[simp] theorem State.txSample_line_cpos (s : State) : (s.txSample).line.cpos = s.line.cpos := by simp [State.txSample]
@[simp] theorem State.txSample_line_ctrl (s : State) : (s.txSample).line.ctrl = s.line.ctrl := by simp [State.txSample]
@[simp] theorem State.txSample_line_txenPin (s : State) : (s.txSample).line.txenPin = s.line.txenPin := by simp [State.txSample]
@[simp] theorem State.txSample_line_slot (s : State) : (s.txSample).line.slot = s.line.slot := by simp [State.txSample]
@[simp] theorem State.txSample_line_bitcyc (s : State) : (s.txSample).line.bitcyc = s.line.bitcyc := by simp [State.txSample]
@[simp] theorem State.txSample_line_rxPos (s : State) : (s.txSample).line.rxPos = s.line.rxPos := by simp [State.txSample]
@[simp] theorem State.txSample_line_rxByte (s : State) : (s.txSample).line.rxByte = s.line.rxByte := by simp [State.txSample]
@[simp] theorem State.txSample_line_rxLast (s : State) : (s.txSample).line.rxLast = s.line.rxLast := by simp [State.txSample]
@[simp] theorem State.txSample_line_slotB (s : State) : (s.txSample).line.slotB = s.line.slotB := by simp [State.txSample]
@[simp] theorem State.txSample_line_bHead (s : State) : (s.txSample).line.bHead = s.line.bHead := by simp [State.txSample]
@[simp] theorem State.txSample_line_bTail (s : State) : (s.txSample).line.bTail = s.line.bTail := by simp [State.txSample]
@[simp] theorem State.txSample_line_eTail (s : State) : (s.txSample).line.eTail = s.line.eTail := by simp [State.txSample]
@[simp] theorem State.txSample_line_lineOvf (s : State) : (s.txSample).line.lineOvf = s.line.lineOvf := by simp [State.txSample]
@[simp] theorem State.txSample_line_resp (s : State) : (s.txSample).line.resp = s.line.resp := by simp [State.txSample]
@[simp] theorem State.txSample_line_txSavedIe (s : State) : (s.txSample).line.txSavedIe = s.line.txSavedIe := by simp [State.txSample]
@[simp] theorem State.txSample_par (s : State) : (s.txSample).par = s.par := by simp [State.txSample]
@[simp] theorem State.txSample_ie (s : State) : (s.txSample).ie = s.ie := by simp [State.txSample]
@[simp] theorem State.txSample_reg (s : State) : (s.txSample).reg = s.reg := by simp [State.txSample]
@[simp] theorem State.txSample_action (s : State) : (s.txSample).action = s.action := by simp [State.txSample]

@[simp] theorem State.txClose_line_id (s : State) : (s.txClose).line.id = s.line.id := by simp [State.txClose]
@[simp] theorem State.txClose_line_cfg (s : State) : (s.txClose).line.cfg = s.line.cfg := by simp [State.txClose]
@[simp] theorem State.txClose_line_rxValid (s : State) : (s.txClose).line.rxValid = s.line.rxValid := by simp [State.txClose]
@[simp] theorem State.txClose_line_txValid (s : State) : (s.txClose).line.txValid = s.line.txValid := by simp [State.txClose]
@[simp] theorem State.txClose_line_halfDup (s : State) : (s.txClose).line.halfDup = s.line.halfDup := by simp [State.txClose]
@[simp] theorem State.txClose_line_cpos (s : State) : (s.txClose).line.cpos = s.line.cpos := by simp [State.txClose]
@[simp] theorem State.txClose_line_ctrl (s : State) : (s.txClose).line.ctrl = s.line.ctrl := by simp [State.txClose]
@[simp] theorem State.txClose_line_txenPin (s : State) : (s.txClose).line.txenPin = s.line.txenPin := by simp [State.txClose]
@[simp] theorem State.txClose_line_slot (s : State) : (s.txClose).line.slot = s.line.slot := by simp [State.txClose]
@[simp] theorem State.txClose_line_bitcyc (s : State) : (s.txClose).line.bitcyc = s.line.bitcyc := by simp [State.txClose]
@[simp] theorem State.txClose_line_rxPos (s : State) : (s.txClose).line.rxPos = s.line.rxPos := by simp [State.txClose]
@[simp] theorem State.txClose_line_rxByte (s : State) : (s.txClose).line.rxByte = s.line.rxByte := by simp [State.txClose]
@[simp] theorem State.txClose_line_rxLast (s : State) : (s.txClose).line.rxLast = s.line.rxLast := by simp [State.txClose]
@[simp] theorem State.txClose_line_slotB (s : State) : (s.txClose).line.slotB = s.line.slotB := by simp [State.txClose]
@[simp] theorem State.txClose_line_bHead (s : State) : (s.txClose).line.bHead = s.line.bHead := by simp [State.txClose]
@[simp] theorem State.txClose_line_bTail (s : State) : (s.txClose).line.bTail = s.line.bTail := by simp [State.txClose]
@[simp] theorem State.txClose_line_txPrev (s : State) : (s.txClose).line.txPrev = s.line.txPrev := by simp [State.txClose]
@[simp] theorem State.txClose_line_txSavedIe (s : State) : (s.txClose).line.txSavedIe = s.line.txSavedIe := by simp [State.txClose]
@[simp] theorem State.txClose_line_eTail (s : State) : (s.txClose).line.eTail = s.line.eTail := by simp [State.txClose]
@[simp] theorem State.txClose_line_lineOvf (s : State) : (s.txClose).line.lineOvf = s.line.lineOvf := by simp [State.txClose]
@[simp] theorem State.txClose_line_resp (s : State) : (s.txClose).line.resp = s.line.resp := by simp [State.txClose]
@[simp] theorem State.txClose_par (s : State) : (s.txClose).par = s.par := by simp [State.txClose]
@[simp] theorem State.txClose_reg (s : State) : (s.txClose).reg = s.reg := by simp [State.txClose]
@[simp] theorem State.txClose_action (s : State) : (s.txClose).action = s.action := by simp [State.txClose]

@[simp] theorem State.transmit_line_id (bytes : List Byte) (s : State) : (s.transmit bytes).line.id = s.line.id := by simp [State.transmit]
@[simp] theorem State.transmit_line_cfg (bytes : List Byte) (s : State) : (s.transmit bytes).line.cfg = s.line.cfg := by simp [State.transmit]
@[simp] theorem State.transmit_line_rxValid (bytes : List Byte) (s : State) : (s.transmit bytes).line.rxValid = s.line.rxValid := by simp [State.transmit]
@[simp] theorem State.transmit_line_txValid (bytes : List Byte) (s : State) : (s.transmit bytes).line.txValid = s.line.txValid := by simp [State.transmit]
@[simp] theorem State.transmit_line_halfDup (bytes : List Byte) (s : State) : (s.transmit bytes).line.halfDup = s.line.halfDup := by simp [State.transmit]
@[simp] theorem State.transmit_line_cpos (bytes : List Byte) (s : State) : (s.transmit bytes).line.cpos = s.line.cpos := by simp [State.transmit]
@[simp] theorem State.transmit_line_ctrl (bytes : List Byte) (s : State) : (s.transmit bytes).line.ctrl = s.line.ctrl := by simp [State.transmit]
@[simp] theorem State.transmit_line_txenPin (bytes : List Byte) (s : State) : (s.transmit bytes).line.txenPin = s.line.txenPin := by simp [State.transmit]
@[simp] theorem State.transmit_line_slot (bytes : List Byte) (s : State) : (s.transmit bytes).line.slot = s.line.slot := by simp [State.transmit]
@[simp] theorem State.transmit_line_bitcyc (bytes : List Byte) (s : State) : (s.transmit bytes).line.bitcyc = s.line.bitcyc := by simp [State.transmit]
@[simp] theorem State.transmit_line_rxPos (bytes : List Byte) (s : State) : (s.transmit bytes).line.rxPos = s.line.rxPos := by simp [State.transmit]
@[simp] theorem State.transmit_line_rxByte (bytes : List Byte) (s : State) : (s.transmit bytes).line.rxByte = s.line.rxByte := by simp [State.transmit]
@[simp] theorem State.transmit_line_rxLast (bytes : List Byte) (s : State) : (s.transmit bytes).line.rxLast = s.line.rxLast := by simp [State.transmit]
@[simp] theorem State.transmit_line_slotB (bytes : List Byte) (s : State) : (s.transmit bytes).line.slotB = s.line.slotB := by simp [State.transmit]
@[simp] theorem State.transmit_line_bHead (bytes : List Byte) (s : State) : (s.transmit bytes).line.bHead = s.line.bHead := by simp [State.transmit]
@[simp] theorem State.transmit_line_bTail (bytes : List Byte) (s : State) : (s.transmit bytes).line.bTail = s.line.bTail := by simp [State.transmit]
@[simp] theorem State.transmit_line_eTail (bytes : List Byte) (s : State) : (s.transmit bytes).line.eTail = s.line.eTail := by simp [State.transmit]
@[simp] theorem State.transmit_line_lineOvf (bytes : List Byte) (s : State) : (s.transmit bytes).line.lineOvf = s.line.lineOvf := by simp [State.transmit]
@[simp] theorem State.transmit_line_resp (bytes : List Byte) (s : State) : (s.transmit bytes).line.resp = s.line.resp := by simp [State.transmit]
@[simp] theorem State.transmit_par (bytes : List Byte) (s : State) : (s.transmit bytes).par = s.par := by simp [State.transmit]
@[simp] theorem State.transmit_reg (bytes : List Byte) (s : State) : (s.transmit bytes).reg = s.reg := by simp [State.transmit]
@[simp] theorem State.transmit_action (bytes : List Byte) (s : State) : (s.transmit bytes).action = s.action := by simp [State.transmit]


theorem State.foldOverflow_op (s : State) : OpRel s s.foldOverflow := by
  unfold State.foldOverflow
  split
  · exact (s.tick_op.trans (State.mapLine_op _ _)).trans (State.storeEOvf_op _ _)
  · exact s.tick_op

theorem State.recoverStop_op (s : State) : OpRel s s.recoverStop := by
  unfold State.recoverStop
  split
  · exact .refl s
  · exact s.tick_op.trans (State.mapLine_op _ _)

theorem State.drain_op (k : Nat) (s : State) : OpRel s (State.drain k s) := by
  induction k generalizing s with
  | zero => exact .refl s
  | succ k ih => exact ((State.storeETail_op _ s).trans (State.mapLine_op _ _)).trans (ih _)

theorem State.decodePass_op (s : State) : OpRel s s.decodePass := by
  unfold State.decodePass
  split
  · refine ((State.log_op .decodePass s).trans (State.tick_op _)).trans ?_
    unfold State.passFrom
    split
    · exact (State.foldOverflow_op _).trans (State.recoverStop_op _)
    · exact (State.foldOverflow_op _).trans (State.drain_op _ _)
  · exact .refl s

theorem State.delayUntil_op (d : Word) (s : State) : OpRel s (s.delayUntil d) := by
  refine ((State.log_op (.delayUntil d) s).trans (State.tick_op _)).trans (OpRel.trans ?_ (State.holdUntil_op _ _))
  unfold State.splitWait
  split
  · exact ((State.writeIe_op _ _).trans (State.holdUntil_op _ _)).trans (State.writeIe_op _ _)
  · exact .refl _

theorem State.txSegment_op (v : Level) (dur : Word) (s : State) : OpRel s (s.txSegment v dur) :=
  (((State.log_op _ s).trans (State.pinWrite_op _ _ _)).trans (State.mapLine_op _ _)).trans (State.delayUntil_op _ _)

theorem State.flushPair_op (s : State) : OpRel s s.flushPair := by
  have h1 : OpRel s s.flushHigh := by
    unfold State.flushHigh; split
    · exact .refl s
    · exact State.txSegment_op _ _ _
  have h2 : OpRel s.flushHigh s.flushHigh.flushLow := by
    unfold State.flushLow; split
    · exact .refl _
    · exact State.txSegment_op _ _ _
  exact (h1.trans h2).trans (State.mapLine_op _ _)

theorem State.txBit_op (v : Level) (s : State) : OpRel s (s.txBit v) := by
  unfold State.txBit
  split
  · exact State.mapLine_op _ _
  · exact s.flushPair_op.trans (State.mapLine_op _ _)

theorem State.foldl_txBit_op (vs : List Level) (s : State) : OpRel s (vs.foldl State.txBit s) := by
  induction vs generalizing s with
  | nil => exact .refl s
  | cons v vs ih => exact (State.txBit_op v s).trans (ih _)

theorem State.driveTxen_op (v : Level) (s : State) : OpRel s (s.driveTxen v) := by
  unfold State.driveTxen
  split
  · exact State.pinWrite_op _ _ _
  · exact .refl s

theorem State.txMask_op (s : State) : OpRel s s.txMask := by
  unfold State.txMask
  split
  · exact State.mapLine_op _ _
  · exact (State.mapLine_op _ _).trans (State.writeIe_op _ _)

theorem State.txSample_op (s : State) : OpRel s s.txSample := s.tick_op.trans (State.mapLine_op _ _)

theorem State.txClose_op (s : State) : OpRel s s.txClose := s.flushPair_op.trans (State.writeIe_op _ _)

theorem State.transmit_op (bytes : List Byte) (s : State) : OpRel s (s.transmit bytes) :=
  (((((State.driveTxen_op _ s).trans (State.txMask_op _)).trans (State.txSample_op _)).trans
    (State.foldl_txBit_op _ _)).trans (State.txClose_op _)).trans (State.driveTxen_op _ _)

end Sys2Proof.Machine
end

