-- ==== Sys2Proof/Laws/Invariant.lean ====
section
/-! SUPPORT. How the invariant travels: along a turn, and along a foreground operation that keeps the control part of its
line and the bounds of its rings. -/

namespace Sys2Proof.Machine

/-! ### One line -/

/-- What keeps a line's invariant: the control part is as before, and indices and storage stay in bounds. -/
structure LineKeep (l m : Line) : Prop where
  control : m.control = l.control
  eHead_lt : l.eHead < l.cfg.ne → m.eHead < l.cfg.ne
  eTail_lt : l.eTail < l.cfg.ne → m.eTail < l.cfg.ne
  bHead_lt : l.bHead < l.cfg.nb → m.bHead < l.cfg.nb
  bTail_lt : l.bTail < l.cfg.nb → m.bTail < l.cfg.nb
  slotE_wf : l.slotE.wf unwrittenEdge = true → m.slotE.wf unwrittenEdge = true
  slotB_wf : l.slotB.wf unwrittenByte = true → m.slotB.wf unwrittenByte = true

theorem LineKeep.refl (l : Line) : LineKeep l l :=
  ⟨rfl, fun h => h, fun h => h, fun h => h, fun h => h, fun h => h, fun h => h⟩

theorem LineKeep.cfg_eq {l m : Line} (h : LineKeep l m) : m.cfg = l.cfg := by
  have e := h.control
  simp only [Line.control, Prod.mk.injEq] at e
  exact e.2.1

theorem LineKeep.id_eq {l m : Line} (h : LineKeep l m) : m.id = l.id := by
  have e := h.control
  simp only [Line.control, Prod.mk.injEq] at e
  exact e.1

theorem LineKeep.trans {l m n : Line} (h : LineKeep l m) (k : LineKeep m n) : LineKeep l n := by
  have hc := h.cfg_eq
  refine ⟨k.control.trans h.control, fun x => ?_, fun x => ?_, fun x => ?_, fun x => ?_,
    fun w => k.slotE_wf (h.slotE_wf w), fun w => k.slotB_wf (h.slotB_wf w)⟩
  · have := k.eHead_lt (by rw [hc]; exact h.eHead_lt x); rwa [hc] at this
  · have := k.eTail_lt (by rw [hc]; exact h.eTail_lt x); rwa [hc] at this
  · have := k.bHead_lt (by rw [hc]; exact h.bHead_lt x); rwa [hc] at this
  · have := k.bTail_lt (by rw [hc]; exact h.bTail_lt x); rwa [hc] at this

/-- A change of nothing the invariant speaks of. -/
theorem LineKeep.then_eq {l m n : Line} (k : LineKeep l m) (h : n.control = m.control)
    (he : n.eHead = m.eHead) (ht : n.eTail = m.eTail) (hr : n.byteRing = m.byteRing) (hs : n.slotE = m.slotE) :
    LineKeep l n := by
  simp only [Line.byteRing, Prod.mk.injEq] at hr
  obtain ⟨h1, h2, h3⟩ := hr
  exact ⟨h.trans k.control, by rw [he]; exact k.eHead_lt, by rw [ht]; exact k.eTail_lt, by rw [h2]; exact k.bHead_lt,
    by rw [h3]; exact k.bTail_lt, by rw [hs]; exact k.slotE_wf, by rw [h1]; exact k.slotB_wf⟩

theorem LineKeep.of_eq {l n : Line} (h : n.control = l.control) (he : n.eHead = l.eHead) (ht : n.eTail = l.eTail)
    (hr : n.byteRing = l.byteRing) (hs : n.slotE = l.slotE) : LineKeep l n :=
  (LineKeep.refl l).then_eq h he ht hr hs

theorem RxPos.code_le (p : RxPos) : p.code.toNat ≤ 9 := by
  cases p with
  | data q => revert q; decide
  | start => decide
  | idle => decide

theorem LineKeep.inv {l m : Line} {reg : List (Option Nat)} (k : LineKeep l m) (h : LineInv reg l) : LineInv reg m := by
  have hc := k.cfg_eq
  have e := k.control
  simp only [Line.control, Prod.mk.injEq] at e
  obtain ⟨e1, -, e3, e4, e5, -, e7, e8, e9, e10⟩ := e
  constructor
  · rw [hc]; exact h.legal
  · rw [e3, e4, e5, hc]; exact h.halfDup_eq
  · rw [hc]; exact k.eHead_lt h.eHead_lt
  · rw [hc]; exact k.eTail_lt h.eTail_lt
  · rw [hc]; exact k.bHead_lt h.bHead_lt
  · rw [hc]; exact k.bTail_lt h.bTail_lt
  · exact RxPos.code_le _
  · rw [e7, e5]; exact h.txDir_half
  · rw [e7, e5]; exact h.one_direction
  · rw [e7, e9]; exact h.slot_started
  · rw [e9, e1]; exact h.slot_reg
  · rw [e7, e3]; exact h.armed_started
  · rw [e7, e10]; exact h.period
  · rw [e7, e8, hc]; exact h.txen_apart
  · exact k.slotE_wf h.slotE_wf
  · exact k.slotB_wf h.slotB_wf

theorem LineRel.keep {l m : Line} (r : LineRel l m) : LineKeep l m := by
  have e := r.foreground
  simp only [Line.foreground, Prod.mk.injEq] at e
  refine ⟨e.1, fun x => ?_, fun x => ?_, fun x => ?_, fun x => ?_, r.slotE_wf, fun w => ?_⟩
  · exact r.eHead_lt x
  · rw [r.eTail_eq]; exact x
  · rw [r.bHead_eq]; exact x
  · rw [r.bTail_eq]; exact x
  · rw [r.slotB_eq]; exact w

theorem LineRel.inv {l m : Line} {reg : List (Option Nat)} (r : LineRel l m) (h : LineInv reg l) : LineInv reg m :=
  r.keep.inv h

/-! ### Operations of one line -/

theorem ring_next_lt {i n : Nat} (h : i < n) : (i + 1) % n < n := Nat.mod_lt _ (Nat.lt_of_le_of_lt (Nat.zero_le _) h)

theorem Line.bPush_keep (b : Byte) (l : Line) : LineKeep l (l.bPush b) := by
  unfold Line.bPush
  split
  · exact .of_eq rfl rfl rfl rfl rfl
  · exact ⟨rfl, fun h => h, fun h => h, fun h => ring_next_lt h, fun h => h, fun w => w, fun w => Memory.write_wf _ _ w⟩

theorem Line.complete_keep (b : Byte) (v : Level) (l : Line) : LineKeep l (l.complete b v) := by
  have k := l.bPush_keep b
  exact ⟨k.control, k.eHead_lt, k.eTail_lt, k.bHead_lt, k.bTail_lt, k.slotE_wf, k.slotB_wf⟩

theorem Line.assemble_keep (p n : Nat) (v u : Level) (l : Line) : LineKeep l (l.assemble p n v u) := by
  unfold Line.assemble
  split
  · exact .of_eq rfl rfl rfl rfl rfl
  · exact Line.complete_keep _ _ _

theorem Line.stepPos_keep (n : Nat) (v u : Level) (l : Line) : LineKeep l (l.stepPos n v u) := by
  unfold Line.stepPos
  split
  · split
    · exact .refl l
    · exact .of_eq rfl rfl rfl rfl rfl
  · exact Line.assemble_keep _ _ _ _ _
  · exact Line.assemble_keep _ _ _ _ _

theorem Line.processEdge_keep (w : Word) (l : Line) : LineKeep l (l.processEdge w) := by
  unfold Line.processEdge
  split
  · exact .of_eq rfl rfl rfl rfl rfl
  · have k := Line.stepPos_keep (periods (edgeDelta l.rxLast w l.bitcyc) l.bitcyc) (logical l.cfg (lvl l.rxLast))
      (logical l.cfg (lvl w)) { l.log (.processEdge w) with rxLast := w }
    exact ⟨k.control, k.eHead_lt, k.eTail_lt, k.bHead_lt, k.bTail_lt, k.slotE_wf, k.slotB_wf⟩

theorem Line.recover_keep (now : Word) (l : Line) : LineKeep l (l.recover now) := by
  unfold Line.recover
  split
  · exact Line.processEdge_keep _ _
  · exact .refl l

theorem Line.bDrop_keep (l : Line) : LineKeep l l.bDrop := by
  unfold Line.bDrop
  split
  · exact .refl l
  · exact ⟨rfl, fun h => h, fun h => h, fun h => h, fun h => ring_next_lt h, fun w => w, fun w => w⟩

/-! ### Operations of the machine on the active line -/

theorem State.tick_keep (s : State) : LineKeep s.line s.tick.line := s.tick_rel.line.keep

theorem State.setPin_keep (p : Pin) (ps : PinState) (s : State) : LineKeep s.line (s.setPin p ps).line :=
  (s.setPin_line_rel p ps).keep

theorem State.foldOverflow_keep (s : State) : LineKeep s.line s.foldOverflow.line := by
  unfold State.foldOverflow
  split
  · refine s.tick_keep.trans (LineKeep.trans (m := { s.tick.line with lineOvf := true }) (.of_eq rfl rfl rfl rfl rfl) ?_)
    have k := State.tick_keep (s.loadEOvf.2.mapLine fun l => { l with lineOvf := true })
    exact ⟨k.control, k.eHead_lt, k.eTail_lt, k.bHead_lt, k.bTail_lt, k.slotE_wf, k.slotB_wf⟩
  · exact s.tick_keep

theorem State.recoverStop_keep (s : State) : LineKeep s.line s.recoverStop.line := by
  unfold State.recoverStop
  split
  · exact .refl _
  · exact s.tick_keep.trans (Line.recover_keep _ _)

theorem State.storeETail_keep {t : Nat} {s : State} (h : s.line.eTail < s.line.cfg.ne → t < s.line.cfg.ne) :
    LineKeep s.line (s.storeETail t).line := by
  have k := s.tick_keep
  exact ⟨k.control, k.eHead_lt, h, k.bHead_lt, k.bTail_lt, k.slotE_wf, k.slotB_wf⟩

theorem State.drain_keep (k : Nat) (s : State) : LineKeep s.line (State.drain k s).line := by
  induction k generalizing s with
  | zero => exact .refl _
  | succ k ih =>
    unfold State.drain
    refine LineKeep.trans ?_ (ih _)
    exact (State.storeETail_keep fun h => ring_next_lt h).trans (Line.processEdge_keep _ _)

theorem State.decodePass_keep (s : State) : LineKeep s.line s.decodePass.line := by
  unfold State.decodePass
  split
  · have h0 : LineKeep s.line (s.log .decodePass).line := .of_eq rfl rfl rfl rfl rfl
    refine (h0.trans (State.tick_keep _)).trans ?_
    unfold State.passFrom
    split
    · exact (State.foldOverflow_keep _).trans (State.recoverStop_keep _)
    · exact (State.foldOverflow_keep _).trans (State.drain_keep _ _)
  · exact .refl _

theorem State.pinMode_keep (p : Pin) (m : PinDir) (s : State) : LineKeep s.line (s.pinMode p m).line :=
  s.tick_keep.trans (State.setPin_keep _ _ _)

theorem State.pinWrite_keep (p : Pin) (v : Level) (s : State) : LineKeep s.line (s.pinWrite p v).line := by
  unfold State.pinWrite
  exact (s.tick_keep.trans (State.setPin_keep _ _ _)).then_eq rfl rfl rfl rfl rfl

theorem State.writeIe_keep (b : Bool) (s : State) : LineKeep s.line (s.writeIe b).line := s.tick_keep

theorem State.holdUntil_keep (m : Word → Nat) (s : State) : LineKeep s.line (s.holdUntil m).line := s.tick_keep

theorem State.splitWait_keep (d now : Word) (s : State) : LineKeep s.line (s.splitWait d now).line := by
  unfold State.splitWait
  split
  · unfold State.bulkWait
    exact ((State.writeIe_keep _ s).trans (State.holdUntil_keep _ _)).trans (State.writeIe_keep _ _)
  · exact .refl _

theorem State.log_keep (e : Event) (s : State) : LineKeep s.line (s.log e).line := .of_eq rfl rfl rfl rfl rfl

theorem State.delayUntil_keep (d : Word) (s : State) : LineKeep s.line (s.delayUntil d).line := by
  unfold State.delayUntil
  refine LineKeep.trans ?_ (State.holdUntil_keep _ _)
  refine LineKeep.trans ?_ (State.splitWait_keep _ _ _)
  exact (State.log_keep _ s).trans (State.tick_keep _)

theorem State.openSegment_keep (v : Level) (dur : Word) (s : State) : LineKeep s.line (s.openSegment v dur).line := by
  unfold State.openSegment
  exact ((State.log_keep _ s).trans (State.pinWrite_keep _ _ _)).then_eq rfl rfl rfl rfl rfl

theorem State.txSegment_keep (v : Level) (dur : Word) (s : State) : LineKeep s.line (s.txSegment v dur).line := by
  unfold State.txSegment
  exact (State.openSegment_keep v dur s).trans (State.delayUntil_keep _ _)

theorem State.flushPair_keep (s : State) : LineKeep s.line s.flushPair.line := by
  have h1 : LineKeep s.line s.flushHigh.line := by
    unfold State.flushHigh; split
    · exact .refl _
    · exact State.txSegment_keep _ _ _
  have h2 : LineKeep s.flushHigh.line s.flushHigh.flushLow.line := by
    unfold State.flushLow; split
    · exact .refl _
    · exact State.txSegment_keep _ _ _
  unfold State.flushPair
  exact (h1.trans h2).then_eq rfl rfl rfl rfl rfl

theorem Line.addPeriod_keep (v : Level) (l : Line) : LineKeep l (l.addPeriod v) := by
  unfold Line.addPeriod
  split <;> exact .of_eq rfl rfl rfl rfl rfl

theorem State.foldl_txBit_keep (vs : List Level) (s : State) : LineKeep s.line (vs.foldl State.txBit s).line := by
  induction vs generalizing s with
  | nil => exact .refl _
  | cons v vs ih =>
    refine LineKeep.trans ?_ (ih _)
    unfold State.txBit
    split
    · exact Line.addPeriod_keep _ _
    · exact s.flushPair_keep.trans (Line.addPeriod_keep _ _)

theorem State.driveTxen_keep (v : Level) (s : State) : LineKeep s.line (s.driveTxen v).line := by
  unfold State.driveTxen
  split
  · exact State.pinWrite_keep _ _ _
  · exact .refl _

theorem State.transmit_keep (bytes : List Byte) (s : State) : LineKeep s.line (s.transmit bytes).line := by
  have hm : ∀ u : State, LineKeep u.line u.txMask.line := by
    intro u
    have h0 : LineKeep u.line (u.mapLine fun l => { l with txSavedIe := u.ie }).line := .of_eq rfl rfl rfl rfl rfl
    unfold State.txMask
    split
    · exact h0
    · exact h0.trans (State.writeIe_keep _ _)
  have hs : ∀ u : State, LineKeep u.line u.txSample.line := by
    intro u
    unfold State.txSample
    exact u.tick_keep.then_eq rfl rfl rfl rfl rfl
  have hc : ∀ u : State, LineKeep u.line u.txClose.line := by
    intro u
    unfold State.txClose
    exact u.flushPair_keep.trans (State.writeIe_keep _ _)
  unfold State.transmit
  exact (((((State.driveTxen_keep _ _).trans (hm _)).trans (hs _)).trans (State.foldl_txBit_keep _ _)).trans
    (hc _)).trans (State.driveTxen_keep _ _)

/-! ### The whole machine -/

theorem forall₂_ids {as bs : List Line} (h : List.Forall₂ LineRel as bs) : bs.map (·.id) = as.map (·.id) := by
  induction h with
  | nil => rfl
  | cons r _ ih => simp [r.id_eq, ih]

theorem forall₂_length {as bs : List Line} (h : List.Forall₂ LineRel as bs) : bs.length = as.length :=
  h.length_eq.symm

theorem forall₂_mem {as bs : List Line} (h : List.Forall₂ LineRel as bs) {m : Line} (hm : m ∈ bs) :
    ∃ l ∈ as, LineRel l m := by
  induction h with
  | nil => cases hm
  | @cons a b as bs r _ ih =>
    rcases List.mem_cons.mp hm with rfl | hm
    · exact ⟨a, by simp, r⟩
    · obtain ⟨l, hl, k⟩ := ih hm
      exact ⟨l, by simp [hl], k⟩

theorem forall₂_cfgs {as bs : List Line} (h : List.Forall₂ LineRel as bs) : bs.map (·.cfg) = as.map (·.cfg) := by
  induction h with
  | nil => rfl
  | cons r _ ih => simp [r.cfg_eq, ih]

theorem pins_apart_map (ls : List Line) :
    (ls.Pairwise fun l m => cfgShares l.cfg m.cfg = false) ↔
      (ls.map (·.cfg)).Pairwise fun c d => cfgShares c d = false := by
  rw [List.pairwise_map]

/-- A foreground operation of the active line keeps the invariant if it keeps that line's, the other lines' registry
entries, and the names and configuration. -/
theorem StateInv.op {s t : State} (h : StateInv s) (r : OpRel s t) (hid : t.line.id = s.line.id)
    (hcfg : t.line.cfg = s.line.cfg) (hl : LineInv t.reg t.line) (hlen : t.reg.length = s.reg.length)
    (hreg : ∀ l ∈ s.others, l.slot ≠ 0xFF → t.reg[l.slot.toNat]? = s.reg[l.slot.toNat]?) : StateInv t := by
  have hids : t.lines.map (·.id) = s.lines.map (·.id) := by
    simp only [State.lines, List.map_cons, hid, forall₂_ids r.others]
  have hlen' : t.lines.length = s.lines.length := by
    simp only [State.lines, List.length_cons, forall₂_length r.others]
  have hcfgs : t.lines.map (·.cfg) = s.lines.map (·.cfg) := by
    simp only [State.lines, List.map_cons, hcfg, forall₂_cfgs r.others]
  refine ⟨?_, ?_, ?_, ?_, ?_, r.pins_wf h.pins_wf⟩
  · intro m hm
    rcases List.mem_cons.mp hm with rfl | hm
    · exact hl
    · obtain ⟨l, hls, k⟩ := forall₂_mem r.others hm
      have hi := k.inv (h.line_inv l (by simp [State.lines, hls]))
      refine { hi with slot_reg := fun hs => ?_ }
      have hs' : l.slot ≠ 0xFF := by rw [← k.slot_eq]; exact hs
      rw [k.slot_eq, hreg l hls hs', ← k.slot_eq]
      exact hi.slot_reg hs
  · rw [hids]; exact h.ids_nodup
  · intro m hm
    have : m.id ∈ t.lines.map (·.id) := List.mem_map_of_mem hm
    rw [hids] at this
    obtain ⟨l, hl', e⟩ := List.mem_map.mp this
    rw [hlen', ← e]
    exact h.ids_lt l hl'
  · rw [hlen]; exact h.slots_le
  · rw [pins_apart_map, hcfgs, ← pins_apart_map]; exact h.pins_apart

/-- A foreground operation that keeps the registry and `LineKeep`s its line keeps the invariant. -/
theorem StateInv.keep {s t : State} (h : StateInv s) (r : OpRel s t) (hreg : t.reg = s.reg)
    (k : LineKeep s.line t.line) : StateInv t := by
  refine h.op r k.id_eq k.cfg_eq ?_ (by rw [hreg]) (fun l _ _ => by rw [hreg])
  rw [hreg]
  exact k.inv (h.line_inv _ (by simp [State.lines]))

/-- A turn keeps the invariant. -/
theorem StateInv.tick {s : State} (h : StateInv s) : StateInv s.tick :=
  h.keep s.tick_op s.tick_rel.reg s.tick_rel.line.keep

end Sys2Proof.Machine
end

