-- ==== Sys2Proof/Laws/Rings.lean ====
section
/-! SUPPORT. The two rings as queues: what a push, a pop and a turn of the environment do to the elements held. -/

namespace Sys2Proof.Machine

/-! ### Index arithmetic -/

theorem succ_mod_eq {i n : Nat} (h : i < n) : (i + 1) % n = if i + 1 = n then 0 else i + 1 := by
  split
  · rename_i e; rw [e, Nat.mod_self]
  · exact Nat.mod_eq_of_lt (by omega)

theorem ringCount_eq {h t n : Nat} (hh : h < n) (ht : t < n) :
    ringCount h t n = if t ≤ h then h - t else h + n - t := by
  unfold ringCount
  split
  · rw [show h + n - t = h - t + n by omega, Nat.add_mod_right, Nat.mod_eq_of_lt (by omega)]
  · exact Nat.mod_eq_of_lt (by omega)

theorem ringCount_lt {h t n : Nat} (hn : 0 < n) : ringCount h t n < n := Nat.mod_lt _ hn

theorem ringCount_self (h n : Nat) : ringCount h h n = 0 := by
  unfold ringCount
  rw [Nat.add_sub_cancel_left, Nat.mod_self]

theorem ringCount_eq_zero {h t n : Nat} (hh : h < n) (ht : t < n) : ringCount h t n = 0 ↔ h = t := by
  rw [ringCount_eq hh ht]
  split <;> omega

theorem ringCount_push {h t n : Nat} (hh : h < n) (ht : t < n) (hne : (h + 1) % n ≠ t) :
    ringCount ((h + 1) % n) t n = ringCount h t n + 1 := by
  have hs := succ_mod_eq hh
  rw [ringCount_eq (ring_next_lt hh) ht, ringCount_eq hh ht]
  rw [hs] at hne ⊢
  split at hne <;> split_ifs <;> omega

theorem ringCount_pop {h t n : Nat} (hh : h < n) (ht : t < n) (hne : h ≠ t) :
    ringCount h t n = ringCount h ((t + 1) % n) n + 1 := by
  have hs := succ_mod_eq ht
  rw [ringCount_eq hh (ring_next_lt ht), ringCount_eq hh ht]
  rw [hs]
  split_ifs <;> omega

theorem ringCount_tail {h t n : Nat} (hh : h < n) (ht : t < n) : (t + ringCount h t n) % n = h := by
  rw [ringCount_eq hh ht]
  split
  · rw [show t + (h - t) = h by omega, Nat.mod_eq_of_lt hh]
  · rw [show t + (h + n - t) = h + n by omega, Nat.add_mod_right, Nat.mod_eq_of_lt hh]

theorem ring_full {h t n : Nat} (hh : h < n) (ht : t < n) : (h + 1) % n = t ↔ ringCount h t n = n - 1 := by
  rw [ringCount_eq hh ht, succ_mod_eq hh]
  split_ifs <;> omega

/-- The `k`-th element held is not in the slot a push writes. -/
theorem ring_slot_ne {h t n k : Nat} (hh : h < n) (ht : t < n) (hk : k < ringCount h t n) : (t + k) % n ≠ h := by
  rw [ringCount_eq hh ht] at hk
  intro e
  by_cases hw : t + k < n
  · rw [Nat.mod_eq_of_lt hw] at e
    split at hk <;> omega
  · have : (t + k) % n = t + k - n := by
      rw [Nat.mod_eq_sub_mod (by omega), Nat.mod_eq_of_lt]
      split at hk <;> omega
    rw [this] at e
    split at hk <;> omega

/-! ### The elements held -/

section

variable {α : Type} [DecidableEq α] {dflt : α}

/-- A push that finds room adds its element behind the others. -/
theorem ring_push {m : Memory α} {h t n : Nat} (v : α) (hh : h < n) (ht : t < n) (hne : (h + 1) % n ≠ t)
    (hw : m.wf dflt = true) :
    ((List.range (ringCount ((h + 1) % n) t n)).map fun k => (m.write dflt h v).read dflt ((t + k) % n)) =
      ((List.range (ringCount h t n)).map fun k => m.read dflt ((t + k) % n)) ++ [v] := by
  rw [ringCount_push hh ht hne, List.range_succ, List.map_append]
  congr 1
  · apply List.map_congr_left
    intro k hk
    exact Memory.read_write_ne _ _ (ring_slot_ne hh ht (List.mem_range.mp hk))
  · simp only [List.map_cons, List.map_nil, ringCount_tail hh ht, Memory.read_write_same _ _ hw]

omit [DecidableEq α] in
/-- A pop takes the oldest element. -/
theorem ring_pop (m : Memory α) {h t n : Nat} (hh : h < n) (ht : t < n) (hne : h ≠ t) :
    ((List.range (ringCount h t n)).map fun k => m.read dflt ((t + k) % n)) =
      m.read dflt t :: ((List.range (ringCount h ((t + 1) % n) n)).map fun k => m.read dflt (((t + 1) % n + k) % n)) := by
  rw [ringCount_pop hh ht hne, List.range_succ_eq_map, List.map_cons, List.map_map]
  congr 1
  · rw [Nat.add_zero, Nat.mod_eq_of_lt ht]
  · apply List.map_congr_left
    intro k _
    simp only [Function.comp, Nat.mod_add_mod, show t + (k + 1) = t + 1 + k by omega]

end

/-! ### The edge ring -/

/-- What makes the edge ring a queue: indices in range and storage in its canonical form. -/
structure EdgeRingOk (l : Line) : Prop where
  eHead_lt : l.eHead < l.cfg.ne
  eTail_lt : l.eTail < l.cfg.ne
  slotE_wf : l.slotE.wf unwrittenEdge = true

theorem LineInv.edgeRing {reg : List (Option Nat)} {l : Line} (h : LineInv reg l) : EdgeRingOk l :=
  ⟨h.eHead_lt, h.eTail_lt, h.slotE_wf⟩

theorem Line.heldEdges_length (l : Line) : l.heldEdges.length = l.eCount := by simp [Line.heldEdges]

theorem Line.heldBytes_length (l : Line) : l.heldBytes.length = l.bCount := by simp [Line.heldBytes]

theorem Line.heldEdges_ePush {l : Line} (w : Word) (h : EdgeRingOk l) :
    (l.ePush w).heldEdges = if l.eNext = l.eTail then l.heldEdges else l.heldEdges ++ [w] := by
  unfold Line.ePush
  split
  · rfl
  · rename_i hne
    exact ring_push w h.eHead_lt h.eTail_lt hne h.slotE_wf

theorem Line.heldEdges_pop {l : Line} (h : EdgeRingOk l) (hne : l.eHead ≠ l.eTail) :
    l.heldEdges = l.eFront :: ({ l with eTail := (l.eTail + 1) % l.cfg.ne } : Line).heldEdges :=
  ring_pop l.slotE h.eHead_lt h.eTail_lt hne

theorem Line.heldEdges_eq_nil {l : Line} (h : EdgeRingOk l) : l.heldEdges = [] ↔ l.eHead = l.eTail := by
  rw [← List.length_eq_zero_iff, l.heldEdges_length]
  exact ringCount_eq_zero h.eHead_lt h.eTail_lt

theorem Line.ePush_ring {l : Line} (w : Word) (h : EdgeRingOk l) : EdgeRingOk (l.ePush w) := by
  refine ⟨?_, ?_, l.ePush_slotE_wf w h.slotE_wf⟩ <;> unfold Line.ePush <;> split
  · exact h.eHead_lt
  · exact ring_next_lt h.eHead_lt
  · exact h.eTail_lt
  · exact h.eTail_lt

/-! ### What the other agents do to the edge ring: they only add words behind those held -/

/-- The edge ring after some captures: a queue still, and with words added behind. -/
def EdgesGrow (l m : Line) : Prop := EdgeRingOk l → EdgeRingOk m ∧ ∃ ws, m.heldEdges = l.heldEdges ++ ws

theorem EdgesGrow.refl (l : Line) : EdgesGrow l l := fun h => ⟨h, [], by simp⟩

theorem EdgesGrow.trans {l m n : Line} (h : EdgesGrow l m) (k : EdgesGrow m n) : EdgesGrow l n := by
  intro o
  obtain ⟨o1, ws, e1⟩ := h o
  obtain ⟨o2, us, e2⟩ := k o1
  exact ⟨o2, ws ++ us, by rw [e2, e1, List.append_assoc]⟩

/-- A change of anything but the edge ring. -/
theorem EdgesGrow.of_eq {l m : Line} (hc : m.cfg = l.cfg) (hs : m.slotE = l.slotE) (hh : m.eHead = l.eHead)
    (ht : m.eTail = l.eTail) : EdgesGrow l m := by
  intro o
  refine ⟨⟨by rw [hh, hc]; exact o.eHead_lt, by rw [ht, hc]; exact o.eTail_lt, by rw [hs]; exact o.slotE_wf⟩, [], ?_⟩
  simp only [Line.heldEdges, Line.eCount, hc, hs, hh, ht, List.append_nil]

theorem Line.ePush_grow (w : Word) (l : Line) : EdgesGrow l (l.ePush w) := by
  intro o
  refine ⟨Line.ePush_ring w o, ?_⟩
  rw [Line.heldEdges_ePush w o]
  split
  · exact ⟨[], by simp⟩
  · exact ⟨[w], rfl⟩

theorem State.enterIsr_grow (s : State) (l : Line) : EdgesGrow l (s.enterIsr l) := by
  unfold State.enterIsr Line.capture
  have h0 : EdgesGrow l (({ l with pendRx := false, capCycle := some s.cycle } : Line).log
      (.edgeCapture (mkEdge s.ccount (s.pinLevel l.id l.cfg.rxPin)))) := .of_eq rfl rfl rfl rfl
  exact h0.trans (Line.ePush_grow _ _)

theorem Line.notePinEdge_grow (p : Pin) (old new : PinState) (l : Line) : EdgesGrow l (l.notePinEdge p old new) := by
  unfold Line.notePinEdge
  split <;> exact .of_eq rfl rfl rfl rfl

theorem State.setPin_grow (p : Pin) (ps : PinState) (s : State) : EdgesGrow s.line (s.setPin p ps).line :=
  Line.notePinEdge_grow _ _ _ _

theorem State.takeInterrupt_grow (slot : Nat) (s : State) : EdgesGrow s.line (s.takeInterrupt slot).line := by
  unfold State.takeInterrupt
  split
  · simp only [State.mapLines_line]
    split
    · exact State.enterIsr_grow _ _
    · exact .refl _
  · exact .refl _

theorem State.move_grow (s : State) (m : Move) : EdgesGrow s.line (s.move m).line := by
  unfold State.move
  split
  · unfold State.envMove
    split
    · exact .of_eq rfl rfl rfl rfl
    · exact State.setPin_grow _ _ _
    · exact State.takeInterrupt_grow _ _
  · simp only [State.mapLines_line]
    split <;> exact .of_eq rfl rfl rfl rfl
  · exact .of_eq rfl rfl rfl rfl

theorem State.moves_grow (ms : List Move) (s : State) : EdgesGrow s.line (ms.foldl State.move s).line := by
  induction ms generalizing s with
  | nil => exact .refl _
  | cons m ms ih => exact (State.move_grow s m).trans (ih _)

theorem State.dropTurn_line (s : State) : s.dropTurn.line = s.line := by
  unfold State.dropTurn
  split <;> rfl

/-- A turn only adds edge words behind those held. -/
theorem State.tick_grow (s : State) : EdgesGrow s.line s.tick.line := by
  have h := State.moves_grow s.nextTurn s.dropTurn
  rw [State.dropTurn_line] at h
  exact h

/-! ### The byte ring -/

theorem Line.heldBytes_bPush {l : Line} (b : Byte) (hh : l.bHead < l.cfg.nb) (ht : l.bTail < l.cfg.nb)
    (hw : l.slotB.wf unwrittenByte = true) :
    (l.bPush b).heldBytes = if l.bNext = l.bTail then l.heldBytes else l.heldBytes ++ [b] := by
  unfold Line.bPush
  split
  · rfl
  · rename_i hne
    exact ring_push b hh ht hne hw

theorem Line.heldBytes_eq_nil {l : Line} (hh : l.bHead < l.cfg.nb) (ht : l.bTail < l.cfg.nb) :
    l.heldBytes = [] ↔ l.bHead = l.bTail := by
  rw [← List.length_eq_zero_iff, l.heldBytes_length]
  exact ringCount_eq_zero hh ht

/-- What READ does to a byte ring that holds something. -/
theorem Line.heldBytes_bDrop {l : Line} (hh : l.bHead < l.cfg.nb) (ht : l.bTail < l.cfg.nb) (hne : l.bHead ≠ l.bTail) :
    l.heldBytes = l.slotB.read unwrittenByte l.bTail :: l.bDrop.heldBytes := by
  unfold Line.bDrop
  rw [if_neg hne]
  exact ring_pop l.slotB hh ht hne

end Sys2Proof.Machine
end

