-- ==== Sys2Proof/Laws/Passes.lean ====
section
/-! SUPPORT. The decode pass: what it reads of a line, and that the other agents' turns in it do not change what it
makes of the edges it took. -/

namespace Sys2Proof.Machine

/-- Two lines the decoder cannot tell apart, but for `LINE_OVF`, which the second has set if `b`. -/
structure SameRx (b : Bool) (l m : Line) : Prop where
  cfg : m.cfg = l.cfg
  bitcyc : m.bitcyc = l.bitcyc
  rxPos : m.rxPos = l.rxPos
  rxByte : m.rxByte = l.rxByte
  rxLast : m.rxLast = l.rxLast
  slotB : m.slotB = l.slotB
  bHead : m.bHead = l.bHead
  bTail : m.bTail = l.bTail
  lineOvf : m.lineOvf = (l.lineOvf || b)

theorem SameRx.refl (l : Line) : SameRx false l l := ⟨rfl, rfl, rfl, rfl, rfl, rfl, rfl, rfl, by simp⟩

theorem SameRx.trans {b c : Bool} {l m n : Line} (h : SameRx b l m) (k : SameRx c m n) : SameRx (b || c) l n :=
  ⟨k.cfg.trans h.cfg, k.bitcyc.trans h.bitcyc, k.rxPos.trans h.rxPos, k.rxByte.trans h.rxByte,
    k.rxLast.trans h.rxLast, k.slotB.trans h.slotB, k.bHead.trans h.bHead, k.bTail.trans h.bTail,
    by rw [k.lineOvf, h.lineOvf, Bool.or_assoc]⟩

/-- The environment, and the foreground outside the decoder's fields, leave the decoder's view. -/
theorem LineRel.sameRx {l m : Line} (h : LineRel l m) : SameRx false l m :=
  ⟨h.cfg_eq, h.bitcyc_eq, h.rxPos_eq, h.rxByte_eq, h.rxLast_eq, h.slotB_eq, h.bHead_eq, h.bTail_eq,
    by rw [h.lineOvf_eq, Bool.or_false]⟩

theorem SameRx.bPush {b : Bool} {l m : Line} (h : SameRx b l m) (x : Byte) : SameRx b (l.bPush x) (m.bPush x) := by
  have hn : m.bNext = l.bNext := by unfold Line.bNext; rw [h.cfg, h.bHead]
  have e : m.bNext = m.bTail ↔ l.bNext = l.bTail := by rw [hn, h.bTail]
  unfold Line.bPush
  by_cases hc : l.bNext = l.bTail
  · rw [if_pos hc, if_pos (e.mpr hc)]
    exact ⟨h.cfg, h.bitcyc, h.rxPos, h.rxByte, h.rxLast, h.slotB, h.bHead, h.bTail, rfl⟩
  · rw [if_neg hc, if_neg (mt e.mp hc)]
    refine ⟨h.cfg, h.bitcyc, h.rxPos, h.rxByte, h.rxLast, ?_, hn, h.bTail, h.lineOvf⟩
    show m.slotB.write unwrittenByte m.bHead x = l.slotB.write unwrittenByte l.bHead x
    rw [h.slotB, h.bHead]

theorem SameRx.assemble {b : Bool} {l m : Line} (h : SameRx b l m) (p n : Nat) (u v : Level) :
    SameRx b (l.assemble p n u v) (m.assemble p n u v) := by
  unfold Line.assemble Line.assembled
  rw [h.rxByte]
  split
  · exact ⟨h.cfg, h.bitcyc, rfl, rfl, h.rxLast, h.slotB, h.bHead, h.bTail, h.lineOvf⟩
  · have k := h.bPush (shiftIn u (min n (8 - p)) l.rxByte)
    exact ⟨k.cfg, k.bitcyc, rfl, rfl, k.rxLast, k.slotB, k.bHead, k.bTail, k.lineOvf⟩

theorem SameRx.stepPos {b : Bool} {l m : Line} (h : SameRx b l m) (n : Nat) (u v : Level) :
    SameRx b (l.stepPos n u v) (m.stepPos n u v) := by
  unfold Line.stepPos
  rw [h.rxPos]
  split
  · split
    · exact h
    · exact ⟨h.cfg, h.bitcyc, rfl, h.rxByte, h.rxLast, h.slotB, h.bHead, h.bTail, h.lineOvf⟩
  · exact h.assemble _ _ _ _
  · exact h.assemble _ _ _ _

theorem SameRx.processEdge {b : Bool} {l m : Line} (h : SameRx b l m) (w : Word) :
    SameRx b (l.processEdge w) (m.processEdge w) := by
  unfold Line.processEdge
  rw [h.rxLast, h.bitcyc, h.cfg]
  split
  · exact ⟨h.cfg, h.bitcyc, h.rxPos, h.rxByte, h.rxLast, h.slotB, h.bHead, h.bTail, h.lineOvf⟩
  · have k : SameRx b ({ l.log (.processEdge w) with rxLast := w }) ({ m.log (.processEdge w) with rxLast := w }) :=
      ⟨h.cfg, h.bitcyc, h.rxPos, h.rxByte, rfl, h.slotB, h.bHead, h.bTail, h.lineOvf⟩
    exact k.stepPos _ _ _

theorem SameRx.recover {b : Bool} {l m : Line} (h : SameRx b l m) (now : Word) :
    SameRx b (l.recover now) (m.recover now) := by
  have e : m.stopEdge = l.stopEdge := by
    simp only [Line.stopEdge, Line.remaining, h.rxLast, h.rxPos, h.bitcyc, h.cfg]
  have er : m.remaining = l.remaining := by simp only [Line.remaining, h.rxPos]
  unfold Line.recover
  rw [h.rxLast, h.bitcyc, e, er]
  by_cases hc : s32 (now - ts l.rxLast) > l.remaining * l.bitcyc.toNat
  · rw [if_pos hc, if_pos hc]; exact h.processEdge _
  · rw [if_neg hc, if_neg hc]; exact h

/-- Processing an edge leaves the edge ring. -/
theorem Line.processEdge_grow (w : Word) (l : Line) : EdgesGrow l (l.processEdge w) :=
  .of_eq (by simp) (by simp) (by simp) (by simp)

theorem SameRx.refl_tick (s : State) : SameRx false s.line s.tick.line := s.tick_rel.line.sameRx

/-- Draining `k` edges, whatever the other agents do meanwhile: the first `k` words held are processed, oldest first. -/
theorem State.drain_spec (ws : List Word) : ∀ (s : State) (more : List Word), EdgeRingOk s.line →
    s.line.heldEdges = ws ++ more →
    SameRx false (ws.foldl (fun l w => l.processEdge w) s.line) (State.drain ws.length s).line ∧
    (State.drain ws.length s).line.eTail = (s.line.eTail + ws.length) % s.line.cfg.ne := by
  induction ws with
  | nil =>
    intro s more ok _
    exact ⟨SameRx.refl _, by simp [State.drain, Nat.mod_eq_of_lt ok.eTail_lt]⟩
  | cons w ws ih =>
    intro s more ok he
    have hne : s.line.eHead ≠ s.line.eTail := by
      intro e
      rw [(Line.heldEdges_eq_nil ok).mpr e] at he
      cases he
    rw [Line.heldEdges_pop ok hne] at he
    obtain ⟨hw, hrest⟩ := List.cons.inj he
    -- the turn before the tail's store
    have ok1 : EdgeRingOk ({ s.line with eTail := (s.line.eTail + 1) % s.line.cfg.ne } : Line) :=
      ⟨ok.eHead_lt, ring_next_lt ok.eTail_lt, ok.slotE_wf⟩
    have g : EdgesGrow ({ s.line with eTail := (s.line.eTail + 1) % s.line.cfg.ne } : Line) s.ePop.2.line := by
      intro _
      obtain ⟨⟨h1, h2, h3⟩, us, h4⟩ := s.tick_grow ok
      have hcfg : s.tick.line.cfg = s.line.cfg := by simp
      have htail : s.tick.line.eTail = s.line.eTail := by simp
      have hok : EdgeRingOk s.ePop.2.line :=
        ⟨h1, by show (s.line.eTail + 1) % s.line.cfg.ne < s.tick.line.cfg.ne; rw [hcfg]; exact ring_next_lt ok.eTail_lt, h3⟩
      refine ⟨hok, us, ?_⟩
      have hne' : s.tick.line.eHead ≠ s.tick.line.eTail := by
        intro e
        rw [(Line.heldEdges_eq_nil ⟨h1, h2, h3⟩).mpr e, Line.heldEdges_pop ok hne] at h4
        cases h4
      rw [Line.heldEdges_pop ⟨h1, h2, h3⟩ hne', Line.heldEdges_pop ok hne, List.cons_append] at h4
      have h5 := (List.cons.inj h4).2
      have hi : (s.tick.line.eTail + 1) % s.tick.line.cfg.ne = (s.line.eTail + 1) % s.line.cfg.ne := by rw [hcfg, htail]
      rw [hi] at h5
      exact h5
    obtain ⟨ok2, us, h2⟩ := g ok1
    rw [hrest] at h2
    obtain ⟨ok3, vs, h3⟩ := Line.processEdge_grow w s.ePop.2.line ok2
    obtain ⟨r, ht⟩ := ih (s.ePop.2.mapLine (·.processEdge w)) (more ++ us ++ vs) ok3 (by
      rw [State.mapLine_line, h3, h2]; simp [List.append_assoc])
    have hd : State.drain (w :: ws).length s = State.drain ws.length (s.ePop.2.mapLine (·.processEdge w)) := by
      simp only [List.length_cons, State.drain, State.ePop, hw]
    rw [hd]
    constructor
    · have base : SameRx false (s.line.processEdge w) (s.ePop.2.mapLine (·.processEdge w)).line := by
        have k : SameRx false s.line s.ePop.2.line := by
          have t := SameRx.refl_tick s
          exact ⟨t.cfg, t.bitcyc, t.rxPos, t.rxByte, t.rxLast, t.slotB, t.bHead, t.bTail, t.lineOvf⟩
        exact k.processEdge w
      have fold : ∀ (vs : List Word) (l m : Line), SameRx false l m →
          SameRx false (vs.foldl (fun l w => l.processEdge w) l) (vs.foldl (fun l w => l.processEdge w) m) := by
        intro vs
        induction vs with
        | nil => exact fun l m h => h
        | cons v vs ihv => exact fun l m h => ihv _ _ (h.processEdge v)
      have := (fold ws _ _ base).trans r
      simpa using this
    · rw [ht]
      simp only [State.mapLine_line, Line.processEdge_eTail, Line.processEdge_cfg, State.ePop_snd_line_cfg,
        List.length_cons]
      have : s.ePop.2.line.eTail = (s.line.eTail + 1) % s.line.cfg.ne := rfl
      rw [this, Nat.mod_add_mod]
      congr 1
      omega

/-- The fold of a list of edge words keeps the decoder's view apart from `LINE_OVF`. -/
theorem SameRx.foldl {b : Bool} (ws : List Word) : ∀ {l m : Line}, SameRx b l m →
    SameRx b (ws.foldl (fun l w => l.processEdge w) l) (ws.foldl (fun l w => l.processEdge w) m) := by
  induction ws with
  | nil => exact fun h => h
  | cons v vs ih => exact fun h => ih (h.processEdge v)

/-- Step 1's fold: `LINE_OVF` is set if the loaded `E_OVF` was, and the decoder's view is the same otherwise. -/
theorem State.foldOverflow_sameRx (s : State) : SameRx s.tick.line.eOvf s.line s.foldOverflow.line := by
  unfold State.foldOverflow
  have t := SameRx.refl_tick s
  split
  · rename_i h
    simp only [State.loadEOvf_fst, State.loadEOvf_snd] at h ⊢
    rw [h]
    have k := SameRx.refl_tick (s.tick.mapLine fun l => { l with lineOvf := true })
    refine ⟨k.cfg.trans t.cfg, k.bitcyc.trans t.bitcyc, k.rxPos.trans t.rxPos, k.rxByte.trans t.rxByte,
      k.rxLast.trans t.rxLast, k.slotB.trans t.slotB, k.bHead.trans t.bHead, k.bTail.trans t.bTail, ?_⟩
    simp only [State.storeEOvf_line]
    rw [k.lineOvf]
    simp
  · rename_i h
    simp only [State.loadEOvf_fst, State.loadEOvf_snd, Bool.not_eq_true] at h ⊢
    rw [h]
    exact t

/-- The fold leaves the edge ring a queue that only grows. -/
theorem State.foldOverflow_grow (s : State) : EdgesGrow s.line s.foldOverflow.line := by
  unfold State.foldOverflow
  split
  · have h0 : EdgesGrow s.tick.line (s.tick.mapLine fun l => { l with lineOvf := true }).line := .of_eq rfl rfl rfl rfl
    have h1 := State.tick_grow (s.tick.mapLine fun l => { l with lineOvf := true })
    have h2 : EdgesGrow (s.tick.mapLine fun l => { l with lineOvf := true }).tick.line
        ((s.tick.mapLine fun l => { l with lineOvf := true }).storeEOvf false).line := .of_eq rfl rfl rfl rfl
    exact ((s.tick_grow.trans h0).trans h1).trans h2
  · exact s.tick_grow

end Sys2Proof.Machine
end

