-- ==== Sys2Proof/Laws/Drive.lean ====
section
/-! SUPPORT. How pins are driven: which operations leave every pin's mode and output latch, and what the two pin
primitives do to them. -/

namespace Sys2Proof.Machine

/-- Every pin is driven as before, in the canonical form of the pins' storage. -/
def KeepsDrive (s t : State) : Prop := s.pins.wf untouchedPin = true → t.pins.wf untouchedPin = true ∧ SameDrive s t

theorem KeepsDrive.refl (s : State) : KeepsDrive s s := fun w => ⟨w, fun _ => rfl⟩

theorem KeepsDrive.trans {s t u : State} (h : KeepsDrive s t) (k : KeepsDrive t u) : KeepsDrive s u := by
  intro w
  obtain ⟨w1, h1⟩ := h w
  obtain ⟨w2, h2⟩ := k w1
  exact ⟨w2, fun p => (h2 p).trans (h1 p)⟩

theorem KeepsDrive.of_pins {s t : State} (h : t.pins = s.pins) : KeepsDrive s t := by
  intro w
  refine ⟨by rw [h]; exact w, fun p => ?_⟩
  simp only [State.drive, State.pin, h]

theorem State.tick_drive (s : State) : KeepsDrive s s.tick := fun w => ⟨s.tick_rel.pins_wf w, s.tick_rel.drive w⟩

theorem State.mapLine_drive (f : Line → Line) (s : State) : KeepsDrive s (s.mapLine f) := .of_pins rfl

theorem State.log_drive (e : Event) (s : State) : KeepsDrive s (s.log e) := .of_pins rfl

theorem State.respond_drive (x : Word) (s : State) : KeepsDrive s (s.respond x) := .of_pins rfl

theorem State.writeIe_drive (b : Bool) (s : State) : KeepsDrive s (s.writeIe b) :=
  s.tick_drive.trans (.of_pins rfl)

theorem State.storeEOvf_drive (b : Bool) (s : State) : KeepsDrive s (s.storeEOvf b) :=
  s.tick_drive.trans (.of_pins rfl)

theorem State.storeETail_drive (t : Nat) (s : State) : KeepsDrive s (s.storeETail t) :=
  s.tick_drive.trans (.of_pins rfl)

theorem State.attach_drive (s : State) : KeepsDrive s s.attach := s.tick_drive.trans (.of_pins rfl)

theorem State.detach_drive (s : State) : KeepsDrive s s.detach := s.tick_drive.trans (.of_pins rfl)

theorem State.holdUntil_drive (m : Word → Nat) (s : State) : KeepsDrive s (s.holdUntil m) :=
  s.tick_drive.trans (.of_pins rfl)

theorem State.yieldCycles_drive (c : Nat) (s : State) : KeepsDrive s (s.yieldCycles c) :=
  s.tick_drive.trans (.of_pins rfl)

theorem State.foldOverflow_drive (s : State) : KeepsDrive s s.foldOverflow := by
  unfold State.foldOverflow
  split
  · exact (s.tick_drive.trans (State.mapLine_drive _ _)).trans (State.storeEOvf_drive _ _)
  · exact s.tick_drive

theorem State.recoverStop_drive (s : State) : KeepsDrive s s.recoverStop := by
  unfold State.recoverStop
  split
  · exact .refl _
  · exact s.tick_drive.trans (State.mapLine_drive _ _)

theorem State.drain_drive (k : Nat) : ∀ s : State, KeepsDrive s (State.drain k s) := by
  induction k with
  | zero => exact KeepsDrive.refl
  | succ k ih => exact fun s => ((State.storeETail_drive _ s).trans (State.mapLine_drive _ _)).trans (ih _)

theorem State.decodePass_drive (s : State) : KeepsDrive s s.decodePass := by
  unfold State.decodePass
  split
  · refine ((State.log_drive .decodePass s).trans (State.tick_drive _)).trans ?_
    unfold State.passFrom
    split
    · exact (State.foldOverflow_drive _).trans (State.recoverStop_drive _)
    · exact (State.foldOverflow_drive _).trans (State.drain_drive _ _)
  · exact .refl _

theorem State.splitWait_drive (d now : Word) (s : State) : KeepsDrive s (s.splitWait d now) := by
  unfold State.splitWait State.bulkWait
  split
  · exact ((State.writeIe_drive _ s).trans (State.holdUntil_drive _ _)).trans (State.writeIe_drive _ _)
  · exact .refl _

theorem State.delayUntil_drive (d : Word) (s : State) : KeepsDrive s (s.delayUntil d) := by
  unfold State.delayUntil
  exact (((State.log_drive _ s).trans (State.tick_drive _)).trans (State.splitWait_drive _ _ _)).trans
    (State.holdUntil_drive _ _)

/-! ### The pin primitives -/

theorem State.drive_setPin {s : State} (p : Pin) (ps : PinState) (w : s.pins.wf untouchedPin = true) (q : Pin) :
    (s.setPin p ps).drive q = if q = p then (ps.dir, ps.out) else s.drive q := by
  unfold State.drive
  split
  · rename_i e
    rw [e, State.pin_setPin_same p ps w]
  · rename_i e
    rw [State.pin_setPin_ne ps e]

theorem State.setPin_wf {s : State} (p : Pin) (ps : PinState) (w : s.pins.wf untouchedPin = true) :
    (s.setPin p ps).pins.wf untouchedPin = true := (State.setPin_op p ps s).pins_wf w

/-- `PinMode` sets the pin's mode and leaves its latch. -/
theorem State.pinMode_drive (p : Pin) (m : PinDir) {s : State} (w : s.pins.wf untouchedPin = true) :
    (s.pinMode p m).pins.wf untouchedPin = true ∧
    ∀ q, (s.pinMode p m).drive q = if q = p then (m, (s.drive p).2) else s.drive q := by
  obtain ⟨w1, h1⟩ := s.tick_drive w
  refine ⟨State.setPin_wf _ _ w1, fun q => ?_⟩
  unfold State.pinMode
  rw [State.drive_setPin _ _ w1]
  have e : (s.tick.pin p).out = (s.drive p).2 := congrArg Prod.snd (h1 p)
  simp only [e, h1 q]

/-- `PinWrite` sets the pin's latch and leaves its mode. -/
theorem State.pinWrite_drive (p : Pin) (v : Level) {s : State} (w : s.pins.wf untouchedPin = true) :
    (s.pinWrite p v).pins.wf untouchedPin = true ∧
    ∀ q, (s.pinWrite p v).drive q = if q = p then ((s.drive p).1, v) else s.drive q := by
  obtain ⟨w1, h1⟩ := s.tick_drive w
  refine ⟨State.setPin_wf _ _ w1, fun q => ?_⟩
  unfold State.pinWrite
  have e : (s.tick.pin p).dir = (s.drive p).1 := congrArg Prod.fst (h1 p)
  have k := State.drive_setPin p { s.tick.pin p with out := v } w1 q
  rw [e, h1 q] at k
  exact k

/-- One segment of a transmission drives the transmit pin to its level, and no other pin. -/
theorem State.txSegment_drive (v : Level) (dur : Word) {s : State} (w : s.pins.wf untouchedPin = true) :
    (s.txSegment v dur).pins.wf untouchedPin = true ∧
    ∀ q, (s.txSegment v dur).drive q = if q = s.line.cfg.txPin then ((s.drive q).1, v) else s.drive q := by
  have w0 : (s.log (.txSegment v dur)).pins.wf untouchedPin = true := w
  obtain ⟨w1, h1⟩ := State.pinWrite_drive s.line.cfg.txPin v w0
  have k : KeepsDrive ((s.log (.txSegment v dur)).pinWrite s.line.cfg.txPin v) (s.txSegment v dur) := by
    unfold State.txSegment State.openSegment
    exact (State.mapLine_drive _ _).trans (State.delayUntil_drive _ _)
  obtain ⟨w2, h2⟩ := k w1
  refine ⟨w2, fun q => ?_⟩
  rw [h2 q, h1 q]
  have e : ∀ r, (s.log (.txSegment v dur)).drive r = s.drive r := fun _ => rfl
  simp only [e]
  split
  · rename_i hq; rw [hq]
  · rfl

end Sys2Proof.Machine
end

