-- ==== Sys2Proof/Laws/Masked.lean ====
section
/-! SUPPORT. What happens while `IE = 0`: no capture runs, so what EDGE_CAPTURE may write and the record of captures
stay as they are, and no pending bit is lost. -/

namespace Sys2Proof.Machine

/-- A line after a turn with interrupts masked: nothing captured, nothing pending lost. -/
structure LineMasked (l m : Line) : Prop where
  isr : m.isrOwned = l.isrOwned
  trace : m.trace = l.trace
  pend : l.pendRx = true → m.pendRx = true

theorem LineMasked.refl (l : Line) : LineMasked l l := ⟨rfl, rfl, fun h => h⟩

theorem LineMasked.trans {l m n : Line} (h : LineMasked l m) (k : LineMasked m n) : LineMasked l n :=
  ⟨k.isr.trans h.isr, k.trace.trans h.trace, fun e => k.pend (h.pend e)⟩

theorem Line.notePinEdge_masked (p : Pin) (old new : PinState) (l : Line) : LineMasked l (l.notePinEdge p old new) := by
  unfold Line.notePinEdge
  split
  · exact ⟨rfl, rfl, fun _ => rfl⟩
  · exact .refl l

theorem forall₂_map_of {R : Line → Line → Prop} {f : Line → Line} (hf : ∀ l, R l (f l)) (ls : List Line) :
    List.Forall₂ R ls (ls.map f) := by
  induction ls with
  | nil => exact .nil
  | cons l ls ih => exact .cons (hf l) ih

theorem forall₂_masked_trans {as bs cs : List Line} (h : List.Forall₂ LineMasked as bs)
    (k : List.Forall₂ LineMasked bs cs) : List.Forall₂ LineMasked as cs := by
  induction h generalizing cs with
  | nil => cases k; exact .nil
  | cons hab _ ih =>
    cases k with
    | cons hbc hrest => exact .cons (hab.trans hbc) (ih hrest)

theorem forall₂_masked_refl (ls : List Line) : List.Forall₂ LineMasked ls ls := by
  have h := forall₂_map_of (R := LineMasked) (f := fun l => l) (fun l => .refl l) ls
  rwa [List.map_id'] at h

theorem forall₂_isrOwned {as bs : List Line} (h : List.Forall₂ LineMasked as bs) :
    bs.map Line.isrOwned = as.map Line.isrOwned := by
  induction h with
  | nil => rfl
  | cons r _ ih => simp [r.isr, ih]

theorem forall₂_trace {as bs : List Line} (h : List.Forall₂ LineMasked as bs) :
    bs.map (·.trace) = as.map (·.trace) := by
  induction h with
  | nil => rfl
  | cons r _ ih => simp [r.trace, ih]

/-- The machine after a turn with interrupts masked. -/
structure TurnMasked (s t : State) : Prop where
  ie : t.ie = false
  line : LineMasked s.line t.line
  others : List.Forall₂ LineMasked s.others t.others

theorem TurnMasked.trans {s t u : State} (h : TurnMasked s t) (k : TurnMasked t u) : TurnMasked s u :=
  ⟨k.ie, h.line.trans k.line, forall₂_masked_trans h.others k.others⟩

theorem State.takeInterrupt_masked {s : State} (slot : Nat) (h : s.ie = false) : s.takeInterrupt slot = s := by
  unfold State.takeInterrupt
  split
  · rename_i id _
    show s.mapLines (fun l => if (l.id == id && s.mayTake l) = true then s.enterIsr l else l) = s
    have hf : ∀ l, (if (l.id == id && s.mayTake l) = true then s.enterIsr l else l) = l := fun l => by
      simp [State.mayTake, State.isrDue, h]
    simp only [hf, State.mapLines, List.map_id']
  · rfl

theorem State.move_masked {s : State} (m : Move) (h : s.ie = false) : TurnMasked s (s.move m) := by
  unfold State.move
  split
  · unfold State.envMove
    split
    · exact ⟨h, .refl _, forall₂_masked_refl _⟩
    · exact ⟨h, Line.notePinEdge_masked _ _ _ _, forall₂_map_of (Line.notePinEdge_masked _ _ _) _⟩
    · rw [State.takeInterrupt_masked _ h]
      exact ⟨h, .refl _, forall₂_masked_refl _⟩
  · rename_i n ws
    have hf : ∀ l : Line, LineMasked l (if l.id = n then { l with cmd := l.cmd ++ ws } else l) := by
      intro l
      split
      · exact ⟨rfl, rfl, fun e => e⟩
      · exact .refl l
    exact ⟨h, hf _, forall₂_map_of hf _⟩
  · exact ⟨h, .refl _, forall₂_masked_refl _⟩

theorem State.moves_masked (ms : List Move) : ∀ {s : State}, s.ie = false → TurnMasked s (ms.foldl State.move s) := by
  induction ms with
  | nil => exact fun h => ⟨h, .refl _, forall₂_masked_refl _⟩
  | cons m ms ih => exact fun h => (State.move_masked m h).trans (ih (State.move_masked m h).ie)

/-- A turn with interrupts masked. -/
theorem State.tick_masked {s : State} (h : s.ie = false) : TurnMasked s s.tick := by
  have hd : TurnMasked s s.dropTurn := by
    unfold State.dropTurn
    split <;> exact ⟨h, .refl _, forall₂_masked_refl _⟩
  exact hd.trans (State.moves_masked _ hd.ie)

/-! ### Operations that write nothing EDGE_CAPTURE may write -/

/-- With interrupts masked before it, an operation leaves them masked and captures nothing. -/
def StaysMasked (s t : State) : Prop :=
  s.ie = false → t.ie = false ∧ t.line.isrOwned = s.line.isrOwned ∧
    t.others.map Line.isrOwned = s.others.map Line.isrOwned ∧
    captures t.line.trace = captures s.line.trace ∧ t.others.map (·.trace) = s.others.map (·.trace)

theorem StaysMasked.refl (s : State) : StaysMasked s s := fun h => ⟨h, rfl, rfl, rfl, rfl⟩

theorem StaysMasked.trans {s t u : State} (h : StaysMasked s t) (k : StaysMasked t u) : StaysMasked s u := by
  intro e
  obtain ⟨a, b, c, d, f⟩ := h e
  obtain ⟨a', b', c', d', f'⟩ := k a
  exact ⟨a', b'.trans b, c'.trans c, d'.trans d, f'.trans f⟩

theorem State.tick_stays (s : State) : StaysMasked s s.tick := by
  intro h
  have t := State.tick_masked h
  exact ⟨t.ie, t.line.isr, forall₂_isrOwned t.others, congrArg captures t.line.trace, forall₂_trace t.others⟩

/-- An update of other fields of the active line and the platform. -/
theorem StaysMasked.of_eq {s t : State} (hi : t.ie = s.ie) (hl : t.line.isrOwned = s.line.isrOwned)
    (ho : t.others = s.others) (hc : captures t.line.trace = captures s.line.trace) : StaysMasked s t :=
  fun h => ⟨hi.trans h, hl, by rw [ho], hc, by rw [ho]⟩

/-- Recording an event that is no capture. -/
theorem State.log_stays {e : Event} (he : e.captured? = none) (s : State) : StaysMasked s (s.log e) :=
  .of_eq rfl rfl rfl (by simp [captures, he])

theorem State.respond_stays (x : Word) (s : State) : StaysMasked s (s.respond x) := .of_eq rfl rfl rfl rfl

theorem State.writeIe_stays (s : State) : StaysMasked s (s.writeIe false) := by
  intro h
  obtain ⟨_, b, c, d, f⟩ := s.tick_stays h
  exact ⟨rfl, b, c, d, f⟩

theorem State.storeETail_stays (t : Nat) (s : State) : StaysMasked s (s.storeETail t) :=
  s.tick_stays.trans (.of_eq rfl rfl rfl rfl)

theorem State.attach_stays (s : State) : StaysMasked s s.attach := s.tick_stays.trans (.of_eq rfl rfl rfl rfl)

theorem State.detach_stays (s : State) : StaysMasked s s.detach := s.tick_stays.trans (.of_eq rfl rfl rfl rfl)

theorem State.holdUntil_stays (m : Word → Nat) (s : State) : StaysMasked s (s.holdUntil m) :=
  s.tick_stays.trans (.of_eq rfl rfl rfl rfl)

theorem State.yieldCycles_stays (c : Nat) (s : State) : StaysMasked s (s.yieldCycles c) :=
  s.tick_stays.trans (.of_eq rfl rfl rfl rfl)

theorem State.setPin_stays (p : Pin) (ps : PinState) (s : State) : StaysMasked s (s.setPin p ps) := by
  intro h
  have hl := Line.notePinEdge_masked p (s.pin p) ps s.line
  have ho := forall₂_map_of (Line.notePinEdge_masked p (s.pin p) ps) s.others
  exact ⟨h, hl.isr, forall₂_isrOwned ho, congrArg captures hl.trace, forall₂_trace ho⟩

theorem State.pinMode_stays (p : Pin) (m : PinDir) (s : State) : StaysMasked s (s.pinMode p m) :=
  s.tick_stays.trans (State.setPin_stays _ _ _)

theorem State.pinWrite_stays (p : Pin) (v : Level) (s : State) : StaysMasked s (s.pinWrite p v) :=
  (s.tick_stays.trans (State.setPin_stays _ _ _)).trans (State.log_stays rfl _)

end Sys2Proof.Machine
end

