-- ==== Sys2Proof/Laws/Quiet.lean ====
section
/-! SUPPORT. Turns in which the script does nothing. -/

namespace Sys2Proof.Machine

theorem Quiet.env_eq {n : Nat} {s : State} (h : Quiet (n + 1) s) : s.env = [] :: s.env.tail := by
  unfold Quiet at h
  cases he : s.env with
  | nil => rw [he] at h; simp [List.replicate_succ] at h
  | cons t ts => rw [he] at h; simp [List.replicate_succ] at h; simp [h.1]

/-- An empty turn uses itself up and does nothing else. -/
theorem Quiet.tick_eq {n : Nat} {s : State} (h : Quiet (n + 1) s) : s.tick = { s with env := s.env.tail } := by
  have e := h.env_eq
  unfold State.tick State.nextTurn State.dropTurn
  rw [e]
  rfl

theorem Quiet.tail {n : Nat} {s t : State} (h : Quiet (n + 1) s) (e : t.env = s.env.tail) : Quiet n t := by
  unfold Quiet at h ⊢
  cases he : s.env with
  | nil => rw [he] at h; simp [List.replicate_succ] at h
  | cons u us => rw [he] at h e; simp [List.replicate_succ] at h; rw [e]; exact h.2

theorem Quiet.tick {n : Nat} {s : State} (h : Quiet (n + 1) s) : Quiet n s.tick := by
  rw [h.tick_eq]
  exact h.tail rfl

theorem Quiet.of_env {n : Nat} {s t : State} (h : Quiet n s) (e : t.env = s.env) : Quiet n t := by
  unfold Quiet at h ⊢
  rw [e]
  exact h

theorem Quiet.mono {n : Nat} {s : State} (h : Quiet (n + 1) s) : Quiet n s := by
  unfold Quiet at h ⊢
  have := congrArg (List.take n) h
  rw [List.take_take, List.take_replicate] at this
  simpa using this

end Sys2Proof.Machine
end

