-- ==== Sys2Proof/Laws/Trace.lean ====
section
/-! SUPPORT. The event trace, read through a filter that drops what captures and decode passes record: which operations
add nothing to such a reading, and what the others add. -/

namespace Sys2Proof.Machine

variable {β : Type}

/-- A reading that drops the records of captures, decode passes and conditions. -/
structure Ignores (f : Event → Option β) : Prop where
  capture : ∀ w, f (.edgeCapture w) = none
  condition : ∀ c, f (.condition c) = none
  pass : f .decodePass = none
  edge : ∀ w, f (.processEdge w) = none

/-- The reading of the active line's trace. -/
abbrev State.view (f : Event → Option β) (s : State) : List β := s.line.trace.filterMap f

theorem Line.ePush_view {f : Event → Option β} (hf : Ignores f) (w : Word) (l : Line) :
    (l.ePush w).trace.filterMap f = l.trace.filterMap f := by
  unfold Line.ePush
  split
  · simp [hf.condition]
  · rfl

theorem State.enterIsr_view {f : Event → Option β} (hf : Ignores f) (s : State) (l : Line) :
    (s.enterIsr l).trace.filterMap f = l.trace.filterMap f := by
  unfold State.enterIsr Line.capture
  rw [Line.ePush_view hf]
  simp [hf.capture]

theorem Line.notePinEdge_trace (p : Pin) (old new : PinState) (l : Line) :
    (l.notePinEdge p old new).trace = l.trace := by
  unfold Line.notePinEdge
  split <;> rfl

theorem State.setPin_trace (p : Pin) (ps : PinState) (s : State) : (s.setPin p ps).line.trace = s.line.trace :=
  Line.notePinEdge_trace _ _ _ _

theorem State.move_view {f : Event → Option β} (hf : Ignores f) (s : State) (m : Move) : (s.move m).view f = s.view f := by
  unfold State.move
  split
  · unfold State.envMove
    split
    · rfl
    · simp only [State.view, State.setPin_trace]
    · unfold State.takeInterrupt
      split
      · simp only [State.view, State.mapLines_line]
        split
        · exact State.enterIsr_view hf _ _
        · rfl
      · rfl
  · simp only [State.view, State.mapLines_line]
    split <;> rfl
  · rfl

theorem State.moves_view {f : Event → Option β} (hf : Ignores f) (ms : List Move) : ∀ s : State,
    (ms.foldl State.move s).view f = s.view f := by
  induction ms with
  | nil => exact fun _ => rfl
  | cons m ms ih => exact fun s => (ih _).trans (State.move_view hf s m)

theorem State.tick_view {f : Event → Option β} (hf : Ignores f) (s : State) : s.tick.view f = s.view f := by
  have h := State.moves_view hf s.nextTurn s.dropTurn
  rw [State.view, State.view, State.dropTurn_line] at h
  exact h

theorem State.log_view (f : Event → Option β) (e : Event) (s : State) : (s.log e).view f = s.view f ++ (f e).toList := by
  simp only [State.view, State.log_line, Line.log_trace, List.filterMap_append, List.filterMap_cons, List.filterMap_nil]
  cases f e <;> rfl

theorem State.writeIe_view {f : Event → Option β} (hf : Ignores f) (b : Bool) (s : State) :
    (s.writeIe b).view f = s.view f := s.tick_view hf

theorem State.storeEOvf_view {f : Event → Option β} (hf : Ignores f) (b : Bool) (s : State) :
    (s.storeEOvf b).view f = s.view f := s.tick_view hf

theorem State.storeETail_view {f : Event → Option β} (hf : Ignores f) (t : Nat) (s : State) :
    (s.storeETail t).view f = s.view f := s.tick_view hf

theorem State.attach_view {f : Event → Option β} (hf : Ignores f) (s : State) : s.attach.view f = s.view f :=
  s.tick_view hf

theorem State.detach_view {f : Event → Option β} (hf : Ignores f) (s : State) : s.detach.view f = s.view f :=
  s.tick_view hf

theorem State.holdUntil_view {f : Event → Option β} (hf : Ignores f) (m : Word → Nat) (s : State) :
    (s.holdUntil m).view f = s.view f := s.tick_view hf

theorem State.yieldCycles_view {f : Event → Option β} (hf : Ignores f) (c : Nat) (s : State) :
    (s.yieldCycles c).view f = s.view f := s.tick_view hf

theorem State.pinMode_view {f : Event → Option β} (hf : Ignores f) (p : Pin) (m : PinDir) (s : State) :
    (s.pinMode p m).view f = s.view f := by
  unfold State.pinMode
  rw [State.view, State.setPin_trace]
  exact s.tick_view hf

/-- `PinWrite` records its event, with the counter at the time. -/
theorem State.pinWrite_view {f : Event → Option β} (hf : Ignores f) (p : Pin) (v : Level) (s : State) :
    (s.pinWrite p v).view f = s.view f ++ (f (.pinWrite p v s.tick.cycle)).toList := by
  unfold State.pinWrite
  rw [State.log_view, State.view, State.setPin_trace]
  congr 1
  exact s.tick_view hf

/-! ### The decoder -/

theorem Line.bPush_view {f : Event → Option β} (hf : Ignores f) (b : Byte) (l : Line) :
    (l.bPush b).trace.filterMap f = l.trace.filterMap f := by
  unfold Line.bPush
  split
  · simp [hf.condition]
  · rfl

theorem Line.assemble_view {f : Event → Option β} (hf : Ignores f) (p n : Nat) (u v : Level) (l : Line) :
    (l.assemble p n u v).trace.filterMap f = l.trace.filterMap f := by
  unfold Line.assemble Line.complete
  split
  · rfl
  · exact Line.bPush_view hf _ _

theorem Line.stepPos_view {f : Event → Option β} (hf : Ignores f) (n : Nat) (u v : Level) (l : Line) :
    (l.stepPos n u v).trace.filterMap f = l.trace.filterMap f := by
  unfold Line.stepPos
  split
  · split <;> rfl
  · exact Line.assemble_view hf _ _ _ _ _
  · exact Line.assemble_view hf _ _ _ _ _

theorem Line.processEdge_view {f : Event → Option β} (hf : Ignores f) (w : Word) (l : Line) :
    (l.processEdge w).trace.filterMap f = l.trace.filterMap f := by
  unfold Line.processEdge
  split
  · simp [hf.edge, hf.condition]
  · rw [Line.stepPos_view hf]
    simp [hf.edge]

theorem State.foldOverflow_view {f : Event → Option β} (hf : Ignores f) (s : State) :
    s.foldOverflow.view f = s.view f := by
  unfold State.foldOverflow
  split
  · rw [State.storeEOvf_view hf]
    exact s.tick_view hf
  · exact s.tick_view hf

theorem State.recoverStop_view {f : Event → Option β} (hf : Ignores f) (s : State) :
    s.recoverStop.view f = s.view f := by
  unfold State.recoverStop
  split
  · rfl
  · simp only [State.view, State.mapLine_line, Line.recover]
    split
    · rw [Line.processEdge_view hf]
      exact s.tick_view hf
    · exact s.tick_view hf

theorem State.drain_view {f : Event → Option β} (hf : Ignores f) (k : Nat) : ∀ s : State,
    (State.drain k s).view f = s.view f := by
  induction k with
  | zero => exact fun _ => rfl
  | succ k ih =>
    intro s
    rw [State.drain, ih]
    simp only [State.view, State.mapLine_line]
    rw [Line.processEdge_view hf]
    exact s.tick_view hf

/-- A decode pass adds nothing to the reading. -/
theorem State.decodePass_view {f : Event → Option β} (hf : Ignores f) (s : State) : s.decodePass.view f = s.view f := by
  unfold State.decodePass
  split
  · have h0 : (s.log .decodePass).tick.view f = s.view f := by
      rw [State.tick_view hf, State.log_view, hf.pass]
      simp
    unfold State.passFrom
    split
    · rw [State.recoverStop_view hf, State.foldOverflow_view hf]
      exact h0
    · rw [State.drain_view hf, State.foldOverflow_view hf]
      exact h0
  · rfl

/-! ### The transmitter -/

theorem State.splitWait_view {f : Event → Option β} (hf : Ignores f) (d now : Word) (s : State) :
    (s.splitWait d now).view f = s.view f := by
  unfold State.splitWait State.bulkWait
  split
  · rw [State.writeIe_view hf, State.holdUntil_view hf, State.writeIe_view hf]
  · rfl

theorem State.delayUntil_view {f : Event → Option β} (hf : Ignores f) (d : Word) (s : State) :
    (s.delayUntil d).view f = s.view f ++ (f (.delayUntil d)).toList := by
  unfold State.delayUntil
  rw [State.holdUntil_view hf, State.splitWait_view hf]
  simp only [State.readCcount_snd]
  rw [State.tick_view hf, State.log_view]

/-- One segment records itself, its pin write and its deadline. -/
theorem State.txSegment_view {f : Event → Option β} (hf : Ignores f) (v : Level) (dur : Word) (s : State) :
    ∃ t, (s.txSegment v dur).view f = s.view f ++ ((f (.txSegment v dur)).toList ++
      (f (.pinWrite s.line.cfg.txPin v t)).toList ++ (f (.delayUntil (s.line.txDl + dur))).toList) := by
  refine ⟨(s.log (.txSegment v dur)).tick.cycle, ?_⟩
  unfold State.txSegment
  rw [State.delayUntil_view hf]
  have h1 : (s.openSegment v dur).view f = s.view f ++ (f (.txSegment v dur)).toList ++
      (f (.pinWrite s.line.cfg.txPin v (s.log (.txSegment v dur)).tick.cycle)).toList := by
    show ((s.log (.txSegment v dur)).pinWrite s.line.cfg.txPin v).view f = _
    rw [State.pinWrite_view hf, State.log_view]
  have h2 : (s.openSegment v dur).line.txDl = s.line.txDl + dur := by simp [State.openSegment]
  rw [h1, h2]
  simp [List.append_assoc]

/-! ### The readings claims speak of -/

theorem segment_ignores : Ignores Event.segment? := ⟨fun _ => rfl, fun _ => rfl, rfl, fun _ => rfl⟩

theorem deadline_ignores : Ignores Event.deadline? := ⟨fun _ => rfl, fun _ => rfl, rfl, fun _ => rfl⟩

theorem writeTo_ignores (p : Pin) : Ignores (Event.writeTo? p) := ⟨fun _ => rfl, fun _ => rfl, rfl, fun _ => rfl⟩

theorem notify_ignores : Ignores Event.notify? := ⟨fun _ => rfl, fun _ => rfl, rfl, fun _ => rfl⟩

end Sys2Proof.Machine
end

