-- ==== Sys2Proof/Laws/Transmission.lean ====
section
/-! SUPPORT. What a transmission records (42_transmitter.md R151 to R157): the pair pending between two bit positions, the
segments that its flushes issue, and the readings of the event trace after TRANSMIT. -/

namespace Sys2Proof.Machine

variable {β : Type}

/-- `s` has a pending pair of `k` bit periods at level `v` and none at the other (R151). -/

structure Pend (s : State) (v : Level) (k : Nat) : Prop where
  prev : s.line.txPrev = v
  hi : s.line.txHi = if v then BitVec.ofNat 32 (s.line.bitcyc.toNat * k) else 0
  lo : s.line.txLo = if v then 0 else BitVec.ofNat 32 (s.line.bitcyc.toNat * k)

/-- What a reading `f` gives of the segments `rs`, the first deadline counted from `dl`: for each the segment, its pin
write (read by `g`) and its deadline (R155). -/

def emits {β : Type} (f : Event → Option β) (g : Pin → Level → Option β) (pin : Pin) : Word → List (Level × Word) → List β
  | _, [] => []
  | dl, (v, d) :: rs => ((f (.txSegment v d)).toList ++ (g pin v).toList ++ (f (.delayUntil (dl + d))).toList) ++ emits f g pin (dl + d) rs

theorem period_ne_zero {B k : Nat} (hB : 2 ≤ B) (h9 : 9 * B < 2^31) (hk : 1 ≤ k) (hk9 : k ≤ 9) : BitVec.ofNat 32 (B * k) ≠ 0 := by
  intro e
  have := congrArg BitVec.toNat e
  have h1 : B * k ≤ B * 9 := Nat.mul_le_mul_left _ hk9
  have h2 : B * 1 ≤ B * k := Nat.mul_le_mul_left _ hk
  simp at this
  omega

theorem State.flushPair_view {f : Event → Option β} {g : Pin → Level → Option β} (hf : Ignores f) (hg : ∀ p v t, f (.pinWrite p v t) = g p v) {s : State} {v k}
   (hB : 2 ≤ s.line.bitcyc.toNat) (h9 : 9 * s.line.bitcyc.toNat < 2^31) (hk9 : k ≤ 9) (p : Pend s v k) :
   s.flushPair.view f = s.view f ++ emits f g s.line.cfg.txPin s.line.txDl (if k = 0 then [] else [(v, BitVec.ofNat 32 (s.line.bitcyc.toNat * k))]) ∧
   s.flushPair.line.txDl = s.line.txDl + BitVec.ofNat 32 (s.line.bitcyc.toNat * k) := by
  have hv : s.flushPair.view f = s.flushHigh.flushLow.view f := rfl
  have hd : s.flushPair.line.txDl = s.flushHigh.flushLow.line.txDl := rfl
  rw [hv, hd]
  by_cases h0 : k = 0
  · subst h0
    have a : s.line.txHi = 0 := by rw [p.hi]; cases v <;> rfl
    have b : s.line.txLo = 0 := by rw [p.lo]; cases v <;> rfl
    have : s.flushHigh.flushLow = s := by
      unfold State.flushHigh; rw [if_pos a]; unfold State.flushLow; rw [if_pos b]
    rw [this]; simp [emits]
  · have hne := period_ne_zero hB h9 (by omega) hk9
    have dl : ∀ (v : Level) d (s : State), (s.txSegment v d).line.txDl = s.line.txDl + d := by
      intro v d s; simp [State.txSegment, State.openSegment]
    cases v with
    | true =>
      have a := p.hi; have b := p.lo
      simp only [if_true] at a b
      have e : s.flushHigh.flushLow = s.txSegment true s.line.txHi := by
        unfold State.flushLow; rw [if_pos (by simp [b])]
        unfold State.flushHigh; rw [if_neg (by rw [a]; exact hne)]
      rw [e]
      obtain ⟨t, ht⟩ := State.txSegment_view hf true s.line.txHi s
      rw [ht, dl, hg, a]
      simp [h0, emits]
    | false =>
      have a := p.hi; have b := p.lo
      simp at a b
      have e : s.flushHigh.flushLow = s.txSegment false s.line.txLo := by
        have : s.flushHigh = s := by unfold State.flushHigh; rw [if_pos (by simp [a])]
        rw [this]
        unfold State.flushLow; rw [if_neg (by rw [b]; exact hne)]
      rw [e]
      obtain ⟨t, ht⟩ := State.txSegment_view hf false s.line.txLo s
      rw [ht, dl, hg, b]
      simp [h0, emits]

theorem State.txBit_pend_eq {s : State} {v k} (p : Pend s v k) : Pend (s.txBit v) v (k+1) ∧ (s.txBit v) = s.mapLine (·.addPeriod v) := by
  have e : s.txBit v = s.mapLine (·.addPeriod v) := by unfold State.txBit; rw [if_pos p.prev.symm]
  refine ⟨?_, e⟩
  rw [e]
  have a := p.hi; have b := p.lo
  cases v <;> simp at a b <;> constructor <;> simp [Line.addPeriod, a, b, Nat.mul_add, BitVec.ofNat_add]

theorem State.txBit_pend_ne {s : State} {v u k} (p : Pend s v k) (h : u ≠ v) : Pend (s.txBit u) u 1 := by
  have e : s.txBit u = s.flushPair.mapLine (·.addPeriod u) := by unfold State.txBit; rw [if_neg (by rw [p.prev]; exact h)]
  rw [e]
  cases u <;> constructor <;> simp [Line.addPeriod, State.flushPair]

/-- TRANSMIT's bit positions and its final flush record the runs of the levels, each with its accumulated deadline. -/

theorem State.foldl_txBit_view {f : Event → Option β} {g : Pin → Level → Option β} (hf : Ignores f) (hg : ∀ p v t, f (.pinWrite p v t) = g p v) (vs : List Level) : ∀ (s : State) (v k),
   2 ≤ s.line.bitcyc.toNat → 9 * s.line.bitcyc.toNat < 2^31 → (∀ r ∈ runs (List.replicate k v ++ vs), r.2 ≤ 9) → Pend s v k →
   (vs.foldl State.txBit s).flushPair.view f = s.view f ++ emits f g s.line.cfg.txPin s.line.txDl ((runs (List.replicate k v ++ vs)).map fun r => (r.1, BitVec.ofNat 32 (s.line.bitcyc.toNat * r.2))) ∧
   (vs.foldl State.txBit s).flushPair.line.txDl = s.line.txDl + BitVec.ofNat 32 (s.line.bitcyc.toNat * (k + vs.length)) := by
  induction vs with
  | nil =>
    intro s v k hB h9 hr p
    simp only [List.foldl_nil, List.append_nil, List.length_nil, Nat.add_zero] at hr ⊢
    cases k with
    | zero =>
      have := State.flushPair_view hf hg hB h9 (by omega) p
      simpa [runs, emits] using this
    | succ k =>
      rw [runs_replicate] at hr ⊢
      have := State.flushPair_view hf hg hB h9 (by simpa using hr) p
      simpa using this
  | cons u us ih =>
    intro s v k hB h9 hr p
    rw [List.foldl_cons]
    by_cases h : u = v
    · subst h
      obtain ⟨p', e⟩ := State.txBit_pend_eq p
      have hrep : List.replicate k u ++ u :: us = List.replicate (k+1) u ++ us := by
        rw [List.replicate_succ', List.append_assoc]; rfl
      rw [hrep] at hr ⊢
      have hb : (s.txBit u).line.bitcyc = s.line.bitcyc := by rw [e]; simp
      have hc : (s.txBit u).line.cfg = s.line.cfg := by rw [e]; simp
      have hd : (s.txBit u).line.txDl = s.line.txDl := by rw [e]; cases u <;> simp [Line.addPeriod]
      have hv : (s.txBit u).view f = s.view f := by rw [e]; cases u <;> simp [State.view, Line.addPeriod]
      have := ih (s.txBit u) u (k+1) (by rw [hb]; exact hB) (by rw [hb]; exact h9) hr p'
      rw [hb, hc, hd, hv] at this
      refine ⟨this.1, ?_⟩
      rw [this.2, List.length_cons]; congr 3; omega
    · have p' := State.txBit_pend_ne p h
      have e : s.txBit u = s.flushPair.mapLine (·.addPeriod u) := by unfold State.txBit; rw [if_neg (by rw [p.prev]; exact h)]
      have hb : (s.txBit u).line.bitcyc = s.line.bitcyc := by rw [e]; simp
      have hc : (s.txBit u).line.cfg = s.line.cfg := by rw [e]; simp
      have hd : (s.txBit u).line.txDl = s.flushPair.line.txDl := by rw [e]; cases u <;> simp [Line.addPeriod]
      have hv : (s.txBit u).view f = s.flushPair.view f := by rw [e]; cases u <;> simp [State.view, Line.addPeriod]
      have hruns : runs (List.replicate k v ++ u :: us) = (if k = 0 then [] else [(v,k)]) ++ runs (List.replicate 1 u ++ us) := by
        cases k with
        | zero => rfl
        | succ k => simpa using runs_replicate_cons (Ne.symm h) us k
      rw [hruns] at hr ⊢
      have hk : k ≤ 9 := by
        by_cases h0 : k = 0
        · omega
        · have := hr (v,k) (by simp [h0]); exact this
      have fl := State.flushPair_view hf hg hB h9 hk p
      have := ih (s.txBit u) u 1 (by rw [hb]; exact hB) (by rw [hb]; exact h9) (fun r h => hr r (by simp at h ⊢; exact Or.inr h)) p'
      rw [hb, hc, hd, hv, fl.1, fl.2] at this
      refine ⟨?_, ?_⟩
      · rw [this.1]
        by_cases h0 : k = 0
        · simp [h0, emits]
        · simp [h0, emits, List.append_assoc]
      · rw [this.2, List.length_cons, BitVec.add_assoc, ← BitVec.ofNat_add]; congr 2; ring

theorem State.driveTxen_view {f : Event → Option β} {g : Pin → Level → Option β} (hf : Ignores f) (hg : ∀ p v t, f (.pinWrite p v t) = g p v) (v : Level) (s : State) :
   (s.driveTxen v).view f = s.view f ++ (if s.line.ctrl.txenV = true then (g s.line.txenPin v).toList else []) := by
  unfold State.driveTxen
  split
  · rw [State.pinWrite_view hf, hg]
  · simp

theorem State.txMask_view {f : Event → Option β} (hf : Ignores f) (s : State) : (s.txMask).view f = s.view f := by
  unfold State.txMask
  split
  · rfl
  · exact State.writeIe_view hf _ _

theorem State.txSample_view {f : Event → Option β} (hf : Ignores f) (s : State) : (s.txSample).view f = s.view f := State.tick_view hf s

/-- What a whole transmission records, and the deadline it ends at. -/

theorem State.transmit_view {f : Event → Option β} {g : Pin → Level → Option β} (hf : Ignores f) (hg : ∀ p v t, f (.pinWrite p v t) = g p v) (bytes : List Byte) (s : State)
    (hB : 2 ≤ s.line.bitcyc.toNat) (h9 : 9 * s.line.bitcyc.toNat < 2^31) :
    (s.transmit bytes).view f = s.view f ++ (if s.line.ctrl.txenV = true then (g s.line.txenPin true).toList else []) ++
      emits f g s.line.cfg.txPin ((s.driveTxen true).txMask).readCcount.1 ((runs (txLevels s.line.cfg bytes)).map fun r => (r.1, BitVec.ofNat 32 (s.line.bitcyc.toNat * r.2))) ++
      (if s.line.ctrl.txenV = true then (g s.line.txenPin false).toList else []) ∧
    (s.transmit bytes).line.txDl = ((s.driveTxen true).txMask).readCcount.1 + BitVec.ofNat 32 (s.line.bitcyc.toNat * (txLevels s.line.cfg bytes).length) := by
  have p : Pend ((s.driveTxen true).txMask.txSample) (inactivePin s.line.cfg) 0 := by
    constructor
    · simp [State.txSample]
    · cases h : inactivePin s.line.cfg <;> simp [State.txSample]
    · cases h : inactivePin s.line.cfg <;> simp [State.txSample]
  have hr : ∀ r ∈ runs (List.replicate 0 (inactivePin s.line.cfg) ++ txLevels s.line.cfg bytes), r.2 ≤ 9 := by
    intro r h
    simp only [List.replicate_zero, List.nil_append, runs_txLevels, List.mem_flatMap] at h
    obtain ⟨b, _, h⟩ := h
    exact runs_frame_le _ b r h
  have m := State.foldl_txBit_view hf hg (txLevels s.line.cfg bytes) ((s.driveTxen true).txMask.txSample) _ 0 (by simpa using hB) (by simpa using h9) hr p
  have hd : ((s.driveTxen true).txMask.txSample).line.txDl = ((s.driveTxen true).txMask).readCcount.1 := by simp [State.txSample]
  rw [hd, State.txSample_view hf, State.txMask_view hf, State.driveTxen_view hf hg] at m
  simp only [State.txSample_line_cfg, State.txMask_line_cfg, State.driveTxen_line_cfg, State.txSample_line_bitcyc, State.txMask_line_bitcyc, State.driveTxen_line_bitcyc, List.replicate_zero, List.nil_append, Nat.zero_add] at m
  unfold State.transmit
  constructor
  · rw [State.driveTxen_view hf hg]
    unfold State.txClose
    rw [State.writeIe_view hf, m.1]
    simp
  · rw [State.driveTxen_line_txDl]
    unfold State.txClose
    have : ∀ (b : Bool) (s : State), (s.writeIe b).line.txDl = s.line.txDl := by intro b s; simp
    rw [this, m.2]

end Sys2Proof.Machine
end

