-- ==== Sys2Proof/Laws/Cycles.lean ====
section
/-! SUPPORT. The counter in unwrapped time: it never goes back, and a wait ends no earlier than its deadline (R160). -/

namespace Sys2Proof.Machine

theorem State.move_cycle (s : State) (m : Move) : s.cycle ≤ (s.move m).cycle := by
  unfold State.move
  split
  · unfold State.envMove
    split
    · simp
    · simp
    · unfold State.takeInterrupt
      split <;> simp
  · simp
  · exact Nat.le_refl _

theorem State.moves_cycle (ms : List Move) : ∀ s : State, s.cycle ≤ (ms.foldl State.move s).cycle := by
  induction ms with
  | nil => exact fun s => Nat.le_refl _
  | cons m ms ih => exact fun s => (s.move_cycle m).trans (ih _)

/-- Successive reads of the counter are non-decreasing in unwrapped time (R226). -/
theorem State.tick_cycle (s : State) : s.cycle ≤ s.tick.cycle := by
  have h : s.dropTurn.cycle = s.cycle := by
    unfold State.dropTurn
    split <;> rfl
  have := State.moves_cycle s.nextTurn s.dropTurn
  rwa [h] at this

theorem State.writeIe_cycle (b : Bool) (s : State) : s.cycle ≤ (s.writeIe b).cycle := s.tick_cycle

theorem State.pinWrite_cycle (p : Pin) (v : Level) (s : State) : (s.pinWrite p v).cycle = s.tick.cycle := by
  simp [State.pinWrite]

theorem State.holdUntil_cycle (m : Word → Nat) (s : State) : s.cycle ≤ (s.holdUntil m).cycle :=
  s.tick_cycle.trans (Nat.le_add_right _ _)

theorem State.splitWait_cycle (d now : Word) (s : State) : s.cycle ≤ (s.splitWait d now).cycle := by
  unfold State.splitWait State.bulkWait
  split
  · exact ((State.writeIe_cycle _ _).trans (State.holdUntil_cycle _ _)).trans (State.writeIe_cycle _ _)
  · exact Nat.le_refl _

theorem State.storeEOvf_cycle (b : Bool) (s : State) : s.cycle ≤ (s.storeEOvf b).cycle := s.tick_cycle

theorem State.storeETail_cycle (t : Nat) (s : State) : s.cycle ≤ (s.storeETail t).cycle := s.tick_cycle

theorem State.foldOverflow_cycle (s : State) : s.cycle ≤ s.foldOverflow.cycle := by
  unfold State.foldOverflow
  split
  · exact s.tick_cycle.trans (State.storeEOvf_cycle _ (s.loadEOvf.2.mapLine _))
  · exact s.tick_cycle

theorem State.recoverStop_cycle (s : State) : s.cycle ≤ s.recoverStop.cycle := by
  unfold State.recoverStop
  split
  · exact Nat.le_refl _
  · exact s.tick_cycle

theorem State.drain_cycle (k : Nat) : ∀ s : State, s.cycle ≤ (State.drain k s).cycle := by
  induction k with
  | zero => exact fun s => Nat.le_refl _
  | succ k ih => exact fun s => s.tick_cycle.trans (ih (s.ePop.2.mapLine _))

theorem State.decodePass_cycle (s : State) : s.cycle ≤ s.decodePass.cycle := by
  unfold State.decodePass
  split
  · have h : s.cycle ≤ (s.log .decodePass).tick.cycle := State.tick_cycle (s.log .decodePass)
    unfold State.passFrom
    split
    · exact h.trans ((State.foldOverflow_cycle _).trans (State.recoverStop_cycle _))
    · exact h.trans ((State.foldOverflow_cycle _).trans (State.drain_cycle _ _))
  · exact Nat.le_refl _

theorem State.driveTxen_cycle (v : Level) (s : State) : s.cycle ≤ (s.driveTxen v).cycle := by
  unfold State.driveTxen
  split
  · rw [State.pinWrite_cycle]
    exact s.tick_cycle
  · exact Nat.le_refl _

theorem State.txMask_cycle (s : State) : s.cycle ≤ s.txMask.cycle := by
  unfold State.txMask
  split
  · exact Nat.le_refl _
  · exact State.writeIe_cycle _ (s.mapLine _)

/-- The wait for a deadline less than half the counter's range ahead ends no earlier than the deadline. -/
theorem untilDeadline_le {d c : Nat} (h : d < c + 2 ^ 31) :
    d ≤ c + untilDeadline (BitVec.ofNat 32 d) (BitVec.ofNat 32 c) := by
  unfold untilDeadline s32
  by_cases hd : d ≤ c
  · omega
  · have e : (BitVec.ofNat 32 d - BitVec.ofNat 32 c).toNat = d - c := by
      rw [BitVec.toNat_sub, BitVec.toNat_ofNat, BitVec.toNat_ofNat]
      omega
    have n : (BitVec.ofNat 32 c - BitVec.ofNat 32 d).toNat = 2 ^ 32 - (d - c) := by
      rw [BitVec.toNat_sub, BitVec.toNat_ofNat, BitVec.toNat_ofNat]
      omega
    rw [if_neg, e]
    · omega
    · rw [BitVec.toInt_eq_toNat_cond, n]
      omega

/-- The bulk wait ends with at most `WAIT_SPLIT` cycles to go (R158). -/
theorem untilSplit_le (d c : Word) (n : Nat) : (d - (c + BitVec.ofNat 32 (untilSplit d n c))).toInt ≤ n := by
  have e : d - (c + BitVec.ofNat 32 (untilSplit d n c)) = d - c - BitVec.ofNat 32 (untilSplit d n c) := by
    rw [BitVec.sub_eq_add_neg, BitVec.neg_add, BitVec.sub_eq_add_neg, BitVec.sub_eq_add_neg, BitVec.sub_eq_add_neg,
      BitVec.add_assoc]
  rw [e]
  unfold untilSplit s32
  generalize d - c = x
  have hx := x.isLt
  by_cases h : x.toInt ≤ n
  · rw [show (x.toInt - n).toNat = 0 by omega]
    simpa using h
  · have hi : x.toInt = x.toNat := by
      rw [BitVec.toInt_eq_toNat_cond] at h ⊢
      split at h <;> omega
    have hn : (x - BitVec.ofNat 32 (x.toInt - n).toNat).toNat = n := by
      rw [BitVec.toNat_sub, BitVec.toNat_ofNat]
      omega
    have hb : x.toNat < 2 ^ 31 := by
      rw [BitVec.toInt_eq_toNat_cond] at hi
      split at hi <;> omega
    rw [BitVec.toInt_eq_toNat_cond, hn, if_pos (by omega)]

/-- DELAY_UNTIL in unwrapped time: it ends no earlier than a deadline less than half the counter's range ahead. -/
theorem State.delayUntil_cycle (s : State) {d : Nat} (h : d < s.cycle + 2 ^ 31) :
    s.cycle ≤ (s.delayUntil (BitVec.ofNat 32 d)).cycle ∧ d ≤ (s.delayUntil (BitVec.ofNat 32 d)).cycle := by
  unfold State.delayUntil
  generalize hu : (s.log (.delayUntil (BitVec.ofNat 32 d))).readCcount.2.splitWait (BitVec.ofNat 32 d) _ = u
  have hs : s.cycle ≤ u.cycle := by
    rw [← hu]
    exact (State.tick_cycle (s.log _)).trans (State.splitWait_cycle _ _ _)
  have ht := u.tick_cycle
  refine ⟨hs.trans (u.holdUntil_cycle _), ?_⟩
  exact untilDeadline_le (c := u.tick.cycle) (by omega)

/-- `times` are cycles of writes, one for each of the spans, each no earlier than the sum of the spans before it,
counted from `d` (R160). -/
def Timed (d : Nat) (spans times : List Nat) : Prop :=
  times.length = spans.length ∧ ∀ k, (h : k < times.length) → d + (spans.take k).sum ≤ times[k]

theorem Timed.nil (d : Nat) : Timed d [] [] := ⟨rfl, fun _ h => absurd h (Nat.not_lt_zero _)⟩

theorem Timed.cons {d n t : Nat} {spans times : List Nat} (h : d ≤ t) (r : Timed (d + n) spans times) :
    Timed d (n :: spans) (t :: times) := by
  refine ⟨by simp [r.1], fun k hk => ?_⟩
  cases k with
  | zero => simpa using h
  | succ k =>
    have := r.2 k (by simpa using hk)
    simp only [List.take_succ_cons, List.sum_cons, List.getElem_cons_succ]
    omega

theorem Timed.append {d : Nat} {a b ta tb : List Nat} (h : Timed d a ta) (r : Timed (d + a.sum) b tb) :
    Timed d (a ++ b) (ta ++ tb) := by
  refine ⟨by simp [h.1, r.1], fun k hk => ?_⟩
  by_cases hk' : k < ta.length
  · rw [List.getElem_append_left hk', List.take_append_of_le_length (by rw [← h.1]; omega)]
    exact h.2 k hk'
  · rw [List.getElem_append_right (by omega), List.take_append, List.take_of_length_le (by rw [← h.1]; omega),
      List.sum_append, ← h.1]
    have := r.2 (k - ta.length) (by simp at hk; omega)
    omega

theorem writeTime_ignores (p : Pin) : Ignores (Event.writeTime? p) := ⟨fun _ => rfl, fun _ => rfl, rfl, fun _ => rfl⟩

/-- One segment in unwrapped time, from a deadline that has passed: its pin write comes after that deadline, its end
after the next. -/
theorem State.txSegment_times (s : State) (v : Level) {d n : Nat} (hd : s.line.txDl = BitVec.ofNat 32 d) (h : d ≤ s.cycle)
    (hn : n < 2 ^ 31) :
    d + n ≤ (s.txSegment v (BitVec.ofNat 32 n)).cycle ∧ ∃ times, Timed d [n] times ∧ ∀ p,
      writeTimes p (s.txSegment v (BitVec.ofNat 32 n)).line.trace =
        writeTimes p s.line.trace ++ (if s.line.cfg.txPin = p then times else []) := by
  unfold State.txSegment
  generalize hu : s.openSegment v (BitVec.ofNat 32 n) = u
  have hdl : u.line.txDl = BitVec.ofNat 32 (d + n) := by
    rw [← hu, BitVec.ofNat_add, ← hd]
    simp [State.openSegment]
  have hc : u.cycle = (s.log (.txSegment v (BitVec.ofNat 32 n))).tick.cycle := by
    rw [← hu]
    exact State.pinWrite_cycle s.line.cfg.txPin v (s.log (.txSegment v (BitVec.ofNat 32 n)))
  have hl : s.cycle ≤ u.cycle := by
    rw [hc]
    exact State.tick_cycle (s.log _)
  rw [hdl]
  refine ⟨(u.delayUntil_cycle (by omega)).2, [u.cycle], .cons (h.trans hl) (.nil _), fun p => ?_⟩
  have hp : writeTimes p u.line.trace = writeTimes p s.line.trace ++ (if s.line.cfg.txPin = p then [u.cycle] else []) := by
    rw [hc, ← hu]
    have := State.pinWrite_view (writeTime_ignores p) s.line.cfg.txPin v (s.log (.txSegment v (BitVec.ofNat 32 n)))
    rw [State.log_view] at this
    refine Eq.trans this ?_
    simp only [Event.writeTime?, State.view, writeTimes]
    split <;> simp
  have := State.delayUntil_view (writeTime_ignores p) (BitVec.ofNat 32 (d + n)) u
  refine Eq.trans this ?_
  simpa [Event.writeTime?, State.view, writeTimes] using hp

/-- A flush in unwrapped time. -/
theorem State.flushPair_times {s : State} {v : Level} {k d : Nat} (hB : 2 ≤ s.line.bitcyc.toNat)
    (h9 : 9 * s.line.bitcyc.toNat < 2 ^ 31) (hk : k ≤ 9) (p : Pend s v k) (hd : s.line.txDl = BitVec.ofNat 32 d)
    (h : d ≤ s.cycle) :
    d + s.line.bitcyc.toNat * k ≤ s.flushPair.cycle ∧
    ∃ times, Timed d (if k = 0 then [] else [s.line.bitcyc.toNat * k]) times ∧ ∀ q,
      writeTimes q s.flushPair.line.trace =
        writeTimes q s.line.trace ++ (if s.line.cfg.txPin = q then times else []) := by
  have hc : s.flushPair.cycle = s.flushHigh.flushLow.cycle := rfl
  have ht : s.flushPair.line.trace = s.flushHigh.flushLow.line.trace := rfl
  rw [hc, ht]
  by_cases h0 : k = 0
  · subst h0
    have a : s.line.txHi = 0 := by rw [p.hi]; cases v <;> rfl
    have b : s.line.txLo = 0 := by rw [p.lo]; cases v <;> rfl
    have e : s.flushHigh.flushLow = s := by
      unfold State.flushHigh
      rw [if_pos a]
      unfold State.flushLow
      rw [if_pos b]
    rw [e]
    exact ⟨by simpa using h, [], by simpa using Timed.nil d, fun q => by simp⟩
  · have hne := period_ne_zero hB h9 (by omega) hk
    have hn : s.line.bitcyc.toNat * k < 2 ^ 31 := by
      have := Nat.mul_le_mul_left s.line.bitcyc.toNat hk
      omega
    have e : s.flushHigh.flushLow = s.txSegment v (BitVec.ofNat 32 (s.line.bitcyc.toNat * k)) := by
      have a := p.hi
      have b := p.lo
      cases v with
      | true =>
        simp only [if_true] at a b
        unfold State.flushLow
        rw [if_pos (by simp [b])]
        unfold State.flushHigh
        rw [if_neg (by rw [a]; exact hne), a]
      | false =>
        simp at a b
        unfold State.flushHigh
        rw [if_pos (by simp [a])]
        unfold State.flushLow
        rw [if_neg (by rw [b]; exact hne), b]
    rw [e, if_neg h0]
    exact s.txSegment_times v hd h hn

/-- TRANSMIT's bit positions and its final flush in unwrapped time. -/
theorem State.foldl_txBit_times (vs : List Level) : ∀ (s : State) (v : Level) (k d : Nat),
    2 ≤ s.line.bitcyc.toNat → 9 * s.line.bitcyc.toNat < 2 ^ 31 → (∀ r ∈ runs (List.replicate k v ++ vs), r.2 ≤ 9) →
    Pend s v k → s.line.txDl = BitVec.ofNat 32 d → d ≤ s.cycle →
    d + s.line.bitcyc.toNat * (k + vs.length) ≤ (vs.foldl State.txBit s).flushPair.cycle ∧
    ∃ times, Timed d ((runs (List.replicate k v ++ vs)).map fun r => s.line.bitcyc.toNat * r.2) times ∧ ∀ q,
      writeTimes q (vs.foldl State.txBit s).flushPair.line.trace =
        writeTimes q s.line.trace ++ (if s.line.cfg.txPin = q then times else []) := by
  induction vs with
  | nil =>
    intro s v k d hB h9 hr p hd h
    simp only [List.foldl_nil, List.append_nil, List.length_nil, Nat.add_zero] at hr ⊢
    cases k with
    | zero => simpa [runs] using State.flushPair_times hB h9 (by omega) p hd h
    | succ k =>
      rw [runs_replicate] at hr ⊢
      simpa using State.flushPair_times hB h9 (by simpa using hr) p hd h
  | cons u us ih =>
    intro s v k d hB h9 hr p hd h
    rw [List.foldl_cons]
    by_cases hu : u = v
    · subst hu
      obtain ⟨p', e⟩ := State.txBit_pend_eq p
      have hrep : List.replicate k u ++ u :: us = List.replicate (k + 1) u ++ us := by
        rw [List.replicate_succ', List.append_assoc]
        rfl
      rw [hrep] at hr ⊢
      have hb : (s.txBit u).line.bitcyc = s.line.bitcyc := by rw [e]; simp
      have hc : (s.txBit u).line.cfg = s.line.cfg := by rw [e]; simp
      have hl : (s.txBit u).line.txDl = s.line.txDl := by rw [e]; cases u <;> simp [Line.addPeriod]
      have ht : (s.txBit u).line.trace = s.line.trace := by rw [e]; cases u <;> simp [Line.addPeriod]
      have hy : (s.txBit u).cycle = s.cycle := by rw [e]; rfl
      have := ih (s.txBit u) u (k + 1) d (by rw [hb]; exact hB) (by rw [hb]; exact h9) hr p' (by rw [hl, hd]) (by rw [hy]; exact h)
      rw [hb, hc, ht] at this
      rwa [List.length_cons, show k + (us.length + 1) = k + 1 + us.length by omega]
    · have p' := State.txBit_pend_ne p hu
      have e : s.txBit u = s.flushPair.mapLine (·.addPeriod u) := by
        unfold State.txBit
        rw [if_neg (by rw [p.prev]; exact hu)]
      have hb : (s.txBit u).line.bitcyc = s.line.bitcyc := by rw [e]; simp
      have hc : (s.txBit u).line.cfg = s.line.cfg := by rw [e]; simp
      have hl : (s.txBit u).line.txDl = s.flushPair.line.txDl := by rw [e]; cases u <;> simp [Line.addPeriod]
      have ht : (s.txBit u).line.trace = s.flushPair.line.trace := by rw [e]; cases u <;> simp [Line.addPeriod]
      have hy : (s.txBit u).cycle = s.flushPair.cycle := by rw [e]; rfl
      have hruns : runs (List.replicate k v ++ u :: us) =
          (if k = 0 then [] else [(v, k)]) ++ runs (List.replicate 1 u ++ us) := by
        cases k with
        | zero => rfl
        | succ k => simpa using runs_replicate_cons (Ne.symm hu) us k
      rw [hruns] at hr ⊢
      have hk : k ≤ 9 := by
        by_cases h0 : k = 0
        · omega
        · exact hr (v, k) (by simp [h0])
      obtain ⟨f1, ft, f2, f3⟩ := State.flushPair_times hB h9 hk p hd h
      have fd := (State.flushPair_view (g := fun _ _ => none) segment_ignores (fun _ _ _ => rfl) hB h9 hk p).2
      obtain ⟨g1, gt, g2, g3⟩ := ih (s.txBit u) u 1 (d + s.line.bitcyc.toNat * k) (by rw [hb]; exact hB) (by rw [hb]; exact h9)
        (fun r hm => hr r (List.mem_append_right _ hm)) p' (by rw [hl, fd, hd, BitVec.ofNat_add]) (by rw [hy]; exact f1)
      rw [hb] at g1 g2
      rw [hc, ht] at g3
      refine ⟨?_, ft ++ gt, ?_, fun q => ?_⟩
      · rw [List.length_cons]
        have : s.line.bitcyc.toNat * (k + (us.length + 1)) =
          s.line.bitcyc.toNat * k + s.line.bitcyc.toNat * (1 + us.length) := by ring
        omega
      · rw [List.map_append]
        by_cases h0 : k = 0
        · simp only [h0, if_true, List.map_nil, Nat.mul_zero, Nat.add_zero] at f2 g2 ⊢
          exact f2.append g2
        · simp only [h0, if_false] at f2 ⊢
          exact f2.append (by simpa using g2)
      · rw [g3, f3]
        split <;> simp

end Sys2Proof.Machine
end

