-- ==== Sys2Proof/Laws/Encoding.lean ====
section
/-! SUPPORT. Fields and packing: the two fields of a command word (30_encoding.md R82), a payload's bytes in its words
(R87), and the bits of a byte under construction (41_decoder.md R127). -/

namespace Sys2Proof

theorem bytesWord_getLsbD (a b c d : Byte) (i : Nat) : (bytesWord a b c d).getLsbD i =
    if i < 8 then a.getLsbD i else if i < 16 then b.getLsbD (i - 8) else if i < 24 then c.getLsbD (i - 16)
    else d.getLsbD (i - 24) := by
  show BitVec.getLsbD (w := 8 + 8 + 8 + 8) (d ++ c ++ b ++ a) i = _
  rw [BitVec.getLsbD_append, BitVec.getLsbD_append, BitVec.getLsbD_append]
  split_ifs <;> first | rfl | omega

theorem wordBytes_bytesWord (a b c d : Byte) : wordBytes (bytesWord a b c d) = [a, b, c, d] := by
  simp only [wordBytes, List.cons.injEq, and_true]
  refine ⟨?_, ?_, ?_, ?_⟩ <;>
    (apply BitVec.eq_of_getLsbD_eq
     intro i hi
     rw [BitVec.getLsbD_extractLsb', bytesWord_getLsbD]
     simp only [hi, decide_true, Bool.true_and]
     split_ifs <;> first | omega | (congr 1; omega))

/-- Packing a payload and unpacking it gives it back, in as many words as R87 says. -/
theorem packPayload_spec (p : List Byte) :
    ((packPayload p).flatMap wordBytes).take p.length = p ∧ (packPayload p).length = payloadWords p.length := by
  induction p using packPayload.induct with
  | case1 => decide
  | case2 a => simp [packPayload, payloadWords, wordBytes_bytesWord]
  | case3 a b => simp [packPayload, payloadWords, wordBytes_bytesWord]
  | case4 a b c => simp [packPayload, payloadWords, wordBytes_bytesWord]
  | case5 a b c d rest ih =>
    obtain ⟨h1, h2⟩ := ih
    refine ⟨?_, ?_⟩
    · simp [packPayload, wordBytes_bytesWord, h1]
    · simp [packPayload, h2, payloadWords]; omega

/-- The fields of a command word (R82). -/
theorem commandWord_fields (op : Byte) (arg : BitVec 24) : opField (commandWord op arg) = op ∧ argField (commandWord op arg) = arg := by
  constructor
  · apply BitVec.eq_of_getLsbD_eq
    intro i hi
    rw [opField, BitVec.getLsbD_extractLsb']
    show (decide (i < 8) && BitVec.getLsbD (w := 8 + 24) (op ++ arg) (24 + i)) = _
    rw [BitVec.getLsbD_append]; simp [hi]
  · apply BitVec.eq_of_getLsbD_eq
    intro i hi
    rw [argField, BitVec.getLsbD_extractLsb']
    show (decide (i < 24) && BitVec.getLsbD (w := 8 + 24) (op ++ arg) (0 + i)) = _
    rw [BitVec.getLsbD_append]; simp [hi]

theorem opField_eq (x : Word) : (opField x).toNat = x.toNat / 2^24 := by
  simp [opField, BitVec.extractLsb'_toNat, Nat.shiftRight_eq_div_pow]; omega

theorem argField_eq (x : Word) : (argField x).toNat = x.toNat % 2^24 := by
  simp [argField]

theorem wordBytes_flat_length (ws : List Word) : (ws.flatMap wordBytes).length = 4 * ws.length := by
  induction ws with
  | nil => rfl
  | cons w ws ih => simp [ih, wordBytes]; omega

theorem unpackPayload_length (n : Nat) (ws : List Word) (h : payloadWords n ≤ ws.length) : (unpackPayload n (ws.take (payloadWords n))).length = n := by
  have : payloadWords n = (n+3)/4 := rfl
  simp [unpackPayload, -List.length_flatMap, wordBytes_flat_length]; omega

theorem wordBytes_get (w : Word) (k : Nat) (h : k < 4) : (wordBytes w)[k]? = some (w.extractLsb' (8*k) 8) := by
  match k, h with
  | 0, _ => rfl
  | 1, _ => rfl
  | 2, _ => rfl
  | 3, _ => rfl

theorem wordBytes_flat_get (ws : List Word) (j : Nat) (w : Word) (h : ws[j/4]? = some w) :
   (ws.flatMap wordBytes)[j]? = some (w.extractLsb' (8 * (j % 4)) 8) := by
  induction ws generalizing j with
  | nil => simp at h
  | cons u ws ih =>
    rw [List.flatMap_cons]
    by_cases hj : j < 4
    · rw [List.getElem?_append_left (by simpa [wordBytes] using hj)]
      have h0 : j/4 = 0 := by omega
      rw [h0] at h; simp at h; subst h
      rw [Nat.mod_eq_of_lt hj]; exact wordBytes_get _ _ hj
    · rw [List.getElem?_append_right (by simp [wordBytes]; omega)]
      have h0 : j/4 = (j-4)/4 + 1 := by omega
      rw [h0] at h; simp at h
      have := ih (j-4) h
      rw [show (j-4)%4 = j%4 by omega] at this
      simpa [wordBytes] using this

namespace Machine

/-- The bits of a byte after `m` shifts of the level `lv` (R127). -/
theorem shiftIn_bits (lv : Level) : ∀ (m : Nat) (b : Byte) (k : Nat), m ≤ 8 → k < 8 →
    (shiftIn lv m b).getLsbD k = if 8 - m ≤ k then lv else b.getLsbD (k + m) := by
  intro m
  induction m with
  | zero => intro b k _ hk; simp [shiftIn]; omega
  | succ m ih =>
    intro b k hm hk
    rw [shiftIn, ih _ _ (by omega) hk]
    have hb : ∀ j, j < 8 → ((b >>> 1) ||| (if lv then 0x80#8 else 0#8)).getLsbD j = if j = 7 then lv else b.getLsbD (j+1) := by
      intro j hj
      have : j = 0 ∨ j = 1 ∨ j = 2 ∨ j = 3 ∨ j = 4 ∨ j = 5 ∨ j = 6 ∨ j = 7 := by omega
      rcases this with rfl | rfl | rfl | rfl | rfl | rfl | rfl | rfl <;> cases lv <;> simp
    by_cases h1 : 8 - m ≤ k
    · rw [if_pos h1, if_pos (by omega)]
    · rw [if_neg h1, hb _ (by omega)]
      by_cases h2 : 8 - (m + 1) ≤ k
      · rw [if_pos (by omega), if_pos h2]
      · rw [if_neg (by omega), if_neg h2, Nat.add_assoc]

end Machine

end Sys2Proof
end

