-- ==== Sys2Proof/Laws/ExecInv.lean ====
section
/-! SUPPORT. That each instruction, each host request and each construction keeps the invariant. -/

namespace Sys2Proof.Machine

theorem inv_line {s : State} (h : StateInv s) : LineInv s.reg s.line := h.line_inv _ (by simp [State.lines])

theorem inv_respond {s : State} (x) (h : StateInv s) : StateInv (s.respond x) :=
  h.keep (s.respond_op x) rfl (.of_eq rfl rfl rfl rfl rfl)

theorem inv_decodePass {s : State} (h : StateInv s) : StateInv s.decodePass :=
  h.keep s.decodePass_op (by simp) s.decodePass_keep

theorem inv_writeIe {s : State} (b) (h : StateInv s) : StateInv (s.writeIe b) :=
  h.keep (s.writeIe_op b) (by simp) (s.writeIe_keep b)

theorem inv_map {s : State} (f : Line → Line) (h : StateInv s) (k : LineKeep s.line (f s.line)) : StateInv (s.mapLine f) :=
  h.keep (s.mapLine_op f) rfl k

theorem inv_mapCtrl {s : State} (f : Line → Line) (h : StateInv s) (hid : (f s.line).id = s.line.id) (hc : (f s.line).cfg = s.line.cfg)
   (hl : LineInv s.reg (f s.line)) : StateInv (s.mapLine f) :=
  h.op (s.mapLine_op f) hid hc hl rfl (fun _ _ _ => rfl)

theorem inv_enableIntTx {s : State} (e) (h : StateInv s) : StateInv (s.mapLine fun l => { l with ctrl := { l.ctrl with intTx := e } }) :=
  inv_mapCtrl _ h rfl rfl { inv_line h with }
theorem inv_notify {s : State} (e) (h : StateInv s) : StateInv (s.mapLine fun l => { l with ctrl := { l.ctrl with notify := e } }) :=
  inv_mapCtrl _ h rfl rfl { inv_line h with }

theorem inv_pinMode {s : State} (p m) (h : StateInv s) : StateInv (s.pinMode p m) :=
  h.keep (s.pinMode_op p m) (by simp) (s.pinMode_keep p m)
theorem inv_pinWrite {s : State} (p m) (h : StateInv s) : StateInv (s.pinWrite p m) :=
  h.keep (s.pinWrite_op p m) (by simp) (s.pinWrite_keep p m)

theorem inv_detach0 {s : State} (h1 : StateInv s) : StateInv (s.mapLine fun l => { l with pendRx := false, ctrl := { l.ctrl with rxArmed := false } }) := by
  have hl := inv_line h1
  refine inv_mapCtrl _ h1 rfl rfl ?_
  exact { hl with one_direction := by simp, armed_started := by simp }
theorem inv_detach {s : State} (h : StateInv s) : StateInv s.detach := inv_detach0 h.tick

theorem inv_setTxen {s : State} (v p) (h : StateInv s) : ∀ t, execSetTxen v p s = .next t → StateInv t := by
  intro t ht
  unfold execSetTxen at ht
  cases ht
  split
  · rename_i hc
    apply inv_respond; apply inv_pinWrite; apply inv_pinMode
    refine inv_mapCtrl _ h rfl rfl { inv_line h with txen_apart := ?_ }
    intro _
    simp [State.txenUsable] at hc
    exact ⟨hc.2.1.2, hc.2.2⟩
  · apply inv_respond
    exact inv_mapCtrl _ h rfl rfl { inv_line h with txen_apart := by simp }

theorem inv_dirT {s : State} (h : StateInv s) (a : s.line.halfDup = true) (b : s.line.ctrl.rxArmed = false) :
   StateInv (s.mapLine fun l => { l with ctrl := { l.ctrl with txDir := true } }) := by
  have hl := inv_line h
  exact inv_mapCtrl _ h rfl rfl { hl with
        txDir_half := by intro _; exact a
        one_direction := by intro _ ; simp [b] }
theorem inv_dirR {s : State} (h : StateInv s) (a : s.line.halfDup = true) (b : s.line.ctrl.life = .started) :
   StateInv (s.mapLine fun l => { l with pendRx := false, ctrl := { l.ctrl with rxArmed := true, txDir := false } }) := by
  have hl := inv_line h
  exact inv_mapCtrl _ h rfl rfl { hl with
        txDir_half := by simp
        one_direction := by simp
        armed_started := fun _ => ⟨b, (by have := hl.halfDup_eq; rw [a] at this; simp at this; exact this.1.1)⟩ }

theorem inv_enableTx {s : State} (e) (h : StateInv s) : ∀ t, execEnableTx e s = .next t → StateInv t := by
  intro t ht
  unfold execEnableTx at ht
  cases ht
  split
  · rename_i hc
    simp at hc
    split
    · apply inv_respond
      exact inv_dirT (inv_pinWrite (s.line.cfg.txPin) (inactivePin s.line.cfg) (inv_pinMode s.line.cfg.txPin (.output s.line.id) (inv_detach h)))
         (by simpa using hc.1) (by simp)
    · split
      · apply inv_respond
        exact inv_dirR (s := (s.pinMode s.line.cfg.rxPin .input).tick) (inv_pinMode s.line.cfg.rxPin .input h).tick (by simpa using hc.1) (by simpa using hc.2)
      · exact inv_respond _ h
  · exact inv_respond _ h

theorem inv_beginTx {s : State} (h : StateInv s) : StateInv s.beginTx := by
  unfold State.beginTx; split
  · exact inv_pinWrite _ _ (inv_pinMode _ _ h)
  · exact h

theorem inv_releaseSlot {s : State} (h : StateInv s) (hs : s.line.ctrl.life = .started) (ha : s.line.ctrl.rxArmed = false) : StateInv s.releaseSlot := by
  have hl := inv_line h
  have hslot := hl.slot_started.mpr hs
  have hreg := hl.slot_reg hslot
  refine h.op ⟨rfl, rfl, forall₂_refl _, fun w => w⟩ rfl rfl ?_ (by simp [State.releaseSlot]) ?_
  · exact { hl with
      slot_started := by simp [State.releaseSlot]
      slot_reg := by simp [State.releaseSlot]
      armed_started := by simp [State.releaseSlot, ha]
      period := by simp [State.releaseSlot] }
  · intro l hlm hne
    have hlo := h.line_inv l (by simp [State.lines, hlm])
    have := hlo.slot_reg hne
    simp only [State.releaseSlot]
    rw [List.getElem?_set]
    split
    · rename_i heq
      rw [← heq, hreg] at this
      simp at this
      have hnd := h.ids_nodup
      simp [State.lines] at hnd
      exact absurd this.symm (fun e => hnd.1 l hlm e)
    · rfl

theorem inv_end {s : State} (h : StateInv s) : ∀ t, execEnd s = .next t → StateInv t := by
  intro t ht
  unfold execEnd at ht
  cases ht
  split
  · rename_i hs
    apply inv_respond; apply inv_writeIe
    have h1 := inv_writeIe false h
    have hd : StateInv (s.writeIe false).disarm := by
      unfold State.disarm; split
      · exact inv_detach h1
      · exact h1
    refine inv_releaseSlot hd ?_ ?_
    · unfold State.disarm; split <;> simp [hs]
    · unfold State.disarm; split
      · simp
      · simp_all
  · exact inv_respond _ h

theorem beginTx_op (s : State) : OpRel s s.beginTx := by
  unfold State.beginTx; split
  · exact (s.pinMode_op _ _).trans (State.pinWrite_op _ _ _)
  · exact .refl _
theorem beginTx_keep (s : State) : LineKeep s.line s.beginTx.line := by
  unfold State.beginTx; split
  · exact (s.pinMode_keep _ _).trans (State.pinWrite_keep _ _ _)
  · exact .refl _
theorem beginRx_op (s : State) : OpRel s s.beginRx := by
  unfold State.beginRx; split
  · exact (s.pinMode_op _ _).trans (State.attach_op _)
  · exact .refl _

/-- The start of a line keeps the invariant: its line's is that of the started line from the first restart on. -/
theorem startLine_inv {s : State} (bn k : Nat) (h : StateInv s) (hk : s.reg[k]? = some none)
   (hb : bitPeriodOk bn = true) (hns : s.line.ctrl.life ≠ .started) : StateInv (s.startLine bn k) := by
  have hl := inv_line h
  have hklen : k < s.reg.length := by
    by_contra hc
    simp [List.getElem?_eq_none (Nat.le_of_not_lt hc)] at hk
  have hk255 : k < 255 := Nat.lt_of_lt_of_le hklen h.slots_le
  have harm : s.line.ctrl.rxArmed = false := by
    by_contra hc
    simp at hc
    exact hns (hl.armed_started hc).1
  simp [bitPeriodOk] at hb
  have hleg := hl.legal
  simp [cfgLegal] at hleg
  have key : ∀ now, LineInv (s.reg.set k (some s.line.id)) (((s.line.restart bn k now).setLife .started)) := by
    intro now
    constructor
    · exact hl.legal
    · exact hl.halfDup_eq
    · simp; omega
    · simp; omega
    · simp; omega
    · simp; omega
    · exact RxPos.code_le _
    · simp
    · simp
    · simp
      intro hc
      have := congrArg BitVec.toNat hc
      simp at this
      omega
    · intro _
      simp
      rw [Nat.mod_eq_of_lt (by omega)]
      rw [List.getElem?_set_self hklen]
    · simp [harm]
    · intro _
      simp
      rw [Nat.mod_eq_of_lt (by omega)]
      omega
    · simpa using hl.txen_apart
    · exact hl.slotE_wf
    · exact hl.slotB_wf
  have setLife_keep : ∀ {l m : Line} (x), LineKeep l m → LineKeep (l.setLife x) (m.setLife x) := by
    intro l m x k
    have e := k.control
    simp only [Line.control, Prod.mk.injEq] at e
    refine ⟨?_, k.eHead_lt, k.eTail_lt, k.bHead_lt, k.bTail_lt, k.slotE_wf, k.slotB_wf⟩
    simp [Line.control, e]
  have hop : OpRel s (s.startLine bn k) := by
    have h0 : OpRel s (s.takeSlot k) := ⟨rfl, rfl, forall₂_refl _, fun w => w⟩
    have h1 : OpRel (s.takeSlot k) ((s.takeSlot k).restartLine bn k) := (State.tick_op _).trans (State.mapLine_op _ _)
    exact (((h0.trans h1).trans (beginTx_op _)).trans (beginRx_op _)).trans (State.mapLine_op _ _)
  have hreg : (s.startLine bn k).reg = s.reg.set k (some s.line.id) := by
    simp [State.startLine, State.beginRx, State.beginTx, State.restartLine]
    split <;> split <;> simp [State.takeSlot]
  refine h.op hop ?_ ?_ ?_ (by rw [hreg]; simp) ?_
  · simp [State.startLine, State.beginRx, State.beginTx, State.restartLine]
    split <;> split <;> simp [State.takeSlot]
  · simp [State.startLine, State.beginRx, State.beginTx, State.restartLine]
    split <;> split <;> simp [State.takeSlot]
  · rw [hreg]
    set now := (s.takeSlot k).tick.ccount with hnow
    have k1 : LineKeep (s.line.restart bn k now) ((s.takeSlot k).restartLine bn k).line := by
      have kt := State.tick_keep (s.takeSlot k)
      have e := kt.control
      simp only [Line.control, Prod.mk.injEq] at e
      have e' : (s.takeSlot k).line = s.line := rfl
      simp [e'] at e
      refine ⟨?_, ?_, ?_, ?_, ?_, kt.slotE_wf, kt.slotB_wf⟩
      · simp [Line.control, State.restartLine, e']
      all_goals simp [State.restartLine]
    have k2 := k1.trans (beginTx_keep _)
    have k3 := (setLife_keep .started k2).inv (key now)
    unfold State.startLine State.beginRx
    split
    · rename_i hv
      have k4 := (setLife_keep .started (k2.trans ((State.pinMode_keep ((s.takeSlot k).restartLine bn k).beginTx.line.cfg.rxPin .input _).trans (State.tick_keep _)))).inv (key now)
      have ht : ((s.takeSlot k).restartLine bn k).beginTx.line.ctrl.txDir = false := by
         unfold State.beginTx; split <;> simp [State.restartLine]
      refine { k4 with one_direction := ?_, armed_started := ?_ , txDir_half := ?_}
      · simp [ht]
      · intro _ _; simp [ht]
      · intro _; simpa using hv
    · exact k3
  · intro l hlm hne
    have := (h.line_inv l (by simp [State.lines, hlm])).slot_reg hne
    rw [hreg, List.getElem?_set]
    split
    · rename_i heq
      rw [← heq, hk] at this
      simp at this
    · rfl

theorem freeSlot_spec {s : State} {k} (h : s.freeSlot = some k) : s.reg[k]? = some none := by
  unfold State.freeSlot at h
  rw [List.findIdx?_eq_some_iff_getElem] at h
  obtain ⟨hl, h1, _⟩ := h
  simp at h1
  simp [h1, hl]

theorem inv_begin {s : State} (b) (h : StateInv s) : ∀ t, execBegin b s = .next t → StateInv t := by
  intro t ht
  unfold execBegin at ht
  cases ht
  split
  · exact inv_respond _ h
  · split
    · rename_i hb
      generalize bitPeriod s.par.fCpu b.toNat = bn at *
      unfold State.beginWith
      split
      · rename_i hs
        apply inv_respond
        have hl := inv_line h
        refine inv_mapCtrl _ h rfl rfl { hl with period := ?_ }
        intro _
        simp [bitPeriodOk] at hb
        simp
        rw [Nat.mod_eq_of_lt (by omega)]
        omega
      · rename_i hs
        unfold State.beginMasked
        have h1 := inv_writeIe false h
        split
        · apply inv_respond
          exact inv_map _ (inv_writeIe _ h1) (.of_eq rfl rfl rfl rfl rfl)
        · rename_i k hk
          apply inv_respond; apply inv_writeIe
          exact startLine_inv _ _ h1 (freeSlot_spec hk) hb (by simpa using hs)
    · exact inv_respond _ h

theorem inv_exec {s : State} (i) (h : StateInv s) : ∀ t, exec i s = .next t → StateInv t := by
  intro t ht
  cases i with
  | beginLine b => exact inv_begin b h t ht
  | endLine => exact inv_end h t ht
  | setTxen v p => exact inv_setTxen v p h t ht
  | enableIntTx e => cases ht; exact inv_respond _ (inv_enableIntTx e h)
  | enableTx e => exact inv_enableTx e h t ht
  | read => cases ht; exact inv_respond _ (inv_map _ (inv_decodePass h) (Line.bDrop_keep _))
  | peek => cases ht; exact inv_respond _ (inv_decodePass h)
  | available =>
    cases ht
    apply inv_respond
    unfold State.retryPass
    split
    · apply inv_decodePass
      exact (inv_decodePass h).keep (State.yieldCycles_op _ _) (by simp) (State.tick_keep _)
    · exact inv_decodePass h
  | write p =>
    simp only [exec, execWrite] at ht
    split at ht
    · cases ht; exact inv_respond _ (inv_decodePass h)
    · split at ht
      · cases ht
      · cases ht
        apply inv_respond
        exact (inv_decodePass h).keep (State.transmit_op _ _) (by simp) (State.transmit_keep _ _)
  | flush =>
    cases ht
    apply inv_respond
    have h1 := h.tick
    have hl := inv_line h1
    have h2 : StateInv (s.tick.storeETail s.tick.line.eHead) :=
      h1.keep (State.storeETail_op _ _) (by simp) (State.storeETail_keep (fun _ => hl.eHead_lt))
    exact inv_mapCtrl _ h2 rfl rfl { inv_line h2 with bTail_lt := (inv_line h2).bHead_lt }
  | overflow => cases ht; exact inv_respond _ (inv_map _ h (.of_eq rfl rfl rfl rfl rfl))
  | poll =>
    cases ht
    apply inv_respond
    unfold State.notifyHost
    split
    · exact inv_map _ (inv_decodePass h) (.of_eq rfl rfl rfl rfl rfl)
    · exact inv_decodePass h
  | setNotify e => cases ht; exact inv_respond _ (inv_notify e h)
  | edgeCapture => cases ht; exact inv_map _ h (Line.capture_rel _ _ _).keep
  | decodePass => cases ht; exact inv_decodePass h
  | processEdge w => cases ht; exact inv_map _ h (Line.processEdge_keep _ _)
  | txSegment v d => cases ht; exact h.keep (State.txSegment_op _ _ _) (by simp) (State.txSegment_keep _ _ _)
  | delayUntil d => cases ht; exact h.keep (State.delayUntil_op _ _) (by simp) (State.delayUntil_keep _ _)

theorem shares_symm (c d : Cfg) : cfgShares c d = cfgShares d c := by
  rw [Bool.eq_iff_iff]
  simp [cfgShares]
  constructor
  · rintro (⟨h, h1 | h1⟩ | ⟨h, h1 | h1⟩) <;> simp_all
  · rintro (⟨h, h1 | h1⟩ | ⟨h, h1 | h1⟩) <;> simp_all

theorem inv_perm {s t : State} (h : StateInv s) (hp : t.lines.Perm s.lines) (hr : t.reg = s.reg) (hpins : t.pins = s.pins) : StateInv t := by
  refine ⟨fun l hl => ?_, ?_, fun l hl => ?_, by rw [hr]; exact h.slots_le, ?_, by rw [hpins]; exact h.pins_wf⟩
  · rw [hr]; exact h.line_inv l (hp.mem_iff.mp hl)
  · exact (hp.map _).nodup_iff.mpr h.ids_nodup
  · rw [hp.length_eq]; exact h.ids_lt l (hp.mem_iff.mp hl)
  · refine (hp.pairwise_iff ?_).mpr h.pins_apart
    intro a b hab; rw [shares_symm]; exact hab

theorem inv_select {s : State} (id) (h : StateInv s) : StateInv (s.select id) := by
  unfold State.select
  split
  · rename_i l hl
    refine inv_perm h ?_ rfl rfl
    have hid : l.id = id := by
      have := List.find?_some hl; simpa using this
    obtain ⟨as, bs, hab⟩ := List.append_of_mem (List.mem_of_find?_eq_some hl)
    have hnd := h.ids_nodup
    simp only [State.lines, hab]
    simp only [State.lines, hab, List.map_cons, List.map_append, List.nodup_cons, List.nodup_append, List.mem_append, List.mem_cons, List.mem_map] at hnd
    have hm : ∀ (cs : List Line), (∀ c ∈ cs, c.id ≠ id) → cs.map (fun m => if (m.id == id) = true then s.line else m) = cs := by
      intro cs hcs
      conv_rhs => rw [← List.map_id cs]
      apply List.map_congr_left
      intro c hc
      simp [hcs c hc]
    rw [List.map_append, List.map_cons, hm as, hm bs]
    · simp [hid]
      refine List.Perm.trans ?_ (List.Perm.cons _ List.perm_middle.symm)
      refine List.Perm.trans (List.Perm.cons _ List.perm_middle) ?_
      exact List.Perm.swap _ _ _
    · intro c hc e
      obtain ⟨h1, h2, ⟨h3, h4⟩, h5⟩ := hnd
      exact h3 ⟨c, hc, by rw [e, hid]⟩
    · intro c hc e
      obtain ⟨h1, h2, ⟨h3, h4⟩, h5⟩ := hnd
      exact h5 c.id ⟨c, hc, rfl⟩ l.id (Or.inl rfl) (by rw [e, hid])
  · exact h

/-- The legal ranges of R22. -/
theorem cfgLegal_iff (c : Cfg) : cfgLegal c = true ↔ 2 ≤ c.nb ∧ c.nb ≤ 65535 ∧ 2 ≤ c.ne ∧ c.ne ≤ 2 ^ 31 := by
  simp [cfgLegal, and_assoc]

theorem reset_line_inv (par : Params) (reg : List (Option Nat)) (n : Nat) (cfg : Cfg) (hc : cfgLegal cfg = true) :
    LineInv reg (Line.reset par n cfg) := by
  have hl := hc
  simp [cfgLegal] at hl
  refine ⟨hc, rfl, ?_, ?_, ?_, ?_, RxPos.code_le _, ?_, ?_, ?_, ?_, ?_, ?_, ?_, rfl, rfl⟩
  · show 0 < cfg.ne; omega
  · show 0 < cfg.ne; omega
  · show 0 < cfg.nb; omega
  · show 0 < cfg.nb; omega
  all_goals simp [Line.reset]

theorem inv_construct {s : State} (a) (h : StateInv s) : ∀ t, s.construct a = .next t → StateInv t := by
  intro t ht
  unfold State.construct at ht
  split at ht
  · rename_i hc
    cases ht
    simp only [Bool.and_eq_true, Bool.not_eq_true', List.any_eq_false] at hc
    obtain ⟨hleg, hsh⟩ := hc
    have hlines : ({ s with ie := true, others := s.others ++ [Line.reset s.par s.lines.length (cfgOf a)] } : State).lines = s.lines ++ [Line.reset s.par s.lines.length (cfgOf a)] := by
      simp [State.lines]
    refine ⟨?_, ?_, ?_, h.slots_le, ?_, h.pins_wf⟩
    · intro l hl
      rw [hlines] at hl
      rcases List.mem_append.mp hl with hl | hl
      · exact h.line_inv l hl
      · simp at hl; subst hl; exact reset_line_inv _ _ _ _ hleg
    · rw [hlines, List.map_append, List.nodup_append]
      refine ⟨h.ids_nodup, by simp, ?_⟩
      intro x hx y hy e
      obtain ⟨l, hl, rfl⟩ := List.mem_map.mp hx
      simp [Line.reset] at hy
      have := h.ids_lt l hl
      omega
    · intro l hl
      rw [hlines] at hl ⊢
      rcases List.mem_append.mp hl with hl | hl
      · have := h.ids_lt l hl; simp; omega
      · simp at hl; subst hl; simp [Line.reset]
    · rw [hlines, List.pairwise_append]
      refine ⟨h.pins_apart, by simp, ?_⟩
      intro l hl m hm
      simp at hm; subst hm
      have := hsh l hl
      rw [shares_symm]
      simpa [Line.reset] using this
  · cases ht

theorem inv_cpos {s : State} (n) (h : StateInv s) : StateInv (s.advanceCpos n) :=
  inv_mapCtrl _ h rfl rfl { inv_line h with }

theorem inv_onNext {o : Host.Outcome State Fault Refusal} {f : State → State} (ho : ∀ t, o = .next t → StateInv t)
   (hf : ∀ t, StateInv t → StateInv (f t)) : ∀ t, onNext o f = .next t → StateInv t := by
  intro t ht
  cases o with
  | next s => cases ht; exact hf _ (ho _ rfl)
  | fault r => cases ht
  | refused r => cases ht

end Sys2Proof.Machine
end

