-- ==== Sys2Proof/Laws/ExecOp.lean ====
section
/-! SUPPORT. What every instruction leaves as it was outside the active line (10_state.md R10, 60_exceptions.md R233). -/

namespace Sys2Proof.Machine

theorem forall₂_foreground {as bs : List Line} (h : List.Forall₂ LineRel as bs) : bs.map Line.foreground = as.map Line.foreground := by
  induction h with
  | nil => rfl
  | cons r _ ih => simp [r.foreground, ih]

/-- What an operation leaves of the other lines and the parameters. -/
theorem OpRel.same {s t : State} (h : OpRel s t) : SameElsewhere s t := ⟨h.par, h.action, forall₂_foreground h.others⟩

theorem startLine_op (s : State) (bn k) : OpRel s (s.startLine bn k) := by
    have h0 : OpRel s (s.takeSlot k) := ⟨rfl, rfl, forall₂_refl _, fun w => w⟩
    have h1 : OpRel (s.takeSlot k) ((s.takeSlot k).restartLine bn k) := (State.tick_op _).trans (State.mapLine_op _ _)
    exact (((h0.trans h1).trans (beginTx_op _)).trans (beginRx_op _)).trans (State.mapLine_op _ _)

/-- Every instruction that goes on is an operation of the active line. -/
theorem exec_op (i : Instr) (s t : State) (h : exec i s = .next t) : OpRel s t := by
  cases i with
  | beginLine b =>
    simp only [exec, execBegin] at h
    cases h
    split
    · exact s.respond_op _
    · split
      · unfold State.beginWith
        split
        · exact (s.mapLine_op _).trans (State.respond_op _ _)
        · unfold State.beginMasked
          split
          · exact (((s.writeIe_op _).trans (State.writeIe_op _ _)).trans (State.mapLine_op _ _)).trans (State.respond_op _ _)
          · exact (((s.writeIe_op _).trans (startLine_op _ _ _)).trans (State.writeIe_op _ _)).trans (State.respond_op _ _)
      · exact s.respond_op _
  | endLine =>
    simp only [exec, execEnd] at h
    cases h
    split
    · have : OpRel (s.writeIe false) (s.writeIe false).disarm := by
        unfold State.disarm; split
        · exact State.detach_op _
        · exact .refl _
      have h2 : OpRel (s.writeIe false).disarm (s.writeIe false).disarm.releaseSlot := ⟨rfl, rfl, forall₂_refl _, fun w => w⟩
      exact ((((s.writeIe_op _).trans this).trans h2).trans (State.writeIe_op _ _)).trans (State.respond_op _ _)
    · exact s.respond_op _
  | setTxen v p =>
    simp only [exec, execSetTxen] at h
    cases h
    split
    · exact (((s.mapLine_op _).trans (State.pinMode_op _ _ _)).trans (State.pinWrite_op _ _ _)).trans (State.respond_op _ _)
    · exact (s.mapLine_op _).trans (State.respond_op _ _)
  | enableIntTx e => cases h; exact (s.mapLine_op _).trans (State.respond_op _ _)
  | enableTx e =>
    simp only [exec, execEnableTx] at h
    cases h
    split
    · split
      · exact ((((s.detach_op).trans (State.pinMode_op _ _ _)).trans (State.pinWrite_op _ _ _)).trans (State.mapLine_op _ _)).trans (State.respond_op _ _)
      · split
        · exact (((State.pinMode_op _ _ _).trans (State.attach_op _)).trans (State.mapLine_op _ _)).trans (State.respond_op _ _)
        · exact s.respond_op _
    · exact s.respond_op _
  | read => cases h; exact (s.decodePass_op.trans (State.mapLine_op _ _)).trans (State.respond_op _ _)
  | peek => cases h; exact s.decodePass_op.trans (State.respond_op _ _)
  | available =>
    cases h
    refine (s.decodePass_op.trans ?_).trans (State.respond_op _ _)
    unfold State.retryPass; split
    · exact (State.yieldCycles_op _ _).trans (State.decodePass_op _)
    · exact .refl _
  | write p =>
    simp only [exec, execWrite] at h
    split at h
    · cases h; exact s.decodePass_op.trans (State.respond_op _ _)
    · split at h
      · cases h
      · cases h; exact (s.decodePass_op.trans (State.transmit_op _ _)).trans (State.respond_op _ _)
  | flush => cases h; exact (((s.tick_op).trans (State.storeETail_op _ _)).trans (State.mapLine_op _ _)).trans (State.respond_op _ _)
  | overflow => cases h; exact (s.mapLine_op _).trans (State.respond_op _ _)
  | poll =>
    cases h
    refine (s.decodePass_op.trans ?_).trans (State.respond_op _ _)
    unfold State.notifyHost; split
    · exact State.log_op _ _
    · exact .refl _
  | setNotify e => cases h; exact (s.mapLine_op _).trans (State.respond_op _ _)
  | edgeCapture => cases h; exact s.mapLine_op _
  | decodePass => cases h; exact s.decodePass_op
  | processEdge w => cases h; exact s.mapLine_op _
  | txSegment v d => cases h; exact State.txSegment_op _ _ _
  | delayUntil d => cases h; exact State.delayUntil_op _ _

end Sys2Proof.Machine
end

