-- ==== Sys2Proof/Laws/Fairness.lean ====
section
/-! SUPPORT. R102's weak fairness: the environment can meet it, by a delivery in a new cycle, and one that never moves
does not. -/

namespace Sys2Proof.Machine

theorem Line.ePush_captures (w : Word) (l : Line) : captures (l.ePush w).trace = captures l.trace := by
  unfold Line.ePush
  split
  · simp [captures, Event.captured?]
  · rfl

/-- A taken interrupt records one capture. -/
theorem State.enterIsr_captures (s : State) (l : Line) :
    captures (s.enterIsr l).trace = captures l.trace ++ [mkEdge s.ccount (s.pinLevel l.id l.cfg.rxPin)] := by
  unfold State.enterIsr Line.capture
  rw [Line.ePush_captures]
  simp [captures, Event.captured?]

/-- A delivery captures on the lines it may interrupt, and on no other: the count of captures of the lines it is for. -/
theorem State.takeInterrupt_capturedBy {s : State} {slot id : Nat} (hr : s.reg[slot]? = some (some id)) :
    ((s.takeInterrupt slot).capturedBy id).length =
      (s.capturedBy id).length + (s.lines.filter fun l => l.id == id && s.mayTake l).length := by
  have hl : (s.takeInterrupt slot).lines =
      s.lines.map fun l => if (l.id == id && s.mayTake l) = true then s.enterIsr l else l := by
    unfold State.takeInterrupt
    rw [hr]
    rfl
  have hid : ∀ l : Line, (s.enterIsr l).id = l.id := fun l => (s.enterIsr_rel l).id_eq
  unfold State.capturedBy
  rw [hl]
  generalize s.lines = ls
  induction ls with
  | nil => rfl
  | cons l ls ih =>
    by_cases h : l.id = id <;> by_cases k : s.mayTake l = true <;>
      simp_all [State.enterIsr_captures] <;> omega

/-- A delivery in a cycle in which the line has not read the counter captures, if the interrupt is due. -/
theorem State.delivery_captures {s : State} {slot id : Nat} (hr : s.reg[slot]? = some (some id)) {l : Line}
    (hl : l ∈ s.lines) (hid : l.id = id) (hd : s.isrDue l = true) (hc : l.capCycle ≠ some s.cycle) :
    (s.takeInterrupt slot).capturedBy id ≠ s.capturedBy id := by
  intro e
  have h := State.takeInterrupt_capturedBy hr
  rw [e] at h
  have hm : l ∈ s.lines.filter fun l => l.id == id && s.mayTake l := by simp [State.mayTake, hl, hid, hd, hc]
  have := List.length_pos_of_mem hm
  omega

/-- An environment that never lets a due interrupt be taken is not fair. -/
theorem not_weaklyFair {run : Nat → State} {id : Nat} (hd : ∀ j, (run j).IsrDue id)
    (hc : ∀ j, (run j).tick.capturedBy id = (run j).capturedBy id) : ¬ WeaklyFair run := by
  intro h
  obtain ⟨j, -, hj⟩ := h id 0 fun j _ => hd j
  exact hj (hc j)

end Sys2Proof.Machine
end

