-- ==== Sys2Proof/Laws/PerInstr.lean ====
section
/-! SUPPORT. Statements made of every instruction as syntax, one lemma per constructor. -/

namespace Sys2Proof.Laws.EncodeLength

/-- An instruction's words are as many as `Instr.words` says (30_encoding.md R89). -/
def Statement (i : Instr) : Prop := (encode i).length = i.words

theorem beginLine (b : BitVec 24) : Statement (.beginLine b) := rfl

theorem endLine : Statement (.endLine) := rfl

theorem setTxen (v : Bool) (p : Pin) : Statement (.setTxen v p) := rfl

theorem enableIntTx (e : Bool) : Statement (.enableIntTx e) := rfl

theorem enableTx (e : Bool) : Statement (.enableTx e) := rfl

theorem read : Statement (.read) := rfl

theorem peek : Statement (.peek) := rfl

theorem available : Statement (.available) := rfl

theorem write (payload : List Byte) : Statement (.write payload) := by
  show (packPayload payload).length + 1 = 1 + payloadWords payload.length
  rw [(packPayload_spec payload).2, Nat.add_comm]

theorem flush : Statement (.flush) := rfl

theorem overflow : Statement (.overflow) := rfl

theorem poll : Statement (.poll) := rfl

theorem setNotify (e : Bool) : Statement (.setNotify e) := rfl

theorem edgeCapture : Statement (.edgeCapture) := rfl

theorem decodePass : Statement (.decodePass) := rfl

theorem processEdge (w : Word) : Statement (.processEdge w) := rfl

theorem txSegment (v : Level) (dur : Word) : Statement (.txSegment v dur) := rfl

theorem delayUntil (d : Word) : Statement (.delayUntil d) := rfl

end Sys2Proof.Laws.EncodeLength
end

