-- ==== Sys2Proof/Tests/Slice0.lean ====
section
/-! SUPPORT. Tests on single steps, their expected values from spec/95_test_vectors.md or by hand from the rules named,
and a witness for the hypotheses of every obligation that has some. -/

namespace Sys2Proof.Tests

open Sys2Proof.Machine

/-! ### Small states -/

/-- The line of `State.reset`. -/
def fresh : Line := State.reset.line

/-- Control register of a started line that receives. -/
def running : Ctrl :=
  { life := .started, intTx := true, txDir := false, rxArmed := true, txenV := false, notify := false }

/-- A started full-duplex line with `B = 10000` (conventions of 95_test_vectors.md). -/
def duplex : Line := { fresh with ctrl := running, slot := 0, bitcyc := 10000, rxLast := 0x0000C351 }

/-- A started one-wire line in the receive direction. -/
def oneWire : Line :=
  { Line.reset Params.reset 0 { Cfg.reset with txPin := 4 } with ctrl := running, slot := 0, bitcyc := 10000 }

/-- The same in the transmit direction. -/
def oneWireOut : Line := { oneWire with ctrl := { running with txDir := true, rxArmed := false } }

/-- A started line whose edge ring of four slots holds `n` words from slot 0. -/
def withEdges (n : Nat) : Line :=
  { duplex with cfg := { Cfg.reset with ne := 4 }, slotE := [(0, 0x000186A0), (1, 0x0001ADB1), (2, 0x0001D4C0)], eHead := n }

/-- A started line that holds the byte 0x41. -/
def withByte : Line := { duplex with slotB := [(0, 0x41)], bHead := 1 }

/-- A started line that is mid-byte (W5). -/
def midByte (p : RxPos) : Line := { duplex with rxPos := p, rxLast := 0x000249F1 }

/-- A machine with the line `l`, its registry of one slot, and `n` turns in which the environment does nothing. -/
def machine (n : Nat) (l : Line) : State :=
  { State.reset with line := l, reg := [if l.ctrl.life = .started then some 0 else none], env := List.replicate n [] }

/-- The invariant of a `machine`, as a check. -/
abbrev LineOk (l : Line) : Prop :=
  (cfgLegal l.cfg = true ∧ l.halfDup = (l.rxValid && l.txValid && l.cfg.rxPin == l.cfg.txPin) ∧ l.id = 0) ∧
  (l.eHead < l.cfg.ne ∧ l.eTail < l.cfg.ne ∧ l.bHead < l.cfg.nb ∧ l.bTail < l.cfg.nb ∧ l.rxPos.code.toNat ≤ 9) ∧
  ((l.ctrl.txDir = true → l.halfDup = true) ∧
    (l.halfDup = true → l.ctrl.rxArmed = true → l.ctrl.txDir = false) ∧
    (l.slot = 0 ∧ l.ctrl.life = .started ∨ l.slot = 0xFF ∧ l.ctrl.life ≠ .started) ∧
    (l.ctrl.rxArmed = true → l.ctrl.life = .started ∧ l.rxValid = true)) ∧
  (l.ctrl.life = .started → 2 ≤ l.bitcyc.toNat ∧ 9 * l.bitcyc.toNat < 2 ^ 31) ∧
  (l.ctrl.txenV = true → l.txenPin ≠ l.cfg.rxPin ∧ l.txenPin ≠ l.cfg.txPin) ∧
  (l.slotE.wf unwrittenEdge = true ∧ l.slotB.wf unwrittenByte = true)

theorem machine_inv (n : Nat) {l : Line} (h : LineOk l) : StateInv (machine n l) := by
  obtain ⟨⟨h1, h2, h0⟩, ⟨h3, h4, h5, h6, h7⟩, ⟨h8, h9, h10, h11⟩, h12, h13, h14, h15⟩ := h
  refine ⟨?_, by simp [machine, State.lines, State.reset, State.boot], ?_, by simp [machine],
    by simp [machine, State.lines, State.reset, State.boot], by simp [machine, State.reset, State.boot, Memory.wf]⟩
  · intro m hm
    have e : m = l := by simpa [machine, State.lines, State.reset, State.boot] using hm
    subst e
    have hs : m.slot ≠ 0xFF ↔ m.ctrl.life = .started := by
      rcases h10 with ⟨a, b⟩ | ⟨a, b⟩ <;> simp [a, b]
    refine ⟨h1, h2, h3, h4, h5, h6, h7, h8, h9, hs, fun hn => ?_, h11, h12, h13, h14, h15⟩
    rcases h10 with ⟨a, b⟩ | ⟨a, b⟩
    · simp [machine, a, b, h0]
    · exact absurd a hn
  · intro m hm
    have e : m = l := by simpa [machine, State.lines, State.reset, State.boot] using hm
    subst e
    simp [h0, machine, State.lines, State.reset, State.boot]

/-- What a step that goes on gives of its next state. -/
def outcome {α : Type} (f : State → α) : Host.Outcome State Fault Refusal → Option α
  | .next t => some (f t)
  | .fault _ => none
  | .refused _ => none

/-- The reason a step stops by fault. -/
def stopped : Host.Outcome State Fault Refusal → Option Fault
  | .fault r => some r
  | .next _ => none
  | .refused _ => none

/-! ### Encodings (30_encoding.md, V-ENC-1 to V-ENC-20) -/

theorem test_wf_refuses_65536_bytes : (Instr.write (List.replicate 65536 0)).wellFormed = false := by
  rw [Instr.wellFormed, List.length_replicate]
  decide

theorem test_wf_admits_65535_bytes : (Instr.write (List.replicate 65535 0)).wellFormed = true := by
  rw [Instr.wellFormed, List.length_replicate]
  decide

theorem test_decode_begin : decode [0b00000001_000000000010010110000000#32] = .instr (.beginLine 9600) := by decide
theorem test_decode_begin_largest : decode [0x01FFFFFF] = .instr (.beginLine 16777215) := by decide
theorem test_decode_end : decode [0b00000010_000000000000000000000000#32] = .instr .endLine := by decide
theorem test_decode_set_txen : decode [0b00000011_000000000000000_1_00000101#32] = .instr (.setTxen true 5) := by decide
theorem test_decode_enable_int_tx : decode [0b00000100_00000000000000000000000_1#32] = .instr (.enableIntTx true) := by decide
theorem test_decode_enable_tx : decode [0b00000101_00000000000000000000000_0#32] = .instr (.enableTx false) := by decide
theorem test_decode_read : decode [0b00000110_000000000000000000000000#32] = .instr .read := by decide
theorem test_decode_peek : decode [0b00000111_000000000000000000000000#32] = .instr .peek := by decide
theorem test_decode_available : decode [0b00001000_000000000000000000000000#32] = .instr .available := by decide
theorem test_decode_write : decode [0b00001001_00000000_0000000000000101#32, 0x04030201, 0x00000005] =
    .instr (.write [1, 2, 3, 4, 5]) := by decide
theorem test_decode_flush : decode [0b00001010_000000000000000000000000#32] = .instr .flush := by decide
theorem test_decode_overflow : decode [0b00001011_000000000000000000000000#32] = .instr .overflow := by decide
theorem test_decode_poll : decode [0b00001100_000000000000000000000000#32] = .instr .poll := by decide
theorem test_decode_set_notify : decode [0b00001101_00000000000000000000000_1#32] = .instr (.setNotify true) := by decide

/-- The five action codes of R88. -/
theorem test_decode_actions :
    decodeAction [0x80000000] = some .edgeCapture ∧ decodeAction [0x81000000] = some .decodePass ∧
    decodeAction [0x82000000, 0x19640] = some (.processEdge 0x19640) ∧
    decodeAction [0x83000000, 1, 8333] = some (.txSegment true 8333) ∧
    decodeAction [0x84000000, 0x5F90] = some (.delayUntil 0x5F90) := by decide

/-- V-ENC-14 to V-ENC-19. -/
theorem test_decode_illegal :
    decode [0] = .reject (.unassignedOp 0) ∧ decode [0x02000001] = .reject (.mustBeZero 0x02000001) ∧
    decode [0x03000200] = .reject (.mustBeZero 0x03000200) ∧ decode [0x09010000] = .reject (.mustBeZero 0x09010000) ∧
    decode [0x0E000000] = .reject (.unassignedOp 0x0E000000) ∧
    decode [0xFF000000] = .reject (.unassignedOp 0xFF000000) ∧
    decode [0x80000000] = .reject (.unassignedOp 0x80000000) := by decide

/-- The words of the table's rows, by its own numbering. -/
theorem test_table_words :
    decodeTableWord 32 0x01002580 = some (.beginLine 9600) ∧
    decodeTableWord 32 0x09000005 = some (.write [0, 0, 0, 0, 0]) ∧
    decodeTableWord 32 0x80000000 = some .edgeCapture ∧ decodeTableWord 32 0x84000000 = some (.delayUntil 0) := by decide

/-! ### Edge capture (V-CAP) -/

/-- The state of V-CAP-1, and with V-CAP-5's indices. -/
def capturing (ne h t c : Nat) (v : Level) : State :=
  { machine 0 { duplex with cfg := { Cfg.reset with ne := ne }, eHead := h, eTail := t } with
    cycle := c, pins := if v then [(4, { dir := .input, out := false, ext := true })] else [] }

/-- V-CAP-1, V-CAP-2, V-CAP-5. -/
theorem test_edge_capture :
    (outcome (fun t => (t.line.slotE, t.line.eHead)) (exec .edgeCapture (capturing 20 3 0 0x12345 true)) =
      some ([(3, 0x12345)], 4)) ∧
    (outcome (fun t => (t.line.slotE, t.line.eHead)) (exec .edgeCapture (capturing 20 3 0 0x12345 false)) =
      some ([(3, 0x12344)], 4)) ∧
    (outcome (fun t => (t.line.slotE, t.line.eHead)) (exec .edgeCapture (capturing 4 3 1 0x10 false)) =
      some ([(3, 0x10)], 0)) := by decide

/-- V-CAP-4. -/
theorem test_edge_capture_full :
    outcome (fun t => (t.line.slotE, t.line.eHead, t.line.eOvf)) (exec .edgeCapture (capturing 4 3 0 0x10 false)) =
      some ([], 3, true) := by decide

/-- V-CAP-7: three transitions, one pending bit, one capture. -/
theorem test_interrupt_pends_once :
    let s := [Move.env (.level 4 true), .env (.level 4 false), .env (.level 4 true), .env (.interrupt 0)].foldl
      State.move { machine 0 duplex with ie := false, cycle := 8 }
    let t := [Move.env (.interrupt 0), .env (.interrupt 0)].foldl State.move { s with ie := true }
    (s.line.pendRx = true ∧ s.line.eHead = 0) ∧ (t.line.pendRx = false ∧ t.line.slotE = [(0, 9)] ∧ t.line.eHead = 1) := by
  decide

/-- R102, R104 by hand: two lines may both be interrupted in one cycle, one line not twice. -/
theorem test_interrupts_in_one_cycle :
    let s := { machine 0 { duplex with pendRx := true } with
      reg := [some 0, some 1]
      others := [{ Line.reset Params.reset 1 { Cfg.reset with rxPin := 6, txPin := 7 } with
        ctrl := running, slot := 1, bitcyc := 10000, pendRx := true }] }
    let t := [Move.env (.interrupt 0), .env (.interrupt 1), .env (.level 4 true), .env (.interrupt 0)].foldl State.move s
    (t.lines.map (·.eHead) = [1, 1] ∧ t.line.pendRx = true) ∧
    ([Move.env (.advance 1), .env (.interrupt 0)].foldl State.move t).line.eHead = 2 := by decide

/-- R40, R250: `IE` is 1 at line construction. -/
theorem test_construct_sets_ie :
    outcome (fun t => (t.ie, t.others.length)) (step { machine 1 fresh with
      ie := false, host := [.construct { rxPin := 6, txPin := 7, invert := false, nb := 16, ne := none }] }) =
      some (true, 1) := by decide

/-- R234 by hand: a line that makes another line's receive pin its transmit-enable pin drives it; the other line still
reads the environment's level, and sees its transitions only. -/
theorem test_pin_of_another_line :
    let s := { machine 8 { Line.reset Params.reset 1 { Cfg.reset with rxPin := 6, txPin := 7 } with id := 1 } with
      others := [duplex], pins := [(4, { dir := .input, out := false, ext := true })] }
    outcome (fun t => (t.pinLevel 0 4, t.pinLevel 1 4, t.drive 4, t.others.map (·.pendRx),
        (t.move (.env (.level 4 false))).others.map (·.pendRx)))
      (exec (.setTxen true 4) s) = some (true, false, (.output 1, false), [false], [true]) := by decide

/-! ### The decoder (V-DEC) -/

/-- The decoder state after one edge word. -/
def afterEdge (w : Word) (l : Line) : Option (RxPos × Byte × Word) :=
  outcome (fun t => t.line.decoder) (exec (.processEdge w) (machine 0 l))

/-- V-DEC-1, V-DEC-2, V-DEC-12, V-DEC-13. -/
theorem test_process_edge_window :
    (afterEdge 0x19640 { duplex with rxLast := 0x186A1 } = some (.idle, 0, 0x186A1)) ∧
    (afterEdge 0x19A28 { duplex with rxLast := 0x186A1 } = some (.start, 0, 0x19A28)) ∧
    (afterEdge 0x80019A28 { duplex with rxLast := 0x186A1 } = some (.idle, 0, 0x186A1)) ∧
    (afterEdge 0x80019A26 { duplex with rxLast := 0x186A1 } = some (.start, 0, 0x80019A26)) := by decide

/-- V-DEC-3 to V-DEC-6. -/
theorem test_process_edge_periods :
    (afterEdge 0x1C136 { duplex with rxPos := .data 0, rxLast := 0x186A1 } = some (.data 1, 0x80, 0x1C136)) ∧
    (afterEdge 0x1C138 { duplex with rxPos := .data 0, rxLast := 0x186A1 } = some (.data 2, 0xC0, 0x1C138)) ∧
    (afterEdge 0x1E846 { duplex with rxPos := .data 0, rxLast := 0x186A1 } = some (.data 2, 0xC0, 0x1E846)) ∧
    (afterEdge 0x1E848 { duplex with rxPos := .data 0, rxLast := 0x186A1 } = some (.data 3, 0xE0, 0x1E848)) := by decide

/-- W5, V-DEC-10: the recovery's test is strict. -/
theorem test_decode_pass_recovers :
    (outcome (fun t => (t.line.decoder, t.line.heldBytes))
      (exec .decodePass { machine 4 (midByte (.data 4)) with cycle := 190000 }) =
      some ((.data 4, 0, 0x249F1), [])) ∧
    (outcome (fun t => (t.line.decoder, t.line.heldBytes))
      (exec .decodePass { machine 4 (midByte (.data 4)) with cycle := 190001 }) =
      some ((.idle, 0, 0x2E631), [0xF0])) := by decide

/-- P2's first pass: the overflow folded, three words processed. -/
theorem test_decode_pass_drains :
    outcome (fun t => (t.line.decoder, t.line.eTail, t.line.lineOvf, t.line.eOvf))
      (exec .decodePass (machine 9 { withEdges 3 with eOvf := true })) =
      some ((.data 1, 0x80, 0x1D4C0), 3, true, false) := by decide

/-! ### The transmitter (V-TX, V-DLY) -/

/-- V-TX-4, V-TX-6, V-TX-10. -/
theorem test_runs :
    (runs (frameLevels Cfg.reset 0xAA) =
      [(false, 2), (true, 1), (false, 1), (true, 1), (false, 1), (true, 1), (false, 1), (true, 2)]) ∧
    (runs (frameLevels Cfg.reset 0xF0) = [(false, 5), (true, 5)]) ∧
    (runs (frameLevels { Cfg.reset with invert := true } 0x00) = [(true, 9), (false, 1)]) := by decide

/-- V-DLY-1: `WRITE 0x00` from `D0 = 0xFFFF0000`, through pin 7 as enable pin (V-DLY-8). -/
theorem test_write :
    outcome (fun t => (t.line.resp, deadlines t.line.trace, writesTo 5 t.line.trace, writesTo 7 t.line.trace))
      (exec (.write [0]) { machine 16 { duplex with ctrl := { running with txenV := true }, txenPin := 7 } with
        cycle := 0xFFFF0000 }) =
      some ([1], [0x00005F90, 0x000086A0], [false, true], [true, false]) := by decide

/-- V-DLY-1's times across the wrap of CCOUNT, unwrapped (R160). -/
theorem test_write_times :
    outcome (fun t => (writeTimes 5 t.line.trace, t.cycle)) (exec (.write [0]) { machine 16 duplex with
      cycle := 0xFFFF0000 }) = some ([0xFFFF0000, 0xFFFF0000 + 90000], 0xFFFF0000 + 100000) := by decide

/-- V-TX-16. -/
theorem test_write_in_receive_direction :
    stopped (exec (.write [0x41]) (machine 4 oneWire)) = some (.directionViolation 0x09000001) := by decide

/-- R155 by hand: the deadline moves by the duration, and the wait ends at it. -/
theorem test_tx_segment :
    outcome (fun t => (t.line.txDl, t.ccount, writesTo 5 t.line.trace))
      (exec (.txSegment false 90000) (machine 4 { duplex with txDl := 500 })) = some (90500, 90500, [false]) := by decide

/-- V-DLY-2, V-DLY-3. -/
theorem test_delay_until :
    (outcome (·.ccount) (exec (.delayUntil 0x5F90) { machine 5 duplex with cycle := 0xFFFFFFF0 }) = some 0x5F90) ∧
    (outcome (·.ccount) (exec (.delayUntil 0x5F90) { machine 5 duplex with cycle := 0x5F91 }) = some 0x5F91) := by decide

/-- V-DLY-4: in the bulk of the wait the saved `IE` lets a capture in, and `IE` is 0 at the end. -/
theorem test_delay_until_splits :
    outcome (fun t => (t.ccount, t.ie, t.line.eHead)) (exec (.delayUntil 90000)
      { machine 0 { duplex with ctrl := { running with intTx := false }, txSavedIe := true } with
        ie := false, env := [[], [], [.env (.level 4 true), .env (.interrupt 0)], [], []] }) =
      some (90000, false, 1) := by decide

/-! ### Control commands (V-CTL) -/

/-- V-CTL-1. -/
theorem test_begin :
    (outcome (fun t => (t.line.resp, t.line.bitcyc, t.line.slot)) (exec (.beginLine 9600) (machine 8 fresh)) =
      some ([1], 8333, 0)) ∧
    (outcome (fun t => (t.line.ctrl.word, t.reg, t.ie)) (exec (.beginLine 9600) (machine 8 fresh)) =
      some (0x15, [some 0], true)) := by decide

/-- V-CTL-7, V-CTL-8. -/
theorem test_begin_without_start :
    (outcome (fun t => (t.line.resp, t.line.bitcyc)) (exec (.beginLine 115200) (machine 0 duplex)) =
      some ([1], 694)) ∧
    (outcome (fun t => (t.line.resp, t.line.ctrl.life)) (exec (.beginLine 9600)
      { machine 8 fresh with reg := [some 1] }) = some ([0], .uninit)) := by decide

/-- V-CTL-9, V-CTL-10. -/
theorem test_end :
    (outcome (fun t => (t.line.resp, t.line.ctrl.word, t.line.slot, t.reg)) (exec .endLine (machine 8 duplex)) =
      some ([0], 0x06, 0xFF, [none])) ∧
    (outcome (fun t => (t.line.resp, t.line.ctrl.life)) (exec .endLine (machine 8 fresh)) = some ([0], .uninit)) := by
  decide

/-- V-CTL-19, V-CTL-20. -/
theorem test_set_txen :
    (outcome (fun t => (t.line.txenPin, t.line.ctrl.txenV, t.drive 7)) (exec (.setTxen true 7) (machine 4 duplex)) =
      some (7, true, .output 0, false)) ∧
    (outcome (fun t => (t.line.txenPin, t.line.ctrl.txenV, t.drive 4)) (exec (.setTxen true 4) (machine 4 duplex)) =
      some (0xFF, false, .input, false)) := by decide

/-- V-CTL-24. -/
theorem test_enable_int_tx :
    outcome (fun t => (t.line.resp, t.line.ctrl.word)) (exec (.enableIntTx false) (machine 0 duplex)) =
      some ([0], 0x11) := by decide

/-- V-CTL-22, V-CTL-23. -/
theorem test_enable_tx :
    (outcome (fun t => (t.line.ctrl.word, t.drive 4)) (exec (.enableTx true) (machine 4 oneWire)) =
      some (0x0D, (.output 0, true))) ∧
    (outcome (fun t => (t.line.ctrl.word, t.drive 4)) (exec (.enableTx false) (machine 4 oneWireOut)) =
      some (0x15, (.input, false))) := by decide

/-- R194, V-ENC-13. -/
theorem test_set_notify :
    outcome (fun t => (t.line.resp, t.line.ctrl.word)) (exec (.setNotify true) (machine 0 duplex)) =
      some ([0], 0x55) := by decide

/-! ### Reader commands (V-CTL) -/

/-- V-CTL-11. -/
theorem test_read :
    (outcome (fun t => (t.line.resp, t.line.heldBytes)) (exec .read (machine 4 withByte)) = some ([0x41], [])) ∧
    (outcome (fun t => (t.line.resp, t.line.heldBytes)) (exec .read (machine 4 duplex)) = some ([0xFFFFFFFF], [])) := by
  decide

/-- V-CTL-12. -/
theorem test_peek :
    outcome (fun t => (t.line.resp, t.line.heldBytes)) (exec .peek (machine 4 withByte)) = some ([0x41], [0x41]) := by
  decide

/-- V-CTL-13; and W5's byte, whose recovery falls due during the yield. -/
theorem test_available :
    (outcome (·.line.resp) (exec .available (machine 8 duplex)) = some [0]) ∧
    (outcome (·.line.resp) (exec .available
      { machine 8 (midByte (.data 4)) with cycle := 190000, par := { Params.reset with yieldMin := 2 } }) = some [1]) := by
  decide

/-- V-CTL-14. -/
theorem test_flush :
    outcome (fun t => (t.line.resp, t.line.eTail, t.line.bTail, t.line.lineOvf)) (exec .flush (machine 4
      { duplex with eHead := 7, eTail := 2, bHead := 3, bTail := 1, lineOvf := true })) = some ([0], 7, 3, true) := by decide

/-- V-CTL-15, V-CTL-16. -/
theorem test_overflow :
    (outcome (fun t => (t.line.resp, t.line.lineOvf)) (exec .overflow (machine 0 { duplex with lineOvf := true })) =
      some ([1], false)) ∧
    (outcome (fun t => (t.line.resp, t.line.eOvf)) (exec .overflow (machine 0 { duplex with eOvf := true })) =
      some ([0], true)) := by decide

/-- V-CTL-17, V-CTL-18. -/
theorem test_poll :
    (outcome (fun t => (t.line.resp, notifications t.line.trace)) (exec .poll (machine 4
      { withByte with ctrl := { running with notify := true } })) = some ([1], [1])) ∧
    (outcome (fun t => (t.line.resp, notifications t.line.trace)) (exec .poll (machine 4 withByte)) = some ([1], [])) := by
  decide

/-- P4 at `CPOS` 3: an illegal WRITE consumes no payload. -/
theorem test_step_illegal :
    outcome (fun t => (t.line.resp, t.line.cpos, t.line.cmd)) (step (machine 1
      { fresh with cmd := [0x09010000, 0x0A000000] })) = some ([0xFFFFFFFE], 1, [0x0A000000]) := by decide

/-! ### Witnesses: states and operands that meet the hypotheses of the obligations

Each is named after its obligation. `machine_inv` gives the invariant where an obligation asks for it; the states that
meet it are those of `test_witness_invariant`. -/

/-- A step goes on. -/
def goesOn (o : Host.Outcome State Fault Refusal) : Bool := (outcome (fun _ => ()) o).isSome

theorem goesOn_next {o : Host.Outcome State Fault Refusal} (h : goesOn o = true) : ∃ t, o = .next t := by
  cases o with
  | next t => exact ⟨t, rfl⟩
  | fault r => exact Bool.noConfusion h
  | refused r => exact Bool.noConfusion h

theorem test_witness_invariant :
    (StateInv (machine 9 fresh) ∧ StateInv (machine 9 duplex) ∧ StateInv (machine 9 oneWire) ∧
      StateInv (machine 9 oneWireOut)) ∧
    (StateInv (machine 9 withByte) ∧ StateInv (machine 9 (withEdges 3)) ∧ StateInv (machine 9 (midByte .start))) ∧
    (StateInv (machine 9 (midByte (.data 0))) ∧ StateInv (machine 9 (midByte (.data 7)))) := by
  refine ⟨⟨?_, ?_, ?_, ?_⟩, ⟨?_, ?_, ?_⟩, ?_, ?_⟩ <;> exact machine_inv _ (by decide)

/-- Every instruction, on a state that meets the invariant, for the obligations about `exec i s = .next t`. -/
theorem test_witness_every_instruction_goes_on :
    ∀ i ∈ [.beginLine 9600, .endLine, .setTxen true 7, .enableIntTx true, .enableTx true, .read, .peek, .available,
        .write [0x41], .flush, .overflow] ++ [.poll, .setNotify true, .edgeCapture, .decodePass, .processEdge 0x186A0,
        .txSegment true 8333, .delayUntil 0x5F90],
      i.wellFormed = true ∧ StateInv (machine 30 duplex) ∧ ∃ t, exec i (machine 30 duplex) = .next t := by
  intro i hi
  have h : ∀ i ∈ [Instr.beginLine 9600, .endLine, .setTxen true 7, .enableIntTx true, .enableTx true, .read, .peek,
      .available, .write [0x41], .flush, .overflow] ++ [.poll, .setNotify true, .edgeCapture, .decodePass,
      .processEdge 0x186A0, .txSegment true 8333, .delayUntil 0x5F90],
      i.wellFormed = true ∧ goesOn (exec i (machine 30 duplex)) = true := by decide
  exact ⟨(h i hi).1, machine_inv _ (by decide), goesOn_next (h i hi).2⟩

theorem test_witness_DecodeOfEncodeIsTheCommand :
    (Instr.write [1, 2, 3, 4, 5]).isCommand = true ∧ (Instr.write [1, 2, 3, 4, 5]).wellFormed = true := by decide

theorem test_witness_ActionsDecodeOnlyAsActions : (Instr.txSegment true 8333).isCommand = false := by decide

theorem test_witness_RowIsSelectedByMatchAndMask :
    ("WRITE", 0x09000000#32, 0xFFFF0000#32) ∈ opcodeRows ∧
    decode [0x09000005] = .reject (.payloadMissing 2) ∧ decode [0x09000000] = .instr (.write []) := by decide

/-- Operands at both ends of their fields. -/
theorem test_witness_OperandsAreTheirFields :
    (decode [0x01000000] = .instr (.beginLine 0) ∧ decode [0x030001FF] = .instr (.setTxen true 0xFF) ∧
      decode [0x03000000] = .instr (.setTxen false 0)) ∧
    (decode [0x04000000] = .instr (.enableIntTx false) ∧ decode [0x05000001] = .instr (.enableTx true) ∧
      decode [0x0D000000] = .instr (.setNotify false)) := by decide

/-- A whole payload word, with words behind it. -/
theorem test_witness_LengthIsToldByTheFirstWord :
    decode [0x09000004, 0x04030201, 0x02000000] = .instr (.write [1, 2, 3, 4]) ∧
    decode [0x02000000, 0x06000000] = .instr .endLine := by decide

theorem test_witness_PayloadIsPackedLittleEndian :
    decode [0x09000005, 0x04030201, 0xFFFFFF05] = .instr (.write [1, 2, 3, 4, 5]) := by decide

theorem test_witness_IllegalWordIsAnswered :
    ((machine 1 { fresh with cmd := [0] }).host = [] ∧ decodeAction (machine 1 { fresh with cmd := [0] }).action = none) ∧
    (((0x00FFFFFF#32).extractLsb' 24 8).toNat = 0 ∧ 0x0E ≤ ((0x0E000000#32).extractLsb' 24 8).toNat ∧
      0x0E ≤ ((0xFF000000#32).extractLsb' 24 8).toNat) ∧
    (∃ row ∈ opcodeRows, 0x02000001#32 &&& 0xFF000000 = row.2.1 ∧ 0x02000001#32 &&& row.2.2 &&& 0x00FFFFFF ≠ 0) ∧
    ∃ row ∈ opcodeRows, 0x09010000#32 &&& 0xFF000000 = row.2.1 ∧ 0x09010000#32 &&& row.2.2 &&& 0x00FFFFFF ≠ 0 := by
  decide

theorem test_witness_StepRunsTheDecodedInstruction :
    (let s := machine 9 { duplex with cmd := [0x06000000, 0x0B000000] };
      s.host = [] ∧ decodeAction s.action = none ∧ decode s.line.cmd = .instr .read) ∧
    (let s := { machine 9 duplex with action := [0x82000000, 0x186A0] };
      s.host = [] ∧ decodeAction s.action = some (.processEdge 0x186A0)) := by decide

theorem test_witness_StepWaitsForTheHost :
    (let s := machine 9 duplex;
      s.host = [] ∧ decodeAction s.action = none ∧ s.line.cmd = []) ∧
    (let s := machine 9 { duplex with cmd := [0x09000005, 0x04030201] };
      s.host = [] ∧ decodeAction s.action = none ∧ 0x09000005#32 &&& 0xFFFF0000 = 0x09000000 ∧
        [0x04030201#32].length < ((0x09000005#32).toNat % 2 ^ 16 + 3) / 4) := by decide

/-- A legal word, an illegal one and a missing payload. -/
theorem test_witness_CposAdvancesByTheLength :
    ∀ ws ∈ [[0x06000000#32], [0x0E000000], [0x02000001], [0x09000001], [0x09000001, 0x41], []],
      ∃ t, step (machine 9 { fresh with cmd := ws }) = .next t := by
  intro ws h
  exact goesOn_next ((by decide : ∀ ws ∈ [[0x06000000#32], [0x0E000000], [0x02000001], [0x09000001],
    [0x09000001, 0x41], []], goesOn (step (machine 9 { fresh with cmd := ws })) = true) ws h)

/-- The state in which a WRITE stops meets the invariant. -/
theorem test_witness_OnlyAMisdirectedWriteStops :
    StateInv (machine 9 oneWire) ∧ ([0x41] : List Byte) ≠ [] ∧ oneWire.txValid = true ∧ oneWire.ctrl.life = .started ∧
    oneWire.halfDup = true ∧ oneWire.ctrl.txDir = false := ⟨machine_inv _ (by decide), by decide⟩

/-- A slot of the registry, and pins that are and are not there. -/
theorem test_witness_ConstructionGivesResetValues :
    0 < (State.boot Params.reset 1 Cfg.reset).reg.length ∧ fresh.rxValid = true ∧ oneWire.halfDup = true ∧
    (Line.reset Params.reset 0 { Cfg.reset with rxPin := 0xFF }).rxValid = false := by decide

/-- A line's construction at the bounds of the legal ranges, and past them. -/
theorem test_witness_IllegalConstructionIsRefused :
    (∀ a ∈ [CfgArgs.mk 6 7 false 2 (some 2), CfgArgs.mk 6 7 false 65535 none, CfgArgs.mk 0xFF 0xFF false 2 (some (2 ^ 31))],
      goesOn ((machine 0 fresh).construct a) = true) ∧
    (∀ a ∈ [CfgArgs.mk 6 7 false 1 none, CfgArgs.mk 6 7 false 65536 none, CfgArgs.mk 6 7 false 2 (some 1),
      CfgArgs.mk 6 7 false 2 (some (2 ^ 31 + 1)), CfgArgs.mk 6 4 false 2 none],
      goesOn ((machine 0 fresh).construct a) = false) := by decide

theorem test_witness_ResetMeetsTheInvariant :
    2 ≤ Cfg.reset.nb ∧ Cfg.reset.nb ≤ 65535 ∧ 2 ≤ Cfg.reset.ne ∧ Cfg.reset.ne ≤ 2 ^ 31 := by decide

theorem test_witness_EveryStepKeepsTheInvariant :
    StateInv (machine 9 duplex) ∧ ∃ t, step (machine 9 duplex) = .next t :=
  ⟨machine_inv _ (by decide), goesOn_next (by decide)⟩

theorem test_witness_EdgeCaptureStoresOrDrops :
    ((3 + 1) % 4 ≠ (capturing 4 3 1 0x10 false).line.eTail ∧
      (capturing 4 3 1 0x10 false).line.slotE.wf unwrittenEdge = true) ∧
    (3 + 1) % 4 = (capturing 4 3 0 0x10 false).line.eTail := by decide

/-- The edge ring empty, with room, and full; the byte ring with a byte and full (V-DEC-15). -/
theorem test_witness_RingsHoldOneLessThanTheirSlots :
    ∀ l ∈ [withEdges 0, withEdges 2, withEdges 3, withByte, { withByte with cfg := { Cfg.reset with nb := 2 } }],
      2 ≤ l.cfg.ne ∧ 2 ≤ l.cfg.nb ∧ l.eHead < l.cfg.ne ∧ l.eTail < l.cfg.ne ∧ l.bHead < l.cfg.nb ∧ l.bTail < l.cfg.nb := by
  decide

theorem test_witness_EdgeRingIsAQueue :
    (∀ l ∈ [withEdges 2, withEdges 3], 2 ≤ l.cfg.ne ∧ l.eHead < l.cfg.ne ∧ l.eTail < l.cfg.ne ∧
      l.slotE.wf unwrittenEdge = true) ∧
    ((withEdges 2).eHead + 1) % 4 ≠ (withEdges 2).eTail ∧ ((withEdges 3).eHead + 1) % 4 = (withEdges 3).eTail ∧
    (withEdges 3).eHead ≠ (withEdges 3).eTail := by decide

/-- A bound slot, whose line may take the interrupt, a FREE one and one that is not there. -/
theorem test_witness_InterruptIsTakenWhenItMayBe :
    ((machine 0 { duplex with pendRx := true }).reg[0]? = some (some 0) ∧
      (machine 0 { duplex with pendRx := true }).mayTake { duplex with pendRx := true } = true) ∧
    (machine 0 fresh).reg[0]? = some none ∧ (machine 0 fresh).reg[1]? = none := by decide

theorem test_witness_MaskedInterruptsStayPending :
    { machine 0 { duplex with pendRx := true } with ie := false, env := [[.env (.interrupt 0)]] }.ie = false := by decide

/-- BEGIN, and a WRITE that may restore `IE` on the way. -/
theorem test_witness_MaskedCommandsCaptureNothing :
    (Instr.beginLine 9600).isCommand = true ∧ (∃ t, exec (.beginLine 9600) { machine 9 fresh with ie := false } = .next t) ∧
    (Instr.write [0]).isCommand = true ∧
    ∃ t, exec (.write [0]) { machine 16 { duplex with ctrl := { running with intTx := false } } with ie := false } =
      .next t := ⟨rfl, goesOn_next (by decide), rfl, goesOn_next (by decide)⟩

/-- The two actions that may leave `IE` cleared, with each setting of INTTX. -/
theorem test_witness_InterruptEnableIsRestored :
    outcome (·.ie) (exec (.delayUntil 90000) (machine 9 { duplex with ctrl := { running with intTx := false } })) =
      some false ∧
    outcome (·.ie) (exec (.txSegment true 90000) (machine 9 duplex)) = some true := by decide

theorem test_witness_PassIsANoOpWithoutReception :
    (Line.reset Params.reset 0 { Cfg.reset with rxPin := 0xFF }).rxValid = false ∧
    (machine 0 fresh).line.ctrl.life ≠ .started := by decide

theorem test_witness_PassProcessesTheSnapshot :
    StateInv (machine 9 (withEdges 3)) ∧ (withEdges 3).rxValid = true ∧ (withEdges 3).ctrl.life = .started ∧
    ((machine 9 (withEdges 3)).log .decodePass).tick.line.heldEdges = [0x186A0, 0x1ADB1, 0x1D4C0] :=
  ⟨machine_inv _ (by decide), by decide⟩

theorem test_witness_EmptyPassOnlyFoldsTheOverflow :
    (StateInv (machine 9 duplex) ∧ duplex.rxPos = .idle ∧ ((machine 9 duplex).log .decodePass).tick.line.heldEdges = [] ∧
      duplex.rxValid = true ∧ duplex.ctrl.life = .started) ∧
    (StateInv { machine 9 { duplex with eOvf := true } with ie := false } ∧ duplex.rxValid = true ∧
      duplex.ctrl.life = .started ∧ duplex.eOvf = false ∧ duplex.heldEdges = []) := by
  have h := machine_inv 9 (l := { duplex with eOvf := true }) (by decide)
  exact ⟨⟨machine_inv _ (by decide), by decide⟩,
    ⟨h.line_inv, h.ids_nodup, h.ids_lt, h.slots_le, h.pins_apart, h.pins_wf⟩, by decide⟩

/-- V-DEC-10's two passes: the recovery not yet due and due, for each kind of position. -/
theorem test_witness_RecoverySynthesizesTheStopBit :
    (StateInv (machine 9 (midByte .start)) ∧ StateInv (machine 9 (midByte (.data 0))) ∧
      StateInv (machine 9 (midByte (.data 7)))) ∧
    (∀ c ∈ [(RxPos.start, 9, 240000), (.data 0, 8, 230000), (.data 4, 4, 190000), (.data 7, 1, 160000)],
      let s := { machine 4 (midByte c.1) with cycle := c.2.2 }
      let u := (s.log .decodePass).tick
      (s.line.rxValid = true ∧ s.line.ctrl.life = .started ∧ s.line.rxPos ≠ .idle ∧ u.line.eHead = u.line.eTail) ∧
      (u.foldOverflow.tick.ccount - (s.line.rxLast &&& 0xFFFFFFFE)).toInt ≤ ((c.2.1 * s.line.bitcyc.toNat : Nat) : Int) ∧
      (u.foldOverflow.tick.ccount + 1 - (s.line.rxLast &&& 0xFFFFFFFE)).toInt >
        ((c.2.1 * s.line.bitcyc.toNat : Nat) : Int)) ∧
    Quiet 4 (machine 4 (midByte .start)) := by
  refine ⟨⟨machine_inv _ (by decide), machine_inv _ (by decide), machine_inv _ (by decide)⟩, by decide, ?_⟩
  unfold Quiet
  decide

/-- An edge captured after the pass has loaded `E_HEAD`, and a counter that runs on: the recovery is due, and goes on. -/
theorem test_witness_recovery_among_other_agents :
    let s := { machine 0 (midByte (.data 4)) with
      cycle := 190000, env := [[], [.env (.level 4 true), .env (.interrupt 0)], [.env (.advance 1)], [], []] }
    let u := (s.log .decodePass).tick
    (u.line.eHead = u.line.eTail ∧ u.foldOverflow.tick.ccount = 190001) ∧
    outcome (fun t => (t.line.decoder, t.line.heldBytes, t.line.eHead)) (exec .decodePass s) =
      some ((.idle, 0, 0x2E631), [0xF0], 1) := by decide

/-- V-DEC-1, and an interval at each end of the window. -/
theorem test_witness_EarlyEdgeIsSkipped :
    ((0x19640#32 &&& 0xFFFFFFFE) - (0x186A1#32 &&& 0xFFFFFFFE) - (10000#32 >>> 1)).toInt < 0 ∧
    0 ≤ ((0x19A28#32 &&& 0xFFFFFFFE) - (0x186A1#32 &&& 0xFFFFFFFE) - (10000#32 >>> 1)).toInt ∧
    0 ≤ ((0x80019A26#32 &&& 0xFFFFFFFE) - (0x186A1#32 &&& 0xFFFFFFFE) - (10000#32 >>> 1)).toInt := by decide

/-- V-DEC-3 to V-DEC-6: intervals at the bounds of one, two and three periods; and the least bit period. -/
theorem test_witness_PeriodsRoundToTheNearest :
    (2 ≤ (10000#32).toNat ∧ 9 * (10000#32).toNat < 2 ^ 31 ∧ (10000#32).toNat % 2 = 0) ∧
    (0 ≤ edgeDelta 0x186A1 0x1C136 10000 ∧ 0 ≤ edgeDelta 0x186A1 0x1C138 10000 ∧
      0 ≤ edgeDelta 0x186A1 0x1E846 10000 ∧ 0 ≤ edgeDelta 0x186A1 0x1E848 10000) ∧
    2 ≤ (2#32).toNat ∧ 0 ≤ edgeDelta 0 2 2 := by decide

theorem test_witness_IdleWaitsForTheStartEdge :
    duplex.rxPos = .idle ∧ 0 ≤ edgeDelta duplex.rxLast 0x186A0 duplex.bitcyc ∧
    0 ≤ edgeDelta duplex.rxLast 0x186A1 duplex.bitcyc := by decide

/-- W4's edges: the start bit only, four hidden bits, and the completion. -/
theorem test_witness_AcceptedEdgeAssemblesData :
    let l := { duplex with rxPos := .start, rxLast := 0x186A0 }
    let m := { duplex with rxPos := .data 4, rxLast := 0x249F0 }
    (l.rxPos ≠ .idle ∧ 0 ≤ edgeDelta l.rxLast 0x1ADB1 l.bitcyc ∧
      0 + min (periods (edgeDelta l.rxLast 0x1ADB1 l.bitcyc) l.bitcyc - 1) (8 - 0) < 8) ∧
    (m.rxPos ≠ .idle ∧ 0 ≤ edgeDelta m.rxLast 0x2E631 m.bitcyc ∧
      8 ≤ 4 + min (periods (edgeDelta m.rxLast 0x2E631 m.bitcyc) m.bitcyc) (8 - 4)) := by decide

/-- V-DEC-15: room, and a full ring. -/
theorem test_witness_BytePushStoresOrDrops :
    (2 ≤ withByte.cfg.nb ∧ withByte.bHead < withByte.cfg.nb ∧ withByte.bTail < withByte.cfg.nb ∧
      withByte.slotB.wf unwrittenByte = true ∧ (withByte.bHead + 1) % withByte.cfg.nb ≠ withByte.bTail) ∧
    (let l := { withByte with cfg := { Cfg.reset with nb := 2 } };
      (l.bHead + 1) % l.cfg.nb = l.bTail) := by decide

theorem test_witness_DecodingIsShiftInvariant : (0xFFFFC000#32).getLsbD 0 = false := by decide

/-- V-TX-13 to V-TX-15. -/
theorem test_witness_WriteThatCannotTransmitRespondsZero :
    StateInv (machine 9 duplex) ∧
    (StateInv (machine 9 { Line.reset Params.reset 0 { Cfg.reset with txPin := 0xFF } with
        ctrl := running, slot := 0, bitcyc := 10000 }) ∧
      (Line.reset Params.reset 0 { Cfg.reset with txPin := 0xFF }).txValid = false) ∧
    StateInv (machine 9 fresh) ∧ fresh.ctrl.life ≠ .started :=
  ⟨machine_inv _ (by decide), ⟨machine_inv _ (by decide), by decide⟩, machine_inv _ (by decide), by decide⟩

/-- For the statements about a WRITE that transmits: full-duplex, and one-wire in the transmit direction. -/
theorem test_witness_WriteIssuesOneSegmentPerRun :
    (StateInv (machine 30 duplex) ∧ duplex.txValid = true ∧ duplex.ctrl.life = .started ∧
      (duplex.halfDup = true → duplex.ctrl.txDir = true)) ∧
    (StateInv (machine 30 oneWireOut) ∧ oneWireOut.txValid = true ∧ oneWireOut.ctrl.life = .started ∧
      (oneWireOut.halfDup = true → oneWireOut.ctrl.txDir = true)) :=
  ⟨⟨machine_inv _ (by decide), by decide⟩, machine_inv _ (by decide), by decide⟩

/-- A line with a transmit-enable pin. -/
def withTxen : Line := { duplex with ctrl := { running with txenV := true }, txenPin := 7 }

/-- With and without an enable pin. -/
theorem test_witness_WriteDeadlinesAccumulate :
    (StateInv (machine 30 duplex) ∧ duplex.txValid = true ∧ duplex.ctrl.life = .started ∧ duplex.ctrl.txenV = false ∧
      ∃ t, exec (.write [0x41]) (machine 30 duplex) = .next t) ∧
    (StateInv (machine 30 withTxen) ∧ withTxen.txValid = true ∧ withTxen.ctrl.life = .started ∧
      withTxen.ctrl.txenV = true ∧ ∃ t, exec (.write [0x41]) (machine 30 withTxen) = .next t) :=
  ⟨⟨machine_inv _ (by decide), by decide, by decide, by decide, goesOn_next (by decide)⟩,
    machine_inv _ (by decide), by decide, by decide, by decide, goesOn_next (by decide)⟩

/-- With and without an enable pin: the hypotheses are those of `WriteDeadlinesAccumulate`; and R162's order by hand. -/
theorem test_witness_WriteDrivesTheEnablePin :
    outcome (fun t => driveSteps t.line.trace) (exec (.write [0]) (machine 16 withTxen)) =
      some [.write 7 true, .write 5 false, .wait 90000, .write 5 true, .wait 100000, .write 7 false] ∧
    outcome (fun t => driveSteps t.line.trace) (exec (.write [0]) (machine 16 duplex)) =
      some [.write 5 false, .wait 90000, .write 5 true, .wait 100000] := by decide

/-- A line whose transmissions mask interrupts. -/
def masking : Line := { duplex with ctrl := { running with intTx := false } }

/-- The least `WAIT_SPLIT` of each condition under which nothing is captured: the longest run, and the greatest value. -/
def split (n : Nat) (s : State) : State := { s with par := { s.par with waitSplit := n } }

theorem StateInv.split {s : State} (h : StateInv s) (n : Nat) : StateInv (Sys2Proof.Tests.split n s) :=
  ⟨h.line_inv, h.ids_nodup, h.ids_lt, h.slots_le, h.pins_apart, h.pins_wf⟩

theorem test_witness_WriteFrame :
    (StateInv (machine 30 oneWireOut) ∧ oneWireOut.txValid = true ∧ oneWireOut.ctrl.life = .started ∧
      ∃ t, exec (.write [0x41]) (machine 30 oneWireOut) = .next t) ∧
    (∀ n ∈ [90000, 2 ^ 31 - 1], StateInv (split n (machine 30 masking)) ∧
      outcome (fun t => decide (t.cycle < ((split n (machine 30 masking)).decodePass.driveTxen true).txMask.cycle + 2 ^ 31))
        (exec (.write [0x41]) (split n (machine 30 masking))) = some true) ∧
    masking.txValid = true ∧ masking.ctrl.life = .started ∧ masking.ctrl.intTx = false ∧
      9 * masking.bitcyc.toNat = 90000 := by
  refine ⟨⟨machine_inv _ (by decide), by decide, by decide, goesOn_next (by decide)⟩, fun n hn => ?_, by decide⟩
  exact ⟨StateInv.split (machine_inv _ (by decide)) n, (by decide : ∀ n ∈ [90000, 2 ^ 31 - 1],
    outcome (fun t => decide (t.cycle < ((split n (machine 30 masking)).decodePass.driveTxen true).txMask.cycle + 2 ^ 31))
      (exec (.write [0x41]) (split n (machine 30 masking))) = some true) n hn⟩

/-- R159 by hand: an interrupt delivered in a turn within a transmission of 0x00 is taken with `CTRL.INTTX = 1`, and not
with `CTRL.INTTX = 0`. -/
theorem test_write_masks :
    let turns := List.replicate 6 [] ++ [[Move.env (.level 4 true), .env (.interrupt 0)]] ++ List.replicate 20 []
    let run := fun l => outcome (fun t => (captures t.line.trace).length) (exec (.write [0])
      (split 90000 { machine 0 l with env := turns }))
    run masking = some 0 ∧ run duplex = some 1 := by decide

theorem test_witness_SegmentWritesAndWaits : StateInv (machine 9 duplex) := machine_inv _ (by decide)

/-- V-DLY-4's wait, in a quiet environment. -/
theorem test_witness_DelayHoldsUntilTheDeadline :
    let s := machine 5 { duplex with ctrl := { running with intTx := false } }
    let now := fun d => (s.log (.delayUntil d)).tick.ccount
    (s.pins.wf untouchedPin = true ∧ Quiet 5 s ∧ s.line.ctrl.intTx = false ∧
      s.par.waitSplit < (90000#32 - s.ccount).toInt) ∧ duplex.ctrl.intTx = true ∧
    s.par.waitSplit < (1001#32 - now 1001).toInt ∧ (1000#32 - now 1000).toInt ≤ s.par.waitSplit := by
  unfold Quiet
  decide

/-- V-CTL-4 to V-CTL-8. -/
theorem test_witness_BeginWithoutAStart :
    ((10000000 + 8000000 / 2) / 8000000 < 2 ∧ 2 ^ 31 ≤ 9 * ((240000000 + 1 / 2) / 1)) ∧
    (let bn := ((machine 0 duplex).par.fCpu + (115200#24).toNat / 2) / (115200#24).toNat;
      115200#24 ≠ 0 ∧ 2 ≤ bn ∧ 9 * bn < 2 ^ 31 ∧ duplex.ctrl.life = .started) ∧
    (fresh.ctrl.life ≠ .started ∧ none ∉ { machine 0 fresh with reg := [some 1] }.reg) := by decide

theorem test_witness_BeginStartsTheLine :
    StateInv (machine 9 fresh) ∧
    (let bn := ((machine 9 fresh).par.fCpu + (9600#24).toNat / 2) / (9600#24).toNat;
      9600#24 ≠ 0 ∧ 2 ≤ bn ∧ 9 * bn < 2 ^ 31) ∧
    fresh.ctrl.life ≠ .started ∧ (machine 9 fresh).reg[0]? = some none ∧
    (∀ j, j < 0 → (machine 9 fresh).reg[j]? ≠ some none) ∧ Quiet 2 (machine 9 fresh) :=
  ⟨machine_inv _ (by decide), by decide, by decide, by decide, by decide, by unfold Quiet; decide⟩

theorem test_witness_EndStopsTheLine :
    (machine 9 fresh).line.ctrl.life ≠ .started ∧ StateInv (machine 9 duplex) ∧ duplex.ctrl.life = .started ∧
    duplex.ctrl.rxArmed = true := ⟨by decide, machine_inv _ (by decide), by decide, by decide⟩

/-- BEGIN with each response. -/
theorem test_witness_LifecycleMovesByBeginAndEnd :
    outcome (·.line.resp) (exec (.beginLine 9600) (machine 9 fresh)) = some ((machine 9 fresh).line.resp ++ [1]) ∧
    outcome (·.line.resp) (exec (.beginLine 0) (machine 9 fresh)) = some ((machine 9 fresh).line.resp ++ [0]) := by decide

theorem test_witness_SetTxenConfiguresThePin :
    StateInv (machine 9 duplex) ∧ (7 : Pin) ∈ (machine 9 duplex).par.validTx ∧
    ((7 : Pin) ≠ 0xFF ∧ (7 : Pin) ≠ duplex.cfg.rxPin ∧ (7 : Pin) ≠ duplex.cfg.txPin) :=
  ⟨machine_inv _ (by decide), by decide, by decide⟩

/-- Both turns of a one-wire line, and a direction it has already. -/
theorem test_witness_EnableTxTurnsTheLine :
    (StateInv (machine 9 oneWire) ∧ oneWire.halfDup = true ∧ oneWire.ctrl.life = .started ∧ oneWire.ctrl.txDir = !true) ∧
    (StateInv (machine 9 oneWireOut) ∧ oneWireOut.ctrl.txDir = !false ∧ oneWireOut.ctrl.txDir = true) ∧
    StateInv (machine 9 duplex) ∧ duplex.halfDup = false :=
  ⟨⟨machine_inv _ (by decide), by decide⟩, ⟨machine_inv _ (by decide), by decide⟩, machine_inv _ (by decide), by decide⟩

/-- With a byte held and with none. -/
theorem test_witness_ReadTakesTheOldestByte :
    (StateInv (machine 9 withByte) ∧
      outcome (·.line.heldBytes) (exec .decodePass (machine 9 withByte)) = some [0x41]) ∧
    StateInv (machine 9 duplex) ∧ outcome (·.line.heldBytes) (exec .decodePass (machine 9 duplex)) = some [] :=
  ⟨⟨machine_inv _ (by decide), by decide⟩, machine_inv _ (by decide), by decide⟩

theorem test_witness_PeekLeavesTheByte : StateInv (machine 9 withByte) ∧ StateInv (machine 9 duplex) :=
  ⟨machine_inv _ (by decide), machine_inv _ (by decide)⟩

theorem test_witness_FlushEmptiesBothRings :
    { machine 9 duplex with ie := false }.ie = false ∧ (machine 9 duplex).pins.wf untouchedPin = true := by decide

theorem test_witness_OnlyPollNotifies :
    (∃ t, exec .read (machine 9 withByte) = .next t) ∧ Instr.read ≠ .poll := ⟨goesOn_next (by decide), by decide⟩

end Sys2Proof.Tests
end

/-! Proofs of the family 10_state.md: the invariant of R42, `CPOS`, the ring counts, `LINE_OVF` and the word of `CTRL`. -/

namespace Sys2Proof.Machine

/-! ### The invariant along a step and at reset (R42, R250) -/

/-- A move of another agent keeps the invariant. -/
theorem inv_move {s : State} (m : Move) (h : StateInv s) : StateInv (s.move m) :=
  h.keep (s.move_rel m).op (s.move_rel m).reg (s.move_rel m).line.keep

/-- The invariant says nothing of the requests the host has not had served. -/
theorem inv_setHost {s : State} (rs : List HostRequest) (h : StateInv s) : StateInv { s with host := rs } :=
  inv_perm h (.refl _) rfl rfl

/-- Nor of the action slot (assumption 11). -/
theorem inv_setAction {s : State} (ws : List Word) (h : StateInv s) : StateInv { s with action := ws } :=
  inv_perm h (.refl _) rfl rfl

/-- A request of the host keeps the invariant when it is served (R233, R250). -/
theorem inv_serve {s t : State} {r : HostRequest} (h : StateInv s) (hs : s.serve r = .next t) : StateInv t := by
  cases r with
  | select id => cases hs; exact inv_select id h
  | setIe b => cases hs; exact inv_perm h (.refl _) rfl rfl
  | construct a => exact inv_construct a h t hs

theorem inv_consume {s : State} (n : Nat) (h : StateInv s) : StateInv (s.consume n) :=
  inv_map _ h (.of_eq rfl rfl rfl rfl rfl)

theorem inv_illegalCommand {s : State} (x : Word) (h : StateInv s) : StateInv (s.illegalCommand x) :=
  inv_mapCtrl _ h rfl rfl { inv_line h with }

/-- The foreground's step keeps the invariant, whether it runs a command, answers an illegal word or waits (R84, R85). -/
theorem inv_stepForeground {s t : State} (h : StateInv s) (hs : stepForeground s = .next t) : StateInv t := by
  unfold stepForeground at hs
  split at hs
  case h_1 i _ => exact inv_onNext (inv_exec i (inv_consume _ h)) (fun _ hu => (inv_cpos _ hu).tick) t hs
  case h_2 => cases hs; exact h.tick
  case h_3 => cases hs; exact h.tick
  case h_4 => cases hs; exact (inv_illegalCommand _ h).tick
  case h_5 => cases hs; exact (inv_illegalCommand _ h).tick

/-- R42: a step keeps the invariant. -/
theorem inv_step {s t : State} (h : StateInv s) (hs : step s = .next t) : StateInv t := by
  unfold step at hs
  split at hs
  · exact inv_serve (inv_setHost _ h) hs
  · split at hs
    case h_1 i _ => exact inv_onNext (inv_exec i (inv_setAction _ h)) (fun _ hu => hu.tick) t hs
    case h_2 => exact inv_stepForeground h hs

/-- Settles O17: a step by `inv_step`, a move of another agent by `inv_move`. -/
theorem everyStepKeepsTheInvariant : Obligations.EveryStepKeepsTheInvariant :=
  ⟨fun _ _ => inv_step, fun _ => inv_move⟩

/-- A machine of one line of a legal configuration meets the invariant (R250, R253). -/
theorem boot_inv (par : Params) {slots : Nat} {cfg : Cfg} (hs : slots ≤ 255) (hc : cfgLegal cfg = true) :
    StateInv (State.boot par slots cfg) where
  line_inv l hl := by
    obtain rfl : l = Line.reset par 0 cfg := by simpa [State.lines, State.boot] using hl
    exact reset_line_inv _ _ _ _ hc
  ids_nodup := List.nodup_singleton _
  ids_lt l hl := by
    obtain rfl : l = Line.reset par 0 cfg := by simpa [State.lines, State.boot] using hl
    exact Nat.zero_lt_one
  slots_le := by simpa [State.boot] using hs
  pins_apart := List.pairwise_singleton _ _
  pins_wf := rfl

/-- Settles O16: both are `State.boot` of a legal configuration. -/
theorem resetMeetsTheInvariant : Obligations.ResetMeetsTheInvariant :=
  ⟨fun par _ cfg hs hb hb' he he' => boot_inv par hs ((cfgLegal_iff cfg).mpr ⟨hb, hb', he, he'⟩),
    boot_inv _ (by decide) (by decide)⟩

/-! ### `CPOS` (R21, R84, R85) -/

@[simp] theorem State.beginTx_line_cpos (s : State) : s.beginTx.line.cpos = s.line.cpos := by
  unfold State.beginTx; split <;> simp

@[simp] theorem State.beginRx_line_cpos (s : State) : s.beginRx.line.cpos = s.line.cpos := by
  unfold State.beginRx; split <;> simp

@[simp] theorem State.startLine_line_cpos (bn k : Nat) (s : State) : (s.startLine bn k).line.cpos = s.line.cpos := by
  simp [State.startLine, State.restartLine, State.takeSlot]

@[simp] theorem State.beginWith_line_cpos (bn : Nat) (s : State) : (s.beginWith bn).line.cpos = s.line.cpos := by
  unfold State.beginWith
  split
  · rfl
  · unfold State.beginMasked; split <;> simp

@[simp] theorem State.disarm_line_cpos (s : State) : s.disarm.line.cpos = s.line.cpos := by
  unfold State.disarm; split <;> simp

@[simp] theorem State.releaseSlot_line_cpos (s : State) : s.releaseSlot.line.cpos = s.line.cpos := rfl

@[simp] theorem State.retryPass_line_cpos (s : State) : s.retryPass.line.cpos = s.line.cpos := by
  unfold State.retryPass; split <;> simp

@[simp] theorem State.notifyHost_line_cpos (s : State) : s.notifyHost.line.cpos = s.line.cpos := by
  unfold State.notifyHost; split <;> simp

/-- No instruction moves `CPOS` itself (R84 step 5). -/
theorem exec_line_cpos {i : Instr} {s t : State} (h : exec i s = .next t) : t.line.cpos = s.line.cpos := by
  cases i with
  | beginLine b => cases h; split_ifs <;> simp
  | endLine => cases h; split_ifs <;> simp
  | setTxen v p => cases h; split_ifs <;> simp
  | enableTx e => cases h; split_ifs <;> simp [State.turnToTransmit, State.turnToReceive]
  | write payload =>
    simp only [exec, execWrite] at h
    split_ifs at h <;> cases h <;> simp
  | edgeCapture => cases h; exact (Line.capture_rel _ _ _).cpos_eq
  | enableIntTx e | setNotify e | overflow => cases h; rfl
  | read | peek | available | flush | poll | decodePass => cases h; simp
  | processEdge w => cases h; simp
  | txSegment v dur => cases h; simp
  | delayUntil d => cases h; simp

/-- How far one step of the foreground moves `CPOS`, by what stands at it (R84, R85). -/
theorem step_line_cpos {s t : State} (h : step s = .next t) (hh : s.host = []) (ha : decodeAction s.action = none) :
    t.line.cpos = s.line.cpos + match decode s.line.cmd with
      | .instr i => i.words
      | .reject (.unassignedOp _) | .reject (.mustBeZero _) => 1
      | .reject .noWord | .reject (.payloadMissing _) => 0 := by
  simp only [step, hh, ha, stepForeground] at h
  cases hd : decode s.line.cmd with
  | instr i =>
    simp only [hd] at h
    cases he : exec i (s.consume i.words) with
    | next u =>
      rw [he] at h
      cases h
      simp [exec_line_cpos he]
    | fault r => rw [he] at h; cases h
    | refused r => rw [he] at h; cases h
  | reject e => cases e <;> simp only [hd] at h <;> cases h <;> simp [State.illegalCommand]

/-- Settles O11: an instruction leaves `CPOS` alone, and the step around it adds the length. -/
theorem cposAdvancesByTheLength : Obligations.CposAdvancesByTheLength := by
  refine ⟨rfl, fun _ _ _ => exec_line_cpos, fun i hi => ?_, fun _ _ hh ha h => step_line_cpos h hh ha⟩
  cases i with
  | edgeCapture | decodePass => cases hi
  | processEdge w => cases hi
  | txSegment v dur => cases hi
  | delayUntil d => cases hi
  | _ => rfl

/-! ### Ring counts (R32, R37) -/

/-- R32, R37: the count of a ring as an integer residue. -/
theorem ringCount_eq_emod {h t n : Nat} (ht : t < n) : (ringCount h t n : Int) = ((h : Int) - t) % n := by
  unfold ringCount
  rw [Int.natCast_mod, Nat.cast_sub (by omega), Nat.cast_add, add_sub_right_comm, Int.add_emod_right]

/-- R32: what the two indices of a ring of `n` slots say of the elements it holds. -/
theorem ringCount_bounds {h t n : Nat} (hh : h < n) (ht : t < n) :
    (ringCount h t n : Int) = ((h : Int) - t) % n ∧ ringCount h t n ≤ n - 1 ∧
      ((h + 1) % n = t ↔ ringCount h t n = n - 1) :=
  ⟨ringCount_eq_emod ht, Nat.le_sub_one_of_lt (ringCount_lt (Nat.zero_lt_of_lt hh)), ring_full hh ht⟩

/-- Settles O21: both rings by the one lemma on their indices. -/
theorem ringsHoldOneLessThanTheirSlots : Obligations.RingsHoldOneLessThanTheirSlots :=
  fun _ _ _ heh het hbh hbt => ⟨ringCount_bounds heh het, ringCount_bounds hbh hbt⟩

/-! ### `LINE_OVF` (R38, R222) -/

/-! The decoder sets it on a full byte ring (R63) and never clears it. -/

theorem Line.bPush_keeps_lineOvf (b : Byte) {l : Line} (h : l.lineOvf = true) : (l.bPush b).lineOvf = true := by
  unfold Line.bPush
  split
  · rfl
  · exact h

theorem Line.complete_keeps_lineOvf (b : Byte) (v : Level) {l : Line} (h : l.lineOvf = true) :
    (l.complete b v).lineOvf = true := Line.bPush_keeps_lineOvf b h

theorem Line.assemble_keeps_lineOvf (p n : Nat) (v u : Level) {l : Line} (h : l.lineOvf = true) :
    (l.assemble p n v u).lineOvf = true := by
  unfold Line.assemble
  split
  · exact h
  · exact Line.complete_keeps_lineOvf _ _ h

theorem Line.stepPos_keeps_lineOvf (n : Nat) (v u : Level) {l : Line} (h : l.lineOvf = true) :
    (l.stepPos n v u).lineOvf = true := by
  unfold Line.stepPos
  split
  · split <;> exact h
  · exact Line.assemble_keeps_lineOvf _ _ _ _ h
  · exact Line.assemble_keeps_lineOvf _ _ _ _ h

theorem Line.processEdge_keeps_lineOvf (w : Word) {l : Line} (h : l.lineOvf = true) :
    (l.processEdge w).lineOvf = true := by
  unfold Line.processEdge
  split
  · exact h
  · exact Line.stepPos_keeps_lineOvf _ _ _ h

theorem Line.recover_keeps_lineOvf (now : Word) {l : Line} (h : l.lineOvf = true) :
    (l.recover now).lineOvf = true := by
  unfold Line.recover
  split
  · exact Line.processEdge_keeps_lineOvf _ h
  · exact h

theorem State.foldOverflow_keeps_lineOvf {s : State} (h : s.line.lineOvf = true) :
    s.foldOverflow.line.lineOvf = true := by
  unfold State.foldOverflow
  split <;> simp [h]

theorem State.recoverStop_keeps_lineOvf {s : State} (h : s.line.lineOvf = true) :
    s.recoverStop.line.lineOvf = true := by
  unfold State.recoverStop
  split
  · exact h
  · exact Line.recover_keeps_lineOvf _ (s.tick_line_lineOvf.trans h)

theorem State.drain_keeps_lineOvf (k : Nat) {s : State} (h : s.line.lineOvf = true) :
    (State.drain k s).line.lineOvf = true := by
  induction k generalizing s with
  | zero => exact h
  | succ k ih => exact ih (Line.processEdge_keeps_lineOvf _ (s.ePop_snd_line_lineOvf.trans h))

theorem State.passFrom_keeps_lineOvf (n : Nat) {s : State} (h : s.line.lineOvf = true) :
    (s.passFrom n).line.lineOvf = true := by
  unfold State.passFrom
  split
  · exact State.recoverStop_keeps_lineOvf (State.foldOverflow_keeps_lineOvf h)
  · exact State.drain_keeps_lineOvf _ (State.foldOverflow_keeps_lineOvf h)

theorem State.decodePass_keeps_lineOvf {s : State} (h : s.line.lineOvf = true) :
    s.decodePass.line.lineOvf = true := by
  unfold State.decodePass
  split
  · exact State.passFrom_keeps_lineOvf _ (by simpa using h)
  · exact h

theorem State.retryPass_keeps_lineOvf {s : State} (h : s.line.lineOvf = true) :
    s.retryPass.line.lineOvf = true := by
  unfold State.retryPass
  split
  · exact State.decodePass_keeps_lineOvf (s.tick_line_lineOvf.trans h)
  · exact h

@[simp] theorem State.notifyHost_line_lineOvf (s : State) : s.notifyHost.line.lineOvf = s.line.lineOvf := by
  unfold State.notifyHost; split <;> simp

/-! A start of the line clears it (R180), and nothing else of the lifecycle touches it. -/

@[simp] theorem State.beginTx_line_lineOvf (s : State) : s.beginTx.line.lineOvf = s.line.lineOvf := by
  unfold State.beginTx; split <;> simp

@[simp] theorem State.beginRx_line_lineOvf (s : State) : s.beginRx.line.lineOvf = s.line.lineOvf := by
  unfold State.beginRx; split <;> simp

@[simp] theorem State.startLine_line_lineOvf (bn k : Nat) (s : State) : (s.startLine bn k).line.lineOvf = false := by
  simp [State.startLine, State.restartLine]

theorem State.beginWith_line_lineOvf (bn : Nat) (s : State) :
    (s.beginWith bn).line.lineOvf = s.line.lineOvf ∨
      (s.line.ctrl.life ≠ .started ∧ (s.beginWith bn).line.lineOvf = false) := by
  unfold State.beginWith
  split
  · exact .inl rfl
  · rename_i hns
    unfold State.beginMasked
    split
    · left; simp
    · right; exact ⟨hns, by simp⟩

@[simp] theorem State.disarm_line_lineOvf (s : State) : s.disarm.line.lineOvf = s.line.lineOvf := by
  unfold State.disarm; split <;> simp

@[simp] theorem State.releaseSlot_line_lineOvf (s : State) : s.releaseSlot.line.lineOvf = s.line.lineOvf := rfl

/-- Settles O38: no pass or edge clears the flag, and only a start of the line and OVERFLOW do. -/
theorem lineOverflowIsSticky : Obligations.LineOverflowIsSticky := by
  intro i s t h
  cases i with
  | beginLine b =>
    cases h
    split_ifs
    · exact .inl rfl
    · exact State.beginWith_line_lineOvf _ s
    · exact .inl rfl
  | overflow => cases h; rfl
  | read => cases h; exact fun ho => by simpa using State.decodePass_keeps_lineOvf ho
  | peek | decodePass => cases h; exact State.decodePass_keeps_lineOvf
  | poll => cases h; exact fun ho => by simpa using State.decodePass_keeps_lineOvf ho
  | available => cases h; exact fun ho => State.retryPass_keeps_lineOvf (State.decodePass_keeps_lineOvf ho)
  | write payload =>
    intro ho
    have hp := State.decodePass_keeps_lineOvf ho
    simp only [exec, execWrite] at h
    split_ifs at h <;> cases h <;> simpa using hp
  | processEdge w => cases h; exact Line.processEdge_keeps_lineOvf w
  | endLine => cases h; split_ifs <;> simp
  | setTxen v p => cases h; split_ifs <;> simp
  | enableTx e => cases h; split_ifs <;> simp [State.turnToTransmit, State.turnToReceive]
  | edgeCapture => cases h; exact (Line.capture_rel _ _ _).lineOvf_eq
  | enableIntTx e | setNotify e => cases h; rfl
  | flush => cases h; simp
  | txSegment v dur => cases h; simp
  | delayUntil d => cases h; simp

/-! ### The word of `CTRL` (R24) -/

/-- R24: each field of `CTRL` stands at its bits, and the reserved bits are 0. -/
theorem Ctrl.word_fields (c : Ctrl) :
    c.word.extractLsb' 0 2 = c.life.code ∧ c.word.getLsbD 2 = c.intTx ∧ c.word.getLsbD 3 = c.txDir ∧
    c.word.getLsbD 4 = c.rxArmed ∧ c.word.getLsbD 5 = c.txenV ∧ c.word.getLsbD 6 = c.notify ∧
    c.word.extractLsb' 7 25 = 0 := by
  obtain ⟨life, intTx, txDir, rxArmed, txenV, notify⟩ := c
  cases life <;> revert intTx txDir rxArmed txenV notify <;> decide

/-- Settles O18, by `Ctrl.word_fields` for each lifecycle. -/
theorem controlWordHasItsFields : Obligations.ControlWordHasItsFields := by
  intro c
  have h := c.word_fields
  cases hl : c.life <;> rw [hl] at h <;> exact h

end Sys2Proof.Machine

/-! Proofs of the family 20_memory.md: the two rings as queues, and commands issued with `IE = 0`. -/

namespace Sys2Proof.Machine

/-! ### The rings (R61 to R63) -/

/-- A push on a full edge ring sets `E_OVF` (R61, R101). -/
theorem Line.ePush_eOvf_of_full {l : Line} (w : Word) (h : l.eNext = l.eTail) : (l.ePush w).eOvf = true := by
  rw [Line.ePush, if_pos h]
  rfl

/-- Settles O22, by the laws of a push and of a pop on the edges held. -/
theorem edgeRingIsAQueue : Obligations.EdgeRingIsAQueue := by
  intro l w _ hh ht hw
  have ok : EdgeRingOk l := ⟨hh, ht, hw⟩
  have hpush := Line.heldEdges_ePush w ok
  exact ⟨fun hroom => hpush.trans (if_neg hroom),
    fun hfull => ⟨hpush.trans (if_pos hfull), Line.ePush_eOvf_of_full w hfull⟩, Line.heldEdges_pop ok⟩

/-- A push on a byte ring with room writes the slot at `B_HEAD` and moves `B_HEAD` on (R63). -/
theorem Line.bPush_of_room {l : Line} (b : Byte) (h : l.bNext ≠ l.bTail) :
    l.bPush b = { l with slotB := l.slotB.write unwrittenByte l.bHead b, bHead := l.bNext } := if_neg h

/-- A push on a full byte ring drops the byte (R63, R128). -/
theorem Line.bPush_of_full {l : Line} (b : Byte) (h : l.bNext = l.bTail) :
    l.bPush b = { l with lineOvf := true }.raise (.bufferOverflowByte b) := if_pos h

/-- Settles O36: the two cases of a push, with the bytes held by `Line.heldBytes_bPush`. -/
theorem bytePushStoresOrDrops : Obligations.BytePushStoresOrDrops := by
  intro l b
  constructor
  · intro _ hh ht hw hroom
    have hheld := (Line.heldBytes_bPush b hh ht hw).trans (if_neg hroom)
    exact ⟨hheld, _, Line.bPush_of_room b hroom, fun k => Memory.read_write l.bHead k b hw⟩
  · exact Line.bPush_of_full b

/-! ### The decoder records no capture -/

/-- Recording an event that is no capture. -/
theorem Line.log_captures {e : Event} (he : e.captured? = none) (l : Line) :
    captures (l.log e).trace = captures l.trace := by simp [captures, he]

theorem Line.bPush_captures (b : Byte) (l : Line) : captures (l.bPush b).trace = captures l.trace := by
  unfold Line.bPush
  split
  · exact Line.log_captures rfl _
  · rfl

theorem Line.assemble_captures (p n : Nat) (u v : Level) (l : Line) :
    captures (l.assemble p n u v).trace = captures l.trace := by
  unfold Line.assemble
  split
  · rfl
  · exact Line.bPush_captures _ l

theorem Line.stepPos_captures (n : Nat) (u v : Level) (l : Line) :
    captures (l.stepPos n u v).trace = captures l.trace := by
  unfold Line.stepPos
  split
  · split <;> rfl
  · exact Line.assemble_captures ..
  · exact Line.assemble_captures ..

theorem Line.processEdge_captures (w : Word) (l : Line) :
    captures (l.processEdge w).trace = captures l.trace := by
  have hlog : captures (l.log (.processEdge w)).trace = captures l.trace := Line.log_captures rfl l
  unfold Line.processEdge
  split
  · exact (Line.log_captures rfl _).trans hlog
  · exact (Line.stepPos_captures ..).trans hlog

theorem Line.recover_captures (now : Word) (l : Line) : captures (l.recover now).trace = captures l.trace := by
  unfold Line.recover
  split
  · exact Line.processEdge_captures _ l
  · rfl

/-! ### Operations that write nothing EDGE_CAPTURE may write, with interrupts masked (R71, R159) -/

/-- A change of the active line that leaves `Line.isrOwned` alone and records no capture. -/
theorem State.mapLine_stays {f : Line → Line} (s : State)
    (hisr : ∀ l, (f l).isrOwned = l.isrOwned := by exact fun _ => rfl)
    (hcap : ∀ l, captures (f l).trace = captures l.trace := by exact fun _ => rfl) : StaysMasked s (s.mapLine f) :=
  .of_eq rfl (hisr _) rfl (hcap _)

theorem State.processEdge_stays (w : Word) (s : State) : StaysMasked s (s.mapLine (·.processEdge w)) :=
  s.mapLine_stays (fun _ => by simp [Line.isrOwned]) (Line.processEdge_captures w)

theorem State.recoverStop_stays (s : State) : StaysMasked s s.recoverStop := by
  unfold State.recoverStop
  split
  · exact .refl s
  · exact s.tick_stays.trans (State.mapLine_stays _ (fun _ => by simp [Line.isrOwned]) (Line.recover_captures _))

theorem State.drain_stays (k : Nat) : ∀ s : State, StaysMasked s (State.drain k s) := by
  induction k with
  | zero => exact StaysMasked.refl
  | succ k ih => exact fun s => ((State.storeETail_stays _ s).trans (State.processEdge_stays _ _)).trans (ih _)

/-- A write of `IE` that restores a saved 0 (R223). -/
theorem State.writeIe_stays_of_saved {b : Bool} (hb : b = false) (s : State) : StaysMasked s (s.writeIe b) :=
  hb ▸ s.writeIe_stays

/-- The bulk of a wait restores the `IE` saved, which leaves it masked (R159). -/
theorem State.splitWait_stays (d now : Word) {s : State} (h : s.line.txSavedIe = false) :
    StaysMasked s (s.splitWait d now) := by
  unfold State.splitWait
  split
  · exact ((State.writeIe_stays_of_saved h s).trans (State.holdUntil_stays _ _)).trans (State.writeIe_stays _)
  · exact .refl s

theorem State.delayUntil_stays (d : Word) {s : State} (h : s.line.txSavedIe = false) :
    StaysMasked s (s.delayUntil d) := by
  have hread : StaysMasked s (s.log (.delayUntil d)).tick := (State.log_stays rfl s).trans (State.tick_stays _)
  exact (hread.trans (State.splitWait_stays d _ (by simpa using h))).trans (State.holdUntil_stays _ _)

theorem State.txSegment_stays (v : Level) (dur : Word) {s : State} (h : s.line.txSavedIe = false) :
    StaysMasked s (s.txSegment v dur) := by
  have hopen : StaysMasked s (s.openSegment v dur) :=
    ((State.log_stays rfl s).trans (State.pinWrite_stays _ v _)).trans (State.mapLine_stays _)
  exact hopen.trans (State.delayUntil_stays _ (by simpa using h))

theorem State.flushPair_stays {s : State} (h : s.line.txSavedIe = false) : StaysMasked s s.flushPair := by
  have hhigh : StaysMasked s s.flushHigh := by
    unfold State.flushHigh
    split
    · exact .refl s
    · exact State.txSegment_stays _ _ h
  have hlow : StaysMasked s.flushHigh s.flushHigh.flushLow := by
    unfold State.flushLow
    split
    · exact .refl _
    · exact State.txSegment_stays _ _ (by simpa using h)
  exact (hhigh.trans hlow).trans (State.mapLine_stays _)

theorem State.addPeriod_stays (v : Level) (s : State) : StaysMasked s (s.mapLine (·.addPeriod v)) :=
  s.mapLine_stays (fun _ => by simp [Line.isrOwned]) (fun _ => by simp)

theorem State.txBit_stays (v : Level) {s : State} (h : s.line.txSavedIe = false) : StaysMasked s (s.txBit v) := by
  unfold State.txBit
  split
  · exact State.addPeriod_stays v s
  · exact (State.flushPair_stays h).trans (State.addPeriod_stays v _)

theorem State.foldl_txBit_stays (vs : List Level) : ∀ {s : State}, s.line.txSavedIe = false →
    StaysMasked s (vs.foldl State.txBit s) := by
  induction vs with
  | nil => exact fun _ => .refl _
  | cons v vs ih => exact fun h => (State.txBit_stays v h).trans (ih (by simpa using h))

theorem State.driveTxen_stays (v : Level) (s : State) : StaysMasked s (s.driveTxen v) := by
  unfold State.driveTxen
  split
  · exact State.pinWrite_stays _ _ s
  · exact .refl s

theorem State.txMask_stays (s : State) : StaysMasked s s.txMask := by
  have hsave : StaysMasked s (s.mapLine fun l => { l with txSavedIe := s.ie }) :=
    State.mapLine_stays s
  unfold State.txMask
  split
  · exact hsave
  · exact hsave.trans (State.writeIe_stays _)

/-- What TRANSMIT saves is the `IE` it finds (R151). -/
theorem State.txMask_line_txSavedIe (s : State) : s.txMask.line.txSavedIe = s.ie := by
  unfold State.txMask
  split
  · rfl
  · exact State.tick_line_txSavedIe _

theorem State.txClose_stays {s : State} (h : s.line.txSavedIe = false) : StaysMasked s s.txClose :=
  (State.flushPair_stays h).trans (State.writeIe_stays_of_saved ((State.flushPair_line_txSavedIe s).trans h) _)

/-- TRANSMIT saves the masked `IE`, so what it restores on the way and at its end is masked too (R159). -/
theorem State.transmit_stays (bytes : List Byte) (s : State) : StaysMasked s (s.transmit bytes) := by
  intro hie
  have hmask : StaysMasked s (s.driveTxen true).txMask := (s.driveTxen_stays true).trans (State.txMask_stays _)
  have hsample : StaysMasked (s.driveTxen true).txMask (s.driveTxen true).txMask.txSample :=
    (State.tick_stays _).trans (State.mapLine_stays _)
  have hsaved : (s.driveTxen true).txMask.txSample.line.txSavedIe = false := by
    simp [State.txMask_line_txSavedIe, hie]
  have hbits := State.foldl_txBit_stays (txLevels s.line.cfg bytes) hsaved
  have hclose := State.txClose_stays ((State.foldl_txBit_line_txSavedIe (txLevels s.line.cfg bytes) _).trans hsaved)
  exact ((((hmask.trans hsample).trans hbits).trans hclose).trans (State.driveTxen_stays false _)) hie

theorem State.beginTx_stays (s : State) : StaysMasked s s.beginTx := by
  unfold State.beginTx
  split
  · exact (State.pinMode_stays _ _ s).trans (State.pinWrite_stays _ _ _)
  · exact .refl s

theorem State.beginRx_stays (s : State) : StaysMasked s s.beginRx := by
  unfold State.beginRx
  split
  · exact (State.pinMode_stays _ _ s).trans (State.attach_stays _)
  · exact .refl s

theorem State.disarm_stays (s : State) : StaysMasked s s.disarm := by
  unfold State.disarm
  split
  · exact s.detach_stays
  · exact .refl s

theorem State.turnToTransmit_stays (s : State) : StaysMasked s s.turnToTransmit :=
  ((s.detach_stays.trans (State.pinMode_stays _ _ _)).trans (State.pinWrite_stays _ _ _)).trans
    (State.mapLine_stays _)

theorem State.turnToReceive_stays (s : State) : StaysMasked s s.turnToReceive :=
  ((State.pinMode_stays _ _ s).trans (State.attach_stays _)).trans
    (State.mapLine_stays _)

theorem State.notifyHost_stays (s : State) : StaysMasked s s.notifyHost := by
  unfold State.notifyHost
  split
  · exact State.log_stays rfl s
  · exact .refl s

/-! ### Operations that capture nothing, but may clear what the foreground may clear of the edge ring -/

/-- With interrupts masked before it, an operation leaves them masked and captures nothing: no edge word is stored and
no `E_OVF` is set. `E_HEAD` moves only by a reset to 0, and only if `reset`. -/
def CapturesNothing (reset : Prop) (s t : State) : Prop :=
  s.ie = false → t.ie = false ∧
    captures t.line.trace = captures s.line.trace ∧ t.others.map (·.trace) = s.others.map (·.trace) ∧
    t.others.map Line.isrOwned = s.others.map Line.isrOwned ∧ t.line.slotE = s.line.slotE ∧
    (t.line.eOvf = true → s.line.eOvf = true) ∧
    (t.line.eHead = s.line.eHead ∨ reset ∧ t.line.eHead = 0)

theorem CapturesNothing.trans {reset : Prop} {s t u : State} (h : CapturesNothing reset s t)
    (k : CapturesNothing reset t u) : CapturesNothing reset s u := by
  intro hs
  obtain ⟨ht, hcap, htrace, hisr, hslot, hovf, hhead⟩ := h hs
  obtain ⟨hu, hcap', htrace', hisr', hslot', hovf', hhead'⟩ := k ht
  refine ⟨hu, hcap'.trans hcap, htrace'.trans htrace, hisr'.trans hisr, hslot'.trans hslot,
    fun e => hovf (hovf' e), ?_⟩
  obtain e | e := hhead'
  · rwa [e]
  · exact .inr e

theorem StaysMasked.capturesNothing {reset : Prop} {s t : State} (h : StaysMasked s t) : CapturesNothing reset s t := by
  intro hs
  obtain ⟨ht, hisr, hothers, hcap, htrace⟩ := h hs
  simp only [Line.isrOwned, Prod.mk.injEq] at hisr
  obtain ⟨hslot, hhead, hovf⟩ := hisr
  exact ⟨ht, hcap, htrace, hothers, hslot, fun e => hovf.symm.trans e, .inl hhead⟩

theorem State.storeEOvf_capturesNothing (reset : Prop) (s : State) : CapturesNothing reset s (s.storeEOvf false) :=
  s.tick_stays.capturesNothing.trans fun hs => ⟨hs, rfl, rfl, rfl, rfl, nofun, .inl rfl⟩

theorem State.foldOverflow_capturesNothing (reset : Prop) (s : State) : CapturesNothing reset s s.foldOverflow := by
  unfold State.foldOverflow
  split
  · have hset : StaysMasked s (s.tick.mapLine fun l => { l with lineOvf := true }) :=
      s.tick_stays.trans (State.mapLine_stays _)
    exact hset.capturesNothing.trans (State.storeEOvf_capturesNothing reset _)
  · exact s.tick_stays.capturesNothing

theorem State.decodePass_capturesNothing (reset : Prop) (s : State) : CapturesNothing reset s s.decodePass := by
  unfold State.decodePass
  split
  · have hload : StaysMasked s (s.log .decodePass).tick := (State.log_stays rfl s).trans (State.tick_stays _)
    have hfold := hload.capturesNothing.trans (State.foldOverflow_capturesNothing reset _)
    unfold State.passFrom
    split
    · exact hfold.trans (State.recoverStop_stays _).capturesNothing
    · exact hfold.trans (State.drain_stays _ _).capturesNothing
  · exact (StaysMasked.refl s).capturesNothing

theorem State.retryPass_capturesNothing (reset : Prop) (s : State) : CapturesNothing reset s s.retryPass := by
  unfold State.retryPass
  split
  · exact (State.yieldCycles_stays _ s).capturesNothing.trans (State.decodePass_capturesNothing reset _)
  · exact (StaysMasked.refl s).capturesNothing

/-- The one reset of `E_HEAD`: a first start or restart (R180). -/
theorem State.restartLine_capturesNothing {reset : Prop} (h : reset) (bn k : Nat) (s : State) :
    CapturesNothing reset s (s.restartLine bn k) :=
  s.tick_stays.capturesNothing.trans fun hs => ⟨hs, rfl, rfl, rfl, rfl, nofun, .inr ⟨h, rfl⟩⟩

theorem State.startLine_capturesNothing {reset : Prop} (h : reset) (bn k : Nat) (s : State) :
    CapturesNothing reset s (s.startLine bn k) := by
  have htake : StaysMasked s (s.takeSlot k) := .of_eq rfl rfl rfl rfl
  have hpins : StaysMasked ((s.takeSlot k).restartLine bn k) (s.startLine bn k) :=
    ((State.beginTx_stays _).trans (State.beginRx_stays _)).trans
      (State.mapLine_stays _)
  exact (htake.capturesNothing.trans (State.restartLine_capturesNothing h bn k _)).trans hpins.capturesNothing

theorem State.beginMasked_capturesNothing {reset : Prop} (h : reset) (bn : Nat) (s : State) :
    CapturesNothing reset s (s.beginMasked bn false) := by
  unfold State.beginMasked
  split
  · have hraise : StaysMasked s ((s.writeIe false).mapLine (·.raise .resourceExhausted)) :=
      s.writeIe_stays.trans (State.log_stays rfl _)
    exact (hraise.trans (State.respond_stays 0 _)).capturesNothing
  · exact (State.startLine_capturesNothing h bn _ s).trans
      ((State.writeIe_stays _).trans (State.respond_stays 1 _)).capturesNothing

theorem State.beginWith_capturesNothing {reset : Prop} (h : reset) (bn : Nat) (s : State) :
    CapturesNothing reset s (s.beginWith bn) := by
  intro hs
  unfold State.beginWith
  rw [hs]
  split
  · exact (StaysMasked.of_eq rfl rfl rfl rfl).capturesNothing hs
  · exact (s.writeIe_stays.capturesNothing.trans (State.beginMasked_capturesNothing h bn _)) hs

/-! ### Commands -/

/-- Every command that goes on, issued with `IE = 0`: only a BEGIN may reset `E_HEAD`. -/
theorem exec_capturesNothing {i : Instr} {s t : State} (hc : i.isCommand = true) (h : exec i s = .next t) :
    CapturesNothing (∃ b, i = .beginLine b) s t := by
  have hpass := s.decodePass_capturesNothing (∃ b, i = .beginLine b)
  cases i with
  | beginLine b =>
    cases h
    split_ifs
    · exact (State.respond_stays 0 s).capturesNothing
    · exact State.beginWith_capturesNothing ⟨b, rfl⟩ _ s
    · exact (State.respond_stays 0 s).capturesNothing
  | endLine =>
    cases h
    split_ifs
    · intro hs
      have hrelease : StaysMasked s (s.writeIe false).disarm.releaseSlot :=
        (s.writeIe_stays.trans (State.disarm_stays _)).trans (.of_eq rfl rfl rfl rfl)
      exact ((hrelease.trans (State.writeIe_stays_of_saved hs _)).trans (State.respond_stays 0 _)).capturesNothing hs
    · exact (State.respond_stays 0 s).capturesNothing
  | setTxen v p =>
    cases h
    split_ifs
    · have hset : StaysMasked s (s.mapLine fun l => { l with txenPin := p, ctrl := { l.ctrl with txenV := true } }) :=
        State.mapLine_stays s
      exact (((hset.trans (State.pinMode_stays _ _ _)).trans (State.pinWrite_stays _ _ _)).trans
        (State.respond_stays 0 _)).capturesNothing
    · exact (StaysMasked.of_eq rfl rfl rfl rfl).capturesNothing
  | enableTx e =>
    cases h
    split_ifs
    · exact (s.turnToTransmit_stays.trans (State.respond_stays 0 _)).capturesNothing
    · exact (s.turnToReceive_stays.trans (State.respond_stays 0 _)).capturesNothing
    · exact (State.respond_stays 0 s).capturesNothing
    · exact (State.respond_stays 0 s).capturesNothing
  | enableIntTx e | setNotify e | overflow =>
    cases h
    exact (StaysMasked.of_eq rfl rfl rfl rfl).capturesNothing
  | read =>
    cases h
    have hdrop : StaysMasked s.decodePass (s.decodePass.mapLine (·.bDrop)) :=
      State.mapLine_stays _ (fun _ => by simp [Line.isrOwned]) (fun _ => by simp)
    exact hpass.trans (hdrop.trans (State.respond_stays _ _)).capturesNothing
  | peek =>
    cases h
    exact hpass.trans (State.respond_stays _ _).capturesNothing
  | available =>
    cases h
    exact (hpass.trans (State.retryPass_capturesNothing _ _)).trans (State.respond_stays _ _).capturesNothing
  | write payload =>
    simp only [exec, execWrite] at h
    split_ifs at h <;> cases h
    · exact hpass.trans (State.respond_stays 0 _).capturesNothing
    · exact hpass.trans ((State.transmit_stays payload _).trans (State.respond_stays _ _)).capturesNothing
  | flush =>
    cases h
    have htail := s.tick_stays.trans (State.storeETail_stays s.loadEHead.1 _)
    have hclear := htail.trans (State.mapLine_stays (f := fun l => { l with bTail := l.bHead }) _)
    exact (hclear.trans (State.respond_stays 0 _)).capturesNothing
  | poll =>
    cases h
    exact hpass.trans ((State.notifyHost_stays _).trans (State.respond_stays _ _)).capturesNothing
  | edgeCapture | decodePass => cases hc
  | processEdge w => cases hc
  | txSegment v dur => cases hc
  | delayUntil d => cases hc

/-- Settles O25, by `exec_capturesNothing`. -/
theorem maskedCommandsCaptureNothing : Obligations.MaskedCommandsCaptureNothing :=
  fun _ _ _ hc hie h => (exec_capturesNothing hc h hie).2

end Sys2Proof.Machine

/-! Proofs of the family 30_encoding.md: the decoder against the encoder and the table of rows, the words a step takes off
the stream, and the response words. -/

namespace Sys2Proof

/-! ### The fields of a command word (R82) -/

@[simp] theorem opField_commandWord (op : Byte) (arg : BitVec 24) : opField (commandWord op arg) = op :=
  (commandWord_fields op arg).1

@[simp] theorem argField_commandWord (op : Byte) (arg : BitVec 24) : argField (commandWord op arg) = arg :=
  (commandWord_fields op arg).2

/-- A word is its two fields, one behind the other. -/
theorem commandWord_opField_argField (x : Word) : commandWord (opField x) (argField x) = x :=
  BitVec.extractLsb'_append_extractLsb'

theorem commandWord_inj {op k : Byte} {arg m : BitVec 24} (h : commandWord op arg = commandWord k m) :
    op = k ∧ arg = m :=
  ⟨by simpa using congrArg opField h, by simpa using congrArg argField h⟩

theorem eq_commandWord {x : Word} {op : Byte} {arg : BitVec 24} (hop : (opField x).toNat = op.toNat)
    (harg : argField x = arg) : x = commandWord op arg := by
  rw [← commandWord_opField_argField x, BitVec.eq_of_toNat_eq hop, harg]

theorem commandWord_and (op k : Byte) (arg m : BitVec 24) :
    commandWord op arg &&& commandWord k m = commandWord (op &&& k) (arg &&& m) :=
  BitVec.and_append

/-- The low bits of the argument are those of the word. -/
theorem argField_low (x : Word) {k : Nat} (hk : k ≤ 24) : ((argField x).extractLsb' 0 k).toNat = x.toNat % 2 ^ k := by
  rw [argField, BitVec.extractLsb'_extractLsb'_of_le (by omega), BitVec.extractLsb'_toNat, Nat.shiftRight_zero]

theorem argField_getLsbD (x : Word) {k : Nat} (hk : k < 24) : (argField x).getLsbD k = x.getLsbD k := by
  simp [argField, hk]

theorem countField_eq (x : Word) : countField x = x.toNat % 2 ^ 16 := argField_low x (by decide)

/-! ### The arguments of the rows (R83): with its must-be-zero bits 0, an argument is made of the row's operands -/

/-- SET_TXEN's argument: the valid bit above the pin. -/
def txenField (v : Bool) (p : Pin) : BitVec 24 := (0#15 ++ BitVec.ofBool v ++ p : BitVec 24)

/-- WRITE's argument: its count. -/
def writeField (n : Nat) : BitVec 24 := (0#8 ++ BitVec.ofNat 16 n : BitVec 24)

theorem writeWord_eq (n : Nat) : writeWord n = commandWord 0x09 (writeField n) := rfl

theorem eq_zero_append_of_high_eq_zero {m k : Nat} {a : BitVec (m + k)} (h : a.extractLsb' k m = 0) :
    a = 0#m ++ a.extractLsb' 0 k := by
  conv_lhs => rw [← BitVec.extractLsb'_append_extractLsb' (x := a), h]
  rfl

theorem eq_zero_append_bit {m : Nat} {a : BitVec (m + 1)} (h : a.extractLsb' 1 m = 0) :
    a = 0#m ++ BitVec.ofBool (a.getLsbD 0) := by
  have hbit : ∀ b : BitVec 1, b = BitVec.ofBool (b == 1#1) := by decide
  rw [BitVec.getLsbD_eq_extractLsb', ← hbit]
  exact eq_zero_append_of_high_eq_zero h

theorem enableField_getLsbD_zero (e : Bool) : (enableField e).getLsbD 0 = e := by cases e <;> rfl

theorem txenField_low (v : Bool) (p : Pin) : (txenField v p).extractLsb' 0 8 = p := BitVec.extractLsb'_append_eq_right

theorem txenField_high (v : Bool) (p : Pin) : (txenField v p).extractLsb' 8 16 = 0#15 ++ BitVec.ofBool v :=
  BitVec.extractLsb'_append_eq_left

theorem txenField_getLsbD_eight (v : Bool) (p : Pin) : (txenField v p).getLsbD 8 = v := by
  refine (BitVec.getLsbD_append ..).trans ?_
  cases v <;> rfl

theorem writeField_high (n : Nat) : (writeField n).extractLsb' 16 8 = 0 := BitVec.extractLsb'_append_eq_left

theorem writeField_count {n : Nat} (hn : n ≤ 65535) : ((writeField n).extractLsb' 0 16).toNat = n := by
  have hlow : (writeField n).extractLsb' 0 16 = BitVec.ofNat 16 n := BitVec.extractLsb'_append_eq_right
  rw [hlow, BitVec.toNat_ofNat]
  omega

theorem countField_commandWord (op : Byte) {n : Nat} (hn : n ≤ 65535) :
    countField (commandWord op (writeField n)) = n := by
  rw [countField, argField_commandWord, writeField_count hn]

theorem enableArg_mustBeZero_iff (arg : BitVec 24) :
    arg.extractLsb' 1 23 = 0 ↔ arg = enableField (arg.getLsbD 0) := by
  refine ⟨eq_zero_append_bit (m := 23), fun h => ?_⟩
  rw [h]
  exact BitVec.extractLsb'_append_eq_left

theorem txenArg_mustBeZero_iff (arg : BitVec 24) :
    arg.extractLsb' 9 15 = 0 ↔ arg = txenField (arg.getLsbD 8) (arg.extractLsb' 0 8) := by
  have hhigh : (arg.extractLsb' 8 16).extractLsb' 1 15 = arg.extractLsb' 9 15 := by
    refine BitVec.eq_of_getLsbD_eq fun i hi => ?_
    simp [hi, Nat.add_lt_of_lt_sub' (show i < 16 - 1 by omega), ← Nat.add_assoc]
  rw [← hhigh]
  constructor
  · intro h
    conv_lhs =>
      rw [← BitVec.extractLsb'_append_extractLsb' (w := 16) (len := 8) (x := arg), eq_zero_append_bit (m := 15) h]
    simp [txenField]
  · intro h
    rw [h, txenField_high]
    exact BitVec.extractLsb'_append_eq_left

theorem writeArg_mustBeZero_iff (arg : BitVec 24) :
    arg.extractLsb' 16 8 = 0 ↔ arg = writeField (arg.extractLsb' 0 16).toNat := by
  constructor
  · intro h
    rw [writeField, BitVec.ofNat_toNat, BitVec.setWidth_eq]
    exact eq_zero_append_of_high_eq_zero (m := 8) (k := 16) h
  · intro h
    rw [h, writeField_high]

/-! ### The payload of a WRITE (R87): the first bytes of the words behind it -/

/-- The payload bytes of an instruction: WRITE's, and none of any other. -/
def Instr.payload : Instr → List Byte
  | .write p => p
  | .beginLine _ | .endLine | .setTxen _ _ | .enableIntTx _ | .enableTx _ | .read | .peek | .available | .flush
  | .overflow | .poll | .setNotify _ | .edgeCapture | .decodePass | .processEdge _ | .txSegment _ _ | .delayUntil _ => []

theorem payloadWords_le_iff (n : Nat) (ws : List Word) :
    payloadWords n ≤ ws.length ↔ n ≤ (ws.flatMap wordBytes).length := by
  rw [wordBytes_flat_length, payloadWords]
  omega

theorem unpackPayload_take_eq_iff {n : Nat} {ws : List Word} (h : payloadWords n ≤ ws.length) (p : List Byte) :
    unpackPayload n (ws.take (payloadWords n)) = p ↔ p.length = n ∧ p <+: ws.flatMap wordBytes := by
  have hpre : unpackPayload n (ws.take (payloadWords n)) <+: ws.flatMap wordBytes :=
    (List.take_prefix _ _).trans ((List.take_prefix _ _).flatMap _)
  have hlen := unpackPayload_length n ws h
  constructor
  · rintro rfl
    exact ⟨hlen, hpre⟩
  · rintro ⟨hp, hpp⟩
    exact (List.prefix_of_prefix_length_le hpre hpp (by omega)).eq_of_length (by omega)

theorem prefix_take_payloadWords {p : List Byte} {ws : List Word} (h : p <+: ws.flatMap wordBytes) :
    p <+: (ws.take (payloadWords p.length)).flatMap wordBytes := by
  have hw := (payloadWords_le_iff _ _).mpr h.length_le
  exact List.prefix_iff_eq_take.mpr ((unpackPayload_take_eq_iff hw p).mpr ⟨rfl, h⟩).symm

theorem prefix_packPayload (p : List Byte) (rest : List Word) : p <+: (packPayload p ++ rest).flatMap wordBytes := by
  rw [List.flatMap_append]
  exact (List.prefix_iff_eq_take.mpr (packPayload_spec p).1.symm).trans (List.prefix_append _ _)

/-! ### What the decoder answers (R83 to R90) -/

/-- `x` is the first word of the well-formed command `i`. -/
structure Instr.BeginsWith (i : Instr) (x : Word) : Prop where
  command : i.isCommand = true
  wf : i.wellFormed = true
  head : (encode i).head? = some x

theorem noArg_eq_instr_iff (x : Word) (i j : Instr) : noArg x i = .instr j ↔ argField x = 0 ∧ j = i := by
  unfold noArg
  split <;> simp_all [eq_comm]

theorem enableArg_eq_instr_iff (x : Word) (mk : Bool → Instr) (j : Instr) :
    enableArg x mk = .instr j ↔ ∃ e, argField x = enableField e ∧ j = mk e := by
  simp only [enableArg, enableArg_mustBeZero_iff]
  constructor
  · intro h
    split at h
    case isTrue ha => cases h; exact ⟨_, ha, rfl⟩
    case isFalse => cases h
  · rintro ⟨e, ha, rfl⟩
    rw [ha, enableField_getLsbD_zero, if_pos rfl]

theorem txenArg_eq_instr_iff (x : Word) (j : Instr) :
    txenArg x = .instr j ↔ ∃ v p, argField x = txenField v p ∧ j = .setTxen v p := by
  simp only [txenArg, txenArg_mustBeZero_iff]
  constructor
  · intro h
    split at h
    case isTrue ha => cases h; exact ⟨_, _, ha, rfl⟩
    case isFalse => cases h
  · rintro ⟨v, p, ha, rfl⟩
    rw [ha, txenField_low, txenField_getLsbD_eight, if_pos rfl]

theorem writeArg_eq_instr_iff (x : Word) (rest : List Word) (j : Instr) :
    writeArg x rest = .instr j ↔ ∃ p : List Byte, p.length ≤ 65535 ∧ argField x = writeField p.length ∧
      p <+: rest.flatMap wordBytes ∧ j = .write p := by
  simp only [writeArg, writeArg_mustBeZero_iff]
  constructor
  · intro h
    split_ifs at h with ha hn
    cases h
    obtain ⟨hlen, hpre⟩ := (unpackPayload_take_eq_iff (Nat.le_of_not_lt hn) _).mp rfl
    refine ⟨_, ?_, hlen.symm ▸ ha, hpre, rfl⟩
    rw [hlen, countField]
    omega
  · rintro ⟨p, hp, ha, hpre, rfl⟩
    have hc : countField x = p.length := by rw [countField, ha, writeField_count hp]
    have hw : payloadWords p.length ≤ rest.length := (payloadWords_le_iff _ _).mpr hpre.length_le
    rw [hc, if_pos (by rw [ha, writeField_count hp]), if_neg (by omega),
      (unpackPayload_take_eq_iff hw p).mpr ⟨rfl, hpre⟩]

/-- The decoder answers a command exactly when the command's encoding begins with the first word and the words behind
that begin with the command's payload. -/
theorem decode_eq_instr_iff (x : Word) (rest : List Word) (i : Instr) :
    decode (x :: rest) = .instr i ↔ i.BeginsWith x ∧ i.payload <+: rest.flatMap wordBytes := by
  constructor
  · intro h
    simp only [decode, decodeCommand] at h
    split at h
    case h_1 hop =>
      cases h
      exact ⟨⟨rfl, rfl, congrArg some (eq_commandWord hop rfl).symm⟩, List.nil_prefix⟩
    case h_2 hop | h_6 hop | h_7 hop | h_8 hop | h_10 hop | h_11 hop | h_12 hop =>
      obtain ⟨ha, rfl⟩ := (noArg_eq_instr_iff _ _ _).mp h
      exact ⟨⟨rfl, rfl, congrArg some (eq_commandWord hop ha).symm⟩, List.nil_prefix⟩
    case h_3 hop =>
      obtain ⟨v, p, ha, rfl⟩ := (txenArg_eq_instr_iff _ _).mp h
      exact ⟨⟨rfl, rfl, congrArg some (eq_commandWord hop ha).symm⟩, List.nil_prefix⟩
    case h_4 hop | h_5 hop | h_13 hop =>
      obtain ⟨e, ha, rfl⟩ := (enableArg_eq_instr_iff _ _ _).mp h
      exact ⟨⟨rfl, rfl, congrArg some (eq_commandWord hop ha).symm⟩, List.nil_prefix⟩
    case h_9 hop =>
      obtain ⟨p, hp, ha, hpre, rfl⟩ := (writeArg_eq_instr_iff _ _ _).mp h
      exact ⟨⟨rfl, decide_eq_true hp, congrArg some (eq_commandWord hop ha).symm⟩, hpre⟩
    case h_14 => cases h
  · rintro ⟨⟨hc, hw, hx⟩, hp⟩
    cases i with
    | beginLine b => cases hx; simp [decode, decodeCommand]
    | setTxen v p =>
      cases hx
      simp only [decode, decodeCommand, opField_commandWord]
      exact (txenArg_eq_instr_iff _ _).mpr ⟨v, p, argField_commandWord _ _, rfl⟩
    | enableIntTx e | enableTx e | setNotify e => cases hx; simp [decode, decodeCommand, enableArg_eq_instr_iff]
    | endLine | read | peek | available | flush | overflow | poll => cases hx; rfl
    | write p =>
      cases hx
      simpa [decode, decodeCommand, writeWord_eq, writeArg_eq_instr_iff] using ⟨of_decide_eq_true hw, hp⟩
    | _ => cases hc

theorem decode_writeWord {n : Nat} (hn : n ≤ 65535) (rest : List Word) :
    decode (writeWord n :: rest) =
      if rest.length < payloadWords n then .reject (.payloadMissing (payloadWords n - rest.length))
      else .instr (.write (unpackPayload n (rest.take (payloadWords n)))) := by
  simp [decode, decodeCommand, writeWord_eq, writeArg, writeField_high, countField_commandWord _ hn]

/-- A first word that decodes to no command is illegal (R85), or a WRITE's whose payload is missing. -/
theorem decode_eq_reject {x : Word} {rest : List Word} {e : DecodeError} (h : decode (x :: rest) = .reject e) :
    e = .unassignedOp x ∨ e = .mustBeZero x ∨ ∃ n m, n ≤ 65535 ∧ x = writeWord n ∧ e = .payloadMissing m := by
  simp only [decode, decodeCommand] at h
  split at h
  case h_1 => cases h
  case h_2 | h_6 | h_7 | h_8 | h_10 | h_11 | h_12 =>
    unfold noArg at h
    split at h <;> cases h
    exact .inr (.inl rfl)
  case h_3 =>
    unfold txenArg at h
    split at h <;> cases h
    exact .inr (.inl rfl)
  case h_4 | h_5 | h_13 =>
    unfold enableArg at h
    split at h <;> cases h
    exact .inr (.inl rfl)
  case h_9 hop =>
    unfold writeArg at h
    split_ifs at h with ha <;> cases h
    · refine .inr (.inr ⟨_, _, ?_, eq_commandWord hop ((writeArg_mustBeZero_iff _).mp ha), rfl⟩)
      omega
    · exact .inr (.inl rfl)
  case h_14 => cases h; exact .inl rfl

theorem decode_of_opField {x : Word} (h : 0x0E ≤ (opField x).toNat) (rest : List Word) :
    decode (x :: rest) = .reject (.unassignedOp x) := by
  simp only [decode, decodeCommand]
  split
  case h_14 => rfl
  all_goals omega

/-! ### The encoder against the decoder (R83, R88, R92) -/

theorem encode_of_isCommand {i : Instr} (hc : i.isCommand = true) : ∃ x, encode i = x :: packPayload i.payload := by
  cases i with
  | edgeCapture | decodePass => cases hc
  | processEdge w => cases hc
  | txSegment v dur => cases hc
  | delayUntil d => cases hc
  | _ => exact ⟨_, rfl⟩

/-- Settles O2, by `decode_eq_instr_iff`: a command's encoding is its first word with its payload packed behind. -/
theorem decodeOfEncodeIsTheCommand : Obligations.DecodeOfEncodeIsTheCommand := by
  intro i rest hc hw
  obtain ⟨x, hx⟩ := encode_of_isCommand hc
  rw [hx, List.cons_append]
  exact (decode_eq_instr_iff _ _ _).mpr ⟨⟨hc, hw, congrArg List.head? hx⟩, prefix_packPayload _ _⟩

/-- Settles O1, by evaluation: the words are closed. -/
theorem decodesWorkedEncodings : Obligations.DecodesWorkedEncodings := by
  unfold Obligations.DecodesWorkedEncodings
  decide

theorem decodeAction_encode {i : Instr} (hi : i.isCommand = false) : decodeAction (encode i) = some i := by
  cases i with
  | edgeCapture | decodePass => rfl
  | processEdge w => rfl
  | txSegment v dur => cases v <;> rfl
  | delayUntil d => rfl
  | _ => cases hi

/-- Settles O3: the codes 0x80 to 0x84 are no command's OP. -/
theorem actionsDecodeOnlyAsActions : Obligations.ActionsDecodeOnlyAsActions := by
  intro i hi
  refine ⟨decodeAction_encode hi, ?_⟩
  cases i with
  | edgeCapture | decodePass => exact ⟨_, _, rfl, decode_of_opField (by decide)⟩
  | processEdge w => exact ⟨_, _, rfl, decode_of_opField (by decide)⟩
  | txSegment v dur => exact ⟨_, _, rfl, decode_of_opField (by decide)⟩
  | delayUntil d => exact ⟨_, _, rfl, decode_of_opField (by decide)⟩
  | _ => cases hi

/-! ### Operands, length and payload of a decoded command (R87, R89, R90) -/

/-- Settles O5: the first word is the encoder's, whose argument is made of the operands. -/
theorem operandsAreTheirFields : Obligations.OperandsAreTheirFields := by
  intro x rest i h
  obtain ⟨⟨hc, hw, hx⟩, -⟩ := (decode_eq_instr_iff _ _ _).mp h
  cases i with
  | beginLine b =>
    cases hx
    rw [← argField_eq, argField_commandWord]
  | setTxen v p =>
    cases hx
    change p.toNat = (commandWord 3 (txenField v p)).toNat % 2 ^ 8 ∧ v = (commandWord 3 (txenField v p)).getLsbD 8
    rw [← argField_low _ (by decide), ← argField_getLsbD _ (by decide), argField_commandWord, txenField_low,
      txenField_getLsbD_eight]
    exact ⟨rfl, rfl⟩
  | enableIntTx e | enableTx e | setNotify e =>
    cases hx
    rw [← argField_getLsbD _ (show 0 < 24 by decide), argField_commandWord, enableField_getLsbD_zero]
  | write p =>
    cases hx
    rw [← countField_eq, writeWord_eq, countField_commandWord _ (of_decide_eq_true hw)]
  | endLine | read | peek | available | flush | overflow | poll => cases hx; rfl
  | _ => cases hc

theorem Instr.words_of_isCommand {i : Instr} (hc : i.isCommand = true) : i.words = 1 + payloadWords i.payload.length := by
  cases i with
  | edgeCapture | decodePass => cases hc
  | processEdge w => cases hc
  | txSegment v dur => cases hc
  | delayUntil d => cases hc
  | write p => rfl
  | _ => simp [Instr.words, Instr.payload, payloadWords]

theorem writeWord_mustBeZero (n : Nat) : (writeWord n).extractLsb' 16 8 = 0 := by
  have hfield : (writeWord n).extractLsb' 16 8 = (argField (writeWord n)).extractLsb' 16 8 := by
    rw [argField, BitVec.extractLsb'_extractLsb'_of_le (by decide)]
  rw [hfield, writeWord_eq, argField_commandWord, writeField_high]

/-- R89: only WRITE has OP 0x09, and its length is in its count. -/
theorem Instr.BeginsWith.words_eq {x : Word} {i : Instr} (h : i.BeginsWith x) :
    i.words = if x.extractLsb' 24 8 = 0x09 ∧ x.extractLsb' 16 8 = 0 then 1 + (x.toNat % 2 ^ 16 + 3) / 4 else 1 := by
  obtain ⟨hc, hw, hx⟩ := h
  cases i with
  | edgeCapture | decodePass => cases hc
  | processEdge w => cases hc
  | txSegment v dur => cases hc
  | delayUntil d => cases hc
  | write p =>
    cases hx
    rw [if_pos ⟨opField_commandWord _ _, writeWord_mustBeZero _⟩, ← countField_eq, writeWord_eq,
      countField_commandWord _ (of_decide_eq_true hw)]
    rfl
  | _ =>
    cases hx
    exact (if_neg fun h => absurd ((opField_commandWord _ _).symm.trans h.1) (by decide)).symm

/-- Settles O6: the words behind the payload take no part in `decode_eq_instr_iff`. -/
theorem lengthIsToldByTheFirstWord : Obligations.LengthIsToldByTheFirstWord := by
  intro x rest i h
  obtain ⟨hx, hp⟩ := (decode_eq_instr_iff _ _ _).mp h
  have hwords := Instr.words_of_isCommand hx.command
  refine ⟨hx.words_eq, ?_, fun more => ?_⟩
  · have hlen := (payloadWords_le_iff _ _).mpr hp.length_le
    rw [hwords, List.length_cons]
    omega
  · rw [hwords, Nat.add_comm, List.take_succ_cons, List.cons_append]
    refine (decode_eq_instr_iff _ _ _).mpr ⟨hx, ?_⟩
    rw [List.flatMap_append]
    exact (prefix_take_payloadWords hp).trans (List.prefix_append _ _)

/-- Settles O7: the payload is the first of the words' bytes, each word's least significant first. -/
theorem payloadIsPackedLittleEndian : Obligations.PayloadIsPackedLittleEndian := by
  intro x rest p h
  obtain ⟨hx, hp⟩ := (decode_eq_instr_iff _ _ _).mp h
  refine ⟨of_decide_eq_true hx.wf, rfl, (payloadWords_le_iff _ _).mpr hp.length_le, fun j hj w hjw => ?_⟩
  rw [← wordBytes_flat_get rest j w hjw, List.prefix_iff_getElem?.mp hp j hj]
  exact List.getElem?_eq_getElem hj

/-! ### Match and mask (R83): what a word that meets a row is -/

theorem and_high_eq_zero_iff {m k : Nat} (a : BitVec (m + k)) :
    a &&& (BitVec.allOnes m ++ 0#k) = 0 ↔ a.extractLsb' k m = 0 := by
  conv_lhs => rw [← BitVec.extractLsb'_append_extractLsb' (x := a), BitVec.and_append, BitVec.and_allOnes, BitVec.and_zero]
  constructor
  · intro h
    exact (BitVec.append_left_inj 0#k).mp (h.trans BitVec.zero_append_zero.symm)
  · intro h
    rw [h]
    exact BitVec.zero_append_zero

theorem meets_iff (x : Word) (op : Byte) (m : BitVec 24) :
    x &&& commandWord 0xFF m = commandWord op 0 ↔ opField x = op ∧ argField x &&& m = 0 := by
  conv_lhs => rw [← commandWord_opField_argField x, commandWord_and, show (0xFF : Byte) = BitVec.allOnes 8 from rfl,
    BitVec.and_allOnes]
  exact ⟨commandWord_inj, fun ⟨hop, harg⟩ => by rw [hop, harg]⟩

theorem meets_begin_iff (x : Word) (op : Byte) : x &&& 0xFF000000 = commandWord op 0 ↔ ∃ b, x = commandWord op b := by
  refine (meets_iff x op 0).trans ⟨?_, ?_⟩
  · rintro ⟨hop, -⟩
    exact ⟨_, eq_commandWord (congrArg _ hop) rfl⟩
  · rintro ⟨b, rfl⟩
    simp

theorem meets_noArg_iff (x : Word) (op : Byte) : x &&& 0xFFFFFFFF = commandWord op 0 ↔ x = commandWord op 0 := by
  rw [show (0xFFFFFFFF : Word) = BitVec.allOnes 32 from rfl, BitVec.and_allOnes]

theorem meets_enable_iff (x : Word) (op : Byte) :
    x &&& 0xFFFFFFFE = commandWord op 0 ↔ ∃ e, x = commandWord op (enableField e) := by
  refine (meets_iff x op (BitVec.allOnes 23 ++ 0#1)).trans ?_
  rw [and_high_eq_zero_iff (m := 23) (k := 1), enableArg_mustBeZero_iff]
  constructor
  · rintro ⟨hop, ha⟩
    exact ⟨_, eq_commandWord (congrArg _ hop) ha⟩
  · rintro ⟨e, rfl⟩
    rw [opField_commandWord, argField_commandWord, enableField_getLsbD_zero]
    exact ⟨rfl, rfl⟩

theorem meets_txen_iff (x : Word) (op : Byte) :
    x &&& 0xFFFFFE00 = commandWord op 0 ↔ ∃ v p, x = commandWord op (txenField v p) := by
  refine (meets_iff x op (BitVec.allOnes 15 ++ 0#9)).trans ?_
  rw [and_high_eq_zero_iff (m := 15) (k := 9), txenArg_mustBeZero_iff]
  constructor
  · rintro ⟨hop, ha⟩
    exact ⟨_, _, eq_commandWord (congrArg _ hop) ha⟩
  · rintro ⟨v, p, rfl⟩
    rw [opField_commandWord, argField_commandWord, txenField_getLsbD_eight, txenField_low]
    exact ⟨rfl, rfl⟩

theorem meets_write_iff (x : Word) : x &&& 0xFFFF0000 = 0x09000000 ↔ x = writeWord (x.toNat % 2 ^ 16) := by
  refine (meets_iff x 0x09 (BitVec.allOnes 8 ++ 0#16)).trans ?_
  rw [and_high_eq_zero_iff (m := 8) (k := 16), writeArg_mustBeZero_iff, argField_low _ (by decide)]
  constructor
  · rintro ⟨hop, ha⟩
    exact eq_commandWord (congrArg _ hop) ha
  · intro h
    exact ⟨(congrArg opField h).trans (opField_commandWord _ _), (congrArg argField h).trans (argField_commandWord _ _)⟩

/-! ### The rows and the commands (R83) -/

/-- Any count that fits its field is one of a WRITE. -/
theorem write_beginsWith_writeWord {n : Nat} (hn : n ≤ 65535) :
    (Instr.write (List.replicate n 0)).BeginsWith (writeWord n) where
  command := rfl
  wf := by rw [Instr.wellFormed, List.length_replicate]; exact decide_eq_true hn
  head := by rw [encode, List.length_replicate]; rfl

theorem Instr.BeginsWith.exists_row {i : Instr} {x : Word} (h : i.BeginsWith x) :
    ∃ row ∈ opcodeRows, row.1 = i.mnemonic ∧ x &&& row.2.2 = row.2.1 := by
  obtain ⟨hc, hw, hx⟩ := h
  cases i with
  | beginLine b =>
    cases hx
    exact ⟨_, List.getElem_mem (n := 0) (by decide), rfl, (meets_begin_iff _ _).mpr ⟨b, rfl⟩⟩
  | endLine => cases hx; exact ⟨_, List.getElem_mem (n := 1) (by decide), rfl, rfl⟩
  | setTxen v p =>
    cases hx
    exact ⟨_, List.getElem_mem (n := 2) (by decide), rfl, (meets_txen_iff _ _).mpr ⟨v, p, rfl⟩⟩
  | enableIntTx e =>
    cases hx
    exact ⟨_, List.getElem_mem (n := 3) (by decide), rfl, (meets_enable_iff _ _).mpr ⟨e, rfl⟩⟩
  | enableTx e =>
    cases hx
    exact ⟨_, List.getElem_mem (n := 4) (by decide), rfl, (meets_enable_iff _ _).mpr ⟨e, rfl⟩⟩
  | read => cases hx; exact ⟨_, List.getElem_mem (n := 5) (by decide), rfl, rfl⟩
  | peek => cases hx; exact ⟨_, List.getElem_mem (n := 6) (by decide), rfl, rfl⟩
  | available => cases hx; exact ⟨_, List.getElem_mem (n := 7) (by decide), rfl, rfl⟩
  | write p =>
    cases hx
    refine ⟨_, List.getElem_mem (n := 8) (by decide), rfl, (meets_write_iff _).mpr ?_⟩
    rw [← countField_eq, writeWord_eq p.length, countField_commandWord _ (of_decide_eq_true hw), writeWord_eq]
  | flush => cases hx; exact ⟨_, List.getElem_mem (n := 9) (by decide), rfl, rfl⟩
  | overflow => cases hx; exact ⟨_, List.getElem_mem (n := 10) (by decide), rfl, rfl⟩
  | poll => cases hx; exact ⟨_, List.getElem_mem (n := 11) (by decide), rfl, rfl⟩
  | setNotify e =>
    cases hx
    exact ⟨_, List.getElem_mem (n := 12) (by decide), rfl, (meets_enable_iff _ _).mpr ⟨e, rfl⟩⟩
  | _ => cases hc

theorem exists_beginsWith_of_row {row : String × Word × Word} {x : Word} (hrow : row ∈ opcodeRows)
    (hx : x &&& row.2.2 = row.2.1) : ∃ i : Instr, i.BeginsWith x ∧ i.mnemonic = row.1 := by
  simp only [opcodeRows, List.cons_append, List.nil_append, List.mem_cons, List.not_mem_nil, or_false] at hrow
  rcases hrow with rfl | rfl | rfl | rfl | rfl | rfl | rfl | rfl | rfl | rfl | rfl | rfl | rfl
  · obtain ⟨b, rfl⟩ := (meets_begin_iff x 0x01).mp hx
    exact ⟨.beginLine b, ⟨rfl, rfl, rfl⟩, rfl⟩
  · exact ⟨.endLine, ⟨rfl, rfl, congrArg some ((meets_noArg_iff x 0x02).mp hx).symm⟩, rfl⟩
  · obtain ⟨v, p, rfl⟩ := (meets_txen_iff x 0x03).mp hx
    exact ⟨.setTxen v p, ⟨rfl, rfl, rfl⟩, rfl⟩
  · obtain ⟨e, rfl⟩ := (meets_enable_iff x 0x04).mp hx
    exact ⟨.enableIntTx e, ⟨rfl, rfl, rfl⟩, rfl⟩
  · obtain ⟨e, rfl⟩ := (meets_enable_iff x 0x05).mp hx
    exact ⟨.enableTx e, ⟨rfl, rfl, rfl⟩, rfl⟩
  · exact ⟨.read, ⟨rfl, rfl, congrArg some ((meets_noArg_iff x 0x06).mp hx).symm⟩, rfl⟩
  · exact ⟨.peek, ⟨rfl, rfl, congrArg some ((meets_noArg_iff x 0x07).mp hx).symm⟩, rfl⟩
  · exact ⟨.available, ⟨rfl, rfl, congrArg some ((meets_noArg_iff x 0x08).mp hx).symm⟩, rfl⟩
  · rw [(meets_write_iff x).mp hx]
    exact ⟨_, write_beginsWith_writeWord (by omega), rfl⟩
  · exact ⟨.flush, ⟨rfl, rfl, congrArg some ((meets_noArg_iff x 0x0A).mp hx).symm⟩, rfl⟩
  · exact ⟨.overflow, ⟨rfl, rfl, congrArg some ((meets_noArg_iff x 0x0B).mp hx).symm⟩, rfl⟩
  · exact ⟨.poll, ⟨rfl, rfl, congrArg some ((meets_noArg_iff x 0x0C).mp hx).symm⟩, rfl⟩
  · obtain ⟨e, rfl⟩ := (meets_enable_iff x 0x0D).mp hx
    exact ⟨.setNotify e, ⟨rfl, rfl, rfl⟩, rfl⟩

theorem opcodeRows_mnemonic_injOn : ∀ r ∈ opcodeRows, ∀ q ∈ opcodeRows, r.1 = q.1 → r = q := by decide

theorem opcodeRows_match_injOn : ∀ r ∈ opcodeRows, ∀ q ∈ opcodeRows, r.2.1 = q.2.1 → r = q := by decide

/-- Every mask holds the whole OP, and every match has no bit outside it. -/
theorem opcodeRows_masks : ∀ r ∈ opcodeRows,
    r.2.2 &&& 0xFF000000 = 0xFF000000 ∧ r.2.1 &&& 0xFF000000 = r.2.1 ∧ r.2.1 &&& 0x00FFFFFF = 0 := by decide

theorem opcodeRows_ops : ∀ r ∈ opcodeRows, 0 < (opField r.2.1).toNat ∧ (opField r.2.1).toNat < 0x0E := by decide

/-- A word that meets a row meets it in its OP. -/
theorem match_eq_of_meets {row : String × Word × Word} {x : Word} (hrow : row ∈ opcodeRows)
    (hx : x &&& row.2.2 = row.2.1) : x &&& 0xFF000000 = row.2.1 := by
  obtain ⟨hmask, hmatch, -⟩ := opcodeRows_masks row hrow
  rw [← hmask, ← BitVec.and_assoc, hx, hmatch]

theorem row_unique {r q : String × Word × Word} {x : Word} (hr : r ∈ opcodeRows) (hq : q ∈ opcodeRows)
    (hrx : x &&& r.2.2 = r.2.1) (hqx : x &&& q.2.2 = q.2.1) : r = q :=
  opcodeRows_match_injOn _ hr _ hq ((match_eq_of_meets hr hrx).symm.trans (match_eq_of_meets hq hqx))

theorem length_met_rows_le_one (x : Word) : (opcodeRows.filter fun row => x &&& row.2.2 == row.2.1).length ≤ 1 := by
  have hnodup : (opcodeRows.filter fun row => x &&& row.2.2 == row.2.1).Nodup :=
    List.Nodup.filter _ (show opcodeRows.Nodup by decide)
  have hmet : ∀ row ∈ opcodeRows.filter (fun row => x &&& row.2.2 == row.2.1),
      row ∈ opcodeRows ∧ x &&& row.2.2 = row.2.1 := fun row h => by simpa using h
  refine Nat.le_of_not_lt fun hlt => ?_
  obtain ⟨h0, hx0⟩ := hmet _ (List.getElem_mem (n := 0) (Nat.zero_lt_of_lt hlt))
  obtain ⟨h1, hx1⟩ := hmet _ (List.getElem_mem hlt)
  exact absurd (hnodup.getElem_inj_iff.mp (row_unique h0 h1 hx0 hx1)) (by decide)

/-- A word meets a row exactly when it is the first word of a command with the row's mnemonic. -/
theorem meets_row_iff {row : String × Word × Word} {x : Word} (hrow : row ∈ opcodeRows) :
    x &&& row.2.2 = row.2.1 ↔ ∃ i : Instr, i.BeginsWith x ∧ i.mnemonic = row.1 := by
  refine ⟨exists_beginsWith_of_row hrow, ?_⟩
  rintro ⟨i, hi, hm⟩
  obtain ⟨q, hq, hqm, hqx⟩ := hi.exists_row
  rwa [← opcodeRows_mnemonic_injOn q hq row hrow (hqm.trans hm)]

/-- Settles O4, by `meets_row_iff`: only a WRITE's first word meets a row without a command being answered, while its
payload is missing. -/
theorem rowIsSelectedByMatchAndMask : Obligations.RowIsSelectedByMatchAndMask := by
  intro x rest
  refine ⟨length_met_rows_le_one x, fun row hrow => (meets_row_iff hrow).trans ⟨?_, ?_⟩⟩
  · rintro ⟨i, hi, hm⟩
    cases i with
    | write p =>
      cases hi.head
      rw [decode_writeWord (of_decide_eq_true hi.wf)]
      split
      · exact .inr ⟨hm.symm, _, rfl⟩
      · exact .inl ⟨_, rfl, hm⟩
    | _ => exact .inl ⟨_, (decode_eq_instr_iff _ _ _).mpr ⟨hi, List.nil_prefix⟩, hm⟩
  · rintro (⟨i, hi, hm⟩ | ⟨hname, m, hm⟩)
    · exact ⟨i, ((decode_eq_instr_iff _ _ _).mp hi).1, hm⟩
    · obtain h | h | ⟨n, -, hn, rfl, -⟩ := decode_eq_reject hm
      · cases h
      · cases h
      · exact ⟨_, write_beginsWith_writeWord hn, hname.symm⟩

/-! ### Illegal words (R85) -/

theorem opField_and_op_mask (x : Word) : opField (x &&& 0xFF000000) = opField x := by
  rw [opField, BitVec.extractLsb'_and]
  exact BitVec.and_allOnes

theorem unmet_of_opField {x : Word} (h : (opField x).toNat = 0 ∨ 0x0E ≤ (opField x).toNat) :
    ∀ row ∈ opcodeRows, x &&& row.2.2 ≠ row.2.1 := by
  intro row hrow hx
  have hop := opcodeRows_ops row hrow
  rw [← match_eq_of_meets hrow hx, opField_and_op_mask] at hop
  omega

theorem unmet_of_mustBeZero {x : Word} {row : String × Word × Word} (hrow : row ∈ opcodeRows)
    (hop : x &&& 0xFF000000 = row.2.1) (hz : x &&& row.2.2 &&& 0x00FFFFFF ≠ 0) :
    ∀ q ∈ opcodeRows, x &&& q.2.2 ≠ q.2.1 := by
  intro q hq hx
  obtain rfl := opcodeRows_match_injOn _ hrow _ hq (hop.symm.trans (match_eq_of_meets hq hx))
  exact hz (hx ▸ (opcodeRows_masks row hrow).2.2)

/-- A word that meets no row is rejected as illegal, whatever follows it. -/
theorem decode_of_unmet {x : Word} (h : ∀ row ∈ opcodeRows, x &&& row.2.2 ≠ row.2.1) (rest : List Word) :
    decode (x :: rest) = .reject (.unassignedOp x) ∨ decode (x :: rest) = .reject (.mustBeZero x) := by
  have hno : ∀ i : Instr, ¬ i.BeginsWith x := fun i hi => by
    obtain ⟨row, hrow, -, hm⟩ := hi.exists_row
    exact h row hrow hm
  cases hd : decode (x :: rest) with
  | instr i => exact absurd ((decode_eq_instr_iff _ _ _).mp hd).1 (hno i)
  | reject e =>
    obtain rfl | rfl | ⟨n, -, hn, rfl, -⟩ := decode_eq_reject hd
    · exact .inl rfl
    · exact .inr rfl
    · exact absurd (write_beginsWith_writeWord hn) (hno _)

theorem decode_of_missing_payload {x : Word} {rest : List Word} (hx : x &&& 0xFFFF0000 = 0x09000000)
    (hlen : rest.length < payloadWords (x.toNat % 2 ^ 16)) :
    decode (x :: rest) = .reject (.payloadMissing (payloadWords (x.toNat % 2 ^ 16) - rest.length)) := by
  conv_lhs => rw [(meets_write_iff x).mp hx, decode_writeWord (by omega), if_pos hlen]

end Sys2Proof

namespace Sys2Proof.Machine

/-! ### The step around an instruction (R84, R85) -/

theorem step_eq_stepForeground {s : State} (hh : s.host = []) (ha : decodeAction s.action = none) :
    step s = stepForeground s := by
  simp only [step, hh, ha]

/-- Settles O8: an illegal word meets no row, so either rejection of R85 answers it. -/
theorem illegalWordIsAnswered : Obligations.IllegalWordIsAnswered := by
  intro s x rest hh ha hcmd hx
  have hunmet : ∀ row ∈ opcodeRows, x &&& row.2.2 ≠ row.2.1 := by
    obtain h | h | ⟨row, hrow, hop, hz⟩ := hx
    · exact unmet_of_opField (.inl h)
    · exact unmet_of_opField (.inr h)
    · exact unmet_of_mustBeZero hrow hop hz
  have hstep : step s = .next (s.illegalCommand x).tick := by
    rw [step_eq_stepForeground hh ha, stepForeground, hcmd]
    obtain h | h := decode_of_unmet hunmet rest <;> rw [h]
  rw [hstep, State.illegalCommand, State.mapLine, hcmd]
  rfl

/-- Settles O9: both are the arms of `step` and `stepForeground` for a decoded instruction. -/
theorem stepRunsTheDecodedInstruction : Obligations.StepRunsTheDecodedInstruction := by
  refine ⟨fun s i hh ha hd => ?_, fun s i hh ha => ?_⟩
  · rw [step_eq_stepForeground hh ha, stepForeground, hd]
    rfl
  · simp only [step, hh, ha]

/-- Settles O10: the decoder misses the word, or the payload. -/
theorem stepWaitsForTheHost : Obligations.StepWaitsForTheHost := by
  refine ⟨fun s hh ha hcmd => ?_, fun s x rest hh ha hcmd hx hlen => ?_⟩
  · rw [step_eq_stepForeground hh ha, stepForeground, hcmd]
    rfl
  · rw [step_eq_stepForeground hh ha, stepForeground, hcmd, decode_of_missing_payload hx hlen]

/-! ### Response words (R86) -/

@[simp] theorem State.beginTx_line_resp (s : State) : s.beginTx.line.resp = s.line.resp := by
  unfold State.beginTx; split <;> simp

@[simp] theorem State.beginRx_line_resp (s : State) : s.beginRx.line.resp = s.line.resp := by
  unfold State.beginRx; split <;> simp

@[simp] theorem State.startLine_line_resp (bn k : Nat) (s : State) : (s.startLine bn k).line.resp = s.line.resp := by
  simp [State.startLine, State.restartLine, State.takeSlot]

@[simp] theorem State.disarm_line_resp (s : State) : s.disarm.line.resp = s.line.resp := by
  unfold State.disarm; split <;> simp

@[simp] theorem State.releaseSlot_line_resp (s : State) : s.releaseSlot.line.resp = s.line.resp := rfl

@[simp] theorem State.turnToTransmit_line_resp (s : State) : s.turnToTransmit.line.resp = s.line.resp := by
  simp [State.turnToTransmit]

@[simp] theorem State.turnToReceive_line_resp (s : State) : s.turnToReceive.line.resp = s.line.resp := by
  simp [State.turnToReceive]

@[simp] theorem State.retryPass_line_resp (s : State) : s.retryPass.line.resp = s.line.resp := by
  unfold State.retryPass; split <;> simp

@[simp] theorem State.retryPass_line_cfg (s : State) : s.retryPass.line.cfg = s.line.cfg := by
  unfold State.retryPass; split <;> simp

@[simp] theorem State.notifyHost_line_resp (s : State) : s.notifyHost.line.resp = s.line.resp := by
  unfold State.notifyHost; split <;> simp

theorem State.notifyHost_line_bCount (s : State) : s.notifyHost.line.bCount = s.line.bCount := by
  unfold State.notifyHost; split <;> rfl

theorem State.beginWith_line_resp (bn : Nat) (s : State) :
    ∃ x : Word, (s.beginWith bn).line.resp = s.line.resp ++ [x] ∧ (x = 0 ∨ x = 1) := by
  unfold State.beginWith
  split
  · exact ⟨1, by simp, .inr rfl⟩
  · unfold State.beginMasked
    split
    · exact ⟨0, by simp, .inl rfl⟩
    · exact ⟨1, by simp, .inr rfl⟩

theorem exec_beginLine_resp {b : BitVec 24} {s t : State} (h : exec (.beginLine b) s = .next t) :
    ∃ x : Word, t.line.resp = s.line.resp ++ [x] ∧ (x = 0 ∨ x = 1) := by
  cases h
  split_ifs
  · exact ⟨0, by simp, .inl rfl⟩
  · exact s.beginWith_line_resp _
  · exact ⟨0, by simp, .inl rfl⟩

theorem byteResponse_range (b : Option Byte) : (byteResponse b).toNat ≤ 0xFF ∨ byteResponse b = 0xFFFFFFFF := by
  cases b with
  | none => exact .inr rfl
  | some b => left; simp [byteResponse]; omega

/-- The count of held bytes fits a response word, and the ring (R37). -/
theorem LineInv.bCount_response {reg : List (Option Nat)} {l : Line} (h : LineInv reg l) :
    (BitVec.ofNat 32 l.bCount).toNat = l.bCount ∧ (BitVec.ofNat 32 l.bCount).toNat ≤ l.cfg.nb - 1 := by
  have hnb := ((cfgLegal_iff _).mp h.legal).2.1
  have hlt : l.bCount < l.cfg.nb := ringCount_lt (Nat.zero_lt_of_lt h.bHead_lt)
  rw [BitVec.toNat_ofNat]
  omega

theorem exec_line_resp_of_action {i : Instr} {s t : State} (hi : i.isCommand = false) (h : exec i s = .next t) :
    t.line.resp = s.line.resp := by
  cases i with
  | edgeCapture => cases h; exact (Line.capture_rel _ _ _).resp_eq
  | decodePass => cases h; simp
  | processEdge w => cases h; simp
  | txSegment v dur => cases h; simp
  | delayUntil d => cases h; simp
  | _ => cases hi

/-- Settles O12: what each command runs before `respond` appends nothing, and its response is in its row's range. -/
theorem oneResponseForEachCommand : Obligations.OneResponseForEachCommand := by
  intro i s t hs hw h
  cases i with
  | beginLine b => exact exec_beginLine_resp h
  | endLine => cases h; exact ⟨0, by split_ifs <;> simp, rfl⟩
  | setTxen v p => cases h; exact ⟨0, by split_ifs <;> simp, rfl⟩
  | enableTx e => cases h; exact ⟨0, by split_ifs <;> simp, rfl⟩
  | enableIntTx e | setNotify e | flush => cases h; exact ⟨0, by simp, rfl⟩
  | overflow =>
    cases h
    refine ⟨_, rfl, ?_⟩
    cases s.line.lineOvf
    · exact .inl rfl
    · exact .inr rfl
  | read | peek => cases h; exact ⟨_, by simp, byteResponse_range s.decodePass.line.bPeek⟩
  | available =>
    obtain ⟨hcount, hle⟩ := (inv_line (inv_exec _ hs t h)).bCount_response
    cases h
    exact ⟨BitVec.ofNat 32 s.decodePass.retryPass.line.bCount, by simp, hcount, hle.trans_eq (by simp)⟩
  | poll =>
    obtain ⟨hcount, hle⟩ := (inv_line (inv_decodePass hs)).bCount_response
    cases h
    exact ⟨_, by simp, hcount.trans s.decodePass.notifyHost_line_bCount.symm, by simpa using hle⟩
  | write p =>
    simp only [exec, execWrite] at h
    have hn : p.length ≤ 65535 := of_decide_eq_true hw
    split_ifs at h <;> cases h
    · exact ⟨0, by simp, .inr rfl⟩
    · exact ⟨BitVec.ofNat 32 p.length, by simp, .inl (by rw [BitVec.toNat_ofNat]; omega)⟩
  | edgeCapture | decodePass => exact exec_line_resp_of_action rfl h
  | processEdge w => exact exec_line_resp_of_action rfl h
  | txSegment v dur => exact exec_line_resp_of_action rfl h
  | delayUntil d => exact exec_line_resp_of_action rfl h

end Sys2Proof.Machine

/-! Proofs of the family 40_edge_capture.md: what EDGE_CAPTURE does to its line, and the interrupt that runs it. -/

namespace Sys2Proof.Machine

/-! ### EDGE_CAPTURE (R100, R101, R61) -/

/-- A push on an edge ring with room writes the slot at `E_HEAD` and moves `E_HEAD` on (R61). -/
theorem Line.ePush_of_room {l : Line} (w : Word) (h : l.eNext ≠ l.eTail) :
    l.ePush w = { l with slotE := l.slotE.write unwrittenEdge l.eHead w, eHead := l.eNext } := if_neg h

/-- A push on a full edge ring drops the word (R61, R101). -/
theorem Line.ePush_of_full {l : Line} (w : Word) (h : l.eNext = l.eTail) :
    l.ePush w = { l with eOvf := true }.raise (.bufferOverflowEdge w) := if_pos h

theorem Line.capture_of_room {l : Line} (t : Word) (v : Level) (h : l.eNext ≠ l.eTail) :
    l.capture t v = { l with
      slotE := l.slotE.write unwrittenEdge l.eHead (mkEdge t v)
      eHead := l.eNext
      trace := l.trace ++ [.edgeCapture (mkEdge t v)] } :=
  Line.ePush_of_room (l := l.log (.edgeCapture (mkEdge t v))) _ h

/-- The record of the action stands before that of the condition (assumption 15). -/
theorem Line.capture_of_full {l : Line} (t : Word) (v : Level) (h : l.eNext = l.eTail) :
    l.capture t v = { l with
      eOvf := true
      trace := l.trace ++ [.edgeCapture (mkEdge t v), .condition (.bufferOverflowEdge (mkEdge t v))] } := by
  have hpush := Line.ePush_of_full (l := l.log (.edgeCapture (mkEdge t v))) (mkEdge t v) h
  rw [Line.capture, hpush]
  simp [Line.raise, Line.log]

theorem exec_edgeCapture (s : State) :
    exec .edgeCapture s =
      .next { s with line := s.line.capture s.ccount (s.pinLevel s.line.id s.line.cfg.rxPin) } := rfl

/-- Settles O20: the two cases of a capture, with the slots by `Memory.read_write`. -/
theorem edgeCaptureStoresOrDrops : Obligations.EdgeCaptureStoresOrDrops := by
  intro s w next
  constructor
  · intro hroom hw
    refine ⟨s.line.slotE.write unwrittenEdge s.line.eHead w, ?_, fun k => Memory.read_write s.line.eHead k w hw⟩
    rw [exec_edgeCapture, Line.capture_of_room _ _ hroom]
    rfl
  · intro hfull
    rw [exec_edgeCapture, Line.capture_of_full _ _ hfull]
    rfl

/-! ### The receive-pin interrupt (R102, R104, R225, R227, R228) -/

@[simp] theorem State.mapLines_lines (f : Line → Line) (s : State) : (s.mapLines f).lines = s.lines.map f := rfl

/-- R102, with the model's reading of R104 (assumption 13). -/
theorem State.mayTake_iff (s : State) (l : Line) :
    s.mayTake l = true ↔ l.ctrl.rxArmed = true ∧ l.pendRx = true ∧ s.ie = true ∧ l.capCycle ≠ some s.cycle := by
  simp [State.mayTake, State.isrDue, and_assoc]

/-- What a delivery to the line named `id` does to each line. -/
def State.deliverTo (s : State) (id : Nat) (l : Line) : Line :=
  if l.id == id && s.mayTake l then s.enterIsr l else l

theorem State.takeInterrupt_of_bound {s : State} {slot id : Nat} (h : s.reg[slot]? = some (some id)) :
    s.takeInterrupt slot = s.mapLines (s.deliverTo id) := by
  rw [State.takeInterrupt, h]
  rfl

theorem State.takeInterrupt_of_unbound {s : State} {slot : Nat}
    (h : s.reg[slot]? = some none ∨ s.reg[slot]? = none) : s.takeInterrupt slot = s := by
  obtain h | h := h <;> rw [State.takeInterrupt, h]

theorem State.deliverTo_eq (s : State) (id : Nat) (l : Line) :
    s.deliverTo id l =
      if l.id = id ∧ l.ctrl.rxArmed = true ∧ l.pendRx = true ∧ s.ie = true ∧ l.capCycle ≠ some s.cycle then
        s.enterIsr l
      else l := by
  simp only [State.deliverTo, Bool.and_eq_true, beq_iff_eq, State.mayTake_iff]

theorem State.enterIsr_cmd (s : State) (l : Line) : (s.enterIsr l).cmd = l.cmd := Line.ePush_cmd _ _

theorem State.deliverTo_foreground (s : State) (id : Nat) (l : Line) :
    (s.deliverTo id l).foreground = l.foreground := by
  unfold State.deliverTo
  split
  · exact (s.enterIsr_rel l).foreground
  · rfl

theorem State.deliverTo_cmd (s : State) (id : Nat) (l : Line) : (s.deliverTo id l).cmd = l.cmd := by
  unfold State.deliverTo
  split
  · exact s.enterIsr_cmd l
  · rfl

/-- A delivery changes a state on its lines or not at all. -/
theorem State.takeInterrupt_cases (slot : Nat) (s : State) :
    (∃ id, s.takeInterrupt slot = s.mapLines (s.deliverTo id)) ∨ s.takeInterrupt slot = s := by
  match h : s.reg[slot]? with
  | some (some id) => exact .inl ⟨id, State.takeInterrupt_of_bound h⟩
  | some none => exact .inr (State.takeInterrupt_of_unbound (.inl h))
  | none => exact .inr (State.takeInterrupt_of_unbound (.inr h))

/-- Settles O23: a bound slot delivers to its line, another slot to none, and nothing a foreground owns is written. -/
theorem interruptIsTakenWhenItMayBe : Obligations.InterruptIsTakenWhenItMayBe := by
  refine ⟨fun s slot id hbound => ?_, fun _ _ => State.takeInterrupt_of_unbound, fun s slot => ?_⟩
  · rw [State.takeInterrupt_of_bound hbound, State.mapLines_lines]
    exact List.map_congr_left fun l _ => s.deliverTo_eq id l
  · obtain ⟨id, hdeliver⟩ | hsame := s.takeInterrupt_cases slot
    · rw [hdeliver, State.mapLines_lines, List.map_map, List.map_map]
      exact ⟨List.map_congr_left fun l _ => s.deliverTo_foreground id l,
        List.map_congr_left fun l _ => s.deliverTo_cmd id l, rfl, rfl, rfl, rfl, rfl⟩
    · rw [hsame]
      exact ⟨rfl, rfl, rfl, rfl, rfl, rfl, rfl⟩

end Sys2Proof.Machine

/-! Proofs of the family 41_decoder.md: PROCESS_EDGE, the recovery of a missed stop bit, and the decode pass. -/

namespace Sys2Proof.Machine

/-! ### Edge words and intervals (R80, R81, R124) -/

/-- A timestamp is a word without its bit 0 (R80). -/
theorem ts_eq (w : Word) : ts w = w >>> 1 <<< 1 := by
  have hmask : ∀ k (h : k < 32), (0xFFFFFFFE#32)[k] = decide (k ≠ 0) := by decide
  ext k hk
  rw [ts, BitVec.getElem_and, hmask k hk]
  cases k <;> simp [BitVec.getLsbD_eq_getElem, Nat.add_comm 1, hk]

theorem ts_toNat (w : Word) : (ts w).toNat = 2 * (w.toNat / 2) := by
  have hlt := w.isLt
  rw [ts_eq, BitVec.toNat_shiftLeft, BitVec.toNat_ushiftRight, Nat.shiftLeft_eq, Nat.shiftRight_eq_div_pow]
  omega

theorem lvl_eq (w : Word) : lvl w = decide (w.toNat % 2 = 1) := by
  simp [lvl, BitVec.getLsbD, Nat.testBit_zero]

theorem even_of_getLsbD {c : Word} (h : c.getLsbD 0 = false) : c.toNat % 2 = 0 := by
  have hodd := lvl_eq c
  rw [lvl, h, eq_comm, decide_eq_false_iff_not] at hodd
  omega

theorem ts_add_of_even {c : Word} (w : Word) (hc : c.toNat % 2 = 0) : ts (w + c) = ts w + c := by
  apply BitVec.eq_of_toNat_eq
  rw [BitVec.toNat_add, ts_toNat, ts_toNat, BitVec.toNat_add]
  omega

theorem lvl_add_of_even {c : Word} (w : Word) (hc : c.toNat % 2 = 0) : lvl (w + c) = lvl w := by
  rw [lvl_eq, lvl_eq, BitVec.toNat_add, decide_eq_decide]
  omega

theorem mkEdge_eq_add (t : Word) (v : Level) : mkEdge t v = ts t + if v then 1 else 0 := by
  have hdisjoint : ts t &&& (if v then 1#32 else 0#32) = 0 := by
    have hone : (if v then 1#32 else 0#32) = (BitVec.ofBool v).setWidth 32 := by cases v <;> rfl
    rw [ts_eq, hone]
    ext k hk
    cases k <;> simp
  exact (BitVec.add_eq_or_of_and_eq_zero _ _ hdisjoint).symm

@[simp] theorem ts_mkEdge (t : Word) (v : Level) : ts (mkEdge t v) = ts t := by
  apply BitVec.eq_of_toNat_eq
  rw [mkEdge_eq_add, ts_toNat, BitVec.toNat_add, ts_toNat]
  cases v <;> simp <;> omega

@[simp] theorem lvl_mkEdge (t : Word) (v : Level) : lvl (mkEdge t v) = v := by
  rw [mkEdge_eq_add, lvl_eq, BitVec.toNat_add, ts_toNat]
  cases v <;> simp

theorem mkEdge_add_of_even {c : Word} (t : Word) (v : Level) (hc : c.toNat % 2 = 0) :
    mkEdge (t + c) v = mkEdge t v + c := by
  rw [mkEdge_eq_add, mkEdge_eq_add, ts_add_of_even t hc, add_right_comm]

/-- The cycles from the edge word `rxLast` to the edge word `w`, read unsigned. -/
def span (rxLast w : Word) : Nat := (ts w - ts rxLast).toNat

theorem half_toNat (b : Word) : (half b).toNat = b.toNat / 2 := by
  rw [half, BitVec.toNat_ushiftRight, Nat.shiftRight_eq_div_pow, Nat.pow_one]

/-- A difference of two words, read as a signed number, when the subtrahend is in the positive half (R8). -/
theorem toInt_sub_nonneg_iff {x h : Word} (hh : h.toNat < 2 ^ 31) :
    0 ≤ (x - h).toInt ↔ h.toNat ≤ x.toNat ∧ x.toNat ≤ h.toNat + 2 ^ 31 - 1 := by
  have hx := x.isLt
  rw [BitVec.toInt_eq_toNat_cond, BitVec.toNat_sub]
  split <;> omega

theorem edgeDelta_nonneg_iff (rxLast w b : Word) :
    0 ≤ edgeDelta rxLast w b ↔ b.toNat / 2 ≤ span rxLast w ∧ span rxLast w ≤ b.toNat / 2 + 2 ^ 31 - 1 := by
  have hb := b.isLt
  rw [← half_toNat]
  exact toInt_sub_nonneg_iff (by rw [half_toNat]; omega)

theorem edgeDelta_toNat {rxLast w b : Word} (h : 0 ≤ edgeDelta rxLast w b) :
    (edgeDelta rxLast w b).toNat = span rxLast w - b.toNat / 2 := by
  obtain ⟨hlow, hhigh⟩ := (edgeDelta_nonneg_iff rxLast w b).mp h
  have hspan : span rxLast w < 2 ^ 32 := (ts w - ts rxLast).isLt
  have hsub : (ts w - ts rxLast - half b).toNat = span rxLast w - b.toNat / 2 := by
    rw [BitVec.toNat_sub, half_toNat]
    change (2 ^ 32 - b.toNat / 2 + span rxLast w) % 2 ^ 32 = _
    omega
  rw [edgeDelta, s32, BitVec.toInt_eq_toNat_cond, hsub, if_pos (by omega), Int.toNat_natCast]

/-- R124's count of bit periods, as bounds on the interval. -/
theorem periods_eq_iff {rxLast w b : Word} {k : Nat} (hb : 0 < b.toNat) (h : 0 ≤ edgeDelta rxLast w b) (hk : 1 ≤ k) :
    periods (edgeDelta rxLast w b) b = k ↔
      (k - 1) * b.toNat + b.toNat / 2 ≤ span rxLast w ∧ span rxLast w < k * b.toNat + b.toNat / 2 := by
  obtain ⟨hlow, -⟩ := (edgeDelta_nonneg_iff rxLast w b).mp h
  have hne : b ≠ 0 := by rintro rfl; exact absurd hb (by decide)
  obtain ⟨j, rfl⟩ : ∃ j, k = j + 1 := ⟨k - 1, by omega⟩
  have hdiv : 1 + (span rxLast w - b.toNat / 2) / b.toNat = j + 1 ↔
      (span rxLast w - b.toNat / 2) / b.toNat = j := by omega
  rw [periods, if_neg hne, edgeDelta_toNat h, hdiv, Nat.div_eq_iff hb, Nat.add_sub_cancel, Nat.succ_mul]
  omega

theorem pred_mul_add_self {k : Nat} (b : Nat) (hk : 1 ≤ k) : (k - 1) * b + b = k * b := by
  rw [← Nat.succ_mul, Nat.succ_eq_add_one, Nat.sub_add_cancel hk]

/-- Settles O33, by the bounds `periods_eq_iff`: for an even period HALF is its exact half (R125). -/
theorem periodsRoundToTheNearest : Obligations.PeriodsRoundToTheNearest := by
  intro rxLast w b k hb _ hd hk interval h
  have hhalf : h = b.toNat / 2 := half_toNat b
  have hiff : periods (edgeDelta rxLast w b) b = k ↔
      (k - 1) * b.toNat + h ≤ interval ∧ interval < k * b.toNat + h := by
    rw [hhalf]
    exact periods_eq_iff (by omega) hd hk
  have hprev := pred_mul_add_self b.toNat hk
  refine ⟨hiff, fun heven => ?_, fun hexact => hiff.mpr ?_⟩
  · rw [hiff, Nat.succ_mul]
    omega
  · omega

/-! ### PROCESS_EDGE (R124, R126, R127) -/

theorem exec_processEdge (w : Word) (s : State) :
    exec (.processEdge w) s = .next { s with line := s.line.processEdge w } := rfl

/-- An edge that comes too soon leaves its record and the condition (R124). -/
theorem Line.processEdge_of_early {l : Line} {w : Word} (h : edgeDelta l.rxLast w l.bitcyc < 0) :
    l.processEdge w = { l with trace := l.trace ++ [.processEdge w, .condition (.timingAnomaly w)] } := by
  rw [Line.processEdge, if_pos h]
  simp [Line.raise, Line.log]

/-- What every accepted edge does first (R124): its record, and `RX_LAST`. -/
def Line.accept (w : Word) (l : Line) : Line := { l with rxLast := w, trace := l.trace ++ [.processEdge w] }

/-- An accepted edge takes R126's or R127's step from the position the decoder is in. -/
theorem Line.processEdge_of_accepted {l : Line} {w : Word} (h : 0 ≤ edgeDelta l.rxLast w l.bitcyc) :
    l.processEdge w = (l.accept w).stepPos (periods (edgeDelta l.rxLast w l.bitcyc) l.bitcyc)
      (logical l.cfg (lvl l.rxLast)) (logical l.cfg (lvl w)) := if_neg (by omega)

/-- Settles O32: the window is `toInt_sub_nonneg_iff`, since HALF is below 2^31. -/
theorem earlyEdgeIsSkipped : Obligations.EarlyEdgeIsSkipped := by
  refine ⟨fun s w hearly => ?_, fun rxLast w b => toInt_sub_nonneg_iff ?_⟩
  · rw [exec_processEdge, Line.processEdge_of_early hearly]
  · have hb := b.isLt
    change (half b).toNat < 2 ^ 31
    rw [half_toNat]
    omega

/-- The position behind an edge to the logical level `v`, where R126 and R127 wait for a start edge. -/
theorem rxPos_behind_edge (v : Level) :
    (if v then RxPos.idle else .start) = if v = false then .start else .idle := by cases v <;> rfl

/-- R126's step. -/
theorem Line.processEdge_of_idle {l : Line} {w : Word} (hidle : l.rxPos = .idle)
    (h : 0 ≤ edgeDelta l.rxLast w l.bitcyc) :
    l.processEdge w = { l.accept w with rxPos := if logical l.cfg (lvl w) = false then .start else .idle } := by
  have hpos : (l.accept w).rxPos = .idle := hidle
  rw [Line.processEdge_of_accepted h, Line.stepPos, hpos]
  cases logical l.cfg (lvl w)
  · rfl
  · simp [← hpos]

/-- Settles O34, by R126's step. -/
theorem idleWaitsForTheStartEdge : Obligations.IdleWaitsForTheStartEdge := by
  intro s w hidle haccepted
  rw [exec_processEdge, Line.processEdge_of_idle hidle haccepted]
  rfl

/-- The data bits assembled before the position (R33): `p` of R127. -/
def RxPos.dataBits : RxPos → Nat
  | .data p => p.val
  | .start => 0
  | .idle => 0

/-- The data bits among `n` periods that end at an edge in the position: from START on, the first period is the start
bit (R127). -/
def RxPos.dataPeriods (pos : RxPos) (n : Nat) : Nat := if pos = .start then n - 1 else n

theorem Line.stepPos_of_not_idle {l : Line} (n : Nat) (u v : Level) (h : l.rxPos ≠ .idle) :
    l.stepPos n u v = l.assemble l.rxPos.dataBits (l.rxPos.dataPeriods n) u v := by
  unfold Line.stepPos
  cases hpos : l.rxPos with
  | idle => exact absurd hpos h
  | start => rfl
  | data p => rfl

/-- The byte under construction: its last data bits are at the level of the previous edge (R127). -/
theorem Line.assembled_bits (l : Line) (p n : Nat) (u : Level) {k : Nat} (hk : k < 8) :
    (l.assembled p n u).getLsbD k =
      if 8 - min n (8 - p) ≤ k then u else l.rxByte.getLsbD (k + min n (8 - p)) :=
  shiftIn_bits u _ _ k (by omega) hk

section

variable {l : Line} {w : Word} {n : Nat} (hpos : l.rxPos ≠ .idle) (haccepted : 0 ≤ edgeDelta l.rxLast w l.bitcyc)
  (hn : l.rxPos.dataPeriods (periods (edgeDelta l.rxLast w l.bitcyc) l.bitcyc) = n)

include hpos haccepted hn

theorem Line.processEdge_of_not_idle :
    l.processEdge w =
      (l.accept w).assemble l.rxPos.dataBits n (logical l.cfg (lvl l.rxLast)) (logical l.cfg (lvl w)) := by
  rw [Line.processEdge_of_accepted haccepted, ← hn]
  exact Line.stepPos_of_not_idle (l := l.accept w) _ _ _ hpos

/-- R127's step to a byte that is not complete. -/
theorem Line.processEdge_of_incomplete (h : l.rxPos.dataBits + min n (8 - l.rxPos.dataBits) < 8) :
    l.processEdge w = { l.accept w with
      rxByte := l.assembled l.rxPos.dataBits n (logical l.cfg (lvl l.rxLast))
      rxPos := .data ⟨l.rxPos.dataBits + min n (8 - l.rxPos.dataBits), h⟩ } := by
  rw [Line.processEdge_of_not_idle hpos haccepted hn]
  exact dif_pos h

/-- R127's step that completes a byte. -/
theorem Line.processEdge_of_complete (h : 8 ≤ l.rxPos.dataBits + min n (8 - l.rxPos.dataBits)) :
    l.processEdge w =
      { (l.accept w).bPush (l.assembled l.rxPos.dataBits n (logical l.cfg (lvl l.rxLast))) with
        rxByte := 0, rxPos := if logical l.cfg (lvl w) = false then .start else .idle } := by
  rw [Line.processEdge_of_not_idle hpos haccepted hn, Line.assemble, dif_neg (by omega), Line.complete, rxPos_behind_edge]
  rfl

end

/-- Settles O35, by R127's two steps. -/
theorem acceptedEdgeAssemblesData : Obligations.AcceptedEdgeAssemblesData := by
  intro s w hpos haccepted n p m lprev
  refine ⟨s.line.assembled s.line.rxPos.dataBits (s.line.rxPos.dataPeriods n) lprev,
    fun k hk => Line.assembled_bits s.line _ _ lprev hk, fun hincomplete => ?_, fun hcomplete => ?_⟩
  · rw [exec_processEdge, Line.processEdge_of_incomplete hpos haccepted rfl hincomplete]
    rfl
  · rw [exec_processEdge, Line.processEdge_of_complete hpos haccepted rfl hcomplete]
    rfl

/-! ### A pass and its load of `E_HEAD` (R120, R121, R133) -/

theorem exec_decodePass (s : State) : exec .decodePass s = .next s.decodePass := rfl

theorem Line.canReceive_iff (l : Line) : l.canReceive = true ↔ l.rxValid = true ∧ l.ctrl.life = .started := by
  simp [Line.canReceive]

theorem State.decodePass_of_not_canReceive {s : State} (h : ¬ s.line.canReceive = true) : s.decodePass = s := if_neg h

/-- Settles O28. -/
theorem passIsANoOpWithoutReception : Obligations.PassIsANoOpWithoutReception := by
  intro s h
  rw [exec_decodePass, State.decodePass_of_not_canReceive]
  rw [Line.canReceive_iff]
  rintro ⟨hvalid, hlife⟩
  obtain h | h := h
  · exact absurd hvalid (by simp [h])
  · exact h hlife

/-- The state at a pass's load of `E_HEAD`. -/
def State.passStart (s : State) : State := (s.log .decodePass).tick

theorem State.passStart_sameRx (s : State) : SameRx false s.line s.passStart.line := by
  have hlog : SameRx false s.line (s.log .decodePass).line := ⟨rfl, rfl, rfl, rfl, rfl, rfl, rfl, rfl, by simp⟩
  exact hlog.trans (.refl_tick _)

@[simp] theorem State.passStart_line_eTail (s : State) : s.passStart.line.eTail = s.line.eTail := by
  simp [State.passStart]

theorem EdgeRingOk.passStart {s : State} (h : EdgeRingOk s.line) : EdgeRingOk s.passStart.line :=
  ((s.log .decodePass).tick_grow ⟨h.eHead_lt, h.eTail_lt, h.slotE_wf⟩).1

theorem StateInv.passStart_ring {s : State} (h : StateInv s) : EdgeRingOk s.passStart.line :=
  (inv_line h).edgeRing.passStart

theorem State.decodePass_of_canReceive {s : State} (h : s.line.canReceive = true) :
    s.decodePass = if s.passStart.line.eCount = 0 then s.passStart.foldOverflow.recoverStop
      else State.drain s.passStart.line.eCount s.passStart.foldOverflow := if_pos h

/-- R121's case of an empty snapshot. -/
theorem State.decodePass_of_no_edges {s : State} (h : s.line.canReceive = true) (hnone : s.passStart.line.heldEdges = []) :
    s.decodePass = s.passStart.foldOverflow.recoverStop := by
  rw [State.decodePass_of_canReceive h, ← Line.heldEdges_length, hnone]
  rfl

/-- R121's case of edges to process. -/
theorem State.decodePass_of_edges {s : State} (h : s.line.canReceive = true) (hsome : s.passStart.line.heldEdges ≠ []) :
    s.decodePass = State.drain s.passStart.line.heldEdges.length s.passStart.foldOverflow := by
  have hcount : s.passStart.line.eCount ≠ 0 := by
    rwa [← Line.heldEdges_length, Ne, List.length_eq_zero_iff]
  rw [State.decodePass_of_canReceive h, if_neg hcount, Line.heldEdges_length]

/-! ### What a pass makes of the snapshot (R120, R121, R62, R70) -/

theorem SameRx.decoder {b : Bool} {l m : Line} (h : SameRx b l m) : m.decoder = l.decoder := by
  simp only [Line.decoder, h.rxPos, h.rxByte, h.rxLast]

theorem SameRx.byteRing {b : Bool} {l m : Line} (h : SameRx b l m) : m.byteRing = l.byteRing := by
  simp only [Line.byteRing, h.slotB, h.bHead, h.bTail]

/-- Up to the fold of step 1, the decoder's view changes in `LINE_OVF` alone. -/
theorem State.passStart_foldOverflow_sameRx (s : State) :
    SameRx s.passStart.tick.line.eOvf s.line s.passStart.foldOverflow.line := by
  have h := s.passStart_sameRx.trans s.passStart.foldOverflow_sameRx
  rwa [Bool.false_or] at h

theorem State.decodePass_sameRx_of_edges {s : State} (hring : EdgeRingOk s.line) (h : s.line.canReceive = true)
    (hsome : s.passStart.line.heldEdges ≠ []) :
    SameRx s.passStart.tick.line.eOvf (s.passStart.line.heldEdges.foldl (fun l w => l.processEdge w) s.line)
      s.decodePass.line ∧
    s.decodePass.line.eTail = s.passStart.line.eHead := by
  obtain ⟨hfold, more, hheld⟩ := s.passStart.foldOverflow_grow hring.passStart
  obtain ⟨hdrain, htail⟩ := State.drain_spec s.passStart.line.heldEdges s.passStart.foldOverflow more hfold hheld
  rw [State.decodePass_of_edges h hsome]
  constructor
  · have hall := (s.passStart_foldOverflow_sameRx.foldl s.passStart.line.heldEdges).trans hdrain
    rwa [Bool.or_false] at hall
  · rw [htail, State.foldOverflow_line_eTail, State.foldOverflow_line_cfg, Line.heldEdges_length]
    exact ringCount_tail hring.passStart.eHead_lt hring.passStart.eTail_lt

theorem State.recoverStop_of_idle {s : State} (h : s.line.rxPos = .idle) : s.recoverStop = s := if_pos h

theorem State.decodePass_eTail {s : State} (hring : EdgeRingOk s.line) (h : s.line.canReceive = true) :
    s.decodePass.line.eTail = s.passStart.line.eHead := by
  by_cases hnone : s.passStart.line.heldEdges = []
  · rw [State.decodePass_of_no_edges h hnone, (Line.heldEdges_eq_nil hring.passStart).mp hnone]
    simp
  · exact (State.decodePass_sameRx_of_edges hring h hnone).2

theorem State.decodePass_samePlatform (s : State) : SamePlatform s s.decodePass :=
  ⟨s.decodePass_op.same, s.decodePass_reg, s.decodePass_ie⟩

/-- Settles O29: the drained words are those held at the load, whatever is captured behind them. -/
theorem passProcessesTheSnapshot : Obligations.PassProcessesTheSnapshot := by
  intro s hinv hvalid hlife u l
  have hring := (inv_line hinv).edgeRing
  have hreceive := (Line.canReceive_iff s.line).mpr ⟨hvalid, hlife⟩
  refine ⟨s.decodePass, exec_decodePass s, fun hsome => ?_, State.decodePass_eTail hring hreceive,
    by simp [Line.control], by simp [Line.transmitter], s.decodePass_line_resp, s.decodePass_samePlatform,
    (s.decodePass_drive hinv.pins_wf).2⟩
  obtain ⟨hsame, -⟩ := State.decodePass_sameRx_of_edges hring hreceive hsome
  exact ⟨hsame.decoder, hsame.byteRing, hsame.lineOvf⟩

/-! ### The fold of the overflow flag (R121, R130) -/

/-- Step 1 leaves `E_OVF` clear. -/
theorem State.foldOverflow_line_eOvf (s : State) : s.foldOverflow.line.eOvf = false := by
  unfold State.foldOverflow
  split
  · rfl
  · exact Bool.eq_false_iff.mpr ‹_›

theorem State.decodePass_of_idle {s : State} (h : s.line.canReceive = true)
    (hnone : s.passStart.line.heldEdges = []) (hidle : s.line.rxPos = .idle) :
    s.decodePass = s.passStart.foldOverflow := by
  rw [State.decodePass_of_no_edges h hnone]
  exact State.recoverStop_of_idle (s.passStart_foldOverflow_sameRx.rxPos.trans hidle)

theorem State.passStart_stays (s : State) : StaysMasked s s.passStart :=
  (State.log_stays rfl s).trans (State.tick_stays _)

/-- What a pass runs after the fold writes nothing EDGE_CAPTURE may write. -/
theorem State.foldOverflow_stays_decodePass {s : State} (h : s.line.canReceive = true) :
    StaysMasked s.passStart.foldOverflow s.decodePass := by
  rw [State.decodePass_of_canReceive h]
  split
  · exact State.recoverStop_stays _
  · exact State.drain_stays _ _

theorem State.decodePass_lineOvf_of_foldOverflow {s : State} (h : s.line.canReceive = true)
    (hovf : s.passStart.foldOverflow.line.lineOvf = true) : s.decodePass.line.lineOvf = true := by
  rw [State.decodePass_of_canReceive h]
  split
  · exact State.recoverStop_keeps_lineOvf hovf
  · exact State.drain_keeps_lineOvf _ hovf

theorem StaysMasked.isrOwned_fields {s t : State} (h : StaysMasked s t) (hs : s.ie = false) :
    t.line.slotE = s.line.slotE ∧ t.line.eHead = s.line.eHead ∧ t.line.eOvf = s.line.eOvf := by
  obtain ⟨-, hisr, -⟩ := h hs
  simpa only [Line.isrOwned, Prod.mk.injEq] using hisr

/-- With interrupts masked, the snapshot of a pass is what the ring held before it. -/
theorem State.passStart_heldEdges_of_masked {s : State} (hs : s.ie = false) :
    s.passStart.line.heldEdges = s.line.heldEdges := by
  obtain ⟨hslot, hhead, -⟩ := s.passStart_stays.isrOwned_fields hs
  simp only [Line.heldEdges, Line.eCount, hslot, hhead, State.passStart_line_eTail, s.passStart_sameRx.cfg]

/-- Settles O30: an idle pass without edges is the fold of step 1; with interrupts masked no capture disturbs it. -/
theorem emptyPassOnlyFoldsTheOverflow : Obligations.EmptyPassOnlyFoldsTheOverflow := by
  constructor
  · intro s hinv hidle u hnone
    refine ⟨s.decodePass, exec_decodePass s, ?_⟩
    by_cases hreceive : s.line.canReceive = true
    · have hsame := s.passStart_foldOverflow_sameRx
      rw [State.decodePass_of_idle hreceive hnone hidle]
      exact ⟨hsame.decoder, hsame.byteRing, by simp, fun hovf => by simp [hsame.lineOvf, hovf],
        fun _ _ => ⟨hsame.lineOvf, State.foldOverflow_line_eOvf _⟩⟩
    · rw [State.decodePass_of_not_canReceive hreceive]
      exact ⟨rfl, rfl, rfl, id, fun hvalid hlife =>
        absurd ((Line.canReceive_iff s.line).mpr ⟨hvalid, hlife⟩) hreceive⟩
  · intro s hinv hs hvalid hlife
    have hreceive := (Line.canReceive_iff s.line).mpr ⟨hvalid, hlife⟩
    have hloaded : s.passStart.tick.line.eOvf = s.line.eOvf :=
      ((s.passStart_stays.trans (State.tick_stays _)).isrOwned_fields hs).2.2
    have hfold : s.passStart.foldOverflow.line.lineOvf = (s.line.lineOvf || s.line.eOvf) := by
      rw [s.passStart_foldOverflow_sameRx.lineOvf, hloaded]
    refine ⟨s.decodePass, exec_decodePass s, ?_, fun hset => ?_, fun hclear hnone hidle => ?_⟩
    · have hie : s.passStart.foldOverflow.ie = false := by simpa [State.passStart] using hs
      obtain ⟨-, -, hovf⟩ := (State.foldOverflow_stays_decodePass hreceive).isrOwned_fields hie
      rw [hovf, State.foldOverflow_line_eOvf]
    · refine State.decodePass_lineOvf_of_foldOverflow hreceive (hfold.trans ?_)
      obtain hset | hset := hset <;> simp [hset]
    · rw [State.decodePass_of_idle hreceive ((State.passStart_heldEdges_of_masked hs).trans hnone) hidle, hfold, hclear,
        Bool.or_false]

/-! ### The recovery of a missed stop bit (R122, R123) -/

/-- `r` of R122, in START the start bit and eight data bits, in DATA(p) the data bits that are missing. -/
theorem Line.remaining_of_not_idle {l : Line} (h : l.rxPos ≠ .idle) :
    1 ≤ l.remaining ∧ l.remaining ≤ 9 ∧
    min (l.rxPos.dataPeriods l.remaining) (8 - l.rxPos.dataBits) = min l.remaining 8 ∧
    l.rxPos.dataBits + min l.remaining 8 = 8 := by
  unfold Line.remaining
  cases hpos : l.rxPos with
  | idle => exact absurd hpos h
  | start => decide
  | data p =>
    have hp := p.isLt
    simp only [RxPos.dataPeriods, RxPos.dataBits, reduceCtorEq, if_false]
    omega

/-- The stop edge lies `r` periods behind the last edge, but for bit 0, which no timestamp has (R123). -/
theorem Line.span_stopEdge {l : Line} (h : l.remaining * l.bitcyc.toNat < 2 ^ 32) :
    span l.rxLast l.stopEdge = 2 * (l.remaining * l.bitcyc.toNat / 2) := by
  have heven : (ts l.rxLast).toNat % 2 = 0 := by rw [ts_toNat]; omega
  rw [span, Line.stopEdge, ts_mkEdge, BitVec.add_comm, ts_add_of_even _ heven, BitVec.add_sub_cancel, ts_toNat,
    BitVec.toNat_ofNat, Nat.mod_eq_of_lt h]

section

variable {l : Line} (hpos : l.rxPos ≠ .idle) (hmin : 2 ≤ l.bitcyc.toNat) (hmax : 9 * l.bitcyc.toNat < 2 ^ 31)

include hpos hmin hmax

/-- The stop edge is accepted, and counts the `r` periods. -/
theorem Line.stopEdge_accepted :
    0 ≤ edgeDelta l.rxLast l.stopEdge l.bitcyc ∧
    periods (edgeDelta l.rxLast l.stopEdge l.bitcyc) l.bitcyc = l.remaining := by
  obtain ⟨hlow, hhigh, -⟩ := Line.remaining_of_not_idle hpos
  have hle : l.remaining * l.bitcyc.toNat ≤ 9 * l.bitcyc.toNat := Nat.mul_le_mul_right _ hhigh
  have hprev := pred_mul_add_self l.bitcyc.toNat hlow
  have hspan := Line.span_stopEdge (l := l) (by omega)
  have haccepted : 0 ≤ edgeDelta l.rxLast l.stopEdge l.bitcyc := by
    rw [edgeDelta_nonneg_iff, hspan]
    omega
  refine ⟨haccepted, (periods_eq_iff (by omega) haccepted hlow).mpr ?_⟩
  rw [hspan]
  omega

/-- The stop edge completes the byte and ends in IDLE (R122, R127). -/
theorem Line.processEdge_stopEdge :
    l.processEdge l.stopEdge =
      { (l.accept l.stopEdge).bPush (l.assembled l.rxPos.dataBits (l.rxPos.dataPeriods l.remaining)
          (logical l.cfg (lvl l.rxLast))) with
        rxByte := 0, rxPos := .idle } := by
  obtain ⟨haccepted, hperiods⟩ := Line.stopEdge_accepted hpos hmin hmax
  obtain ⟨-, -, hbits, hcomplete⟩ := Line.remaining_of_not_idle hpos
  have hlevel : logical l.cfg (lvl l.stopEdge) = true := by
    rw [Line.stopEdge, lvl_mkEdge]
    simp [logical, inactivePin]
  rw [Line.processEdge_of_complete hpos haccepted (by rw [hperiods]) (by rw [hbits, hcomplete]), hlevel]
  rfl

end

theorem Line.stopEdge_eq (l : Line) :
    l.stopEdge = ((ts l.rxLast + BitVec.ofNat 32 (l.remaining * l.bitcyc.toNat)) &&& 0xFFFFFFFE) |||
      (if l.cfg.invert then 0 else 1) := by
  rw [Line.stopEdge, mkEdge, inactivePin]
  cases l.cfg.invert <;> rfl

/-- A push does not see what an accepted edge does first. -/
theorem Line.accept_bPush_ring (b : Byte) (w : Word) (l : Line) :
    ((l.accept w).bPush b).byteRing = (l.bPush b).byteRing ∧ ((l.accept w).bPush b).lineOvf = (l.bPush b).lineOvf := by
  by_cases hfull : l.bNext = l.bTail
  · rw [Line.bPush_of_full b hfull, Line.bPush_of_full (l := l.accept w) b hfull]
    exact ⟨rfl, rfl⟩
  · rw [Line.bPush_of_room b hfull, Line.bPush_of_room (l := l.accept w) b hfull]
    exact ⟨rfl, rfl⟩

theorem Line.recover_of_due {l : Line} {now : Word}
    (h : s32 (now - ts l.rxLast) > ((l.remaining * l.bitcyc.toNat : Nat) : Int)) :
    l.recover now = l.processEdge l.stopEdge := if_pos (by rwa [Nat.cast_mul] at h)

theorem Line.recover_of_not_due {l : Line} {now : Word}
    (h : s32 (now - ts l.rxLast) ≤ ((l.remaining * l.bitcyc.toNat : Nat) : Int)) :
    l.recover now = l := if_neg (by rwa [Nat.cast_mul, ← not_lt] at h)

/-- A recovery that is due completes the byte: its last data bits are at the level of the last edge, it is pushed, and the
decoder is in IDLE at the stop edge (R122, R123). -/
theorem Line.recover_completes {l : Line} {now : Word} (hpos : l.rxPos ≠ .idle) (hmin : 2 ≤ l.bitcyc.toNat)
    (hmax : 9 * l.bitcyc.toNat < 2 ^ 31)
    (hdue : s32 (now - ts l.rxLast) > ((l.remaining * l.bitcyc.toNat : Nat) : Int)) :
    ∃ byte : Byte,
      (∀ k, k < 8 → byte.getLsbD k = if 8 - min l.remaining 8 ≤ k then logical l.cfg (lvl l.rxLast)
        else l.rxByte.getLsbD (k + min l.remaining 8)) ∧
      (l.recover now).byteRing = (l.bPush byte).byteRing ∧ (l.recover now).lineOvf = (l.bPush byte).lineOvf ∧
      (l.recover now).rxPos = .idle ∧ (l.recover now).rxByte = 0 ∧ (l.recover now).rxLast = l.stopEdge := by
  obtain ⟨-, -, hbits, -⟩ := Line.remaining_of_not_idle hpos
  refine ⟨l.assembled l.rxPos.dataBits (l.rxPos.dataPeriods l.remaining) (logical l.cfg (lvl l.rxLast)),
    fun k hk => ?_, ?_⟩
  · rw [Line.assembled_bits l _ _ _ hk, hbits]
  · rw [Line.recover_of_due hdue, Line.processEdge_stopEdge hpos hmin hmax]
    obtain ⟨hring, hovf⟩ := Line.accept_bPush_ring
      (l.assembled l.rxPos.dataBits (l.rxPos.dataPeriods l.remaining) (logical l.cfg (lvl l.rxLast))) l.stopEdge l
    exact ⟨hring, hovf, rfl, rfl, Line.bPush_rxLast _ _⟩

section

variable {s : State} (hreceive : s.line.canReceive = true) (hnone : s.passStart.line.heldEdges = [])
  (hpos : s.line.rxPos ≠ .idle)

include hreceive hnone hpos

theorem State.decodePass_of_recovery :
    s.decodePass = s.passStart.foldOverflow.tick.mapLine (·.recover s.passStart.foldOverflow.tick.ccount) := by
  rw [State.decodePass_of_no_edges hreceive hnone]
  exact if_neg (s.passStart_foldOverflow_sameRx.rxPos.trans_ne hpos)

/-- The other agents' turns in a pass do not disturb the recovery. -/
theorem State.decodePass_sameRx_of_recovery :
    SameRx s.passStart.tick.line.eOvf (s.line.recover s.passStart.foldOverflow.tick.ccount) s.decodePass.line := by
  have hturn := s.passStart_foldOverflow_sameRx.trans (.refl_tick s.passStart.foldOverflow)
  rw [Bool.or_false] at hturn
  rw [State.decodePass_of_recovery hreceive hnone hpos]
  exact hturn.recover _

end

/-! ### A pass in an environment that leaves the foreground alone -/

theorem Quiet.tick_line {n : Nat} {s : State} (h : Quiet (n + 1) s) : s.tick.line = s.line := by rw [h.tick_eq]

theorem Quiet.tick_ccount {n : Nat} {s : State} (h : Quiet (n + 1) s) : s.tick.ccount = s.ccount := by
  rw [h.tick_eq]
  rfl

theorem Quiet.foldOverflow {n : Nat} {s : State} (h : Quiet (n + 2) s) :
    Quiet n s.foldOverflow ∧ s.foldOverflow.ccount = s.ccount ∧
    s.foldOverflow.line = { s.line with lineOvf := s.line.lineOvf || s.line.eOvf, eOvf := false } := by
  unfold State.foldOverflow
  split
  · rename_i hset
    have hovf : s.line.eOvf = true := by rwa [State.loadEOvf_fst, h.tick_line] at hset
    have hloaded : Quiet (n + 1) (s.loadEOvf.2.mapLine fun l => { l with lineOvf := true }) := h.tick.of_env rfl
    refine ⟨hloaded.tick.of_env rfl, hloaded.tick_ccount.trans h.tick_ccount, ?_⟩
    rw [State.storeEOvf_line, hloaded.tick_line, State.mapLine_line, State.loadEOvf_snd, h.tick_line, hovf, Bool.or_true]
  · rename_i hclear
    have hovf : s.line.eOvf = false := by rwa [State.loadEOvf_fst, h.tick_line, Bool.not_eq_true] at hclear
    refine ⟨h.tick.mono, h.tick_ccount, ?_⟩
    rw [State.loadEOvf_snd, h.tick_line, hovf, Bool.or_false, ← hovf]

/-- Such an environment leaves the line and the counter to the pass up to its read of `CCOUNT()`: four turns. -/
theorem Quiet.pass {s : State} (h : Quiet 4 s) :
    s.passStart.line = s.line.log .decodePass ∧ s.passStart.tick.line = s.line.log .decodePass ∧
    s.passStart.foldOverflow.tick.ccount = s.ccount ∧
    s.passStart.foldOverflow.tick.line = { s.line.log .decodePass with
      lineOvf := s.line.lineOvf || s.line.eOvf, eOvf := false } := by
  have hlog : Quiet 4 (s.log .decodePass) := h.of_env rfl
  have hload : Quiet 3 s.passStart := hlog.tick
  have hline : s.passStart.line = s.line.log .decodePass := hlog.tick_line
  obtain ⟨hfold, hclock, hfold_line⟩ := hload.foldOverflow
  refine ⟨hline, hload.tick_line.trans hline, hfold.tick_ccount.trans (hclock.trans hlog.tick_ccount), ?_⟩
  rw [hfold.tick_line, hfold_line, hline]
  rfl

/-- Settles O31: the pass is the fold and then `Line.recover`, which the other agents' turns do not disturb. -/
theorem recoverySynthesizesTheStopBit : Obligations.RecoverySynthesizesTheStopBit := by
  intro s hinv hvalid hlife hpos u v now r lprev hempty
  have hreceive := (Line.canReceive_iff s.line).mpr ⟨hvalid, hlife⟩
  have hnone : s.passStart.line.heldEdges = [] := (Line.heldEdges_eq_nil hinv.passStart_ring).mpr hempty
  obtain ⟨hmin, hmax⟩ := (inv_line hinv).period hlife
  have hsame : SameRx u.tick.line.eOvf (s.line.recover now) s.decodePass.line :=
    State.decodePass_sameRx_of_recovery hreceive hnone hpos
  have hr : r = s.line.remaining := by
    unfold r Line.remaining
    cases s.line.rxPos <;> rfl
  refine ⟨s.decodePass, exec_decodePass s, ?_, State.foldOverflow_line_eOvf u, fun hdue => ?_, fun hearly => ?_,
    fun hquiet => ?_⟩
  · rw [State.decodePass_eTail (inv_line hinv).edgeRing hreceive]
    exact hempty.trans s.passStart_line_eTail
  · rw [hr] at hdue ⊢
    obtain ⟨byte, hbits, hring, hovf, hidle, hbyte, hlast⟩ := Line.recover_completes hpos hmin hmax hdue
    exact ⟨byte, hbits, hsame.byteRing.trans hring, hsame.lineOvf.trans (congrArg (· || _) hovf),
      hsame.rxPos.trans hidle, hsame.rxByte.trans hbyte, (hsame.rxLast.trans hlast).trans s.line.stopEdge_eq⟩
  · rw [hr] at hearly
    rw [Line.recover_of_not_due (l := s.line) (now := now) hearly] at hsame
    exact ⟨hsame.decoder, hsame.byteRing, hsame.lineOvf⟩
  · obtain ⟨hload, hovf, hclock, hline⟩ := hquiet.pass
    refine ⟨hclock, (congrArg Line.eOvf hovf :), ?_, (congrArg Line.eHead hload :), ?_, ?_⟩
    all_goals
      rw [State.decodePass_of_recovery hreceive hnone hpos, State.mapLine_line]
      simp [hline]

/-! ### Shifts of every timestamp (R129) -/

/-- The line with its last timestamp shifted by `c`. -/
def Line.shiftLast (c : Word) (l : Line) : Line := { l with rxLast := l.rxLast + c }

theorem Line.shiftLast_bPush (c : Word) (b : Byte) (l : Line) :
    (l.shiftLast c).bPush b = (l.bPush b).shiftLast c := by
  by_cases hfull : l.bNext = l.bTail
  · rw [Line.bPush_of_full b hfull, Line.bPush_of_full (l := l.shiftLast c) b hfull]
    rfl
  · rw [Line.bPush_of_room b hfull, Line.bPush_of_room (l := l.shiftLast c) b hfull]
    rfl

theorem Line.shiftLast_assemble (c : Word) (p n : Nat) (u v : Level) (l : Line) :
    (l.shiftLast c).assemble p n u v = (l.assemble p n u v).shiftLast c := by
  unfold Line.assemble
  split
  · rfl
  · rw [Line.complete, Line.shiftLast_bPush]
    rfl

theorem Line.shiftLast_stepPos (c : Word) (n : Nat) (u v : Level) (l : Line) :
    (l.shiftLast c).stepPos n u v = (l.stepPos n u v).shiftLast c := by
  have hpos : (l.shiftLast c).rxPos = l.rxPos := rfl
  unfold Line.stepPos
  rw [hpos]
  split
  · split <;> rfl
  · exact Line.shiftLast_assemble ..
  · exact Line.shiftLast_assemble ..

section

variable {c : Word} (hc : c.toNat % 2 = 0)

include hc

theorem edgeDelta_shift (rxLast w b : Word) : edgeDelta (rxLast + c) (w + c) b = edgeDelta rxLast w b := by
  rw [edgeDelta, edgeDelta, ts_add_of_even _ hc, ts_add_of_even _ hc, add_sub_add_right_eq_sub]

theorem Line.stopEdge_shiftLast (l : Line) : (l.shiftLast c).stopEdge = l.stopEdge + c := by
  have hsum : ts (l.rxLast + c) + BitVec.ofNat 32 (l.remaining * l.bitcyc.toNat) =
      ts l.rxLast + BitVec.ofNat 32 (l.remaining * l.bitcyc.toNat) + c := by
    rw [ts_add_of_even _ hc, add_right_comm]
  exact (congrArg (mkEdge · _) hsum).trans (mkEdge_add_of_even _ _ hc)

/-- The records apart, processing a shifted edge gives the line that processing the edge gives, shifted. -/
theorem Line.processEdge_shiftLast (w : Word) (l : Line) :
    SameRx false ((l.processEdge w).shiftLast c) ((l.shiftLast c).processEdge (w + c)) := by
  have hdelta : edgeDelta (l.shiftLast c).rxLast (w + c) (l.shiftLast c).bitcyc = edgeDelta l.rxLast w l.bitcyc :=
    edgeDelta_shift hc _ _ _
  by_cases hearly : edgeDelta l.rxLast w l.bitcyc < 0
  · rw [Line.processEdge_of_early hearly, Line.processEdge_of_early (hdelta.trans_lt hearly)]
    exact ⟨rfl, rfl, rfl, rfl, rfl, rfl, rfl, rfl, by simp [Line.shiftLast]⟩
  · have haccepted := Int.not_lt.mp hearly
    have haccept : SameRx false ((l.accept w).shiftLast c) ((l.shiftLast c).accept (w + c)) :=
      ⟨rfl, rfl, rfl, rfl, rfl, rfl, rfl, rfl, by simp [Line.shiftLast, Line.accept]⟩
    rw [Line.processEdge_of_accepted haccepted, Line.processEdge_of_accepted (haccepted.trans_eq hdelta.symm), hdelta,
      ← Line.shiftLast_stepPos, lvl_add_of_even w hc]
    change SameRx false _ (((l.shiftLast c).accept (w + c)).stepPos _ (logical l.cfg (lvl (l.rxLast + c))) _)
    rw [lvl_add_of_even l.rxLast hc]
    exact haccept.stepPos _ _ _

theorem Line.recover_shiftLast (now : Word) (l : Line) :
    SameRx false ((l.recover now).shiftLast c) ((l.shiftLast c).recover (now + c)) := by
  have hsince : now + c - ts (l.shiftLast c).rxLast = now - ts l.rxLast := by
    change now + c - ts (l.rxLast + c) = _
    rw [ts_add_of_even _ hc, add_sub_add_right_eq_sub]
  by_cases hdue : s32 (now - ts l.rxLast) > ((l.remaining * l.bitcyc.toNat : Nat) : Int)
  · rw [Line.recover_of_due hdue, Line.recover_of_due (l := l.shiftLast c) (by rwa [hsince]), Line.stopEdge_shiftLast hc]
    exact Line.processEdge_shiftLast hc _ _
  · have hearly := Int.not_lt.mp hdue
    rw [Line.recover_of_not_due hearly, Line.recover_of_not_due (l := l.shiftLast c) (by rwa [hsince])]
    exact .refl _

theorem Line.foldl_processEdge_shiftLast (ws : List Word) : ∀ {l m : Line}, SameRx false (l.shiftLast c) m →
    SameRx false ((ws.foldl (fun l w => l.processEdge w) l).shiftLast c)
      ((ws.map (· + c)).foldl (fun l w => l.processEdge w) m) := by
  induction ws with
  | nil => exact fun h => h
  | cons w ws ih =>
    exact fun {l _} h => ih ((Line.processEdge_shiftLast hc w l).trans (h.processEdge (w + c)))

end

/-- What R129 compares: all but the records. -/
theorem SameRx.shifted_fields {c : Word} {l m : Line} (h : SameRx false (l.shiftLast c) m) :
    (m.rxPos, m.rxByte, m.byteRing, m.lineOvf, m.rxLast) = (l.rxPos, l.rxByte, l.byteRing, l.lineOvf, l.rxLast + c) := by
  rw [h.rxPos, h.rxByte, h.byteRing, h.lineOvf, h.rxLast, Bool.or_false]
  rfl

/-- Settles O37, by induction on the edges and one more step for the recovery. -/
theorem decodingIsShiftInvariant : Obligations.DecodingIsShiftInvariant := by
  intro c ws l hbit run a b
  have hc := even_of_getLsbD hbit
  have hrun : SameRx false (a.shiftLast c) b := Line.foldl_processEdge_shiftLast hc ws (.refl (l.shiftLast c))
  exact ⟨hrun.shifted_fields, fun now => ((Line.recover_shiftLast hc now a).trans (hrun.recover (now + c))).shifted_fields⟩

end Sys2Proof.Machine

/-! Proofs of the family 42_transmitter.md: frames, WRITE's three outcomes, the waits of DELAY_UNTIL, and what a
transmission records, when it does so, and what it leaves. -/

namespace Sys2Proof.Machine

/-! ### Frames (R152) -/

/-- Settles O39, by the three cases of `framePin`. -/
theorem frameHasStartDataAndStop : Obligations.FrameHasStartDataAndStop := by
  refine fun c b => ⟨by simp [frameLevels], fun i hi => ?_⟩
  rw [frameLevels, List.getElem?_map, List.getElem?_range hi, Option.map_some, framePin]
  by_cases hstart : i = 0
  · rw [if_pos hstart, if_pos hstart, activePin]
  · rw [if_neg hstart, if_neg hstart]
    by_cases hstop : i = 9
    · rw [if_pos hstop, if_neg (by omega), inactivePin]
    · rw [if_neg hstop, if_pos (by omega), logical]

/-! ### What WRITE answers (R150, R163, R164) -/

/-- Any other instruction goes on. -/
theorem exec_goes_on_of_not_write {i : Instr} (hi : ∀ payload, i ≠ .write payload) (s : State) :
    ∃ t, exec i s = .next t := by
  cases i
  case write payload => exact absurd rfl (hi payload)
  all_goals exact ⟨_, rfl⟩

/-- R163's cases. -/
theorem exec_write_of_unable {s : State} {payload : List Byte}
    (h : payload = [] ∨ s.line.txValid = false ∨ s.line.ctrl.life ≠ .started) :
    exec (.write payload) s = .next (s.decodePass.respond 0) := by
  refine if_pos ?_
  rw [State.decodePass_line_ctrl, State.decodePass_line_txValid, List.length_eq_zero_iff]
  exact h.imp_right Or.symm

section

variable {s : State} {payload : List Byte} (hbytes : payload ≠ []) (hvalid : s.line.txValid = true)
  (hlife : s.line.ctrl.life = .started)
include hbytes hvalid hlife

/-- R164, and R151 otherwise. -/
theorem exec_write_of_able : exec (.write payload) s =
    if s.line.halfDup = true ∧ s.line.ctrl.txDir = false then .fault (.directionViolation (writeWord payload.length))
    else .next ((s.decodePass.transmit payload).respond (BitVec.ofNat 32 payload.length)) := by
  have hable : ¬ (payload.length = 0 ∨ s.decodePass.line.ctrl.life ≠ .started ∨ s.decodePass.line.txValid = false) := by
    simp [hbytes, hvalid, hlife]
  refine (if_neg hable).trans ?_
  rw [State.decodePass_line_halfDup, State.decodePass_line_ctrl]

/-- A WRITE of bytes that goes on on a started line with a transmit pin has transmitted them. -/
theorem exec_write_next {t : State} (h : exec (.write payload) s = .next t) :
    t = (s.decodePass.transmit payload).respond (BitVec.ofNat 32 payload.length) := by
  rw [exec_write_of_able hbytes hvalid hlife] at h
  split at h
  · cases h
  · cases h
    rfl

end

/-- Settles O13: any other instruction goes on, and WRITE's fault is that of R164. -/
theorem onlyAMisdirectedWriteStops : Obligations.OnlyAMisdirectedWriteStops := by
  intro i s
  by_cases hi : ∀ payload, i ≠ .write payload
  · obtain ⟨t, ht⟩ := exec_goes_on_of_not_write hi s
    rw [ht]
    refine ⟨fun r => ⟨nofun, ?_⟩, nofun⟩
    rintro ⟨payload, hwrite, -⟩
    exact absurd hwrite (hi payload)
  · obtain ⟨payload, rfl⟩ : ∃ payload, i = .write payload := by simpa using hi
    by_cases hunable : payload = [] ∨ s.line.txValid = false ∨ s.line.ctrl.life ≠ .started
    · rw [exec_write_of_unable hunable]
      refine ⟨fun r => ⟨nofun, ?_⟩, nofun⟩
      rintro ⟨_, ⟨⟩, hbytes, hvalid, hlife, -⟩
      simp [hbytes, hvalid, hlife] at hunable
    · obtain ⟨hbytes, hvalid, hlife⟩ : payload ≠ [] ∧ s.line.txValid = true ∧ s.line.ctrl.life = .started := by
        simpa using hunable
      rw [exec_write_of_able hbytes hvalid hlife]
      split
      · rename_i hreceive
        refine ⟨fun r => ⟨?_, ?_⟩, nofun⟩
        · rintro ⟨⟩
          exact ⟨payload, rfl, hbytes, hvalid, hlife, hreceive.1, hreceive.2, rfl⟩
        · rintro ⟨_, ⟨⟩, -, -, -, -, -, rfl⟩
          rfl
      · rename_i hsend
        refine ⟨fun r => ⟨nofun, ?_⟩, nofun⟩
        rintro ⟨_, _, -, -, -, hhalf, hdir, -⟩
        exact absurd ⟨hhalf, hdir⟩ hsend

/-- Settles O40: what is left of such a WRITE is its decode pass, which drives no pin and writes none. -/
theorem writeThatCannotTransmitRespondsZero : Obligations.WriteThatCannotTransmitRespondsZero := by
  intro s payload hinv hunable
  refine ⟨s.decodePass.respond 0, exec_write_of_unable hunable, ?_, ?_, ?_, s.decodePass_samePlatform, fun p => ?_⟩
  · rw [exec_decodePass, ← s.decodePass_line_resp]
    rfl
  · rw [State.respond_line, Line.respond_resp, State.decodePass_line_resp]
  · exact (s.decodePass_drive.trans (State.respond_drive 0 _) hinv.pins_wf).2
  · exact State.decodePass_view (writeTo_ignores p) s

/-! ### The waits of DELAY_UNTIL (R158, R159) -/

/-- Where the counter is once the cycles missing to a deadline have passed: there, or past it as before. -/
theorem add_untilDeadline (d c : Word) :
    c + BitVec.ofNat 32 (untilDeadline d c) = if 0 ≤ (c - d).toInt then c else d := by
  unfold untilDeadline s32
  split
  · simp
  · rw [BitVec.ofNat_toNat, BitVec.setWidth_eq, BitVec.add_comm, BitVec.sub_add_cancel]

theorem State.holdUntil_ccount (m : Word → Nat) (s : State) :
    (s.holdUntil m).ccount = s.tick.ccount + BitVec.ofNat 32 (m s.tick.ccount) := State.advance_ccount _ _

/-- A wait for a deadline ends with it reached. -/
theorem State.holdUntil_reaches (d : Word) (s : State) : 0 ≤ ((s.holdUntil (untilDeadline d)).ccount - d).toInt := by
  rw [State.holdUntil_ccount, add_untilDeadline]
  split
  · assumption
  · simp

theorem State.delayUntil_reaches (d : Word) (s : State) : 0 ≤ ((s.delayUntil d).ccount - d).toInt :=
  State.holdUntil_reaches d _

theorem State.delayUntil_foreground (d : Word) (s : State) : (s.delayUntil d).line.foreground = s.line.foreground := by
  simp [Line.foreground, Line.control, Line.decoder, Line.byteRing, Line.transmitter]

/-- R158's test for a bulk wait, at a `CCOUNT()` read of `now`. -/
theorem State.splitWait_eq (d now : Word) (s : State) : s.splitWait d now =
    if s.line.ctrl.intTx = false ∧ s.par.waitSplit < (d - now).toInt then s.bulkWait d else s := by
  simp only [State.splitWait, Bool.and_eq_true, Bool.not_eq_true', decide_eq_true_eq, gt_iff_lt, s32]

/-- A wait that keeps interrupts as they are. -/
theorem State.delayUntil_of_short {s : State} {d : Word}
    (h : s.line.ctrl.intTx = true ∨ (d - (s.log (.delayUntil d)).tick.ccount).toInt ≤ s.par.waitSplit) :
    s.delayUntil d = (s.log (.delayUntil d)).tick.holdUntil (untilDeadline d) := by
  rw [State.delayUntil, State.splitWait_eq, if_neg, State.readCcount_snd]
  rintro ⟨hmask, hlong⟩
  obtain h | h := h
  · simp [h] at hmask
  · exact absurd hlong (by simpa using h)

/-- A wait whose bulk restores the `IE` saved. -/
theorem State.delayUntil_of_long {s : State} {d : Word} (hmask : s.line.ctrl.intTx = false)
    (hlong : s.par.waitSplit < (d - (s.log (.delayUntil d)).tick.ccount).toInt) :
    s.delayUntil d = ((s.log (.delayUntil d)).tick.bulkWait d).holdUntil (untilDeadline d) := by
  rw [State.delayUntil, State.splitWait_eq, if_pos, State.readCcount_snd]
  exact ⟨by simpa using hmask, by simpa using hlong⟩

/-- `IE` is written by a long wait alone, and is 0 after it (R159). -/
theorem State.delayUntil_ie (d : Word) (s : State) :
    (s.delayUntil d).ie = s.ie ∨ s.line.ctrl.intTx = false ∧ (s.delayUntil d).ie = false := by
  by_cases h : s.line.ctrl.intTx = true ∨ (d - (s.log (.delayUntil d)).tick.ccount).toInt ≤ s.par.waitSplit
  · exact .inl (by rw [State.delayUntil_of_short h]; simp)
  · simp only [not_or, Bool.not_eq_true, not_le] at h
    exact .inr ⟨h.1, by rw [State.delayUntil_of_long h.1 h.2]; simp [State.bulkWait]⟩

/-- The bulk of a long wait ends with exactly `WAIT_SPLIT` cycles to go, if nothing else passes the counter on. -/
theorem untilSplit_eq {d c : Word} {n : Nat} (h : n < (d - c).toInt) :
    (d - (c + BitVec.ofNat 32 (untilSplit d n c))).toInt = n := by
  have hsplit : d - (c + BitVec.ofNat 32 (untilSplit d n c)) = d - c - BitVec.ofNat 32 ((d - c).toInt - n).toNat := by
    rw [untilSplit, s32]
    bv_omega
  rw [hsplit]
  generalize d - c = x at h
  have hx : x.toInt = x.toNat := by
    rw [BitVec.toInt_eq_toNat_cond] at h ⊢
    split at h <;> omega
  have hrest : (x - BitVec.ofNat 32 (x.toInt - n).toNat).toNat = n := by
    rw [BitVec.toNat_sub, BitVec.toNat_ofNat]
    omega
  have hbound : 2 * x.toInt < 2 ^ 32 := BitVec.two_mul_toInt_lt
  rw [BitVec.toInt_eq_toNat_of_lt (by omega), hrest]

theorem Quiet.writeIe {n : Nat} {s : State} (h : Quiet (n + 1) s) (b : Bool) :
    Quiet n (s.writeIe b) ∧ (s.writeIe b).ccount = s.ccount :=
  ⟨h.tick.of_env rfl, h.tick_ccount⟩

theorem Quiet.holdUntil {n : Nat} {s : State} (h : Quiet (n + 1) s) (m : Word → Nat) :
    Quiet n (s.holdUntil m) ∧ (s.holdUntil m).ccount = s.ccount + BitVec.ofNat 32 (m s.ccount) :=
  ⟨h.tick.of_env rfl, by rw [State.holdUntil_ccount, h.tick_ccount]⟩

/-- The bulk wait in an environment that leaves the foreground alone. -/
theorem Quiet.bulkWait {n : Nat} {s : State} (h : Quiet (n + 3) s) (d : Word) :
    Quiet n (s.bulkWait d) ∧ (s.bulkWait d).ccount = s.ccount + BitVec.ofNat 32 (untilSplit d s.par.waitSplit s.ccount) := by
  obtain ⟨hopen, hopen_ccount⟩ := h.writeIe s.line.txSavedIe
  obtain ⟨hwait, hwait_ccount⟩ := hopen.holdUntil (untilSplit d s.par.waitSplit)
  obtain ⟨hclose, hclose_ccount⟩ := hwait.writeIe false
  exact ⟨hclose, by rw [State.bulkWait, hclose_ccount, hwait_ccount, hopen_ccount]⟩

/-- Two counters of which neither is behind the other. -/
theorem eq_of_sub_toInt_nonneg {a b : Word} (h : 0 ≤ (a - b).toInt) (h' : 0 ≤ (b - a).toInt) : a = b := by
  rw [BitVec.toInt_eq_toNat_cond] at h h'
  rw [BitVec.toNat_sub] at h h'
  apply BitVec.eq_of_toNat_eq
  omega

/-- Nothing passes a quiet wait on beyond its deadline. -/
theorem Quiet.delayUntil_ccount {s : State} (h : Quiet 5 s) (d : Word) :
    (s.delayUntil d).ccount = if 0 ≤ (s.ccount - d).toInt then s.ccount else d := by
  have hlog : Quiet 5 (s.log (.delayUntil d)) := h.of_env rfl
  have hread : (s.log (.delayUntil d)).tick.ccount = s.ccount := hlog.tick_ccount
  by_cases hshort : s.line.ctrl.intTx = true ∨ (d - (s.log (.delayUntil d)).tick.ccount).toInt ≤ s.par.waitSplit
  · rw [State.delayUntil_of_short hshort, (hlog.tick.holdUntil _).2, hread, add_untilDeadline]
  · simp only [not_or, Bool.not_eq_true, not_le] at hshort
    obtain ⟨hmask, hlong⟩ := hshort
    obtain ⟨hbulk, hbulk_ccount⟩ := Quiet.bulkWait (n := 1) hlog.tick d
    rw [State.delayUntil_of_long hmask hlong, (Quiet.holdUntil (n := 0) hbulk _).2, add_untilDeadline, hbulk_ccount, hread]
    rw [hread] at hlong
    have hleft := untilSplit_eq hlong
    have hpast : ¬ 0 ≤ (s.ccount - d).toInt := fun hpast => by
      rw [eq_of_sub_toInt_nonneg hpast (by omega), BitVec.sub_self, BitVec.toInt_zero] at hlong
      omega
    rw [State.tick_par, State.log_par, if_neg hpast]
    split
    · rename_i hreached
      exact eq_of_sub_toInt_nonneg hreached (by omega)
    · rfl

/-- The two parts of a long wait: with `IE` as saved until no more than `WAIT_SPLIT` cycles are left, then with 0. -/
theorem State.bulkWait_then_hold (d : Word) (s : State) :
    ∃ m n : Nat,
      let b := State.tick { s.tick with ie := s.line.txSavedIe }
      (d - (b.advance m).ccount).toInt ≤ s.par.waitSplit ∧
      (s.bulkWait d).holdUntil (untilDeadline d) = (State.tick { (b.advance m).tick with ie := false }).advance n :=
  ⟨untilSplit d s.par.waitSplit (s.writeIe s.line.txSavedIe).tick.ccount, _,
    (State.advance_ccount _ _).symm ▸ untilSplit_le _ _ _, rfl⟩

/-- Settles O46: a wait is `State.delayUntil_of_short` or `State.delayUntil_of_long`. -/
theorem delayHoldsUntilTheDeadline : Obligations.DelayHoldsUntilTheDeadline := by
  intro s d r
  have hpar : r.par = s.par := State.tick_par _
  have hsaved : r.line.txSavedIe = s.line.txSavedIe := State.tick_line_txSavedIe _
  refine ⟨s.delayUntil d, rfl, fun hmask hlong => ?_, fun hshort => ?_, s.delayUntil_reaches d, s.delayUntil_foreground d,
    (s.delayUntil_op d).same, s.delayUntil_reg d, fun hwf => (s.delayUntil_drive d hwf).2, fun hon => ?_,
    fun hquiet => hquiet.delayUntil_ccount d, fun hquiet hmask hlong => ?_⟩
  · rw [State.delayUntil_of_long hmask hlong, ← hsaved, ← hpar]
    exact State.bulkWait_then_hold d r
  · exact ⟨_, State.delayUntil_of_short hshort⟩
  · exact (s.delayUntil_ie d).resolve_right (by simp [hon])
  · have hread : r.ccount = s.ccount := Quiet.tick_ccount (n := 4) (hquiet.of_env rfl)
    rw [State.delayUntil_of_long hmask (by rwa [hread]), State.holdUntil_ie]
    rfl

/-! ### One segment (R155) -/

theorem State.openSegment_line_txDl (v : Level) (dur : Word) (s : State) :
    (s.openSegment v dur).line.txDl = s.line.txDl + dur := by
  simp [State.openSegment]

theorem State.txSegment_line_txDl (v : Level) (dur : Word) (s : State) :
    (s.txSegment v dur).line.txDl = s.line.txDl + dur :=
  (State.delayUntil_line_txDl _ _).trans (s.openSegment_line_txDl v dur)

theorem State.txSegment_foreground (v : Level) (dur : Word) (s : State) :
    (s.txSegment v dur).line.foreground = ({ s.line with txDl := s.line.txDl + dur } : Line).foreground := by
  simp [Line.foreground, Line.control, Line.decoder, Line.byteRing, Line.transmitter, State.txSegment_line_txDl]

/-- A segment ends with its deadline reached. -/
theorem State.txSegment_reaches (v : Level) (dur : Word) (s : State) :
    0 ≤ ((s.txSegment v dur).ccount - (s.line.txDl + dur)).toInt := by
  rw [← State.openSegment_line_txDl]
  exact State.delayUntil_reaches _ _

/-- Settles O45: the pin write, then the wait for the accumulated deadline. -/
theorem segmentWritesAndWaits : Obligations.SegmentWritesAndWaits := by
  intro s v dur hinv
  obtain ⟨_, hwrites⟩ := State.txSegment_view (writeTo_ignores s.line.cfg.txPin) v dur s
  obtain ⟨_, hdeadlines⟩ := State.txSegment_view deadline_ignores v dur s
  refine ⟨s.txSegment v dur, rfl, s.txSegment_foreground v dur, ?_, ?_, s.txSegment_reaches v dur,
    (State.txSegment_drive v dur hinv.pins_wf).2, (s.txSegment_op v dur).same, s.txSegment_reg v dur⟩
  · simpa [Event.writeTo?, State.view, writesTo] using hwrites
  · exact hdeadlines

/-! ### What a transmission records (R154, R157, R162) -/

theorem driveStep_ignores : Ignores Event.driveStep? := ⟨fun _ => rfl, fun _ => rfl, rfl, fun _ => rfl⟩

theorem emits_segments (pin : Pin) (dl : Word) (rs : List (Level × Word)) :
    emits Event.segment? (fun _ _ => none) pin dl rs = rs := by
  induction rs generalizing dl with
  | nil => rfl
  | cons r rs ih => simp [emits, Event.segment?, ih]

theorem emits_deadlines (pin : Pin) (dl : Word) (rs : List (Level × Word)) :
    emits Event.deadline? (fun _ _ => none) pin dl rs = deadlinesFrom dl (rs.map (·.2)) := by
  induction rs generalizing dl with
  | nil => rfl
  | cons r rs ih => simp [emits, Event.deadline?, deadlinesFrom, ih]

theorem emits_writesTo (pin : Pin) (dl : Word) (rs : List (Level × Word)) :
    emits (Event.writeTo? pin) (fun q v => if q = pin then some v else none) pin dl rs = rs.map (·.1) := by
  induction rs generalizing dl with
  | nil => rfl
  | cons r rs ih => simp [emits, Event.writeTo?, ih]

theorem emits_driveSteps (pin : Pin) (dl : Word) (rs : List (Level × Word)) :
    emits Event.driveStep? (fun q v => some (.write q v)) pin dl rs =
      (List.zip (rs.map (·.1)) (deadlinesFrom dl (rs.map (·.2)))).flatMap
        fun e => [DriveStep.write pin e.1, DriveStep.wait e.2] := by
  induction rs generalizing dl with
  | nil => rfl
  | cons r rs ih => simp [emits, Event.driveStep?, deadlinesFrom, ih]

/-- The state at the one `CCOUNT()` read of a WRITE that transmits (R151): its counter is `D0`. -/
def State.writeStart (s : State) : State := ((s.decodePass.driveTxen true).txMask).tick

section

variable {s : State} (hinv : StateInv s) (hlife : s.line.ctrl.life = .started)
include hinv hlife

theorem StateInv.decodePass_period : 2 ≤ s.decodePass.line.bitcyc.toNat ∧ 9 * s.decodePass.line.bitcyc.toNat < 2 ^ 31 := by
  rw [State.decodePass_line_bitcyc]
  exact (inv_line hinv).period hlife

/-- A reading of what WRITE records when it transmits. -/
theorem State.write_view {β : Type} {f : Event → Option β} {g : Pin → Level → Option β} (hf : Ignores f)
    (hg : ∀ p v t, f (.pinWrite p v t) = g p v) (payload : List Byte) :
    (s.decodePass.transmit payload).view f =
      s.view f ++ (if s.line.ctrl.txenV = true then (g s.line.txenPin true).toList else []) ++
      emits f g s.line.cfg.txPin s.writeStart.ccount
        ((runs (txLevels s.line.cfg payload)).map fun r => (r.1, BitVec.ofNat 32 (s.line.bitcyc.toNat * r.2))) ++
      (if s.line.ctrl.txenV = true then (g s.line.txenPin false).toList else []) := by
  obtain ⟨hmin, hmax⟩ := hinv.decodePass_period hlife
  have h := (State.transmit_view hf hg payload s.decodePass hmin hmax).1
  rw [State.decodePass_view hf] at h
  simpa [State.writeStart] using h

theorem State.write_line_txDl (payload : List Byte) :
    (s.decodePass.transmit payload).line.txDl =
      s.writeStart.ccount + BitVec.ofNat 32 (10 * payload.length * s.line.bitcyc.toNat) := by
  obtain ⟨hmin, hmax⟩ := hinv.decodePass_period hlife
  have h := (State.transmit_view segment_ignores (fun _ _ _ => rfl) payload s.decodePass hmin hmax).2
  rwa [txLevels_length, State.decodePass_line_bitcyc, Nat.mul_comm] at h

end

/-- A configured transmit-enable pin is not the transmit pin (R184). -/
theorem StateInv.txenPin_ne_txPin {s : State} (h : StateInv s) (hen : s.line.ctrl.txenV = true) :
    s.line.txenPin ≠ s.line.cfg.txPin := ((inv_line h).txen_apart hen).2

/-- Settles O41, by `State.write_view` for the segments and for the writes of the transmit pin. -/
theorem writeIssuesOneSegmentPerRun : Obligations.WriteIssuesOneSegmentPerRun := by
  refine ⟨runs_txLevels, fun s payload hinv hbytes hvalid hlife hdir => ?_⟩
  refine ⟨(s.decodePass.transmit payload).respond (BitVec.ofNat 32 payload.length), ?_, by simp, ?_, ?_⟩
  · rw [exec_write_of_able hbytes hvalid hlife, if_neg]
    rintro ⟨hhalf, hreceive⟩
    simp [hdir hhalf] at hreceive
  · have h := State.write_view hinv hlife segment_ignores (g := fun _ _ => none) (fun _ _ _ => rfl) payload
    rw [emits_segments, Option.toList_none, ite_self, List.append_nil, List.append_nil] at h
    rw [State.respond_line, Line.respond_trace]
    exact h
  · have h := State.write_view hinv hlife (writeTo_ignores s.line.cfg.txPin)
      (g := fun q v => if q = s.line.cfg.txPin then some v else none) (fun _ _ _ => rfl) payload
    have henable : ∀ v : Level, (if s.line.ctrl.txenV = true then
        (if s.line.txenPin = s.line.cfg.txPin then some v else none).toList else []) = [] := fun v => by
      split
      · rw [if_neg (hinv.txenPin_ne_txPin ‹_›), Option.toList_none]
      · rfl
    rw [emits_writesTo, henable, henable, List.append_nil, List.append_nil, List.map_map] at h
    rw [State.respond_line, Line.respond_trace]
    exact h

/-- Settles O43, by `State.write_view` for the steps of driving the pins. -/
theorem writeDrivesTheEnablePin : Obligations.WriteDrivesTheEnablePin := by
  intro s t payload hinv hbytes hvalid hlife ht d0 rs enable
  rw [exec_write_next hbytes hvalid hlife ht, State.respond_line, Line.respond_trace]
  have h := State.write_view hinv hlife driveStep_ignores (g := fun q v => some (.write q v)) (fun _ _ _ => rfl) payload
  rw [emits_driveSteps, List.map_map, List.map_map] at h
  exact h

/-! ### When a transmission does so, in unwrapped time (R156, R157, R160) -/

/-- TRANSMIT up to its final flush (R151): the segments' part of it. -/
def State.txSent (bytes : List Byte) (s : State) : State :=
  ((txLevels s.line.cfg bytes).foldl State.txBit (s.driveTxen true).txMask.txSample).flushPair

/-- And with `IE` restored: all of TRANSMIT but the enable pin's last write. -/
def State.txClosed (bytes : List Byte) (s : State) : State := (s.txSent bytes).writeIe (s.txSent bytes).line.txSavedIe

theorem State.transmit_eq (bytes : List Byte) (s : State) : s.transmit bytes = (s.txClosed bytes).driveTxen false := rfl

@[simp] theorem State.txClosed_line_ctrl (bytes : List Byte) (s : State) : (s.txClosed bytes).line.ctrl = s.line.ctrl := by
  simp [State.txClosed, State.txSent]

@[simp] theorem State.txClosed_line_txenPin (bytes : List Byte) (s : State) :
    (s.txClosed bytes).line.txenPin = s.line.txenPin := by
  simp [State.txClosed, State.txSent]

theorem State.txClosed_view {β : Type} {f : Event → Option β} (hf : Ignores f) (bytes : List Byte) (s : State) :
    (s.txClosed bytes).view f = (s.txSent bytes).view f := State.writeIe_view hf _ _

theorem State.txSent_cycle_le_txClosed (bytes : List Byte) (s : State) : (s.txSent bytes).cycle ≤ (s.txClosed bytes).cycle :=
  State.writeIe_cycle _ _

theorem State.txSent_cycle_le (bytes : List Byte) (s : State) : (s.txSent bytes).cycle ≤ (s.transmit bytes).cycle :=
  (s.txSent_cycle_le_txClosed bytes).trans (State.driveTxen_cycle _ _)

/-- No pair is pending after the sample of `D0` (R151). -/
theorem State.txSample_pend (s : State) : Pend s.txSample (inactivePin s.line.cfg) 0 := by
  constructor
  case prev => simp [State.txSample]
  all_goals cases inactivePin s.line.cfg <;> simp [State.txSample]

/-- No run of a transmission is longer than nine periods (R155). -/
theorem runs_txLevels_le (c : Cfg) (bytes : List Byte) : ∀ r ∈ runs (txLevels c bytes), r.2 ≤ 9 := by
  intro r hr
  rw [runs_txLevels, List.mem_flatMap] at hr
  obtain ⟨b, -, hb⟩ := hr
  exact runs_frame_le c b r hb

theorem State.driveTxen_writeTimes (q : Pin) (v : Level) (s : State) :
    writeTimes q (s.driveTxen v).line.trace =
      writeTimes q s.line.trace ++ (if s.line.ctrl.txenV = true ∧ s.line.txenPin = q then [s.tick.cycle] else []) := by
  unfold State.driveTxen
  split
  · rename_i hen
    refine (State.pinWrite_view (writeTime_ignores q) s.line.txenPin v s).trans ?_
    by_cases hq : s.line.txenPin = q <;> simp [State.view, writeTimes, Event.writeTime?, hen, hq]
  · simp [*]

/-- The segments of a transmission in unwrapped time, from its sample of `D0`. -/
theorem State.txSent_times {s : State} (bytes : List Byte) (hmin : 2 ≤ s.line.bitcyc.toNat)
    (hmax : 9 * s.line.bitcyc.toNat < 2 ^ 31) :
    (s.driveTxen true).txMask.tick.cycle + 10 * bytes.length * s.line.bitcyc.toNat ≤ (s.txSent bytes).cycle ∧
    ∃ times, Timed (s.driveTxen true).txMask.tick.cycle
        ((runs (txLevels s.line.cfg bytes)).map fun r => s.line.bitcyc.toNat * r.2) times ∧
      ∀ q, writeTimes q (s.txSent bytes).line.trace = writeTimes q (s.driveTxen true).line.trace ++
        (if s.line.cfg.txPin = q then times else []) := by
  have hpend := (s.driveTxen true).txMask.txSample_pend
  have h := State.foldl_txBit_times (txLevels s.line.cfg bytes) (s.driveTxen true).txMask.txSample _ 0
    (s.driveTxen true).txMask.tick.cycle (by simpa using hmin) (by simpa using hmax)
    (by simpa using runs_txLevels_le s.line.cfg bytes) hpend rfl (Nat.le_refl _)
  obtain ⟨hend, times, htimed, hwrites⟩ := h
  refine ⟨?_, times, by simpa using htimed, fun q => (hwrites q).trans ?_⟩
  · simpa [State.txSent, txLevels_length, Nat.mul_comm] using hend
  · have hstart : writeTimes q (s.driveTxen true).txMask.txSample.line.trace = writeTimes q (s.driveTxen true).line.trace :=
      (State.txSample_view (writeTime_ignores q) _).trans (State.txMask_view (writeTime_ignores q) _)
    rw [hstart]
    simp

/-- The pin writes of TRANSMIT in unwrapped time: those of its segments, and the enable pin's before and after them. -/
theorem State.transmit_times {s : State} (bytes : List Byte) (hmin : 2 ≤ s.line.bitcyc.toNat)
    (hmax : 9 * s.line.bitcyc.toNat < 2 ^ 31) :
    ∃ times down,
      Timed (s.driveTxen true).txMask.tick.cycle
        ((runs (txLevels s.line.cfg bytes)).map fun r => s.line.bitcyc.toNat * r.2) times ∧
      (s.driveTxen true).txMask.tick.cycle + 10 * bytes.length * s.line.bitcyc.toNat ≤ down ∧
      (s.driveTxen true).txMask.tick.cycle + 10 * bytes.length * s.line.bitcyc.toNat ≤ (s.transmit bytes).cycle ∧
      ∀ q, writeTimes q (s.transmit bytes).line.trace =
        writeTimes q s.line.trace ++ (if s.line.ctrl.txenV = true ∧ s.line.txenPin = q then [s.tick.cycle] else []) ++
        (if s.line.cfg.txPin = q then times else []) ++
        (if s.line.ctrl.txenV = true ∧ s.line.txenPin = q then [down] else []) := by
  obtain ⟨hend, times, htimed, hwrites⟩ := State.txSent_times bytes hmin hmax
  have hclose := hend.trans (s.txSent_cycle_le_txClosed bytes)
  refine ⟨times, _, htimed, hclose.trans (State.tick_cycle _), hclose.trans (State.driveTxen_cycle false _), fun q => ?_⟩
  have hrestore : writeTimes q (s.txClosed bytes).line.trace = writeTimes q (s.txSent bytes).line.trace :=
    State.txClosed_view (writeTime_ignores q) _ _
  rw [State.transmit_eq, State.driveTxen_writeTimes, hrestore, hwrites, State.driveTxen_writeTimes, State.txClosed_line_ctrl,
    State.txClosed_line_txenPin]

/-- The enable pin goes high no later than `D0` (R162). -/
theorem State.tick_cycle_le_writeStart {s : State} (hen : s.line.ctrl.txenV = true) :
    s.decodePass.tick.cycle ≤ s.writeStart.cycle := by
  have hup : (s.decodePass.driveTxen true).cycle = s.decodePass.tick.cycle := by
    rw [State.driveTxen, if_pos (by simpa using hen), State.pinWrite_cycle]
  rw [← hup]
  exact (State.txMask_cycle _).trans (State.tick_cycle _)

theorem State.cycle_le_writeStart (s : State) : s.cycle ≤ s.writeStart.cycle :=
  s.decodePass_cycle.trans ((State.driveTxen_cycle true _).trans ((State.txMask_cycle _).trans (State.tick_cycle _)))

/-- Settles O42: the deadlines by `State.write_view`, the cycles by `State.transmit_times`. -/
theorem writeDeadlinesAccumulate : Obligations.WriteDeadlinesAccumulate := by
  intro s t payload hinv hbytes hvalid hlife ht u spans
  rw [exec_write_next hbytes hvalid hlife ht, State.respond_line, Line.respond_trace, Line.respond_txDl, State.respond_cycle]
  obtain ⟨hmin, hmax⟩ := hinv.decodePass_period hlife
  obtain ⟨times, down, htimed, hdown, hend, hwrites⟩ := State.transmit_times payload hmin hmax
  have hpass : ∀ q, writeTimes q s.decodePass.line.trace = writeTimes q s.line.trace :=
    fun q => s.decodePass_view (writeTime_ignores q)
  simp only [State.decodePass_line_bitcyc, State.decodePass_line_cfg, State.decodePass_line_ctrl,
    State.decodePass_line_txenPin, hpass] at htimed hdown hend hwrites
  refine ⟨?_, State.write_line_txDl hinv hlife payload, s.cycle_le_writeStart, hend, ⟨times, ?_, htimed⟩, fun hen => ?_⟩
  · have h := State.write_view hinv hlife deadline_ignores (g := fun _ _ => none) (fun _ _ _ => rfl) payload
    rw [emits_deadlines, Option.toList_none, ite_self, List.append_nil, List.append_nil, List.map_map] at h
    rw [List.map_map]
    exact h
  · have hother : ¬ (s.line.ctrl.txenV = true ∧ s.line.txenPin = s.line.cfg.txPin) :=
      fun h => hinv.txenPin_ne_txPin h.1 h.2
    simpa [hother] using hwrites s.line.cfg.txPin
  · refine ⟨_, down, ?_, State.tick_cycle_le_writeStart hen, hdown⟩
    simpa [hen, (hinv.txenPin_ne_txPin hen).symm] using hwrites s.line.txenPin

/-! ### What the segments of a transmission leave, whatever their levels (R155, R158, R159) -/

/-- `s` to `t` in a transmission, between its sample of `D0` and its restore of `IE`: time and the records go on, `IE` is
left or cleared, and of the pins only the transmit pin's latch is written. -/
structure Sending (s t : State) : Prop where
  ctrl : t.line.ctrl = s.line.ctrl
  cfg : t.line.cfg = s.line.cfg
  cycle : s.cycle ≤ t.cycle
  trace : s.line.trace <+: t.line.trace
  ie : t.ie = s.ie ∨ s.line.ctrl.intTx = false ∧ t.ie = false
  drive : s.pins.wf untouchedPin = true → t.pins.wf untouchedPin = true ∧
    ∀ q, (t.drive q).1 = (s.drive q).1 ∧ (q ≠ s.line.cfg.txPin → t.drive q = s.drive q)

theorem Sending.refl (s : State) : Sending s s :=
  ⟨rfl, rfl, Nat.le_refl _, List.prefix_rfl, .inl rfl, fun w => ⟨w, fun _ => ⟨rfl, fun _ => rfl⟩⟩⟩

theorem Sending.trans {s t u : State} (h : Sending s t) (k : Sending t u) : Sending s u where
  ctrl := k.ctrl.trans h.ctrl
  cfg := k.cfg.trans h.cfg
  cycle := h.cycle.trans k.cycle
  trace := h.trace.trans k.trace
  ie := by
    obtain hk | ⟨hmask, hk⟩ := k.ie
    · rw [hk]
      exact h.ie
    · exact .inr ⟨h.ctrl ▸ hmask, hk⟩
  drive w := by
    obtain ⟨wt, ht⟩ := h.drive w
    obtain ⟨wu, hu⟩ := k.drive wt
    refine ⟨wu, fun q => ⟨(hu q).1.trans (ht q).1, fun hq => ?_⟩⟩
    exact ((hu q).2 (h.cfg ▸ hq)).trans ((ht q).2 hq)

/-- A change of the active line's pending pair. -/
theorem Sending.of_mapLine (f : Line → Line) (s : State) (hctrl : ∀ l, (f l).ctrl = l.ctrl := by exact fun _ => rfl)
    (hcfg : ∀ l, (f l).cfg = l.cfg := by exact fun _ => rfl)
    (htrace : ∀ l, (f l).trace = l.trace := by exact fun _ => rfl) : Sending s (s.mapLine f) where
  ctrl := hctrl _
  cfg := hcfg _
  cycle := Nat.le_refl _
  trace := by rw [State.mapLine_line, htrace]
  ie := .inl rfl
  drive w := ⟨w, fun _ => ⟨rfl, fun _ => rfl⟩⟩

theorem Line.ePush_trace (w : Word) (l : Line) : l.trace <+: (l.ePush w).trace := by
  unfold Line.ePush
  split
  · exact List.prefix_append _ _
  · exact List.prefix_rfl

theorem State.enterIsr_trace (s : State) (l : Line) : l.trace <+: (s.enterIsr l).trace :=
  (List.prefix_append l.trace [.edgeCapture _]).trans
    (Line.ePush_trace _ ({ l with pendRx := false, capCycle := some s.cycle }.log (.edgeCapture _)))

/-- A move of another agent only adds to the records (R88, R220). -/
theorem State.move_trace (s : State) (m : Move) : s.line.trace <+: (s.move m).line.trace := by
  cases m with
  | env e =>
    cases e with
    | advance n => exact List.prefix_rfl
    | level p v =>
      rw [State.move, State.envMove, State.setPin_trace]
    | interrupt slot =>
      rw [State.move, State.envMove]
      obtain ⟨id, h⟩ | h := s.takeInterrupt_cases slot
      · rw [h, State.mapLines_line, State.deliverTo]
        split
        · exact s.enterIsr_trace _
        · exact List.prefix_rfl
      · rw [h]
  | supply id ws =>
    rw [State.move, State.mapLines_line]
    split <;> exact List.prefix_rfl
  | request r => exact List.prefix_rfl

theorem State.moves_trace (ms : List Move) : ∀ s : State, s.line.trace <+: (ms.foldl State.move s).line.trace := by
  induction ms with
  | nil => exact fun _ => List.prefix_rfl
  | cons m ms ih => exact fun s => (s.move_trace m).trans (ih _)

theorem State.tick_trace (s : State) : s.line.trace <+: s.tick.line.trace := by
  have h := State.moves_trace s.nextTurn s.dropTurn
  rwa [State.dropTurn_line] at h

theorem State.log_trace (e : Event) (s : State) : s.line.trace <+: (s.log e).line.trace := List.prefix_append _ _

theorem State.writeIe_trace (b : Bool) (s : State) : s.line.trace <+: (s.writeIe b).line.trace := s.tick_trace

theorem State.holdUntil_trace (m : Word → Nat) (s : State) : s.line.trace <+: (s.holdUntil m).line.trace := s.tick_trace

theorem State.pinWrite_trace (p : Pin) (v : Level) (s : State) : s.line.trace <+: (s.pinWrite p v).line.trace := by
  have hset : (s.tick.setPin p { s.tick.pin p with out := v }).line.trace = s.tick.line.trace := State.setPin_trace _ _ _
  exact (hset ▸ s.tick_trace).trans (State.log_trace _ _)

theorem State.splitWait_trace (d now : Word) (s : State) : s.line.trace <+: (s.splitWait d now).line.trace := by
  rw [State.splitWait_eq]
  split
  · exact ((s.writeIe_trace _).trans (State.holdUntil_trace _ _)).trans (State.writeIe_trace _ _)
  · exact List.prefix_rfl

theorem State.delayUntil_trace (d : Word) (s : State) : s.line.trace <+: (s.delayUntil d).line.trace := by
  exact (((State.log_trace _ s).trans (State.tick_trace _)).trans (State.splitWait_trace d _ _)).trans
    (State.holdUntil_trace _ _)

/-- A wait ends no earlier than its `CCOUNT()` read. -/
theorem State.read_cycle_le_delayUntil (d : Word) (s : State) :
    (s.log (.delayUntil d)).tick.cycle ≤ (s.delayUntil d).cycle :=
  (State.splitWait_cycle d _ _).trans (State.holdUntil_cycle _ _)

theorem State.cycle_le_delayUntil (d : Word) (s : State) : s.cycle ≤ (s.delayUntil d).cycle :=
  (State.tick_cycle (s.log _)).trans (s.read_cycle_le_delayUntil d)

theorem State.txSegment_trace (v : Level) (dur : Word) (s : State) : s.line.trace <+: (s.txSegment v dur).line.trace := by
  have hopen : s.line.trace <+: (s.openSegment v dur).line.trace :=
    (State.log_trace _ s).trans (State.pinWrite_trace s.line.cfg.txPin v (s.log (.txSegment v dur)))
  exact hopen.trans (State.delayUntil_trace _ _)

theorem State.openSegment_cycle (v : Level) (dur : Word) (s : State) :
    (s.openSegment v dur).cycle = (s.log (.txSegment v dur)).tick.cycle :=
  State.pinWrite_cycle s.line.cfg.txPin v (s.log (.txSegment v dur))

theorem State.cycle_le_openSegment (v : Level) (dur : Word) (s : State) : s.cycle ≤ (s.openSegment v dur).cycle := by
  rw [State.openSegment_cycle]
  exact State.tick_cycle (s.log _)

theorem Sending.txSegment (v : Level) (dur : Word) (s : State) : Sending s (s.txSegment v dur) where
  ctrl := s.txSegment_line_ctrl v dur
  cfg := s.txSegment_line_cfg v dur
  cycle := (s.cycle_le_openSegment v dur).trans (State.cycle_le_delayUntil _ _)
  trace := s.txSegment_trace v dur
  ie := by
    have h := (s.openSegment v dur).delayUntil_ie (s.openSegment v dur).line.txDl
    rwa [State.openSegment_ie, State.openSegment_line_ctrl] at h
  drive w := by
    obtain ⟨wt, ht⟩ := State.txSegment_drive v dur w
    refine ⟨wt, fun q => ⟨?_, fun hq => by rw [ht, if_neg hq]⟩⟩
    rw [ht]
    split <;> rfl

theorem Sending.flushPair (s : State) : Sending s s.flushPair := by
  have hhigh : Sending s s.flushHigh := by
    unfold State.flushHigh
    split
    · exact .refl s
    · exact .txSegment _ _ s
  have hlow : Sending s.flushHigh s.flushHigh.flushLow := by
    unfold State.flushLow
    split
    · exact .refl _
    · exact .txSegment _ _ _
  exact (hhigh.trans hlow).trans (.of_mapLine _ _)

theorem Sending.addPeriod (v : Level) (s : State) : Sending s (s.mapLine (·.addPeriod v)) :=
  .of_mapLine _ s (fun _ => by simp) (fun _ => by simp) (fun _ => by simp)

theorem Sending.txBit (v : Level) (s : State) : Sending s (s.txBit v) := by
  unfold State.txBit
  split
  · exact .addPeriod v s
  · exact (Sending.flushPair s).trans (.addPeriod v _)

theorem Sending.foldl_txBit (vs : List Level) : ∀ s : State, Sending s (vs.foldl State.txBit s) := by
  induction vs with
  | nil => exact Sending.refl
  | cons v vs ih => exact fun s => (Sending.txBit v s).trans (ih _)

/-! ### Along the bit positions of a transmission (R151, R153) -/

/-- A flush issues the pending run, if there is one. -/
theorem State.flushPair_eq {s : State} {v : Level} {k : Nat} (hmin : 2 ≤ s.line.bitcyc.toNat)
    (hmax : 9 * s.line.bitcyc.toNat < 2 ^ 31) (hk : k ≤ 9) (p : Pend s v k) :
    s.flushPair = (if k = 0 then s else s.txSegment v (BitVec.ofNat 32 (s.line.bitcyc.toNat * k))).mapLine
      fun l => { l with txHi := 0, txLo := 0 } := by
  refine congrArg (State.mapLine fun l => { l with txHi := 0, txLo := 0 }) ?_
  by_cases h0 : k = 0
  · subst h0
    have hhi : s.line.txHi = 0 := by simpa using p.hi
    have hlo : s.line.txLo = 0 := by simpa using p.lo
    rw [State.flushHigh, if_pos hhi, State.flushLow, if_pos hlo, if_pos rfl]
  · have hne := period_ne_zero hmin hmax (by omega) hk
    have hhi := p.hi
    have hlo := p.lo
    rw [if_neg h0]
    cases v with
    | true =>
      rw [if_pos rfl] at hhi hlo
      rw [State.flushHigh, if_neg (hhi ▸ hne), State.flushLow, if_pos (by rw [State.txSegment_line_txLo, hlo]), hhi]
    | false =>
      rw [if_neg Bool.false_ne_true] at hhi hlo
      rw [State.flushHigh, if_pos hhi, State.flushLow, if_neg (hlo ▸ hne), hlo]

/-- A pending run ends where the level changes. -/
theorem runs_pending_ne {u v : Level} (h : u ≠ v) (k : Nat) (us : List Level) :
    runs (List.replicate k v ++ u :: us) = (if k = 0 then [] else [(v, k)]) ++ runs (List.replicate 1 u ++ us) := by
  cases k with
  | zero => rfl
  | succ k => exact runs_replicate_cons h.symm us k

/-- Induction along the bit positions: what every flush of at most nine periods and every added period keeps, with the
number of periods issued, holds after them, with a last run pending (R153, R155). -/
theorem State.foldl_txBit_induct {P : Nat → State → Prop}
    (hflush : ∀ {n s v k}, k ≤ 9 → Pend s v k → P n s → P (n + k) s.flushPair)
    (hadd : ∀ {n s} v, P n s → P n (s.mapLine (·.addPeriod v))) (vs : List Level) : ∀ {s v k n},
    (∀ r ∈ runs (List.replicate k v ++ vs), r.2 ≤ 9) → Pend s v k → P n s →
    ∃ m j, m + j = n + k + vs.length ∧ j ≤ 9 ∧ (j = 0 → k = 0 ∧ vs = []) ∧
      Pend (vs.foldl State.txBit s) (vs.getLast?.getD v) j ∧ P m (vs.foldl State.txBit s) := by
  induction vs with
  | nil =>
    intro s v k n hruns p h
    refine ⟨n, k, rfl, ?_, fun h0 => ⟨h0, rfl⟩, p, h⟩
    cases k with
    | zero => omega
    | succ k => exact hruns (v, k + 1) (by rw [List.append_nil, runs_replicate]; exact List.mem_singleton_self _)
  | cons u us ih =>
    intro s v k n hruns p h
    rw [List.foldl_cons, List.getLast?_cons, Option.getD_some, List.length_cons]
    by_cases hu : u = v
    · subst hu
      obtain ⟨p', hbit⟩ := State.txBit_pend_eq p
      have hrep : List.replicate k u ++ u :: us = List.replicate (k + 1) u ++ us := by
        rw [List.replicate_succ', List.append_assoc, List.singleton_append]
      obtain ⟨m, j, hsum, hj, hj0, hlast⟩ := ih (hrep ▸ hruns) p' (hbit ▸ hadd u h)
      exact ⟨m, j, by omega, hj, fun h0 => absurd (hj0 h0).1 (Nat.succ_ne_zero k), hlast⟩
    · rw [runs_pending_ne hu] at hruns
      have hk : k ≤ 9 := by
        by_cases h0 : k = 0
        · omega
        · exact hruns (v, k) (by simp [h0])
      have hbit : s.txBit u = s.flushPair.mapLine (·.addPeriod u) := by
        rw [State.txBit, if_neg (by rwa [p.prev])]
      obtain ⟨m, j, hsum, hj, hj0, hlast⟩ := ih (fun r hr => hruns r (List.mem_append_right _ hr)) (State.txBit_pend_ne p hu)
        (hbit ▸ hadd u (hflush hk p h))
      exact ⟨m, j, by omega, hj, fun h0 => absurd (hj0 h0).1 Nat.one_ne_zero, hlast⟩

/-! ### Nothing is captured while `IE = 0` (R159, R161) -/

/-- A wait that is not split leaves interrupts masked. -/
theorem State.delayUntil_stays_of_short {s : State} {d : Word}
    (h : (d - (s.log (.delayUntil d)).tick.ccount).toInt ≤ s.par.waitSplit) : StaysMasked s (s.delayUntil d) := by
  rw [State.delayUntil_of_short (.inr h)]
  exact ((State.log_stays rfl s).trans (State.tick_stays _)).trans (State.holdUntil_stays _ _)

theorem State.openSegment_stays (v : Level) (dur : Word) (s : State) : StaysMasked s (s.openSegment v dur) :=
  ((State.log_stays rfl s).trans (State.pinWrite_stays _ v _)).trans (State.mapLine_stays _)

/-- Every wait that `CCOUNT()` reads up to the cycle `last` find is at most `WAIT_SPLIT` long: for deadlines from `first`
on, each no further ahead of the counter than the longest run (R155, R158). -/
def WaitsAreShort (split longest first last : Nat) : Prop :=
  ∀ d c : Nat, first ≤ d → d ≤ c + longest → c ≤ last → (BitVec.ofNat 32 d - BitVec.ofNat 32 c).toInt ≤ split

/-- R260: no counter is half the range past a deadline it waits for. -/
theorem WaitsAreShort.of_longest_le {split longest first last : Nat} (hlongest : longest < 2 ^ 31) (hsplit : longest ≤ split)
    (hlast : last < first + 2 ^ 31) : WaitsAreShort split longest first last := by
  intro d c hd hahead hc
  rw [BitVec.toInt_eq_toNat_cond, BitVec.toNat_sub, BitVec.toNat_ofNat, BitVec.toNat_ofNat]
  split <;> omega

theorem WaitsAreShort.of_greatest {split : Nat} (h : 2 ^ 31 - 1 ≤ split) (longest first last : Nat) :
    WaitsAreShort split longest first last := by
  intro d c _ _ _
  have := BitVec.two_mul_toInt_lt (x := BitVec.ofNat 32 d - BitVec.ofNat 32 c)
  omega

/-- Between two bit positions, `n` of them issued since the masking step left `w` and `D0` was sampled at the cycle
`d0`: the deadline is `n` periods on and has passed, and up to the cycle `last` nothing was captured. -/
structure OnSchedule (w : State) (d0 last n : Nat) (t : State) : Prop where
  par : t.par = w.par
  bitcyc : t.line.bitcyc = w.line.bitcyc
  txDl : t.line.txDl = BitVec.ofNat 32 (d0 + w.line.bitcyc.toNat * n)
  due : d0 + w.line.bitcyc.toNat * n ≤ t.cycle
  masked : t.cycle ≤ last → StaysMasked w t

section

variable {w : State} {d0 last : Nat} (hmin : 2 ≤ w.line.bitcyc.toNat) (hmax : 9 * w.line.bitcyc.toNat < 2 ^ 31)
  (hshort : WaitsAreShort w.par.waitSplit (9 * w.line.bitcyc.toNat) d0 last)

theorem OnSchedule.mapLine {n : Nat} {t : State} (h : OnSchedule w d0 last n t) (f : Line → Line)
    (hbitcyc : ∀ l, (f l).bitcyc = l.bitcyc := by exact fun _ => rfl) (htxDl : ∀ l, (f l).txDl = l.txDl := by exact fun _ => rfl)
    (hstays : StaysMasked t (t.mapLine f)) : OnSchedule w d0 last n (t.mapLine f) :=
  ⟨h.par, (hbitcyc _).trans h.bitcyc, (htxDl _).trans h.txDl, h.due, fun hlast => (h.masked hlast).trans hstays⟩

include hmin hmax hshort

theorem OnSchedule.txSegment {n k : Nat} {t : State} (h : OnSchedule w d0 last n t) (v : Level) (hk : k ≤ 9) :
    OnSchedule w d0 last (n + k) (t.txSegment v (BitVec.ofNat 32 (w.line.bitcyc.toNat * k))) := by
  have hrun : w.line.bitcyc.toNat * k ≤ 9 * w.line.bitcyc.toNat := by
    rw [Nat.mul_comm]
    exact Nat.mul_le_mul_right _ hk
  have hsum : d0 + w.line.bitcyc.toNat * (n + k) = d0 + w.line.bitcyc.toNat * n + w.line.bitcyc.toNat * k := by ring
  refine ⟨(t.txSegment_par _ _).trans h.par, (t.txSegment_line_bitcyc _ _).trans h.bitcyc, ?_, ?_, fun hlast => ?_⟩
  · rw [State.txSegment_line_txDl, h.txDl, hsum, ← BitVec.ofNat_add]
  · rw [hsum]
    exact (t.txSegment_times v h.txDl h.due (by omega)).1
  · have hdl : (t.openSegment v (BitVec.ofNat 32 (w.line.bitcyc.toNat * k))).line.txDl =
        BitVec.ofNat 32 (d0 + w.line.bitcyc.toNat * (n + k)) := by
      rw [State.openSegment_line_txDl, h.txDl, hsum, ← BitVec.ofNat_add]
    have hpar := (t.openSegment_par v (BitVec.ofNat 32 (w.line.bitcyc.toNat * k))).trans h.par
    have hstart := t.cycle_le_openSegment v (BitVec.ofNat 32 (w.line.bitcyc.toNat * k))
    have hopen := t.openSegment_stays v (BitVec.ofNat 32 (w.line.bitcyc.toNat * k))
    rw [State.txSegment, hdl] at hlast ⊢
    generalize t.openSegment v (BitVec.ofNat 32 (w.line.bitcyc.toNat * k)) = u at hpar hstart hopen hlast ⊢
    have hbefore := h.masked (hstart.trans ((State.cycle_le_delayUntil _ u).trans hlast))
    refine (hbefore.trans hopen).trans (State.delayUntil_stays_of_short ?_)
    have hread := State.tick_cycle (u.log (.delayUntil (BitVec.ofNat 32 (d0 + w.line.bitcyc.toNat * (n + k)))))
    have hdue := h.due
    rw [State.log_cycle] at hread
    rw [hpar]
    exact hshort _ _ (Nat.le_add_right _ _) (by omega) ((State.read_cycle_le_delayUntil _ u).trans hlast)

theorem OnSchedule.flushPair {n k : Nat} {v : Level} {t : State} (hk : k ≤ 9) (p : Pend t v k)
    (h : OnSchedule w d0 last n t) : OnSchedule w d0 last (n + k) t.flushPair := by
  rw [State.flushPair_eq (h.bitcyc ▸ hmin) (h.bitcyc ▸ hmax) hk p]
  refine OnSchedule.mapLine ?_ _ (hstays := State.mapLine_stays _)
  split
  · rename_i h0
    rwa [h0]
  · rw [h.bitcyc]
    exact h.txSegment hmin hmax hshort v hk

end

theorem OnSchedule.addPeriod {w t : State} {d0 last n : Nat} (v : Level) (h : OnSchedule w d0 last n t) :
    OnSchedule w d0 last n (t.mapLine (·.addPeriod v)) :=
  h.mapLine _ (fun _ => by simp) (fun _ => by cases v <;> rfl) (State.addPeriod_stays v t)

/-- The sample of `D0`, with no period issued yet (R151). -/
theorem OnSchedule.txSample (w : State) (last : Nat) : OnSchedule w w.tick.cycle last 0 w.txSample where
  par := w.txSample_par
  bitcyc := w.txSample_line_bitcyc
  txDl := rfl
  due := Nat.le_refl _
  masked _ := w.tick_stays.trans (State.mapLine_stays _)

/-! ### All bit positions of a transmission -/

theorem frameLevels_getLast? (c : Cfg) (b : Byte) : (frameLevels c b).getLast? = some (inactivePin c) := rfl

/-- A transmission ends with a stop bit (R156). -/
theorem txLevels_getLast? (c : Cfg) {bytes : List Byte} (h : bytes ≠ []) :
    (txLevels c bytes).getLast? = some (inactivePin c) := by
  obtain ⟨bs, b, rfl⟩ := (List.eq_nil_or_concat' bytes).resolve_left h
  rw [txLevels, List.flatMap_append, List.getLast?_append, List.flatMap_singleton, frameLevels_getLast?, Option.some_or]

/-- TRANSMIT's bit positions: after them what `State.foldl_txBit_induct` carries along them holds, with a run at the
inactive level pending. -/
theorem State.txBits_induct {P : Nat → State → Prop}
    (hflush : ∀ {n s v k}, k ≤ 9 → Pend s v k → P n s → P (n + k) s.flushPair)
    (hadd : ∀ {n s} v, P n s → P n (s.mapLine (·.addPeriod v))) {bytes : List Byte} (hbytes : bytes ≠ []) {w : State}
    (hstart : P 0 w.txSample) :
    ∃ m j, m + j = 10 * bytes.length ∧ j ≤ 9 ∧ j ≠ 0 ∧
      Pend ((txLevels w.line.cfg bytes).foldl State.txBit w.txSample) (inactivePin w.line.cfg) j ∧
      P m ((txLevels w.line.cfg bytes).foldl State.txBit w.txSample) := by
  obtain ⟨m, j, hsum, hj, hj0, hpend, hP⟩ := State.foldl_txBit_induct hflush hadd (txLevels w.line.cfg bytes)
    (k := 0) (by exact runs_txLevels_le _ _) w.txSample_pend hstart
  rw [txLevels_getLast? _ hbytes] at hpend
  rw [txLevels_length] at hsum
  refine ⟨m, j, by omega, hj, fun h0 => ?_, hpend, hP⟩
  simpa [(hj0 h0).2] using txLevels_getLast? w.line.cfg hbytes

/-! ### The pins a transmission leaves (R156, R162) -/

theorem State.drive_mapLine (f : Line → Line) (s : State) (q : Pin) : (s.mapLine f).drive q = s.drive q := rfl

theorem State.drive_respond (x : Word) (s : State) (q : Pin) : (s.respond x).drive q = s.drive q := rfl

theorem State.txMask_drive (s : State) : KeepsDrive s s.txMask := by
  unfold State.txMask
  split
  · exact State.mapLine_drive _ s
  · exact (State.mapLine_drive _ s).trans (State.writeIe_drive _ _)

theorem State.txSample_drive (s : State) : KeepsDrive s s.txSample := s.tick_drive.trans (State.mapLine_drive _ _)

/-- The segments of a transmission leave the transmit pin at the inactive level, and drive no other pin (R156). -/
theorem State.txSent_drive {s : State} {bytes : List Byte} (hbytes : bytes ≠ []) (hmin : 2 ≤ s.line.bitcyc.toNat)
    (hmax : 9 * s.line.bitcyc.toNat < 2 ^ 31) (hwf : (s.driveTxen true).pins.wf untouchedPin = true) :
    (s.txSent bytes).pins.wf untouchedPin = true ∧
    ∀ q, (s.txSent bytes).drive q = if q = s.line.cfg.txPin then (((s.driveTxen true).drive q).1, inactivePin s.line.cfg)
      else (s.driveTxen true).drive q := by
  obtain ⟨-, j, -, hj, hj0, hpend, -⟩ := State.txBits_induct (P := fun _ _ => True) (fun _ _ _ => trivial)
    (fun _ _ => trivial) hbytes (w := (s.driveTxen true).txMask) trivial
  obtain ⟨hsample_wf, hsample⟩ := ((State.txMask_drive _).trans (State.txSample_drive _)) hwf
  obtain ⟨hbits_wf, hbits⟩ := (Sending.foldl_txBit (txLevels s.line.cfg bytes) _).drive hsample_wf
  rw [State.txMask_line_cfg, State.driveTxen_line_cfg] at hpend
  have hbitcyc : ((txLevels s.line.cfg bytes).foldl State.txBit (s.driveTxen true).txMask.txSample).line.bitcyc =
      s.line.bitcyc := by simp
  rw [State.txSent, State.flushPair_eq (hbitcyc ▸ hmin) (hbitcyc ▸ hmax) hj hpend, if_neg hj0,
    State.mapLine_pins]
  refine ⟨(State.txSegment_drive _ _ hbits_wf).1, fun q => ?_⟩
  rw [State.drive_mapLine, (State.txSegment_drive _ _ hbits_wf).2, State.foldl_txBit_line_cfg, State.txSample_line_cfg,
    State.txMask_line_cfg, State.driveTxen_line_cfg]
  split
  · rw [(hbits q).1, hsample q]
  · rename_i hq
    rw [(hbits q).2 (by simpa using hq), hsample q]

theorem State.driveTxen_drive (v : Level) {s : State} (hwf : s.pins.wf untouchedPin = true) :
    (s.driveTxen v).pins.wf untouchedPin = true ∧
    ∀ q, (s.driveTxen v).drive q =
      if s.line.ctrl.txenV = true ∧ q = s.line.txenPin then ((s.drive q).1, v) else s.drive q := by
  unfold State.driveTxen
  by_cases hen : s.line.ctrl.txenV = true
  · obtain ⟨hwrite_wf, hwrite⟩ := State.pinWrite_drive s.line.txenPin v hwf
    rw [if_pos hen]
    refine ⟨hwrite_wf, fun q => (hwrite q).trans ?_⟩
    by_cases hq : q = s.line.txenPin <;> simp [hen, hq]
  · rw [if_neg hen]
    exact ⟨hwf, fun q => by rw [if_neg fun h => hen h.1]⟩

/-- The pins after TRANSMIT (R156, R162). -/
theorem State.transmit_drive {s : State} {bytes : List Byte} (hbytes : bytes ≠ []) (hmin : 2 ≤ s.line.bitcyc.toNat)
    (hmax : 9 * s.line.bitcyc.toNat < 2 ^ 31) (hwf : s.pins.wf untouchedPin = true)
    (hapart : s.line.ctrl.txenV = true → s.line.txenPin ≠ s.line.cfg.txPin) (q : Pin) :
    (s.transmit bytes).drive q =
      if q = s.line.cfg.txPin then ((s.drive q).1, inactivePin s.line.cfg)
      else if s.line.ctrl.txenV = true ∧ q = s.line.txenPin then ((s.drive q).1, false)
      else s.drive q := by
  obtain ⟨hup_wf, hup⟩ := State.driveTxen_drive true hwf
  obtain ⟨hsent_wf, hsent⟩ := State.txSent_drive hbytes hmin hmax hup_wf
  have hrestore : KeepsDrive (s.txSent bytes) (s.txClosed bytes) := State.writeIe_drive _ _
  obtain ⟨hclosed_wf, hclosed⟩ := hrestore hsent_wf
  rw [State.transmit_eq, (State.driveTxen_drive false hclosed_wf).2, State.txClosed_line_ctrl, State.txClosed_line_txenPin,
    hclosed, hsent, hup]
  by_cases hq : q = s.line.cfg.txPin
  · have hother : ¬ (s.line.ctrl.txenV = true ∧ q = s.line.txenPin) := fun h => hapart h.1 (h.2 ▸ hq)
    rw [if_neg hother, if_neg hother, if_pos hq, if_pos hq]
  · rw [if_neg hq, if_neg hq]
    split <;> rfl

/-! ### Its interrupt mask, and what it records while masked (R159, R161) -/

/-- What the masking step leaves (R161). -/
theorem State.txMask_ie (s : State) : s.txMask.ie = (s.ie && s.line.ctrl.intTx) := by
  unfold State.txMask
  split <;> simp [*]

/-- The mask holds before every bit position (R159). -/
theorem State.foldl_txBit_ie (vs : List Level) (s : State) :
    (vs.foldl State.txBit s.txMask.txSample).ie = s.txMask.ie := by
  obtain h | ⟨hmask, h⟩ := (Sending.foldl_txBit vs s.txMask.txSample).ie
  · rw [h, State.txSample_ie]
  · rw [State.txSample_line_ctrl, State.txMask_line_ctrl] at hmask
    rw [h, State.txMask_ie, hmask, Bool.and_false]

/-- With every wait short, a transmission that masked interrupts captures nothing before it restores `IE`. -/
theorem State.txSent_masked {s : State} {bytes : List Byte} (hbytes : bytes ≠ []) (hmin : 2 ≤ s.line.bitcyc.toNat)
    (hmax : 9 * s.line.bitcyc.toNat < 2 ^ 31)
    (hshort : WaitsAreShort s.par.waitSplit (9 * s.line.bitcyc.toNat) (s.driveTxen true).txMask.tick.cycle
      (s.txSent bytes).cycle) :
    StaysMasked (s.driveTxen true).txMask (s.txSent bytes) := by
  have hpar : (s.driveTxen true).txMask.par = s.par := by simp
  have hbitcyc : (s.driveTxen true).txMask.line.bitcyc = s.line.bitcyc := by simp
  rw [← hbitcyc] at hmin hmax
  rw [← hpar, ← hbitcyc] at hshort
  have hstart := OnSchedule.txSample (s.driveTxen true).txMask (s.txSent bytes).cycle
  obtain ⟨m, j, -, hj, -, hpend, hbits⟩ := State.txBits_induct (OnSchedule.flushPair hmin hmax hshort)
    (OnSchedule.addPeriod) hbytes hstart
  have hsent := OnSchedule.flushPair hmin hmax hshort hj hpend hbits
  rw [State.txMask_line_cfg, State.driveTxen_line_cfg] at hsent
  exact hsent.masked (Nat.le_refl _)

/-- No wait is split under either of R159's conditions, between the cycles `mask` of the masking step and `last` of the
transmission's end. -/
theorem WaitsAreShort.of_longest_le_or_greatest {split longest first mask last : Nat} (hlongest : longest < 2 ^ 31)
    (hmask : mask ≤ first)
    (h : longest ≤ split ∧ last < mask + 2 ^ 31 ∨ 2 ^ 31 - 1 ≤ split) :
    WaitsAreShort split longest first last := by
  obtain ⟨hsplit, hlast⟩ | hgreatest := h
  · exact .of_longest_le hlongest hsplit (by omega)
  · exact .of_greatest hgreatest _ _ _

/-- TRANSMIT leaves `IE` as it found it (R151, R161). -/
theorem State.transmit_ie (bytes : List Byte) (s : State) : (s.transmit bytes).ie = s.ie := by
  rw [State.transmit_eq, State.driveTxen_ie, State.txClosed, State.writeIe_ie]
  simp [State.txSent, State.txMask_line_txSavedIe]

theorem State.driveTxen_trace (v : Level) (s : State) : s.line.trace <+: (s.driveTxen v).line.trace := by
  unfold State.driveTxen
  split
  · exact s.pinWrite_trace _ v
  · exact List.prefix_rfl

theorem State.txSample_trace (s : State) : s.line.trace <+: s.txSample.line.trace := s.tick_trace

theorem State.txMask_trace_le_txClosed (bytes : List Byte) (s : State) :
    (s.driveTxen true).txMask.line.trace <+: (s.txClosed bytes).line.trace :=
  (((State.txSample_trace _).trans (Sending.foldl_txBit (txLevels s.line.cfg bytes) _).trace).trans
    (Sending.flushPair _).trace).trans (State.writeIe_trace _ _)

/-- The segments recorded behind the masking step. -/
theorem State.txSent_segments {s : State} (bytes : List Byte) (hmin : 2 ≤ s.line.bitcyc.toNat)
    (hmax : 9 * s.line.bitcyc.toNat < 2 ^ 31) :
    segments (s.txSent bytes).line.trace = segments (s.driveTxen true).txMask.line.trace ++
      (runs (txLevels s.line.cfg bytes)).map fun r => (r.1, BitVec.ofNat 32 (s.line.bitcyc.toNat * r.2)) := by
  have h := (State.foldl_txBit_view segment_ignores (g := fun _ _ => none) (fun _ _ _ => rfl) (txLevels s.line.cfg bytes)
    (s.driveTxen true).txMask.txSample _ 0 (by simpa using hmin) (by simpa using hmax)
    (by exact runs_txLevels_le _ _) (s.driveTxen true).txMask.txSample_pend).1
  rw [emits_segments, State.txSample_view segment_ignores] at h
  simpa [State.view, segments, State.txSent] using h

/-- A reading of the records added, from the readings before and after. -/
theorem filterMap_of_append_eq {β : Type} {f : Event → Option β} {tr more all : List Event} {xs : List β}
    (h : tr ++ more = all) (hall : all.filterMap f = tr.filterMap f ++ xs) : more.filterMap f = xs := by
  rw [← h, List.filterMap_append] at hall
  exact List.append_cancel_left hall

/-- The records of a transmission during which interrupts stay masked, from the masking step to the restore of `IE` and
behind it (R159). -/
theorem State.transmit_records {s : State} (bytes : List Byte) (hmin : 2 ≤ s.line.bitcyc.toNat)
    (hmax : 9 * s.line.bitcyc.toNat < 2 ^ 31) (hmask : s.line.ctrl.intTx = false)
    (hstays : StaysMasked (s.driveTxen true).txMask (s.txSent bytes)) :
    ∃ mid last, (s.transmit bytes).line.trace = (s.driveTxen true).txMask.line.trace ++ mid ++ last ∧ captures mid = [] ∧
      segments mid = (runs (txLevels s.line.cfg bytes)).map (fun r => (r.1, BitVec.ofNat 32 (s.line.bitcyc.toNat * r.2))) ∧
      driveSteps last = (if s.line.ctrl.txenV = true then [.write s.line.txenPin false] else []) ∧
      (s.line.ctrl.txenV = false → last = [] ∧
        (s.transmit bytes).others.map (·.trace) = (s.driveTxen true).txMask.others.map (·.trace)) := by
  obtain ⟨-, -, -, hcaptures, hothers⟩ := hstays.trans (State.tick_stays _) (by simp [State.txMask_ie, hmask])
  have hsegments := State.txSent_segments bytes hmin hmax
  obtain ⟨mid, hmid⟩ := s.txMask_trace_le_txClosed bytes
  obtain ⟨last, hlast⟩ := State.driveTxen_trace false (s.txClosed bytes)
  refine ⟨mid, last, ?_, ?_, ?_, ?_, fun hen => ?_⟩
  · rw [hmid, hlast, State.transmit_eq]
  · exact filterMap_of_append_eq hmid (hcaptures.trans (List.append_nil _).symm)
  · exact filterMap_of_append_eq hmid ((State.txClosed_view segment_ignores bytes s).trans hsegments)
  · have hdown := State.driveTxen_view driveStep_ignores (g := fun q v => some (.write q v)) (fun _ _ _ => rfl) false
      (s.txClosed bytes)
    rw [State.txClosed_line_ctrl, State.txClosed_line_txenPin] at hdown
    exact filterMap_of_append_eq hlast hdown
  · have hidle : s.transmit bytes = s.txClosed bytes := by
      rw [State.transmit_eq, State.driveTxen, if_neg]
      simp [hen]
    rw [← State.transmit_eq, hidle, List.append_right_eq_self] at hlast
    exact ⟨hlast, hidle ▸ hothers⟩

/-- Settles O44: the pins by `State.transmit_drive`, the mask by `State.foldl_txBit_ie`, and the records behind it by
`State.transmit_records`, since no wait is split. -/
theorem writeFrame : Obligations.WriteFrame := by
  intro s t payload hinv hbytes hvalid hlife ht
  rw [exec_write_next hbytes hvalid hlife ht]
  obtain ⟨hmin, hmax⟩ := hinv.decodePass_period hlife
  obtain ⟨hpass_wf, hpass⟩ := s.decodePass_drive hinv.pins_wf
  refine ⟨by simp [Line.control], by simp [Line.decoder], by simp [Line.byteRing], by simp, by simp, ?_, fun q => ?_, ?_⟩
  · exact ⟨((s.decodePass_op.trans (State.transmit_op payload _)).trans (State.respond_op _ _)).same, by simp,
      by simp [State.transmit_ie]⟩
  · have h := State.transmit_drive hbytes hmin hmax hpass_wf (by simpa using hinv.txenPin_ne_txPin) q
    rw [hpass, State.decodePass_line_cfg, State.decodePass_line_ctrl, State.decodePass_line_txenPin] at h
    rw [State.drive_respond]
    exact h
  · intro w levels
    refine ⟨by simp [w, State.txMask_ie], by simp [w, State.txMask_line_txSavedIe], fun k => State.foldl_txBit_ie _ _,
      fun hmask hsplit => ?_⟩
    rw [← s.decodePass_line_bitcyc, ← s.decodePass_par, State.respond_cycle] at hsplit
    have hshort := WaitsAreShort.of_longest_le_or_greatest hmax (State.tick_cycle w)
      (hsplit.imp_left fun h => ⟨h.1, Nat.lt_of_le_of_lt (State.txSent_cycle_le payload s.decodePass) h.2⟩)
    have h := State.transmit_records payload hmin hmax (by simpa using hmask)
      (State.txSent_masked hbytes hmin hmax hshort)
    rw [State.decodePass_line_bitcyc, State.decodePass_line_cfg, State.decodePass_line_ctrl,
      State.decodePass_line_txenPin] at h
    rw [State.respond_line, Line.respond_trace, State.respond_others]
    exact h

end Sys2Proof.Machine

/-! Proofs of the family 43_control.md: the lifecycle of a line, its configuration commands, and the readers. -/

namespace Sys2Proof.Machine

/-! ### The part of a line only a foreground writes -/

/-- `Line.foreground`, field by field. -/
theorem Line.foreground_eq (l : Line) : l.foreground =
    ((l.id, l.cfg, l.rxValid, l.txValid, l.halfDup, l.cpos, l.ctrl, l.txenPin, l.slot, l.bitcyc),
      (l.rxPos, l.rxByte, l.rxLast), (l.slotB, l.bHead, l.bTail),
      (l.txDl, l.txHi, l.txLo, l.txPrev, l.txSavedIe), l.eTail, l.lineOvf, l.resp) := rfl

/-! ### A line whose interrupt is detached (R224) -/

/-- The receive interrupt is detached, and none is pending: no transition of the pin sets `PEND_RX` again. -/
structure Line.Detached (l : Line) : Prop where
  rxArmed : l.ctrl.rxArmed = false
  pendRx : l.pendRx = false

theorem Line.Detached.notePinEdge {l : Line} (h : l.Detached) (p : Pin) (old new : PinState) :
    (l.notePinEdge p old new).Detached := by
  unfold Line.notePinEdge
  rw [if_neg (by simp [h.rxArmed])]
  exact h

theorem Line.Detached.deliverTo {l : Line} (h : l.Detached) (s : State) (id : Nat) : (s.deliverTo id l).Detached := by
  rw [State.deliverTo_eq, if_neg (by simp [h.rxArmed])]
  exact h

theorem Line.Detached.move {s : State} (h : s.line.Detached) (m : Move) : (s.move m).line.Detached := by
  cases m with
  | env e =>
    cases e with
    | advance n => exact h
    | level p v => exact h.notePinEdge _ _ _
    | interrupt slot =>
      obtain ⟨id, hdeliver⟩ | hsame := s.takeInterrupt_cases slot
      · simpa only [State.move, State.envMove, hdeliver, State.mapLines_line] using h.deliverTo s id
      · simpa only [State.move, State.envMove, hsame] using h
  | supply id ws =>
    simp only [State.move, State.mapLines_line]
    split
    · exact ⟨h.rxArmed, h.pendRx⟩
    · exact h
  | request r => exact h

theorem Line.Detached.tick {s : State} (h : s.line.Detached) : s.tick.line.Detached := by
  have hmoves : ∀ (ms : List Move) (t : State), t.line.Detached → (ms.foldl State.move t).line.Detached := by
    intro ms
    induction ms with
    | nil => exact fun _ ht => ht
    | cons m ms ih => exact fun t ht => ih _ (ht.move m)
  exact hmoves _ _ (s.dropTurn_line ▸ h)

theorem State.detach_detached (s : State) : s.detach.line.Detached := ⟨rfl, rfl⟩

theorem Line.Detached.writeIe {s : State} (h : s.line.Detached) (b : Bool) : (s.writeIe b).line.Detached := h.tick

theorem Line.Detached.setPin {s : State} (h : s.line.Detached) (p : Pin) (ps : PinState) :
    (s.setPin p ps).line.Detached := h.notePinEdge _ _ _

theorem Line.Detached.pinMode {s : State} (h : s.line.Detached) (p : Pin) (m : PinDir) :
    (s.pinMode p m).line.Detached := h.tick.setPin _ _

theorem Line.Detached.pinWrite {s : State} (h : s.line.Detached) (p : Pin) (v : Level) :
    (s.pinWrite p v).line.Detached := by
  obtain ⟨harmed, hpend⟩ := h.tick.setPin p { s.tick.pin p with out := v }
  exact ⟨harmed, hpend⟩

/-! ### The bit period (R181) -/

/-- What BEGIN asks of a bit period. -/
theorem bitPeriodOk_iff (n : Nat) : bitPeriodOk n = true ↔ 2 ≤ n ∧ 9 * n < 2 ^ 31 := by simp [bitPeriodOk]

/-- R181: rounded to the nearest integer, halves up. -/
theorem bitPeriod_bounds (fCpu : Nat) {b : Nat} (hb : 0 < b) :
    2 * (bitPeriod fCpu b * b) ≤ 2 * fCpu + b ∧ 2 * fCpu + b < 2 * ((bitPeriod fCpu b + 1) * b) := by
  have hle : bitPeriod fCpu b * b ≤ fCpu + b / 2 := Nat.div_mul_le_self _ _
  have hlt : fCpu + b / 2 < (bitPeriod fCpu b + 1) * b := Nat.lt_mul_of_div_lt (Nat.lt_succ_self _) hb
  omega

theorem half_pos_of_usable {n : Nat} (h : bitPeriodOk n = true) : 1 ≤ (half (BitVec.ofNat 32 n)).toNat := by
  obtain ⟨hmin, hmax⟩ := (bitPeriodOk_iff n).mp h
  rw [half_toNat, BitVec.toNat_ofNat]
  omega

theorem periods_lt_of_usable {n r : Nat} (h : bitPeriodOk n = true) (hr : r ≤ 9) : r * n < 2 ^ 31 :=
  Nat.lt_of_le_of_lt (Nat.mul_le_mul_right n hr) ((bitPeriodOk_iff n).mp h).2

/-- Settles O49: the bounds of a quotient, and the bounds BEGIN asks for. -/
theorem bitPeriodIsRoundedToNearest : Obligations.BitPeriodIsRoundedToNearest :=
  ⟨fun fCpu _ => bitPeriod_bounds fCpu,
    fun n => ⟨bitPeriodOk_iff n, fun h => ⟨half_pos_of_usable h, fun _ => periods_lt_of_usable h⟩⟩,
    rfl, rfl, rfl⟩

/-! ### What BEGIN answers (R180) -/

theorem exec_beginLine_of_unusable {s : State} {b : BitVec 24}
    (h : b = 0 ∨ bitPeriodOk (bitPeriod s.par.fCpu b.toNat) = false) :
    exec (.beginLine b) s = .next (s.respond 0) := by
  refine congrArg Host.Outcome.next ?_
  obtain h | h := h
  · exact if_pos h
  · simp [h]

theorem exec_beginLine_of_usable {s : State} {b : BitVec 24} (hb : b ≠ 0)
    (h : bitPeriodOk (bitPeriod s.par.fCpu b.toNat) = true) :
    exec (.beginLine b) s = .next (s.beginWith (bitPeriod s.par.fCpu b.toNat)) :=
  congrArg Host.Outcome.next ((if_neg hb).trans (if_pos h))

theorem State.freeSlot_eq_none {s : State} (h : none ∉ s.reg) : s.freeSlot = none := by
  rw [State.freeSlot, List.findIdx?_eq_none_iff]
  intro x hx
  have hne : x ≠ none := fun e => h (e ▸ hx)
  simpa [Option.isSome_iff_ne_none] using hne

theorem State.freeSlot_eq_some {s : State} {k : Nat} (hk : s.reg[k]? = some none)
    (hleast : ∀ j, j < k → s.reg[j]? ≠ some none) : s.freeSlot = some k := by
  obtain ⟨hlt, hfree⟩ := List.getElem?_eq_some_iff.mp hk
  rw [State.freeSlot, List.findIdx?_eq_some_iff_getElem]
  refine ⟨hlt, by simp [hfree], fun j hj => ?_⟩
  have h := hleast j hj
  rw [List.getElem?_eq_getElem (hj.trans hlt)] at h
  simpa using h

theorem State.freeSlot_writeIe (b : Bool) (s : State) : (s.writeIe b).freeSlot = s.freeSlot :=
  congrArg (List.findIdx? _) (s.writeIe_reg b)

/-- The re-begin. -/
theorem State.beginWith_of_started {s : State} (bn : Nat) (h : s.line.ctrl.life = .started) :
    s.beginWith bn = (s.mapLine fun l => { l with bitcyc := BitVec.ofNat 32 bn }).respond 1 := if_pos h

theorem State.beginWith_of_full {s : State} (bn : Nat) (h : s.line.ctrl.life ≠ .started) (hfree : s.freeSlot = none) :
    s.beginWith bn = (((s.writeIe false).writeIe s.ie).mapLine (·.raise .resourceExhausted)).respond 0 := by
  rw [State.beginWith, if_neg h, State.beginMasked, State.freeSlot_writeIe, hfree]

theorem State.beginWith_of_free {s : State} (bn : Nat) {k : Nat} (h : s.line.ctrl.life ≠ .started)
    (hfree : s.freeSlot = some k) :
    s.beginWith bn = (((s.writeIe false).startLine bn k).writeIe s.ie).respond 1 := by
  rw [State.beginWith, if_neg h, State.beginMasked, State.freeSlot_writeIe, hfree]

/-- Settles O47: the three cases of BEGIN but the start. -/
theorem beginWithoutAStart : Obligations.BeginWithoutAStart := by
  intro s b bn
  have hok : bitPeriodOk bn = true ↔ 2 ≤ bn ∧ 9 * bn < 2 ^ 31 := bitPeriodOk_iff bn
  refine ⟨fun hbad => ?_, fun hb hmin hmax hlife => ?_, fun hb hmin hmax hlife hfull => ?_⟩
  · refine exec_beginLine_of_unusable (hbad.imp_right fun hrange => ?_)
    rw [Bool.eq_false_iff]
    intro h
    have hrange' := hok.mp h
    omega
  · rw [exec_beginLine_of_usable hb (hok.mpr ⟨hmin, hmax⟩), State.beginWith_of_started _ hlife]
    rfl
  · have hexec := exec_beginLine_of_usable hb (hok.mpr ⟨hmin, hmax⟩)
    have hsame := (exec_op _ _ _ hexec).same
    rw [State.beginWith_of_full _ hlife (State.freeSlot_eq_none hfull)] at hexec hsame
    have hdrive := (s.writeIe_drive false).trans (State.writeIe_drive s.ie _)
    have hrecord := (hdrive.trans (State.mapLine_drive (·.raise .resourceExhausted) _)).trans (State.respond_drive 0 _)
    exact ⟨_, hexec, by simp [Line.foreground_eq], by simp [Line.raise, Line.log], ⟨hsame, by simp, by simp⟩,
      fun hwf => (hrecord hwf).2⟩

/-! ### The start of a line (R180, R252) -/

theorem State.beginTx_line_foreground (s : State) : s.beginTx.line.foreground = s.line.foreground := by
  unfold State.beginTx
  split
  · simp [Line.foreground_eq]
  · rfl

theorem State.beginRx_line_foreground (s : State) : s.beginRx.line.foreground =
    ({ s.line with ctrl := { s.line.ctrl with rxArmed := s.line.rxValid || s.line.ctrl.rxArmed } } : Line).foreground := by
  unfold State.beginRx
  split <;> simp [Line.foreground_eq, *]

@[simp] theorem State.takeSlot_line (k : Nat) (s : State) : (s.takeSlot k).line = s.line := rfl

theorem State.restartLine_line_foreground (bn k : Nat) (s : State) :
    (s.restartLine bn k).line.foreground = (s.line.restart bn k s.tick.ccount).foreground := by
  simp [State.restartLine, Line.foreground_eq]

/-- What a start makes of the line, with its `CCOUNT()` sample. -/
theorem State.startLine_line_foreground (bn k : Nat) (s : State) : (s.startLine bn k).line.foreground =
    ({ (s.line.restart bn k (s.takeSlot k).tick.ccount) with
      ctrl := { s.line.ctrl with
        life := .started, txDir := false, rxArmed := s.line.rxValid || s.line.ctrl.rxArmed } } : Line).foreground := by
  have hrestart := (s.takeSlot k).restartLine_line_foreground bn k
  have htx := ((s.takeSlot k).restartLine bn k).beginTx_line_foreground
  have hrx := ((s.takeSlot k).restartLine bn k).beginTx.beginRx_line_foreground
  simp only [Line.foreground_eq, Prod.mk.injEq] at hrestart htx hrx
  simp [State.startLine, Line.foreground_eq, hrx, htx, hrestart]

/-- A start in its critical section (R232) leaves the edge ring empty: no capture runs behind the restart. -/
theorem State.startLine_masked (bn k : Nat) {s : State} (h : s.ie = false) :
    (s.startLine bn k).ie = false ∧ (s.startLine bn k).line.eHead = 0 ∧ (s.startLine bn k).line.eOvf = false := by
  have hpins : StaysMasked ((s.takeSlot k).restartLine bn k) (s.startLine bn k) :=
    ((State.beginTx_stays _).trans (State.beginRx_stays _)).trans (State.mapLine_stays _)
  have hie : ((s.takeSlot k).restartLine bn k).ie = false := (State.tick_ie _).trans h
  obtain ⟨-, hhead, hovf⟩ := hpins.isrOwned_fields hie
  exact ⟨(hpins hie).1, hhead, hovf⟩

theorem State.startLine_reg (bn k : Nat) (s : State) : (s.startLine bn k).reg = s.reg.set k (some s.line.id) := by
  have htake : ((s.takeSlot k).restartLine bn k).reg = s.reg.set k (some s.line.id) := State.tick_reg _
  rw [State.startLine, State.mapLine_reg, ← htake]
  unfold State.beginRx State.beginTx
  split <;> split <;> simp

/-- A pin put in a mode and then written. -/
theorem State.pinMode_pinWrite_drive (p : Pin) (m : PinDir) (v : Level) {s : State}
    (hwf : s.pins.wf untouchedPin = true) :
    ((s.pinMode p m).pinWrite p v).pins.wf untouchedPin = true ∧
    ∀ q, ((s.pinMode p m).pinWrite p v).drive q = if q = p then (m, v) else s.drive q := by
  obtain ⟨hmode_wf, hmode⟩ := State.pinMode_drive p m hwf
  obtain ⟨hwrite_wf, hwrite⟩ := State.pinWrite_drive p v hmode_wf
  refine ⟨hwrite_wf, fun q => ?_⟩
  rw [hwrite, hmode, hmode]
  split <;> simp

theorem State.beginTx_drive {s : State} (hwf : s.pins.wf untouchedPin = true) :
    s.beginTx.pins.wf untouchedPin = true ∧
    ∀ q, s.beginTx.drive q =
      if s.line.txValid = true ∧ s.line.halfDup = false ∧ q = s.line.cfg.txPin then
        (.output s.line.id, inactivePin s.line.cfg)
      else s.drive q := by
  unfold State.beginTx
  split
  · rename_i htx
    obtain ⟨hvalid, hfull⟩ : s.line.txValid = true ∧ s.line.halfDup = false := by simpa using htx
    obtain ⟨hpin_wf, hpin⟩ :=
      State.pinMode_pinWrite_drive s.line.cfg.txPin (.output s.line.id) (inactivePin s.line.cfg) hwf
    refine ⟨hpin_wf, fun q => ?_⟩
    simp only [hpin, hvalid, hfull, true_and]
  · rename_i htx
    refine ⟨hwf, fun q => (if_neg ?_).symm⟩
    rintro ⟨hvalid, hfull, -⟩
    simp [hvalid, hfull] at htx

theorem State.beginRx_drive {s : State} (hwf : s.pins.wf untouchedPin = true) :
    s.beginRx.pins.wf untouchedPin = true ∧
    ∀ q, s.beginRx.drive q =
      if s.line.rxValid = true ∧ q = s.line.cfg.rxPin then (.input, (s.drive q).2) else s.drive q := by
  unfold State.beginRx
  split
  · rename_i hvalid
    obtain ⟨hmode_wf, hmode⟩ := State.pinMode_drive s.line.cfg.rxPin .input hwf
    obtain ⟨hattach_wf, hattach⟩ := State.attach_drive _ hmode_wf
    refine ⟨hattach_wf, fun q => ?_⟩
    rw [hattach, hmode]
    by_cases hq : q = s.line.cfg.rxPin <;> simp [hq, hvalid]
  · exact ⟨hwf, fun q => by simp [*]⟩

/-- The pins of a started line: the receive pin of a full-duplex line is not its transmit pin (R23). -/
theorem State.startLine_drive (bn k : Nat) {s : State} (hwf : s.pins.wf untouchedPin = true)
    (hpins : s.line.halfDup = (s.line.rxValid && s.line.txValid && s.line.cfg.rxPin == s.line.cfg.txPin)) (q : Pin) :
    (s.startLine bn k).drive q =
      if s.line.txValid = true ∧ s.line.halfDup = false ∧ q = s.line.cfg.txPin then
        (.output s.line.id, inactivePin s.line.cfg)
      else if s.line.rxValid = true ∧ q = s.line.cfg.rxPin then (.input, (s.drive q).2)
      else s.drive q := by
  have hrestart : KeepsDrive (s.takeSlot k) ((s.takeSlot k).restartLine bn k) :=
    (State.tick_drive _).trans (State.mapLine_drive _ _)
  obtain ⟨hrestart_wf, hkeep⟩ := hrestart hwf
  obtain ⟨htx_wf, htx⟩ := State.beginTx_drive hrestart_wf
  obtain ⟨-, hrx⟩ := State.beginRx_drive htx_wf
  have hold := (s.takeSlot k).restartLine_line_foreground bn k
  have hline := ((s.takeSlot k).restartLine bn k).beginTx_line_foreground.trans hold
  simp only [Line.foreground_eq, Prod.mk.injEq] at hline hold
  have hdrive : (s.takeSlot k).drive q = s.drive q := rfl
  rw [State.startLine, State.drive_mapLine, hrx, htx, hkeep, hdrive]
  simp only [hline, hold, Line.restart_cfg, Line.restart_id, Line.restart_rxValid, Line.restart_txValid,
    Line.restart_halfDup, State.takeSlot_line]
  by_cases htxPin : s.line.txValid = true ∧ s.line.halfDup = false ∧ q = s.line.cfg.txPin
  · obtain ⟨hvalid, hfull, rfl⟩ := htxPin
    rw [hfull, hvalid] at hpins
    have hne : ¬ (s.line.rxValid = true ∧ s.line.cfg.txPin = s.line.cfg.rxPin) := by
      rintro ⟨hrxValid, hsame⟩
      simp [hrxValid, hsame] at hpins
    rw [if_neg hne]
    simp [hvalid, hfull]
  · simp only [htxPin, if_false]

theorem mkEdge_inactivePin (now : Word) (c : Cfg) :
    mkEdge now (inactivePin c) = (now &&& 0xFFFFFFFE) ||| (if c.invert then 0 else 1) := by
  unfold mkEdge inactivePin
  cases c.invert <;> rfl

/-- Only a started line's interrupt is attached (R42). -/
theorem LineInv.rxArmed_of_not_started {reg : List (Option Nat)} {l : Line} (h : LineInv reg l)
    (hlife : l.ctrl.life ≠ .started) : l.ctrl.rxArmed = false :=
  Bool.eq_false_iff.mpr fun harmed => hlife (h.armed_started harmed).1

/-- The two turns before a start's `CCOUNT()` sample are all that can move the counter. -/
theorem Quiet.startSample {s : State} (h : Quiet 2 s) (k : Nat) :
    ((s.writeIe false).takeSlot k).tick.ccount = s.ccount := by
  obtain ⟨hquiet, hcount⟩ := Quiet.writeIe h false
  have htake : Quiet 1 ((s.writeIe false).takeSlot k) := hquiet.of_env rfl
  exact htake.tick_ccount.trans hcount

section

variable {s : State} {k : Nat} (bn : Nat) (hlife : s.line.ctrl.life ≠ .started) (hfree : s.freeSlot = some k)
include hlife hfree

/-- What a BEGIN that starts the line makes of it. -/
theorem State.beginWith_line_foreground_of_free : (s.beginWith bn).line.foreground =
    ({ s.line.restart bn k ((s.writeIe false).takeSlot k).tick.ccount with
      ctrl := { s.line.ctrl with
        life := .started, txDir := false, rxArmed := s.line.rxValid || s.line.ctrl.rxArmed }
      resp := s.line.resp ++ [1] } : Line).foreground := by
  have hstart := (s.writeIe false).startLine_line_foreground bn k
  simp only [Line.foreground_eq, Prod.mk.injEq] at hstart
  rw [State.beginWith_of_free bn hlife hfree]
  simp [Line.foreground_eq, hstart]

theorem State.beginWith_eHead_eOvf_of_free :
    (s.beginWith bn).line.eHead = 0 ∧ (s.beginWith bn).line.eOvf = false := by
  obtain ⟨hmask, hhead, hovf⟩ := State.startLine_masked bn k (s.writeIe_ie false)
  obtain ⟨-, hhead', hovf'⟩ := (State.tick_stays _).isrOwned_fields hmask
  rw [State.beginWith_of_free bn hlife hfree]
  exact ⟨hhead'.trans hhead, hovf'.trans hovf⟩

theorem State.beginWith_ie_reg_of_free :
    (s.beginWith bn).ie = s.ie ∧ (s.beginWith bn).reg = s.reg.set k (some s.line.id) := by
  rw [State.beginWith_of_free bn hlife hfree]
  simp [State.startLine_reg]

theorem State.beginWith_drive_of_free (hinv : StateInv s) (q : Pin) : (s.beginWith bn).drive q =
    if s.line.txValid = true ∧ s.line.halfDup = false ∧ q = s.line.cfg.txPin then
      (.output s.line.id, inactivePin s.line.cfg)
    else if s.line.rxValid = true ∧ q = s.line.cfg.rxPin then (.input, (s.drive q).2)
    else s.drive q := by
  obtain ⟨hmask_wf, hmask⟩ := s.writeIe_drive false hinv.pins_wf
  have hstart := State.startLine_drive bn k hmask_wf (by simpa using (inv_line hinv).halfDup_eq) q
  have hrestore := (State.writeIe_drive s.ie _ ((startLine_op (s.writeIe false) bn k).pins_wf hmask_wf)).2 q
  rw [hmask] at hstart
  rw [State.beginWith_of_free bn hlife hfree, State.drive_respond, hrestore, hstart]
  simp

end

/-- Settles O48: each part of `State.beginWith` with a free slot; `SLOT` and `BITCYC` hold their values. -/
theorem beginStartsTheLine : Obligations.BeginStartsTheLine := by
  intro s b k hinv bn hb hmin hmax hlife hk hleast now
  have hfree := State.freeSlot_eq_some hk hleast
  have hexec : exec (.beginLine b) s = .next (s.beginWith bn) :=
    exec_beginLine_of_usable hb ((bitPeriodOk_iff bn).mpr ⟨hmin, hmax⟩)
  have hfore := State.beginWith_line_foreground_of_free bn hlife hfree
  have hfields := hfore
  simp only [Line.foreground_eq, Prod.mk.injEq] at hfields
  obtain ⟨⟨-, -, -, -, -, -, -, -, hslot, hbitcyc⟩, ⟨-, -, hlast⟩, -⟩ := hfields
  obtain ⟨hhead, hovf⟩ := State.beginWith_eHead_eOvf_of_free bn hlife hfree
  obtain ⟨hie, hreg⟩ := State.beginWith_ie_reg_of_free bn hlife hfree
  refine ⟨_, hexec, ?_, ?_, ?_, hhead, hovf, ?_, fun hquiet => hquiet.startSample k, (exec_op _ _ _ hexec).same,
    hie, hreg, State.beginWith_drive_of_free bn hlife hfree hinv⟩
  · rw [hfore, (inv_line hinv).rxArmed_of_not_started hlife, Bool.or_false, Line.restart, mkEdge_inactivePin]
    rfl
  · obtain ⟨hlt, -⟩ := List.getElem?_eq_some_iff.mp hk
    have hfits := hinv.slots_le
    rw [hslot, Line.restart_slot, BitVec.toNat_ofNat]
    omega
  · rw [hbitcyc, Line.restart_bitcyc, BitVec.toNat_ofNat]
    omega
  · rw [hlast]
    exact lvl_mkEdge _ _

/-! ### The stop of a line (R182) -/

theorem exec_endLine_of_not_started {s : State} (h : s.line.ctrl.life ≠ .started) :
    exec .endLine s = .next (s.respond 0) := congrArg Host.Outcome.next (if_neg h)

theorem exec_endLine_of_started {s : State} (h : s.line.ctrl.life = .started) :
    exec .endLine s = .next (((s.writeIe false).disarm.releaseSlot.writeIe s.ie).respond 0) :=
  congrArg Host.Outcome.next (if_pos h)

theorem State.disarm_line_foreground (s : State) : s.disarm.line.foreground =
    ({ s.line with ctrl := { s.line.ctrl with rxArmed := false } } : Line).foreground := by
  unfold State.disarm
  split
  · simp [Line.foreground_eq]
  · rename_i harmed
    rw [← Bool.eq_false_iff.mpr harmed]

theorem State.disarm_detached {s : State} (h : s.line.ctrl.rxArmed = true) : s.disarm.line.Detached := by
  rw [State.disarm, if_pos h]
  exact s.detach_detached

theorem State.disarm_drive (s : State) : KeepsDrive s s.disarm := by
  unfold State.disarm
  split
  · exact s.detach_drive
  · exact .refl s

theorem State.disarm_reg (s : State) : s.disarm.reg = s.reg := by
  unfold State.disarm; split <;> simp

/-- Settles O50: with nothing attached any more, no turn behind the detach sets `PEND_RX` again. -/
theorem endStopsTheLine : Obligations.EndStopsTheLine := by
  refine ⟨fun s hlife => exec_endLine_of_not_started hlife, fun s hinv hlife => ?_⟩
  have hexec := exec_endLine_of_started hlife
  have hdisarm := (s.writeIe false).disarm_line_foreground
  simp only [Line.foreground_eq, Prod.mk.injEq] at hdisarm
  refine ⟨_, hexec, ?_, fun harmed => ?_, ?_, by simp, (exec_op _ _ _ hexec).same, ?_⟩
  · simp [Line.foreground_eq, State.releaseSlot, hdisarm]
  · have hdetached : (s.writeIe false).disarm.line.Detached := State.disarm_detached (by simpa using harmed)
    have hreleased : (s.writeIe false).disarm.releaseSlot.line.Detached := ⟨hdetached.rxArmed, hdetached.pendRx⟩
    exact (hreleased.writeIe s.ie).pendRx
  · simp [State.releaseSlot, State.disarm_reg, hdisarm]
  · have hrelease : KeepsDrive (s.writeIe false).disarm (s.writeIe false).disarm.releaseSlot := .of_pins rfl
    exact (((((s.writeIe_drive false).trans (State.disarm_drive _)).trans hrelease).trans
      (State.writeIe_drive s.ie _)).trans (State.respond_drive 0 _) hinv.pins_wf).2

/-! ### The lifecycle (R183) -/

theorem State.beginWith_line_life (bn : Nat) (s : State) :
    ((s.beginWith bn).line.resp = s.line.resp ++ [1] ∧ (s.beginWith bn).line.ctrl.life = .started) ∨
    ((s.beginWith bn).line.resp = s.line.resp ++ [0] ∧ (s.beginWith bn).line.ctrl.life = s.line.ctrl.life) := by
  by_cases hlife : s.line.ctrl.life = .started
  · rw [State.beginWith_of_started bn hlife]
    exact .inl ⟨rfl, hlife⟩
  · cases hfree : s.freeSlot with
    | none =>
      rw [State.beginWith_of_full bn hlife hfree]
      exact .inr ⟨by simp, by simp⟩
    | some k =>
      have hfore := State.beginWith_line_foreground_of_free bn hlife hfree
      simp only [Line.foreground_eq, Prod.mk.injEq] at hfore
      exact .inl ⟨by simp [hfore], by simp [hfore]⟩

theorem exec_beginLine_life {b : BitVec 24} {s t : State} (h : exec (.beginLine b) s = .next t) :
    (t.line.resp = s.line.resp ++ [1] ∧ t.line.ctrl.life = .started) ∨
    (t.line.resp = s.line.resp ++ [0] ∧ t.line.ctrl.life = s.line.ctrl.life) := by
  cases h
  split_ifs
  · exact .inr ⟨rfl, rfl⟩
  · exact s.beginWith_line_life _
  · exact .inr ⟨rfl, rfl⟩

theorem exec_endLine_life {s t : State} (h : exec .endLine s = .next t) :
    t.line.ctrl.life = if s.line.ctrl.life = .started then .stopped else s.line.ctrl.life := by
  cases h
  split_ifs <;> simp [State.releaseSlot]

@[simp] theorem State.retryPass_line_ctrl (s : State) : s.retryPass.line.ctrl = s.line.ctrl := by
  unfold State.retryPass; split <;> simp

@[simp] theorem State.notifyHost_line_ctrl (s : State) : s.notifyHost.line.ctrl = s.line.ctrl := by
  unfold State.notifyHost; split <;> simp

/-- Settles O51: only BEGIN and END write `LIFE`. -/
theorem lifecycleMovesByBeginAndEnd : Obligations.LifecycleMovesByBeginAndEnd := by
  intro i s t h
  cases i with
  | beginLine b =>
    obtain ⟨hresp, hlife⟩ | ⟨hresp, hlife⟩ := exec_beginLine_life h <;> simp [hresp, hlife]
  | endLine => exact exec_endLine_life h
  | setTxen v p => cases h; split_ifs <;> simp
  | enableTx e => cases h; split_ifs <;> simp [State.turnToTransmit, State.turnToReceive]
  | write payload =>
    simp only [exec, execWrite] at h
    split_ifs at h <;> cases h <;> simp
  | edgeCapture => cases h; exact congrArg Ctrl.life (Line.capture_rel _ _ _).ctrl_eq
  | enableIntTx e | setNotify e | overflow => cases h; rfl
  | read | peek | available | flush | poll | decodePass => cases h; simp
  | processEdge w => cases h; simp
  | txSegment v dur => cases h; simp
  | delayUntil d => cases h; simp

/-! ### The configuration commands (R184 to R187, R194) -/

/-- R184's test. -/
theorem State.txenUsable_iff (v : Bool) (p : Pin) (s : State) : (v && s.txenUsable p) = true ↔
    v = true ∧ p ∈ s.par.validTx ∧ p ≠ 0xFF ∧ p ≠ s.line.cfg.rxPin ∧ p ≠ s.line.cfg.txPin := by
  simp only [State.txenUsable, Bool.and_eq_true, bne_iff_ne, List.contains_iff_mem]
  tauto

/-- The line with pin `p` as its transmit-enable pin. -/
def State.configureTxen (p : Pin) (s : State) : State :=
  s.mapLine fun l => { l with txenPin := p, ctrl := { l.ctrl with txenV := true } }

theorem exec_setTxen_of_usable {v : Bool} {p : Pin} {s : State} (h : (v && s.txenUsable p) = true) :
    exec (.setTxen v p) s =
      .next ((((s.configureTxen p).pinMode p (.output s.line.id)).pinWrite p false).respond 0) :=
  congrArg Host.Outcome.next (if_pos h)

theorem exec_setTxen_of_unusable {v : Bool} {p : Pin} {s : State} (h : ¬ (v && s.txenUsable p) = true) :
    exec (.setTxen v p) s = .next { s with line := { s.line with
      txenPin := 0xFF, ctrl := { s.line.ctrl with txenV := false }, resp := s.line.resp ++ [0] } } :=
  congrArg Host.Outcome.next (if_neg h)

/-- Settles O52: the two cases of R184's test. -/
theorem setTxenConfiguresThePin : Obligations.SetTxenConfiguresThePin := by
  intro s v p hinv
  rw [← State.txenUsable_iff]
  refine ⟨fun husable => ?_, exec_setTxen_of_unusable⟩
  have hexec := exec_setTxen_of_usable husable
  have hwf : (s.configureTxen p).pins.wf untouchedPin = true := hinv.pins_wf
  exact ⟨_, hexec, by simp [State.configureTxen, Line.foreground_eq],
    ⟨(exec_op _ _ _ hexec).same, by simp [State.configureTxen], by simp [State.configureTxen]⟩,
    (State.pinMode_pinWrite_drive p (.output s.line.id) false hwf).2⟩

/-- Settles O53: both are one update of the line. -/
theorem enableCommandsWriteTheirBit : Obligations.EnableCommandsWriteTheirBit := fun _ _ => ⟨rfl, rfl⟩

theorem exec_enableTx_of_no_effect {s : State} {e : Bool}
    (h : s.line.halfDup = false ∨ s.line.ctrl.life ≠ .started ∨ s.line.ctrl.txDir = e) :
    exec (.enableTx e) s = .next (s.respond 0) := by
  refine congrArg Host.Outcome.next ?_
  obtain h | h | h := h
  · simp [h]
  · simp [h]
  · cases e <;> simp [h]

section

variable {s : State} (hhalf : s.line.halfDup = true) (hlife : s.line.ctrl.life = .started)
include hhalf hlife

theorem exec_enableTx_transmit (hdir : s.line.ctrl.txDir = false) :
    exec (.enableTx true) s = .next (s.turnToTransmit.respond 0) := by
  simp [exec, execEnableTx, hhalf, hlife, hdir]

theorem exec_enableTx_receive (hdir : s.line.ctrl.txDir = true) :
    exec (.enableTx false) s = .next (s.turnToReceive.respond 0) := by
  simp [exec, execEnableTx, hhalf, hlife, hdir]

end

/-- The two pins of a half-duplex line are one (R23). -/
theorem LineInv.pins_eq {reg : List (Option Nat)} {l : Line} (h : LineInv reg l) (hhalf : l.halfDup = true) :
    l.cfg.rxPin = l.cfg.txPin := by
  have heq := h.halfDup_eq
  rw [hhalf] at heq
  simpa using (Bool.and_eq_true_iff.mp heq.symm).2

/-- R186: the turn to transmit stops capture first. -/
theorem State.turnToTransmit_detached (s : State) : s.turnToTransmit.line.Detached := by
  obtain ⟨harmed, hpend⟩ := (s.detach_detached.pinMode s.line.cfg.txPin (.output s.line.id)).pinWrite s.line.cfg.txPin
    (inactivePin s.line.cfg)
  exact ⟨harmed, hpend⟩

theorem State.turnToTransmit_drive {s : State} (hwf : s.pins.wf untouchedPin = true) (q : Pin) :
    s.turnToTransmit.drive q =
      if q = s.line.cfg.txPin then (.output s.line.id, inactivePin s.line.cfg) else s.drive q := by
  obtain ⟨hdetach_wf, hdetach⟩ := s.detach_drive hwf
  rw [← hdetach]
  exact (State.pinMode_pinWrite_drive s.line.cfg.txPin (.output s.line.id) (inactivePin s.line.cfg) hdetach_wf).2 q

theorem State.turnToReceive_drive {s : State} (hwf : s.pins.wf untouchedPin = true) (q : Pin) :
    s.turnToReceive.drive q = if q = s.line.cfg.rxPin then (.input, (s.drive q).2) else s.drive q := by
  obtain ⟨hmode_wf, hmode⟩ := State.pinMode_drive s.line.cfg.rxPin .input hwf
  have hattach := (State.attach_drive _ hmode_wf).2 q
  rw [State.turnToReceive, State.drive_mapLine, hattach, hmode]
  split <;> simp [*]

/-- Settles O54: no turn between the detach and the end sets `PEND_RX`, and the two pins are one. -/
theorem enableTxTurnsTheLine : Obligations.EnableTxTurnsTheLine := by
  refine fun s e hinv => ⟨exec_enableTx_of_no_effect, fun hhalf hlife hdir => ?_⟩
  have hpin := (inv_line hinv).pins_eq hhalf
  cases e with
  | true =>
    have hexec := exec_enableTx_transmit hhalf hlife hdir
    refine ⟨_, hexec, by simp [State.turnToTransmit, Line.foreground_eq], s.turnToTransmit_detached.pendRx,
      ⟨(exec_op _ _ _ hexec).same, by simp [State.turnToTransmit], by simp [State.turnToTransmit]⟩, fun p => ?_⟩
    rw [State.drive_respond, State.turnToTransmit_drive hinv.pins_wf, hpin]
    rfl
  | false =>
    have hexec := exec_enableTx_receive hhalf hlife hdir
    refine ⟨_, hexec, by simp [State.turnToReceive, Line.foreground_eq], rfl,
      ⟨(exec_op _ _ _ hexec).same, by simp [State.turnToReceive], by simp [State.turnToReceive]⟩, fun p => ?_⟩
    rw [State.drive_respond, State.turnToReceive_drive hinv.pins_wf]
    split <;> simp [*]

/-! ### The readers (R188 to R193) -/

/-- The byte ring's front, by the bytes held (R64). -/
theorem LineInv.bPeek_eq {reg : List (Option Nat)} {l : Line} (h : LineInv reg l) : l.bPeek = l.heldBytes.head? := by
  unfold Line.bPeek
  split
  · rename_i hempty
    rw [(Line.heldBytes_eq_nil h.bHead_lt h.bTail_lt).mpr hempty, List.head?_nil]
  · rename_i hne
    rw [Line.heldBytes_bDrop h.bHead_lt h.bTail_lt hne, List.head?_cons]

/-- The bytes a pop leaves (R64). -/
theorem LineInv.bDrop_heldBytes {reg : List (Option Nat)} {l : Line} (h : LineInv reg l) :
    l.bDrop.heldBytes = l.heldBytes.tail := by
  by_cases hempty : l.bHead = l.bTail
  · rw [Line.bDrop, if_pos hempty, (Line.heldBytes_eq_nil h.bHead_lt h.bTail_lt).mpr hempty, List.tail_nil]
  · rw [Line.heldBytes_bDrop h.bHead_lt h.bTail_lt hempty, List.tail_cons]

theorem Line.bDrop_eq (l : Line) : l.bDrop = { l with bTail := l.bDrop.bTail } := by
  unfold Line.bDrop
  split <;> rfl

theorem exec_read (s : State) : exec .read s =
    .next ((s.decodePass.mapLine (·.bDrop)).respond (byteResponse s.decodePass.line.bPeek)) := rfl

theorem exec_peek (s : State) : exec .peek s = .next (s.decodePass.respond (byteResponse s.decodePass.line.bPeek)) := rfl

/-- Settles O55: behind the pass, what READ gives and leaves is the head and the tail of the bytes held. -/
theorem readTakesTheOldestByte : Obligations.ReadTakesTheOldestByte := by
  intro s hinv
  have hl := inv_line (inv_decodePass hinv)
  refine ⟨_, _, exec_decodePass s, exec_read s, ?_, ?_⟩
  · rw [State.respond, State.mapLine, State.mapLine, Line.bDrop_eq]
    rfl
  · have hbytes := hl.bDrop_heldBytes
    rw [hl.bPeek_eq]
    cases hheld : s.decodePass.line.heldBytes with
    | nil =>
      have hempty := (Line.heldBytes_eq_nil hl.bHead_lt hl.bTail_lt).mp hheld
      refine ⟨by simp [byteResponse, respNone], ?_⟩
      simp [Line.bDrop, hempty]
    | cons b bs =>
      rw [hheld] at hbytes
      exact ⟨by simp [byteResponse], hbytes⟩

/-- Settles O56: behind the pass, PEEK gives the head of the bytes held. -/
theorem peekLeavesTheByte : Obligations.PeekLeavesTheByte := by
  intro s hinv
  refine ⟨s.decodePass, exec_decodePass s, ?_⟩
  rw [exec_peek, (inv_line (inv_decodePass hinv)).bPeek_eq, State.respond, State.mapLine, Line.respond,
    State.decodePass_line_resp]
  cases s.decodePass.line.heldBytes <;> rfl

theorem exec_available (s : State) : exec .available s =
    .next (s.decodePass.retryPass.respond (BitVec.ofNat 32 s.decodePass.retryPass.line.bCount)) := rfl

theorem Line.heldBytes_ne_nil_iff (l : Line) : l.heldBytes ≠ [] ↔ l.bCount ≠ 0 := by
  rw [← Line.heldBytes_length, Ne, Ne, List.length_eq_zero_iff]

/-- Settles O57: the yield makes up for the cycles its turn did not let pass. -/
theorem availableCountsAfterOneRetry : Obligations.AvailableCountsAfterOneRetry := by
  intro s
  refine ⟨s.decodePass, s.decodePass.retryPass, exec_decodePass s, ?_, fun hheld => ?_, fun hnone => ?_⟩
  · rw [exec_available, Line.heldBytes_length, State.respond, State.mapLine, Line.respond, State.retryPass_line_resp,
      State.decodePass_line_resp]
  · exact if_neg ((Line.heldBytes_ne_nil_iff _).mp hheld)
  · refine ⟨s.par.yieldMin - State.turnCycles s.decodePass.nextTurn, le_add_tsub, ?_⟩
    have hcount : s.decodePass.line.bCount = 0 := by rw [← Line.heldBytes_length, hnone, List.length_nil]
    rw [State.retryPass, if_pos hcount, State.yieldCycles, State.decodePass_par, exec_decodePass]

theorem exec_flush (s : State) : exec .flush s =
    .next (((s.tick.storeETail s.tick.line.eHead).mapLine fun l => { l with bTail := l.bHead }).respond 0) := rfl

/-- Settles O58: the edges held at the load of `E_HEAD` go, and every byte; masked turns capture nothing. -/
theorem flushEmptiesBothRings : Obligations.FlushEmptiesBothRings := by
  intro s
  refine ⟨_, exec_flush s, by simp [Line.foreground_eq], fun hmask => ?_,
    ⟨(exec_op _ _ _ (exec_flush s)).same, by simp, by simp⟩, fun hwf => ?_⟩
  · have hstore := s.tick_stays.trans (State.storeETail_stays s.tick.line.eHead s.tick)
    have hclear := hstore.trans (State.mapLine_stays (f := fun l => { l with bTail := l.bHead }) _)
    obtain ⟨-, hisr, -⟩ := (hclear.trans (State.respond_stays 0 _)) hmask
    obtain ⟨-, hhead, -⟩ := s.tick_stays.isrOwned_fields hmask
    exact ⟨hisr, by simp [hhead]⟩
  · have hstore := s.tick_drive.trans (State.storeETail_drive s.tick.line.eHead s.tick)
    exact ((hstore.trans (State.mapLine_drive _ _)).trans (State.respond_drive 0 _) hwf).2

/-- Settles O59: one update of the line. -/
theorem overflowReadsAndClears : Obligations.OverflowReadsAndClears := fun _ => rfl

/-! ### Notifications (R193) -/

theorem exec_poll (s : State) : exec .poll s =
    .next (s.decodePass.notifyHost.respond (BitVec.ofNat 32 s.decodePass.line.bCount)) := rfl

/-- What POLL does before its response. -/
theorem State.notifyHost_eq (s : State) : s.notifyHost = { s with line := { s.line with
    trace := s.line.trace ++
      (if s.line.ctrl.notify = true ∧ s.line.heldBytes ≠ [] then [.notify s.line.heldBytes.length] else []) } } := by
  simp only [State.notifyHost, Bool.and_eq_true, decide_eq_true_eq, Nat.pos_iff_ne_zero, Line.heldBytes_ne_nil_iff,
    Line.heldBytes_length]
  split
  · rfl
  · rw [List.append_nil]

/-- The notifications recorded so far on the active line. -/
abbrev State.notified (s : State) : List Nat := s.view Event.notify?

/-- A change of the active line that leaves its trace. -/
theorem State.mapLine_notified {f : Line → Line} (s : State)
    (hf : ∀ l, (f l).trace = l.trace := by exact fun _ => rfl) :
    (s.mapLine f).notified = s.notified := congrArg notifications (hf s.line)

theorem State.pinWrite_notified (p : Pin) (v : Level) (s : State) : (s.pinWrite p v).notified = s.notified :=
  (s.pinWrite_view notify_ignores p v).trans (List.append_nil _)

theorem State.delayUntil_notified (d : Word) (s : State) : (s.delayUntil d).notified = s.notified :=
  (s.delayUntil_view notify_ignores d).trans (List.append_nil _)

theorem State.txSegment_notified (v : Level) (dur : Word) (s : State) : (s.txSegment v dur).notified = s.notified := by
  obtain ⟨_, h⟩ := State.txSegment_view notify_ignores v dur s
  exact h.trans (List.append_nil _)

theorem State.flushPair_notified (s : State) : s.flushPair.notified = s.notified := by
  have hhigh : s.flushHigh.notified = s.notified := by
    unfold State.flushHigh
    split
    · rfl
    · exact s.txSegment_notified _ _
  refine Eq.trans ?_ hhigh
  change s.flushHigh.flushLow.notified = s.flushHigh.notified
  unfold State.flushLow
  split
  · rfl
  · exact State.txSegment_notified _ _ _

theorem State.txBit_notified (v : Level) (s : State) : (s.txBit v).notified = s.notified := by
  rw [State.txBit, State.notified, State.view, State.mapLine_line, Line.addPeriod_trace]
  split
  · rfl
  · exact s.flushPair_notified

theorem State.foldl_txBit_notified (vs : List Level) : ∀ s : State, (vs.foldl State.txBit s).notified = s.notified := by
  induction vs with
  | nil => exact fun _ => rfl
  | cons v vs ih => exact fun s => (ih _).trans (s.txBit_notified v)

theorem State.driveTxen_notified (v : Level) (s : State) : (s.driveTxen v).notified = s.notified := by
  unfold State.driveTxen
  split
  · exact s.pinWrite_notified _ _
  · rfl

theorem State.transmit_notified (bytes : List Byte) (s : State) : (s.transmit bytes).notified = s.notified := by
  rw [State.transmit, State.driveTxen_notified, State.txClose]
  calc (State.writeIe _ (State.flushPair _)).notified
      = (State.flushPair _).notified := State.writeIe_view notify_ignores _ _
    _ = (s.driveTxen true).txMask.txSample.notified :=
      (State.flushPair_notified _).trans (State.foldl_txBit_notified _ _)
    _ = (s.driveTxen true).notified :=
      (State.txSample_view notify_ignores _).trans (State.txMask_view notify_ignores _)
    _ = s.notified := s.driveTxen_notified true

theorem State.beginTx_notified (s : State) : s.beginTx.notified = s.notified := by
  unfold State.beginTx
  split
  · exact (State.pinWrite_notified _ _ _).trans (s.pinMode_view notify_ignores _ _)
  · rfl

theorem State.beginRx_notified (s : State) : s.beginRx.notified = s.notified := by
  unfold State.beginRx
  split
  · exact (State.attach_view notify_ignores _).trans (s.pinMode_view notify_ignores _ _)
  · rfl

theorem State.startLine_notified (bn k : Nat) (s : State) : (s.startLine bn k).notified = s.notified :=
  ((State.beginRx_notified _).trans (State.beginTx_notified _)).trans ((s.takeSlot k).tick_view notify_ignores)

theorem State.beginWith_notified (bn : Nat) (s : State) : (s.beginWith bn).notified = s.notified := by
  have hmask := s.writeIe_view notify_ignores false
  by_cases hlife : s.line.ctrl.life = .started
  · rw [State.beginWith_of_started bn hlife]
    rfl
  · cases hfree : s.freeSlot with
    | none =>
      rw [State.beginWith_of_full bn hlife hfree]
      exact (State.log_view Event.notify? (.condition .resourceExhausted) _).trans
        ((List.append_nil _).trans ((State.writeIe_view notify_ignores _ _).trans hmask))
    | some k =>
      rw [State.beginWith_of_free bn hlife hfree]
      exact (State.writeIe_view notify_ignores _ _).trans ((State.startLine_notified bn k _).trans hmask)

theorem State.disarm_notified (s : State) : s.disarm.notified = s.notified := by
  unfold State.disarm
  split
  · exact s.detach_view notify_ignores
  · rfl

theorem State.turnToTransmit_notified (s : State) : s.turnToTransmit.notified = s.notified := by
  rw [State.turnToTransmit, State.mapLine_notified, State.pinWrite_notified]
  exact (State.pinMode_view notify_ignores _ _ _).trans (s.detach_view notify_ignores)

theorem State.turnToReceive_notified (s : State) : s.turnToReceive.notified = s.notified :=
  (State.attach_view notify_ignores _).trans (s.pinMode_view notify_ignores _ _)

theorem State.retryPass_notified (s : State) : s.retryPass.notified = s.notified := by
  unfold State.retryPass
  split
  · exact (State.decodePass_view notify_ignores _).trans (s.yieldCycles_view notify_ignores _)
  · rfl

theorem Line.capture_notified (t : Word) (v : Level) (l : Line) :
    notifications (l.capture t v).trace = notifications l.trace := by
  rw [Line.capture, notifications, Line.ePush_view notify_ignores, Line.log_trace, List.filterMap_append]
  exact List.append_nil _

theorem State.flush_notified (s : State) : (s.tick.storeETail s.tick.line.eHead).notified = s.notified :=
  (State.storeETail_view notify_ignores _ _).trans (s.tick_view notify_ignores)

/-- R193: no instruction but POLL notifies. -/
theorem exec_notified_of_not_poll {i : Instr} {s t : State} (hi : i ≠ .poll) (h : exec i s = .next t) :
    t.notified = s.notified := by
  have hpass : s.decodePass.notified = s.notified := s.decodePass_view notify_ignores
  cases i with
  | poll => exact absurd rfl hi
  | beginLine b =>
    cases h
    split_ifs
    · rfl
    · exact s.beginWith_notified _
    · rfl
  | endLine =>
    cases h
    split_ifs
    · exact (State.writeIe_view notify_ignores _ _).trans
        ((State.disarm_notified _).trans (s.writeIe_view notify_ignores false))
    · rfl
  | setTxen v p =>
    cases h
    split_ifs
    · exact (State.pinWrite_notified _ _ _).trans (State.pinMode_view notify_ignores _ _ _)
    · rfl
  | enableTx e =>
    cases h
    split_ifs
    · exact s.turnToTransmit_notified
    · exact s.turnToReceive_notified
    · rfl
    · rfl
  | enableIntTx e | setNotify e | overflow => cases h; rfl
  | read => cases h; exact (congrArg (List.filterMap _) (Line.bDrop_trace _)).trans hpass
  | peek | decodePass => cases h; exact hpass
  | available => cases h; exact (State.retryPass_notified _).trans hpass
  | write payload =>
    simp only [exec, execWrite] at h
    split_ifs at h <;> cases h
    · exact hpass
    · exact (State.transmit_notified payload s.decodePass).trans hpass
  | flush => cases h; exact s.flush_notified
  | edgeCapture => cases h; exact Line.capture_notified _ _ _
  | processEdge w => cases h; exact Line.processEdge_view notify_ignores w s.line
  | txSegment v dur => cases h; exact s.txSegment_notified v dur
  | delayUntil d => cases h; exact s.delayUntil_notified d

/-- Settles O60: POLL by `State.notifyHost_eq`, any other instruction by `exec_notified_of_not_poll`. -/
theorem onlyPollNotifies : Obligations.OnlyPollNotifies := by
  refine ⟨fun s => ⟨s.decodePass, exec_decodePass s, ?_⟩, fun i s t => exec_notified_of_not_poll⟩
  rw [exec_poll, State.notifyHost_eq, ← s.decodePass_line_resp, ← s.decodePass_line_ctrl, Line.heldBytes_length]
  rfl

end Sys2Proof.Machine

/-! Proofs of the family 60_exceptions.md: refused constructions, the other lines, masked and pending interrupts, `IE`. -/

namespace Sys2Proof.Machine

/-! ### Refused constructions (R22, R75, R237) -/

/-- R22: the legal ranges, of a construction whose `N_E` may be absent. -/
theorem cfgLegal_cfgOf_iff (a : CfgArgs) : cfgLegal (cfgOf a) = true ↔
    ¬ (a.nb < 2 ∨ 65535 < a.nb ∨ a.ne.getD (10 * a.nb) < 2 ∨ 2 ^ 31 < a.ne.getD (10 * a.nb)) := by
  simp only [cfgLegal_iff, cfgOf, not_or, not_lt]

/-- R75: the pins two configurations share are those both name, and NONE is no pin. -/
theorem cfgShares_iff (c d : Cfg) : cfgShares c d = true ↔
    ∃ p : Pin, p ≠ 0xFF ∧ (p = c.rxPin ∨ p = c.txPin) ∧ (p = d.rxPin ∨ p = d.txPin) := by
  simp only [cfgShares, Bool.or_eq_true, Bool.and_eq_true, bne_iff_ne, beq_iff_eq]
  constructor
  · rintro (⟨hp, hd⟩ | ⟨hp, hd⟩)
    · exact ⟨c.rxPin, hp, .inl rfl, hd⟩
    · exact ⟨c.txPin, hp, .inr rfl, hd⟩
  · rintro ⟨p, hp, rfl | rfl, hd⟩
    · exact .inl ⟨hp, hd⟩
    · exact .inr ⟨hp, hd⟩

/-- Settles O15: a construction's test is that it is in the legal ranges and shares no pin. -/
theorem illegalConstructionIsRefused : Obligations.IllegalConstructionIsRefused := by
  intro s a ne illegal shared
  have htest : (cfgLegal (cfgOf a) && !(s.lines.any fun l => cfgShares (cfgOf a) l.cfg)) = true ↔
      ¬ (illegal ∨ shared) := by
    simp only [Bool.and_eq_true, Bool.not_eq_true', ← Bool.not_eq_true, List.any_eq_true, cfgShares_iff,
      cfgLegal_cfgOf_iff, not_or (p := illegal)]
    rfl
  exact ⟨fun h => if_neg fun hok => htest.mp hok h, fun h => if_pos (htest.mpr h)⟩

/-! ### The other lines (R227, R233) -/

/-- Settles O19: every instruction that goes on is an operation of the active line, by `exec_op`. -/
theorem otherLinesAreLeftAlone : Obligations.OtherLinesAreLeftAlone := fun i s t h => (exec_op i s t h).same

/-! ### Masked interrupts (R223) -/

/-- Settles O24: a masked turn delivers nothing, and its pin changes only set `PEND_RX`, by `State.tick_masked`. -/
theorem maskedInterruptsStayPending : Obligations.MaskedInterruptsStayPending := by
  intro s hie
  have hturn := State.tick_masked hie
  have hlines : List.Forall₂ LineMasked s.lines s.tick.lines := .cons hturn.line hturn.others
  exact ⟨forall₂_isrOwned hlines, hlines.imp fun _ _ h => h.pend⟩

/-! ### `IE` across an instruction (R158, R223, R228) -/

@[simp] theorem State.beginWith_ie (bn : Nat) (s : State) : (s.beginWith bn).ie = s.ie := by
  by_cases hlife : s.line.ctrl.life = .started
  · rw [State.beginWith_of_started bn hlife]
    rfl
  · cases hfree : s.freeSlot with
    | none => simp [State.beginWith_of_full bn hlife hfree]
    | some k => simp [State.beginWith_of_free bn hlife hfree]

@[simp] theorem State.turnToTransmit_ie (s : State) : s.turnToTransmit.ie = s.ie := by simp [State.turnToTransmit]

@[simp] theorem State.turnToReceive_ie (s : State) : s.turnToReceive.ie = s.ie := by simp [State.turnToReceive]

@[simp] theorem State.retryPass_ie (s : State) : s.retryPass.ie = s.ie := by
  unfold State.retryPass; split <;> simp

@[simp] theorem State.notifyHost_ie (s : State) : s.notifyHost.ie = s.ie := by
  unfold State.notifyHost; split <;> simp

/-- Settles O27: only a wait can leave `IE` cleared, by `State.delayUntil_ie`; any other write of it is
undone by a restore behind it. -/
theorem interruptEnableIsRestored : Obligations.InterruptEnableIsRestored := by
  intro i s t h
  have hwait (hie : t.ie = s.ie ∨ s.line.ctrl.intTx = false ∧ t.ie = false) :
      (s.line.ctrl.intTx = true → t.ie = s.ie) ∧ (t.ie = s.ie ∨ t.ie = false) :=
    ⟨fun hon => hie.resolve_right (by simp [hon]), hie.imp_right And.right⟩
  cases i with
  | txSegment v dur => cases h; exact hwait (Sending.txSegment v dur s).ie
  | delayUntil d => cases h; exact hwait (s.delayUntil_ie d)
  | beginLine | endLine | setTxen | enableTx => cases h; split_ifs <;> simp
  | write payload =>
    simp only [exec, execWrite] at h
    split_ifs at h <;> cases h <;> simp [State.transmit_ie]
  | enableIntTx | setNotify | overflow | edgeCapture | processEdge => cases h; rfl
  | read | peek | available | flush | poll | decodePass => cases h; simp

/-! ### Transitions of a pin (R224, R234) -/

/-- R224: a line notes a transition when it is attached to the pin and the level it reads there changes. -/
theorem Line.notePinEdge_eq (p : Pin) (old new : PinState) (l : Line) : l.notePinEdge p old new =
    if l.ctrl.rxArmed = true ∧ l.cfg.rxPin = p ∧ new.level l.id ≠ old.level l.id then { l with pendRx := true }
    else l := by
  simp only [Line.notePinEdge, Bool.and_eq_true, beq_iff_eq, bne_iff_ne, and_assoc]

theorem State.setPin_lines (s : State) (p : Pin) (ps : PinState) : (s.setPin p ps).lines = s.lines.map fun l =>
    if l.ctrl.rxArmed = true ∧ l.cfg.rxPin = p ∧ ps.level l.id ≠ s.pinLevel l.id p then { l with pendRx := true }
    else l := by
  rw [State.setPin, State.mapLines_lines]
  exact List.map_congr_left fun l _ => l.notePinEdge_eq p (s.pin p) ps

/-- Settles O26: the level is R234's by definition, and `State.setPin_lines` says what a transition does. -/
theorem transitionsSetPending : Obligations.TransitionsSetPending :=
  ⟨fun _ _ _ => rfl, State.setPin_lines, fun _ => ⟨rfl, rfl, rfl, rfl⟩⟩

end Sys2Proof.Machine

/-! Proofs of the family 70_reset_and_hazards.md: what a construction gives. -/

namespace Sys2Proof.Machine

/-! ### The flags derived at construction (R23) -/

theorem Line.reset_rxValid_iff (par : Params) (n : Nat) (cfg : Cfg) :
    (Line.reset par n cfg).rxValid = true ↔ cfg.rxPin ≠ noPin ∧ cfg.rxPin ∈ par.validRx := by
  simp [Line.reset]

theorem Line.reset_txValid_iff (par : Params) (n : Nat) (cfg : Cfg) :
    (Line.reset par n cfg).txValid = true ↔ cfg.txPin ≠ noPin ∧ cfg.txPin ∈ par.validTx := by
  simp [Line.reset]

/-- A new line is half-duplex when both of its directions are valid and name one pin. -/
theorem Line.reset_halfDup_iff (par : Params) (n : Nat) (cfg : Cfg) :
    (Line.reset par n cfg).halfDup = true ↔
      (Line.reset par n cfg).rxValid = true ∧ (Line.reset par n cfg).txValid = true ∧ cfg.rxPin = cfg.txPin := by
  have hdef : (Line.reset par n cfg).halfDup = ((Line.reset par n cfg).rxValid &&
      (Line.reset par n cfg).txValid && cfg.rxPin == cfg.txPin) := rfl
  rw [hdef, Bool.and_eq_true, Bool.and_eq_true, beq_iff_eq, and_assoc]

/-! ### `CTRL` after construction (R250, R24) -/

/-- Of the fields of `CTRL`, only `INTTX` is set on a new line. -/
theorem Line.reset_ctrl_word (par : Params) (n : Nat) (cfg : Cfg) : (Line.reset par n cfg).ctrl.word = 0x00000004 := by
  simp only [Line.reset]
  decide

/-! ### The registry after construction (R250, R231) -/

theorem State.boot_reg_length (par : Params) (slots : Nat) (cfg : Cfg) : (State.boot par slots cfg).reg.length = slots :=
  List.length_replicate

/-- Every slot of a new registry is FREE. -/
theorem State.boot_reg_free (par : Params) (cfg : Cfg) {slots k : Nat} (hk : k < slots) :
    (State.boot par slots cfg).reg[k]? = some none :=
  List.getElem?_replicate_of_lt hk

/-- Settles O14: a stated reset value is the field `Line.reset` or `State.boot` writes; the word of
`CTRL`, the flags and the registry are the lemmas above. -/
theorem constructionGivesResetValues : Obligations.ConstructionGivesResetValues := by
  refine ⟨fun par n cfg => ?_, fun par slots cfg => ?_⟩
  · exact ⟨rfl, rfl, Line.reset_ctrl_word par n cfg, rfl, rfl, rfl, rfl, rfl, rfl, rfl, rfl, rfl, rfl, rfl, rfl, rfl,
      Line.reset_rxValid_iff par n cfg, Line.reset_txValid_iff par n cfg, Line.reset_halfDup_iff par n cfg⟩
  · exact ⟨rfl, rfl, State.boot_reg_length par slots cfg, fun _ => State.boot_reg_free par cfg⟩

end Sys2Proof.Machine
